-- ==== Sys2Proof/Word.lean ====
section
/-!
DEFINITION. Word types of the Pletre SL6 (R10, R19): the sizes a program can see as bits.
-/
namespace Sys2Proof

/-- A scalar register, a system register or a virtual address (R19). -/
abbrev Word := BitVec 64

/-- One byte, the smallest addressable unit (R4, R308). -/
abbrev Byte := BitVec 8

/-- A vector register (R19), a beat's payload (R218) or a 64-byte line (R299). -/
abbrev Line := BitVec 512

end Sys2Proof
end

