-- ==== Sys2Proof/Syntax.lean ====
section
/-!
DEFINITION. The syntax: one constructor of `Instr` for each row of the spec's table of operations and events.
Control instructions (R16 to R18), element operation words (R22), and the device's own steps (events).
-/
namespace Sys2Proof

/-- A scalar register s0 to s63 (R19). -/
abbrev SReg := Fin 64
/-- A mask register m0 to m7 (R19). -/
abbrev MReg := Fin 8
/-- A stream handle q0 to q15 (R19). -/
abbrev QReg := Fin 16

/-- The second source of format V (R11): a vector register when S = 0, a scalar s0 to s31 when S = 1. -/
inductive VSrc where
  | v (r : Fin 32)
  | s (r : Fin 32)
  deriving DecidableEq, Repr

/-- The load size codes 0 to 6 of R16. -/
inductive LdSize where
  | s8 | z8 | s16 | z16 | s32 | z32 | d64
  deriving DecidableEq, Repr

/-- The store size codes 0 to 3 of R16. -/
inductive StSize where
  | b1 | b2 | b4 | b8
  deriving DecidableEq, Repr

/-- The tests of BR (R13). -/
inductive Cond where
  | eqz | nez | ltz | gez | gtz | lez | bit0
  deriving DecidableEq, Repr

/-- The system registers by name (R129). -/
inductive SysReg where
  | status
  | trapcause
  | trappc
  | trapframe
  | trapvec
  | machvec
  | repidx
  | lc0
  | lc1
  | fpstat
  | round
  | stochseed
  | pivtau
  | pivstat
  | asid
  | agentid
  | pdrain
  | hashch0
  | hashch1
  | hashch2
  | hashch3
  | hashch4
  | hashpc
  | wextbase
  | wextsize
  | ubinthresh
  deriving DecidableEq, Repr

/-- The trap causes (R398). -/
inductive Cause where
  | illegal
  | priv
  | misalign
  | pagefault
  | access
  | uregion
  | fpx
  | deadlock
  | orphan
  | waitfull
  | framebad
  | watch
  | bkpt
  | trapi
  | preempt
  | ecc
  | link
  | coll
  | cfgrefuse
  | streamproto
  deriving DecidableEq, Repr

/-- A hart of the package: die × 128 + core × 4 + hart (R2, R101). -/
abbrev HartId := Fin 768
/-- A region task: die × 2048 + x0 + 24 × y0 + 480 × context (the die and the index of R101). -/
abbrev TaskId := Nat
/-- A copy id: [40:38] die, [37:32] channel, [31:0] ticket (R87). -/
abbrev CopyId := Nat

/-- A tile of the package (R3). -/
structure TileRef where
  die : Fin 6
  x : Fin 24
  y : Fin 20
  deriving DecidableEq, Repr

/-- A slot of a tile in one context; slot codes of R214. -/
structure UnitRef where
  tile : TileRef
  ctx : Fin 4
  slot : Fin 16
  deriving DecidableEq, Repr

/-- An origin of a tile's router in one context: a plane (0 data, 1 scalar, 2 condition) and a port code (R168). -/
structure OriginRef where
  tile : TileRef
  ctx : Fin 4
  plane : Fin 3
  code : Fin 16
  deriving DecidableEq, Repr

/-- What a pre-emption is evaluated for (R385): a ready record of a die's pool, by position, or an armed task. -/
inductive Newcomer where
  | record (die : Fin 6) (idx : Nat)
  | task (t : TaskId)
  deriving DecidableEq, Repr

/-- A message of the collective engines (R390 to R394), as it arrives from another package. -/
structure CollMsg where
  src : Nat
  epoch : Nat
  round : Nat
  why : Nat
  pkg : Nat
  level : Nat
  data : List (BitVec 32)
  members : List Nat
  deriving DecidableEq, Repr

/-- The 256 bytes of a flit as they arrive (R424), byte 0 in the lowest bits. -/
abbrev FlitBits := BitVec 2048

/-- A firmware image that a boot stage checks (R431, R432): the vendor key it names, its security version, its body, its signature. -/
structure BootImage where
  key : List Byte
  version : BitVec 16
  body : List Byte
  signature : List Byte
  deriving DecidableEq, Repr

/-- How a boot stage ends (R432): having checked the images it loads, none in most stages, or with another failure's code. -/
inductive StageEnd where
  | checked (images : List BootImage)
  | failed (code : Nat)
  deriving DecidableEq, Repr

/-- A row of a copy that a receiving package does not write (R429): as the sending channel is told of it, `denied` for a permission or a hole; or
as this package, the receiver, finds it. -/
inductive RowFault where
  | sent (c : CopyId) (denied : Bool)
  | received (asid : BitVec 10) (va : Word)
  deriving DecidableEq, Repr

/-- One constructor for each row of the table of operations and events. -/
inductive Instr where
  /-- ADD (R36). -/
  | add (d : SReg) (a : SReg) (b : SReg)
  /-- SUB (R36). -/
  | sub (d : SReg) (a : SReg) (b : SReg)
  /-- AND (R36). -/
  | and (d : SReg) (a : SReg) (b : SReg)
  /-- OR (R36). -/
  | or (d : SReg) (a : SReg) (b : SReg)
  /-- XOR (R36). -/
  | xor (d : SReg) (a : SReg) (b : SReg)
  /-- ANDN (R36). -/
  | andn (d : SReg) (a : SReg) (b : SReg)
  /-- SHL (R36). -/
  | shl (d : SReg) (a : SReg) (b : SReg)
  /-- SHR (R36). -/
  | shr (d : SReg) (a : SReg) (b : SReg)
  /-- SRA (R36). -/
  | sra (d : SReg) (a : SReg) (b : SReg)
  /-- ROR (R36). -/
  | ror (d : SReg) (a : SReg) (b : SReg)
  /-- MUL (R36). -/
  | mul (d : SReg) (a : SReg) (b : SReg)
  /-- MULH (R36). -/
  | mulh (d : SReg) (a : SReg) (b : SReg)
  /-- MULHZ (R36). -/
  | mulhz (d : SReg) (a : SReg) (b : SReg)
  /-- DIV (R37). -/
  | div (d : SReg) (a : SReg) (b : SReg)
  /-- DIVZ (R37). -/
  | divz (d : SReg) (a : SReg) (b : SReg)
  /-- REM (R37). -/
  | rem (d : SReg) (a : SReg) (b : SReg)
  /-- REMZ (R37). -/
  | remz (d : SReg) (a : SReg) (b : SReg)
  /-- MIN (R36). -/
  | min (d : SReg) (a : SReg) (b : SReg)
  /-- MAX (R36). -/
  | max (d : SReg) (a : SReg) (b : SReg)
  /-- MINZ (R36). -/
  | minz (d : SReg) (a : SReg) (b : SReg)
  /-- MAXZ (R36). -/
  | maxz (d : SReg) (a : SReg) (b : SReg)
  /-- SLT (R36). -/
  | slt (d : SReg) (a : SReg) (b : SReg)
  /-- SLTZ (R36). -/
  | sltz (d : SReg) (a : SReg) (b : SReg)
  /-- SEQ (R36). -/
  | seq (d : SReg) (a : SReg) (b : SReg)
  /-- CLZ (R36). -/
  | clz (d : SReg) (a : SReg)
  /-- CTZ (R36). -/
  | ctz (d : SReg) (a : SReg)
  /-- POPC (R36). -/
  | popc (d : SReg) (a : SReg)
  /-- BEXT (R38). -/
  | bext (d : SReg) (a : SReg) (b : SReg)
  /-- BINS (R38). -/
  | bins (d : SReg) (a : SReg) (b : SReg)
  /-- SELNZ (R38). -/
  | selnz (d : SReg) (a : SReg) (b : SReg)
  /-- ADDI (R39). -/
  | addi (d : SReg) (a : SReg) (i : BitVec 14)
  /-- ANDI (R39). -/
  | andi (d : SReg) (a : SReg) (i : BitVec 14)
  /-- ORI (R39). -/
  | ori (d : SReg) (a : SReg) (i : BitVec 14)
  /-- XORI (R39). -/
  | xori (d : SReg) (a : SReg) (i : BitVec 14)
  /-- SHLI (R39). -/
  | shli (d : SReg) (a : SReg) (n : BitVec 6)
  /-- SHRI (R39). -/
  | shri (d : SReg) (a : SReg) (n : BitVec 6)
  /-- SRAI (R39). -/
  | srai (d : SReg) (a : SReg) (n : BitVec 6)
  /-- RORI (R39). -/
  | rori (d : SReg) (a : SReg) (n : BitVec 6)
  /-- SLTI (R39). -/
  | slti (d : SReg) (a : SReg) (i : BitVec 14)
  /-- SLTZI (R39). -/
  | sltzi (d : SReg) (a : SReg) (i : BitVec 14)
  /-- LUI (R39). -/
  | lui (d : SReg) (i : BitVec 20)
  /-- AUIPC (R39). -/
  | auipc (d : SReg) (i : BitVec 20)
  /-- LD (R41). -/
  | ld (d : SReg) (a : SReg) (s : LdSize) (o : BitVec 11)
  /-- ST (R41). -/
  | st (d : SReg) (a : SReg) (s : StSize) (o : BitVec 11)
  /-- LDX (R40). -/
  | ldx (d : SReg) (a : SReg) (b : SReg) (s : LdSize)
  /-- STX (R40). -/
  | stx (d : SReg) (a : SReg) (b : SReg) (s : StSize)
  /-- LEA (R44). -/
  | lea (d : SReg) (a : SReg) (i : BitVec 14)
  /-- PFCH (R45). -/
  | pfch (a : SReg) (i : BitVec 14)
  /-- BR (R46). -/
  | br (a : SReg) (c : Cond) (o : BitVec 17)
  /-- JMP (R46). -/
  | jmp (o : BitVec 26)
  /-- CALL (R46). -/
  | call (o : BitVec 26)
  /-- JR (R47). -/
  | jr (a : SReg)
  /-- CALLR (R47). -/
  | callr (a : SReg)
  /-- LOOP (R48). -/
  | loop (c : Fin 2) (a : SReg) (l : BitVec 9)
  /-- LOOPI (R48). -/
  | loopi (c : Fin 2) (n : BitVec 15) (l : BitVec 9)
  /-- REP (R52). -/
  | rep (d : SReg) (a : SReg)
  /-- REPI (R52). -/
  | repi (d : SReg) (n : BitVec 12)
  /-- JTAB (R56). -/
  | jtab (d : SReg) (a : SReg) (i : BitVec 14)
  /-- VADD (R66). -/
  | vadd (d : Fin 32) (a : Fin 32) (b : VSrc) (m : MReg) (e : Fin 4)
  /-- VSUB (R66). -/
  | vsub (d : Fin 32) (a : Fin 32) (b : VSrc) (m : MReg) (e : Fin 4)
  /-- VMUL (R66). -/
  | vmul (d : Fin 32) (a : Fin 32) (b : VSrc) (m : MReg) (e : Fin 4)
  /-- VMULH (R66). -/
  | vmulh (d : Fin 32) (a : Fin 32) (b : VSrc) (m : MReg) (e : Fin 4)
  /-- VMIN (R66). -/
  | vmin (d : Fin 32) (a : Fin 32) (b : VSrc) (m : MReg) (e : Fin 4)
  /-- VMAX (R66). -/
  | vmax (d : Fin 32) (a : Fin 32) (b : VSrc) (m : MReg) (e : Fin 4)
  /-- VMINZ (R66). -/
  | vminz (d : Fin 32) (a : Fin 32) (b : VSrc) (m : MReg) (e : Fin 4)
  /-- VMAXZ (R66). -/
  | vmaxz (d : Fin 32) (a : Fin 32) (b : VSrc) (m : MReg) (e : Fin 4)
  /-- VAND (R66). -/
  | vand (d : Fin 32) (a : Fin 32) (b : VSrc) (m : MReg) (e : Fin 4)
  /-- VOR (R66). -/
  | vor (d : Fin 32) (a : Fin 32) (b : VSrc) (m : MReg) (e : Fin 4)
  /-- VXOR (R66). -/
  | vxor (d : Fin 32) (a : Fin 32) (b : VSrc) (m : MReg) (e : Fin 4)
  /-- VSHL (R66). -/
  | vshl (d : Fin 32) (a : Fin 32) (b : VSrc) (m : MReg) (e : Fin 4)
  /-- VSHR (R66). -/
  | vshr (d : Fin 32) (a : Fin 32) (b : VSrc) (m : MReg) (e : Fin 4)
  /-- VSRA (R66). -/
  | vsra (d : Fin 32) (a : Fin 32) (b : VSrc) (m : MReg) (e : Fin 4)
  /-- VADDS (R66). -/
  | vadds (d : Fin 32) (a : Fin 32) (b : VSrc) (m : MReg) (e : Fin 4)
  /-- VSUBS (R66). -/
  | vsubs (d : Fin 32) (a : Fin 32) (b : VSrc) (m : MReg) (e : Fin 4)
  /-- VFADD (R67). -/
  | vfadd (d : Fin 32) (a : Fin 32) (b : VSrc) (m : MReg) (e : Fin 4)
  /-- VFSUB (R67). -/
  | vfsub (d : Fin 32) (a : Fin 32) (b : VSrc) (m : MReg) (e : Fin 4)
  /-- VFMUL (R67). -/
  | vfmul (d : Fin 32) (a : Fin 32) (b : VSrc) (m : MReg) (e : Fin 4)
  /-- VFMA (R67). -/
  | vfma (d : Fin 32) (a : Fin 32) (b : VSrc) (m : MReg) (e : Fin 4)
  /-- VFNMA (R67). -/
  | vfnma (d : Fin 32) (a : Fin 32) (b : VSrc) (m : MReg) (e : Fin 4)
  /-- VFMIN (R67). -/
  | vfmin (d : Fin 32) (a : Fin 32) (b : VSrc) (m : MReg) (e : Fin 4)
  /-- VFMAX (R67). -/
  | vfmax (d : Fin 32) (a : Fin 32) (b : VSrc) (m : MReg) (e : Fin 4)
  /-- VFABS (R67). -/
  | vfabs (d : Fin 32) (a : Fin 32) (m : MReg) (e : Fin 4)
  /-- VFNEG (R67). -/
  | vfneg (d : Fin 32) (a : Fin 32) (m : MReg) (e : Fin 4)
  /-- VFDIV (R67). -/
  | vfdiv (d : Fin 32) (a : Fin 32) (b : VSrc) (m : MReg) (e : Fin 4)
  /-- VFSQRT (R67). -/
  | vfsqrt (d : Fin 32) (a : Fin 32) (m : MReg) (e : Fin 4)
  /-- VFRSQ (R67). -/
  | vfrsq (d : Fin 32) (a : Fin 32) (m : MReg) (e : Fin 4)
  /-- VFEXP2 (R67). -/
  | vfexp2 (d : Fin 32) (a : Fin 32) (m : MReg) (e : Fin 4)
  /-- VFLOG2 (R67). -/
  | vflog2 (d : Fin 32) (a : Fin 32) (m : MReg) (e : Fin 4)
  /-- VCEQ (R68). -/
  | vceq (d : MReg) (a : Fin 32) (b : VSrc) (m : MReg) (e : Fin 4)
  /-- VCLT (R68). -/
  | vclt (d : MReg) (a : Fin 32) (b : VSrc) (m : MReg) (e : Fin 4)
  /-- VCLTZ (R68). -/
  | vcltz (d : MReg) (a : Fin 32) (b : VSrc) (m : MReg) (e : Fin 4)
  /-- VCLE (R68). -/
  | vcle (d : MReg) (a : Fin 32) (b : VSrc) (m : MReg) (e : Fin 4)
  /-- VFCEQ (R68). -/
  | vfceq (d : MReg) (a : Fin 32) (b : VSrc) (m : MReg) (e : Fin 4)
  /-- VFCLT (R68). -/
  | vfclt (d : MReg) (a : Fin 32) (b : VSrc) (m : MReg) (e : Fin 4)
  /-- VFCLE (R68). -/
  | vfcle (d : MReg) (a : Fin 32) (b : VSrc) (m : MReg) (e : Fin 4)
  /-- VFCUN (R68). -/
  | vfcun (d : MReg) (a : Fin 32) (b : VSrc) (m : MReg) (e : Fin 4)
  /-- VCVT (R69). -/
  | vcvt (d : Fin 32) (a : Fin 32) (c : Fin 32) (m : MReg)
  /-- VLD (R72). -/
  | vld (d : Fin 32) (a : Fin 32) (m : MReg) (e : Fin 4)
  /-- VST (R72). -/
  | vst (d : Fin 32) (a : Fin 32) (m : MReg) (e : Fin 4)
  /-- VLDS (R72). -/
  | vlds (d : Fin 32) (a : Fin 32) (b : Fin 32) (m : MReg) (e : Fin 4)
  /-- VSTS (R72). -/
  | vsts (d : Fin 32) (a : Fin 32) (b : Fin 32) (m : MReg) (e : Fin 4)
  /-- VGTH (R72). -/
  | vgth (d : Fin 32) (a : Fin 32) (b : Fin 32) (m : MReg) (e : Fin 4)
  /-- VSCT (R72). -/
  | vsct (d : Fin 32) (a : Fin 32) (b : Fin 32) (m : MReg) (e : Fin 4)
  /-- VLDB (R72). -/
  | vldb (d : Fin 32) (a : Fin 32) (m : MReg) (e : Fin 4)
  /-- VLDQ (R75). -/
  | vldq (d : Fin 32) (a : QReg) (b : Fin 32)
  /-- VSTQ (R75). -/
  | vstq (d : Fin 32) (a : QReg) (b : Fin 32)
  /-- UPDV (R76). -/
  | updv (d : Fin 32) (a : Fin 32) (b : Fin 32) (m : MReg) (e : Fin 4)
  /-- VPERM (R78). -/
  | vperm (d : Fin 32) (a : Fin 32) (b : Fin 32) (m : MReg) (e : Fin 4)
  /-- VSLUP (R78). -/
  | vslup (d : Fin 32) (a : Fin 32) (b : Fin 32) (m : MReg) (e : Fin 4)
  /-- VSLDN (R78). -/
  | vsldn (d : Fin 32) (a : Fin 32) (b : Fin 32) (m : MReg) (e : Fin 4)
  /-- VREDA (R78). -/
  | vreda (d : Fin 32) (a : Fin 32) (m : MReg) (e : Fin 4)
  /-- VREDX (R78). -/
  | vredx (d : Fin 32) (a : Fin 32) (m : MReg) (e : Fin 4)
  /-- VREDN (R78). -/
  | vredn (d : Fin 32) (a : Fin 32) (m : MReg) (e : Fin 4)
  /-- VFREDA (R79). -/
  | vfreda (d : Fin 32) (a : Fin 32) (m : MReg) (e : Fin 4)
  /-- VCMPR (R78). -/
  | vcmpr (d : Fin 32) (a : Fin 32) (m : MReg) (e : Fin 4)
  /-- VEXPD (R78). -/
  | vexpd (d : Fin 32) (a : Fin 32) (m : MReg) (e : Fin 4)
  /-- VMRG (R78). -/
  | vmrg (d : Fin 32) (a : Fin 32) (b : VSrc) (m : MReg) (e : Fin 4)
  /-- VSPLAT (R80). -/
  | vsplat (d : Fin 32) (b : Fin 32) (m : MReg) (e : Fin 4)
  /-- VINS (R80). -/
  | vins (d : Fin 32) (a : Fin 32) (b : Fin 32) (e : Fin 4)
  /-- VEXT (R80). -/
  | vext (d : Fin 32) (a : Fin 32) (b : Fin 32) (e : Fin 4)
  /-- VIOTA (R80). -/
  | viota (d : Fin 32) (m : MReg) (e : Fin 4)
  /-- MAND (R81). -/
  | mand (d : MReg) (a : MReg) (b : MReg)
  /-- MOR (R81). -/
  | mor (d : MReg) (a : MReg) (b : MReg)
  /-- MXOR (R81). -/
  | mxor (d : MReg) (a : MReg) (b : MReg)
  /-- MNOT (R81). -/
  | mnot (d : MReg) (a : MReg)
  /-- MPOPC (R81). -/
  | mpopc (d : Fin 32) (a : MReg)
  /-- MMOV (R81). -/
  | mmov (d : MReg) (a : MReg)
  /-- MMOV_SCALAR (R81). -/
  | mmovScalar (d : MReg) (b : Fin 32)
  /-- VPIV (R83). -/
  | vpiv (d : Fin 32) (a : Fin 32) (b : MReg) (m : MReg)
  /-- VPRCP (R83). -/
  | vprcp (d : Fin 32) (a : Fin 32) (b : MReg) (m : MReg)
  /-- VFMAN (R84). -/
  | vfman (d : Fin 32) (a : Fin 32) (b : VSrc) (m : MReg) (e : Fin 4)
  /-- VPSTAT (R84). -/
  | vpstat (d : Fin 32)
  /-- VBDOT (R85). -/
  | vbdot (d : Fin 32) (a : Fin 32) (b : VSrc) (m : MReg) (e : Fin 2)
  /-- FLOAD (R104). -/
  | fload (d : SReg) (a : SReg) (b : SReg)
  /-- FARM (R227). -/
  | farm (a : SReg) (b : SReg)
  /-- FSEL (R103). -/
  | fsel (a : SReg) (b : SReg)
  /-- FSTAT (R105). -/
  | fstat (d : SReg) (a : SReg)
  /-- FKILL (R232). -/
  | fkill (a : SReg)
  /-- FCKPT (R233). -/
  | fckpt (a : SReg) (b : SReg)
  /-- FDRAIN (R230). -/
  | fdrain (a : SReg)
  /-- FBIND (R106). -/
  | fbind (d : QReg) (a : SReg) (b : SReg)
  /-- QPUSH (R107). -/
  | qpush (d : QReg) (a : SReg) (b : SReg)
  /-- QPOP (R107). -/
  | qpop (d : SReg) (a : QReg) (b : SReg)
  /-- QSTOP (R107). -/
  | qstop (d : QReg) (a : SReg)
  /-- QDONE (R107). -/
  | qdone (d : QReg)
  /-- CPY (R87). -/
  | cpy (d : SReg) (a : SReg)
  /-- CPWP (R93). -/
  | cpwp (d : SReg) (a : SReg)
  /-- CPWAIT (R93). -/
  | cpwait (d : SReg) (a : SReg) (b : SReg)
  /-- CPCAN (R94). -/
  | cpcan (a : SReg)
  /-- GATH (R306). -/
  | gath (d : SReg) (a : SReg)
  /-- CPCODE (R295). -/
  | cpcode (a : SReg) (b : SReg)
  /-- UPD (R110). -/
  | upd (a : SReg) (b : SReg)
  /-- UFENCE (R111). -/
  | ufence (a : SReg)
  /-- UAPPLY (R112). -/
  | uapply (a : SReg) (b : SReg)
  /-- UREGION (R109). -/
  | uregion (d : SReg) (a : SReg)
  /-- UFREE (R112). -/
  | ufree (a : SReg)
  /-- USTAT (R112). -/
  | ustat (d : SReg) (a : SReg)
  /-- CAS (R113). -/
  | cas (d : SReg) (a : SReg) (b : SReg)
  /-- DCAS (R113). -/
  | dcas (d : SReg) (a : SReg) (b : SReg)
  /-- AMOVE (R113). -/
  | amove (d : SReg) (a : SReg) (b : SReg)
  /-- SWAP (R113). -/
  | swap (d : SReg) (a : SReg) (b : SReg)
  /-- LDAQ (R114). -/
  | ldaq (d : SReg) (a : SReg)
  /-- STRL (R114). -/
  | strl (a : SReg) (b : SReg)
  /-- BINIT (R117). -/
  | binit (d : SReg) (a : SReg) (b : SReg)
  /-- BARR (R117). -/
  | barr (d : SReg) (a : SReg)
  /-- BWAIT (R117). -/
  | bwait (d : SReg) (a : SReg) (b : SReg)
  /-- BARW (R117). -/
  | barw (d : SReg) (a : SReg)
  /-- BADJ (R117). -/
  | badj (d : SReg) (a : SReg) (b : SReg)
  /-- BABORT (R117). -/
  | babort (a : SReg)
  /-- LKACQ (R118). -/
  | lkacq (d : SReg) (a : SReg)
  /-- LKTRY (R118). -/
  | lktry (d : SReg) (a : SReg)
  /-- LKREL (R118). -/
  | lkrel (a : SReg)
  /-- WOBJ (R119). -/
  | wobj (a : SReg) (b : SReg)
  /-- WHOLD (R119). -/
  | whold (a : SReg)
  /-- WDROP (R119). -/
  | wdrop (a : SReg)
  /-- WWAIT (R119). -/
  | wwait (d : SReg) (a : SReg) (b : SReg)
  /-- WQUERY (R119). -/
  | wquery (d : SReg) (a : SReg)
  /-- WCYCLE (R119). -/
  | wcycle (d : SReg) (a : SReg)
  /-- SPAWN (R120). -/
  | spawn (d : SReg) (a : SReg) (b : SReg)
  /-- JOIN (R120). -/
  | join (d : SReg) (a : SReg)
  /-- LAUNCH (R120). -/
  | launch (d : SReg) (a : SReg) (b : SReg)
  /-- PRIO (R120). -/
  | prio (d : SReg) (a : SReg)
  /-- ESTIM (R120). -/
  | estim (a : SReg) (b : SReg)
  /-- SELF (R120). -/
  | self (d : SReg)
  /-- FENCE (R122). -/
  | fence (s : Fin 16) (k : Fin 4)
  /-- SBAR (R123). -/
  | sbar (u : Bool) (g : Bool) (c : Bool) (t : Bool)
  /-- DRAINW (R124). -/
  | drainw (d : SReg) (a : SReg)
  /-- COLLS (R126). -/
  | colls (d : SReg) (a : SReg)
  /-- COLLW (R126). -/
  | collw (d : SReg) (a : SReg)
  /-- COLLST (R126). -/
  | collst (d : SReg) (a : SReg)
  /-- COLLABT (R126). -/
  | collabt (a : SReg)
  /-- MEMB (R394). -/
  | memb (d : SReg) (a : SReg) (b : SReg)
  /-- SYSR (R128). -/
  | sysr (d : SReg) (n : SysReg)
  /-- SYSW (R128). -/
  | sysw (d : SReg) (n : SysReg)
  /-- SYSSET (R128). -/
  | sysset (d : SReg) (n : SysReg)
  /-- SYSCLR (R128). -/
  | sysclr (d : SReg) (n : SysReg)
  /-- XLINV (R131). -/
  | xlinv (a : SReg) (b : SReg)
  /-- TRAP (R132). -/
  | trap (n : BitVec 12)
  /-- TRCMARK (R134). -/
  | trcmark (d : SReg) (n : BitVec 12)
  /-- WPSET (R135). -/
  | wpset (d : SReg) (a : SReg) (b : SReg)
  /-- WPCLR (R134). -/
  | wpclr (a : SReg)
  /-- ILLEGAL_INSTRUCTION (R15), a step of the device: A fetched word that matches no assigned encoding (reserved major, fn beyond the list, non-zero unused field) takes ILLEGAL with no other effect. -/
  | illegalInstruction (w : BitVec 32)
  /-- INSTRUCTION_FETCH_FAULT (R35), a step of the device: An instruction fetch that fails translation or execute permission takes PAGEFAULT or ACCESS at the address that could not be fetched. -/
  | instructionFetchFault (c : Cause) (va : BitVec 64) (detail : Nat)
  /-- EADD (R145), an element operation word. -/
  | eadd (p : Fin 4) (a : Fin 16) (b : Fin 16) (f : Fin 16) (m : Fin 4)
  /-- ESUB (R145), an element operation word. -/
  | esub (p : Fin 4) (a : Fin 16) (b : Fin 16) (f : Fin 16) (m : Fin 4)
  /-- EMUL (R145), an element operation word. -/
  | emul (p : Fin 4) (a : Fin 16) (b : Fin 16) (f : Fin 16) (m : Fin 4)
  /-- EFMA (R146), an element operation word. -/
  | efma (p : Fin 4) (a : Fin 16) (b : Fin 16) (c : Fin 16) (f : Fin 16) (m : Fin 4) (x : Bool)
  /-- EMIN (R145), an element operation word. -/
  | emin (p : Fin 4) (a : Fin 16) (b : Fin 16) (f : Fin 16) (m : Fin 4)
  /-- EMAX (R145), an element operation word. -/
  | emax (p : Fin 4) (a : Fin 16) (b : Fin 16) (f : Fin 16) (m : Fin 4)
  /-- EABS (R145), an element operation word. -/
  | eabs (a : Fin 16) (f : Fin 16) (m : Fin 4)
  /-- ECMP (R147), an element operation word. -/
  | ecmp (a : Fin 16) (b : Fin 16) (f : Fin 16) (z : Bool) (r : Fin 4) (l : Fin 8)
  /-- ESEL (R148), an element operation word. -/
  | esel (a : Fin 16) (b : Fin 16) (c : Fin 16) (f : Fin 16) (m : Fin 4)
  /-- ECVT (R150), an element operation word. -/
  | ecvt (a : Fin 16) (f : Fin 16) (m : Fin 4) (k : Fin 32)
  /-- ESCALE (R154), an element operation word. -/
  | escale (p : Fin 4) (a : Fin 16) (b : Fin 16) (f : Fin 16) (m : Fin 4) (x : Bool)
  /-- EBDOT (R152), an element operation word. -/
  | ebdot (a : Fin 16) (b : Fin 16) (x : Bool)
  /-- ECSADD (R156), an element operation word. -/
  | ecsadd (a : Fin 16) (b : Fin 16) (k : Fin 16) (x : Bool)
  /-- ENORM (R157), an element operation word. -/
  | enorm (a : Fin 16) (f : Fin 16) (x : Bool)
  /-- ECFWD (R149), an element operation word. -/
  | ecfwd (a : Fin 16) (b : Fin 16) (f : Fin 16) (r : Bool) (x : Bool)
  /-- ECONST (R151), an element operation word. -/
  | econst (p : Fin 4) (a : Fin 16) (b : Fin 16) (f : Fin 16) (m : Fin 256)
  /-- EIDX (R159), an element operation word. -/
  | eidx (p : Fin 4) (a : Fin 16) (b : Fin 16) (f : Fin 16) (k : Bool) (n : Fin 8)
  /-- EPIV (R158), an element operation word. -/
  | epiv (a : Fin 16) (f : Fin 16) (m : Fin 4)
  /-- ERCP (R158), an element operation word. -/
  | ercp (a : Fin 16) (f : Fin 16) (m : Fin 4) (x : Bool)
  /-- EPOP (R160), an element operation word. -/
  | epop (a : Fin 16) (f : Fin 16) (x : Bool)
  /-- EAND (R145), an element operation word. -/
  | eand (p : Fin 4) (a : Fin 16) (b : Fin 16) (f : Fin 16) (m : Fin 4)
  /-- EOR (R145), an element operation word. -/
  | eor (p : Fin 4) (a : Fin 16) (b : Fin 16) (f : Fin 16) (m : Fin 4)
  /-- EXOR (R145), an element operation word. -/
  | exor (p : Fin 4) (a : Fin 16) (b : Fin 16) (f : Fin 16) (m : Fin 4)
  /-- MDENSE (R166), an element operation word. -/
  | mdense (a : Fin 16) (b : Fin 16) (f : Fin 16) (h : Bool) (o : Fin 4)
  /-- MNM2 (R244), an element operation word. -/
  | mnm2 (a : Fin 16) (b : Fin 16) (c : Fin 16) (f : Fin 16) (h : Bool) (o : Fin 4)
  /-- MMATCH (R246), an element operation word. -/
  | mmatch (a : Fin 16) (b : Fin 16) (f : Fin 16) (h : Bool) (o : Fin 4)
  /-- MBXOR (R166), an element operation word. -/
  | mbxor (a : Fin 16) (b : Fin 16) (f : Fin 16) (h : Bool) (o : Fin 4)
  /-- MBAND (R166), an element operation word. -/
  | mband (a : Fin 16) (b : Fin 16) (f : Fin 16) (h : Bool) (o : Fin 4)
  /-- MPP8 (R166), an element operation word. -/
  | mpp8 (a : Fin 16) (b : Fin 16) (f : Fin 16) (h : Bool) (o : Fin 4)
  /-- MEXPERT (R166), an element operation word. -/
  | mexpert (a : Fin 16) (b : Fin 16) (c : Fin 16) (f : Fin 16) (h : Bool) (o : Fin 4)
  /-- MPRED (R247), an element operation word. -/
  | mpred (a : Fin 16) (b : Fin 16) (f : Fin 16) (x : Bool) (h : Bool)
  /-- SCANC (R180), an element operation word. -/
  | scanc (a : Fin 16) (b : Fin 16) (r : Bool) (d : Fin 16)
  /-- SCANB (R180), an element operation word. -/
  | scanb (a : Fin 16) (b : Fin 16) (r : Bool) (d : Fin 16)
  /-- SCAND (R180), an element operation word. -/
  | scand (a : Fin 16) (b : Fin 16) (r : Bool) (d : Fin 16)
  /-- LWC (R189), an element operation word. -/
  | lwc (a : Fin 16) (f : Fin 16) (d : Fin 16)
  /-- LWB (R189), an element operation word. -/
  | lwb (a : Fin 16) (f : Fin 16) (d : Fin 16)
  /-- LWD (R189), an element operation word. -/
  | lwd (a : Fin 16) (f : Fin 16) (z : Bool) (d : Fin 16)
  /-- ISECT (R183), an element operation word. -/
  | isect (a : Fin 16) (b : Fin 16) (y : Bool) (x : Bool)
  /-- UNION (R183), an element operation word. -/
  | union (a : Fin 16) (b : Fin 16)
  /-- REPT (R186), an element operation word. -/
  | rept (a : Fin 16) (b : Fin 16)
  /-- REDC (R187), an element operation word. -/
  | redc (a : Fin 16) (f : Fin 16) (o : Fin 4) (n : Bool)
  /-- ARRD (R188), an element operation word. -/
  | arrd (a : Fin 16) (f : Fin 16) (d : Fin 16)
  /-- UPSINK (R191), an element operation word. -/
  | upsink (a : Fin 16) (b : Fin 16) (f : Fin 16) (w : Fin 4)
  /-- CROP (R184), an element operation word. -/
  | crop (a : Fin 16) (b : Fin 16) (f : Fin 16) (x : Bool)
  /-- CMERGE (R185), an element operation word. -/
  | cmerge (a : Fin 16) (b : Fin 16) (f : Fin 16) (o : Fin 4)
  /-- AGEN (R193), an element operation word. -/
  | agen (a : Fin 16) (d : Fin 16)
  /-- OPST (R194), an element operation word. -/
  | opst (a : Fin 16) (b : Fin 16) (d : Fin 16)
  /-- FIFO (R194), an element operation word. -/
  | fifo (a : Fin 16) (d : Fin 16)
  /-- LBUF (R194), an element operation word. -/
  | lbuf (a : Fin 16) (b : Fin 16) (d : Fin 16)
  /-- MLD (R195), an element operation word. -/
  | mld (a : Fin 16) (d : Fin 16)
  /-- MST (R195), an element operation word. -/
  | mst (a : Fin 16) (b : Fin 16) (d : Fin 16)
  /-- STEER (R198), an element operation word. -/
  | steer (p : Fin 4) (a : Fin 16) (b : Fin 16) (i : Bool)
  /-- MERGE (R198), an element operation word. -/
  | merge (p : Fin 4) (a : Fin 16) (b : Fin 16) (c : Fin 16)
  /-- CARRY (R198), an element operation word. -/
  | carry (a : Fin 16) (b : Fin 16) (c : Fin 16)
  /-- INVAR (R198), an element operation word. -/
  | invar (p : Fin 4) (a : Fin 16) (b : Fin 16)
  /-- CAND (R198), an element operation word. -/
  | cand (a : Fin 16) (b : Fin 16)
  /-- CNOT (R198), an element operation word. -/
  | cnot (a : Fin 16)
  /-- RET (R47). -/
  | ret
  /-- NOP (R57). -/
  | nop
  /-- YIELD (R120). -/
  | yield
  /-- EXIT (R120). -/
  | exit
  /-- TRET (R133). -/
  | tret
  /-- BKPT (R132). -/
  | bkpt
  /-- HALT (R132). -/
  | halt
  /-- TRCON (R134). -/
  | trcon
  /-- TRCOFF (R134). -/
  | trcoff
  /-- EMIT (R292), a step of the device: OPST token: waits for a RESIDENT slot with the tag and emits its packet. -/
  | emit (tag : BitVec 16)
  /-- EMITFREE (R292), a step of the device: OPST token: emits the slot's packet, then frees the slot. -/
  | emitfree (tag : BitVec 16)
  /-- EVICT (R292), a step of the device: OPST token: frees a slot or cancels its fill. -/
  | evict (slot : Fin 16)
  /-- SKIP_TOKEN (R181), a step of the device: A scanner applies or discards a skip request from its joiner. -/
  | skipToken
  /-- BEAT_HOP (R172), a step of the device: A beat crosses a route into a link or input buffer once every reader has accepted it. -/
  | beatHop (o : OriginRef)
  /-- PENDING_BEAT_TIMEOUT (R107), a step of the device: A partly filled beat is sent after 16 cycles without a push. -/
  | pendingBeatTimeout (holder : Nat × Nat) (q : QReg)
  /-- REGION_COMMIT (R229), a step of the device: In the cycle every write-log unit holds COMMIT, all logs publish in one step. -/
  | regionCommit (t : TaskId)
  /-- REGION_PARK (R228), a step of the device: A task with nothing in flight parks. -/
  | regionPark (t : TaskId)
  /-- REGION_UNPARK (R228), a step of the device: A token at an input returns a parked task to running. -/
  | regionUnpark (t : TaskId)
  /-- COUNT_EXHAUSTED (R227), a step of the device: COUNT reaches 0 and the task drains as under FDRAIN. -/
  | countExhausted (t : TaskId)
  /-- DRAIN_EMIT (R230), a step of the device: After its current pass an input emits DRAIN. -/
  | drainEmit (o : OriginRef)
  /-- PHASE_END (R231), a step of the device: DRAIN has passed every tile and the next context becomes current. -/
  | phaseEnd (t : TaskId)
  /-- CHECKPOINT_COMPLETE (R233), a step of the device: FCKPT finishes writing the image and the task becomes checkpointed. -/
  | checkpointComplete (t : TaskId)
  /-- REGION_STALL (R234), a step of the device: 2^22 cycles without movement report a stall fault. -/
  | regionStall (t : TaskId)
  /-- COPY_ROW_ISSUE (R92), a step of the device: A channel issues the next destination row's source reads, claiming an OPST slot if needed. -/
  | copyRowIssue (c : CopyId)
  /-- COPY_ROW_LAND (R92), a step of the device: A row lands, WP advances, and on the last row the copy retires. -/
  | copyRowLand (c : CopyId) (row : Nat)
  /-- TOKEN_CONSUME (R297), a step of the device: A waiting copy consumes one arrival of its dependence token. -/
  | tokenConsume (c : CopyId)
  /-- REMOTE_ROW_FAULT (R429), a step of the device: A receiver refuses an untranslated row and marks the copy HELD. -/
  | remoteRowFault (f : RowFault) (row : Nat)
  /-- HELD_ROW_RETRY (R429), a step of the device: The channel retries a held row on XLINV notice or every 100 µs. -/
  | heldRowRetry (c : CopyId)
  /-- INGRESS_CLOSE (R338), a step of the device: Released pairs pass die ingress and become closed. -/
  | ingressClose (die : Fin 6) (n : Nat)
  /-- PRECOMBINE_EXPIRY (R344), a step of the device: An entry leaves for its home die 64 cycles after it was taken. -/
  | precombineExpiry (die : Fin 6) (idx : Nat)
  /-- BIN_MERGE (R345), a step of the device: A pair arriving at the home die merges into its bin. -/
  | binMerge (die : Fin 6) (idx : Nat)
  /-- BACKGROUND_APPLY (R350), a step of the device: The Parterre applies a closed bin on its own. -/
  | backgroundApply (line : Nat)
  /-- HASHPC_WRITE (R302), a step of the device: Commits the staged masks and starts a rehash, or takes ACCESS. -/
  | hashpcWrite (h : HartId) (v : BitVec 64)
  /-- REHASH_COMPLETE (R302), a step of the device: The rehash of the die's HBM ends and BUSY clears. -/
  | rehashComplete (die : Fin 6)
  /-- UBINTHRESH_WRITE (R346), a step of the device: Sets the spill threshold and area, with its checks. -/
  | ubinthreshWrite (h : HartId) (v : BitVec 64)
  /-- WEXTSIZE_WRITE (R360), a step of the device: Sets the memory extension, refused while a slot is in use. -/
  | wextsizeWrite (h : HartId) (v : BitVec 64)
  /-- BELVEDERE_SWEEP (R362), a step of the device: Every 50 µs: moves entries on chip, searches cycles, re-evaluates barriers, retries unmade registrations. -/
  | belvedereSweep (die : Fin 6)
  /-- INHERITANCE_UPDATE (R370), a step of the device: Effective priorities are recomputed after a wait ends or a remote lend. -/
  | inheritanceUpdate
  /-- LAUNCH_DEQUEUE (R374), a step of the device: The Arbour takes a launch record from a queue head, checks it and enters its root continuation. -/
  | launchDequeue
  /-- HART_DISPATCH (R375), a step of the device: An idle hart takes the highest-priority ready record by deficit round-robin. -/
  | hartDispatch (h : HartId)
  /-- SWITCH_OUT (R376), a step of the device: A continuation sleeping 10 µs or more is saved and its hart given away. -/
  | switchOut (h : HartId)
  /-- MEMORY_QUEUE_PROMOTE (R377), a step of the device: A memory-queue record moves to the pool when room exists. -/
  | memoryQueuePromote (die : Fin 6)
  /-- PREEMPTION_EVALUATION (R386), a step of the device: Picks a victim and a policy of drain, checkpoint, kill or none. -/
  | preemptionEvaluation (n : Newcomer)
  /-- TASK_REARM (R387), a step of the device: The Arbour re-arms or resumes a pre-empted task when its tiles free. -/
  | taskRearm (t : TaskId)
  /-- PERIOD_START (R381), a step of the device: Every 10 µs budgets renew and throttles lift. -/
  | periodStart
  /-- GRAPH_END (R379), a step of the device: An END node ends the walk. -/
  | graphEnd (l : Nat)
  /-- GRAPH_RUN (R379), a step of the device: A RUN node spawns code and continues when it joins. -/
  | graphRun (l : Nat)
  /-- GRAPH_IF (R379), a step of the device: An IF node branches on an acquired word. -/
  | graphIf (l : Nat)
  /-- GRAPH_LOOP (R379), a step of the device: A LOOP node counts down a held counter. -/
  | graphLoop (l : Nat)
  /-- GRAPH_SWITCH (R379), a step of the device: A SWITCH node selects a target by word. -/
  | graphSwitch (l : Nat)
  /-- WATCH_DELIVERY (R135), a step of the device: The setting hart takes WATCH between instructions. -/
  | watchDelivery (h : HartId)
  /-- TRANSLATION_WALK_COMPLETE (R414), a step of the device: A page walk finishes, installing an entry or faulting. -/
  | translationWalkComplete (u : UnitRef)
  /-- RING_PARTIAL (R390), a step of the device: A member receives the running partial, combines and forwards it. -/
  | ringPartial (msg : CollMsg)
  /-- RING_TOTAL (R390), a step of the device: A member receives the total, writes it and forwards it. -/
  | ringTotal (msg : CollMsg)
  /-- TREE_VALUE (R391), a step of the device: A leader receives a group value in the up pass. -/
  | treeValue (msg : CollMsg)
  /-- COLLECTIVE_DONE (R390), a step of the device: A member receives DONE and takes state 2. -/
  | collectiveDone (msg : CollMsg)
  /-- ABORT (R392), a step of the device: A member receives ABORT and takes state 3. -/
  | abort (msg : CollMsg)
  /-- COLLECTIVE_TIMEOUT (R392), a step of the device: tmo elapses and the member probes every other member. -/
  | collectiveTimeout (r : Nat)
  /-- PROBE (R392), a step of the device: A member answers a probe of a round. -/
  | probe (msg : CollMsg)
  /-- PROBE_WINDOW_END (R392), a step of the device: After 1 µs silent members are marked and ABORT sent. -/
  | probeWindowEnd (r : Nat) (answered : List (Nat × Bool))
  /-- MEMB_COLLECT (R394), a step of the device: The coordinator receives a member's MEMB. -/
  | membCollect (msg : CollMsg)
  /-- MEMB_PUBLISH (R394), a step of the device: All collected or tmo elapsed: the survivors are published. -/
  | membPublish (r : Nat)
  /-- MEMB_PUBLICATION (R394), a step of the device: A member receives the list, writes it and completes. -/
  | membPublication (msg : CollMsg)
  /-- MEMB_REPROBE (R394), a step of the device: No publication within tmo + 4 µs: probe again. -/
  | membReprobe (r : Nat) (first : Nat)
  /-- DATA_FLIT (R424), a step of the device: A receiver takes a sequenced data flit or discards it and NAKs. -/
  | dataFlit (port : Nat) (f : FlitBits)
  /-- ACKNOWLEDGE_FLIT (R425), a step of the device: An acknowledge-only flit updates ACK and FREE. -/
  | acknowledgeFlit (port : Nat) (f : FlitBits)
  /-- NEGATIVE_ACKNOWLEDGE (R424), a step of the device: The sender replays from the expected SEQ. -/
  | negativeAcknowledge (port : Nat) (f : FlitBits)
  /-- AUDIT_TIMER (R426), a step of the device: Every 100 µs a sender sends an audit flit. -/
  | auditTimer (port : Nat)
  /-- AUDIT_FLIT (R426), a step of the device: The receiver checks counts and quiesces on mismatch. -/
  | auditFlit (port : Nat) (f : FlitBits)
  /-- OCCUPANCY_REPORT (R426), a step of the device: The sender resets F from the reported freed count. -/
  | occupancyReport (port : Nat) (occ : Nat) (freed : Nat)
  /-- LINK_RETRAIN (R427), a step of the device: Lane lock loss or 8 NAKs start a retrain. -/
  | linkRetrain (port : Nat)
  /-- RESYNC_FLIT (R427), a step of the device: After a retrain each end replays from the resync SEQ. -/
  | resyncFlit (port : Nat) (f : FlitBits)
  /-- LINK_DOWN (R427), a step of the device: A retrain over 2 ms discards flits and fails requests. -/
  | linkDown (port : Nat)
  /-- DOORBELL (R420), a step of the device: The host writes the highest command seq; the device fetches slots up to it. -/
  | doorbell (seq : BitVec 64) (writes : List (Fin 256 × BitVec 512))
  /-- SQHEAD (R423), a step of the device: The host consumes status records, letting held records post. -/
  | sqhead (v : BitVec 64)
  /-- HOST_REGISTER_WRITE (R420), a step of the device: Writes SQBASE or SQSIZE, ignored unless STAT equals HEAD. -/
  | hostRegisterWrite (size : Bool) (v : BitVec 64)
  /-- LAUNCH_COMMAND (R421), a step of the device: Queues a launch record from the host. -/
  | launchCommand (seq : Nat)
  /-- CANCEL (R436), a step of the device: Kills a live launch and completes it with state 3. -/
  | cancel (seq : Nat)
  /-- WRMEM (R421), a step of the device: Writes 32 bytes of device memory. -/
  | wrmem (seq : Nat)
  /-- RDMEM (R421), a step of the device: Reads 8 bytes of device memory. -/
  | rdmem (seq : Nat)
  /-- QCFG (R373), a step of the device: Writes a launch queue's configuration word. -/
  | qcfg (seq : Nat)
  /-- ASIDTAB (R421), a step of the device: Sets the ASID table base and invalidates translation caches. -/
  | asidtab (seq : Nat)
  /-- TRACE (R418), a step of the device: Copies a core's trace buffer and releases its freeze. -/
  | trace (seq : Nat)
  /-- ERRCNT (R421), a step of the device: Reads and clears a die's error counters. -/
  | errcnt (seq : Nat)
  /-- HARTRST (R421), a step of the device: Restarts a hart at PC at system level. -/
  | hartrst (seq : Nat)
  /-- LINKUP (R428), a step of the device: Resets a Pergola link's state and brings it up. -/
  | linkup (seq : Nat)
  /-- ATTEST (R433), a step of the device: Writes a signed attestation report. -/
  | attest (seq : Nat)
  /-- PCAP (R435), a step of the device: Sets the power cap and returns the average power. -/
  | pcap (seq : Nat)
  /-- RESET (R436), a step of the device: Returns the package to reset after a shutdown. -/
  | reset (seq : Nat) (junction : Nat)
  /-- SQREPLAY (R423), a step of the device: Reposts retained status records under new seqs. -/
  | sqreplay (seq : Nat)
  /-- BOOT (R432), a step of the device: Power-on starts Morhan's staged boot. -/
  | boot
  /-- BOOT_STAGE (R432), a step of the device: A boot stage completes or fails. -/
  | bootStage (e : StageEnd)
  /-- REFRESH (R303), a step of the device: The refresh engine visits a row group every Tr / 2. -/
  | refresh (stack : Fin 12) (group : Nat)
  /-- TEMPERATURE_THRESHOLD (R304), a step of the device: A stack crosses 85 °C or 95 °C, or falls back below the release points. -/
  | temperatureThreshold (stack : Fin 12) (layer : Fin 16) (deg : Nat)
  /-- CATASTROPHIC_TEMPERATURE (R436), a step of the device: At 105 °C HBM or a 110 °C junction, Morhan ends every launch and halts. -/
  | catastrophicTemperature (junction : Nat)
  /-- POWER_WINDOW (R435), a step of the device: Every 1 ms Morhan compares the average power with the cap. -/
  | powerWindow (watts : Nat)
  /-- LOAD_DATA_RETURN (R403), a step of the device: The data of a committed load returns and is written to its register, or returns with an uncorrectable error and raises ECC. -/
  | loadDataReturn (h : HartId) (err : Bool)
  /-- WRITE_PERFORMED (R309), a step of the device: A store in flight reaches its point of coherence, takes its place in coherence order and becomes visible to every agent. -/
  | writePerformed (h : HartId) (idx : Nat)
  /-- L1_LINE_EVICTION (R42), a step of the device: A line held in a hart's L1 data cache is evicted, so later loads of it go to the home slice. -/
  | l1LineEviction (core : Fin 192) (line : Nat)
  /-- LINK_RETRAIN_COMPLETE (R427), a step of the device: A retraining link regains lane lock within 2 ms, and each end sends a resync flit carrying its next expected SEQ and its FREE. -/
  | linkRetrainComplete (port : Nat)
  /-- SECOND_TIER_PORT_FAILURE (R305), a step of the device: A CXL second-tier port or its memory device fails, after which accesses to it are met as uncorrectable errors. -/
  | secondTierPortFailure (port : Fin 16)
  deriving DecidableEq, Repr

end Sys2Proof
end

