-- ==== Sys2Proof/WellFormed.lean ====
section
/-!
DEFINITION. Which instructions are well formed: the field rules of R12, R15, R20 and R60 that a type does not already hold,
and for element words the loader's checks that need the word alone (R23, R162, R167, R199).
-/
namespace Sys2Proof

/-- The format code of the destination of a conversion code (R70, R258); 0 for the reserved code 0x1F. -/
def convDst (k : Fin 32) : Fin 16 :=
  match k with
  | 0x00 => 2 | 0x01 => 3 | 0x02 => 1 | 0x03 => 1 | 0x04 => 4 | 0x05 => 4 | 0x06 => 4 | 0x07 => 5
  | 0x08 => 5 | 0x09 => 5 | 0x0A => 6 | 0x0B => 6 | 0x0C => 1 | 0x0D => 1 | 0x0E => 1 | 0x0F => 2
  | 0x10 => 2 | 0x11 => 4 | 0x12 => 4 | 0x13 => 1 | 0x14 => 11 | 0x15 => 1 | 0x16 => 9 | 0x17 => 1
  | 0x18 => 11 | 0x19 => 9 | 0x1A => 13 | 0x1B => 11 | 0x1C => 10 | 0x1D => 9 | 0x1E => 7 | _ => 0

/-- Why the loader refuses an element word taken alone (R225): reserved eop, plane or format, port field, mode bits. -/
inductive ElemFlaw where
  | eop | planeOrFormat | port | mode
  deriving DecidableEq, Repr

/-- An element operation word by its fields (R21). -/
structure ElemWord where
  eop : Nat
  plane : Nat
  a : Nat
  b : Nat
  c : Nat
  fmt : Nat
  mode : Nat
  deriving DecidableEq, Repr

/-- FORM, mode[7:6] of the operations with more than one form (R137): 0 stream, 1 dense. -/
def ElemWord.form (e : ElemWord) : Nat := e.mode / 64

/-- A single bit of the mode field. -/
def ElemWord.modeBit (e : ElemWord) (k : Nat) : Bool := e.mode / 2 ^ k % 2 == 1

/-- Keep looking for flaws only while a check holds. -/
def ElemFlaw.chk (b : Bool) (f : ElemFlaw) (rest : Option ElemFlaw) : Option ElemFlaw := if b then rest else some f

/-- The formats F and I of R145, and fmt 0 where a dense form takes its format from the HEADER (R24). -/
def ElemWord.isF (e : ElemWord) : Bool := e.fmt == 1 || e.fmt == 2 || e.fmt == 3
def ElemWord.isFI (e : ElemWord) : Bool := e.isF || e.fmt == 11
def ElemWord.isHdr (e : ElemWord) : Bool := e.fmt == 0 && e.form == 1

/-- The formats of stream values (R258): e8m0 and pp8 are formats of no element. DESIGN CHOICE (assumption 87): LWC, LWB, LWD,
ARRD and CROP with WIN = 1, whose rules name no fmt, take every other code, and fmt 0. -/
def ElemWord.isValue (e : ElemWord) : Bool := e.fmt != 7 && e.fmt != 8 && e.fmt < 14

open ElemFlaw in
/-- The first flaw of an element word: plane and format before ports before mode bits (assumption 30). -/
def ElemWord.flaw (e : ElemWord) : Option ElemFlaw :=
  match e.eop with
  | 0x01 => -- EADD
    chk (e.plane == 0 || e.plane == 3) .planeOrFormat (chk (e.isFI || e.isHdr) .planeOrFormat (chk (e.c == 0) .port (chk (e.mode / 1 % 64 == 0) .mode (chk (e.form == 0 || e.form == 1) .mode (none)))))
  | 0x02 => -- ESUB
    chk (e.plane == 0 || e.plane == 3) .planeOrFormat (chk (e.isFI || e.isHdr) .planeOrFormat (chk (e.c == 0) .port (chk (e.mode / 1 % 64 == 0) .mode (chk (e.form == 0 || e.form == 1) .mode (none)))))
  | 0x03 => -- EMUL
    chk (e.plane == 0 || e.plane == 3) .planeOrFormat (chk (e.isFI || e.isHdr) .planeOrFormat (chk (e.c == 0) .port (chk (e.mode / 1 % 64 == 0) .mode (chk (e.form == 0 || e.form == 1) .mode (none)))))
  | 0x04 => -- EFMA
    chk (e.plane == 0 || e.plane == 3) .planeOrFormat (chk (e.isF || e.isHdr) .planeOrFormat (chk (!e.modeBit 0 || e.c == 0) .port (chk (e.mode / 2 % 32 == 0) .mode (chk (e.form == 0 || e.form == 1) .mode (chk (!e.modeBit 0 || e.form == 1) .mode (none))))))
  | 0x05 => -- EMIN
    chk (e.plane == 0 || e.plane == 3) .planeOrFormat (chk (e.isFI || e.isHdr) .planeOrFormat (chk (e.c == 0) .port (chk (e.mode / 1 % 64 == 0) .mode (chk (e.form == 0 || e.form == 1) .mode (none)))))
  | 0x06 => -- EMAX
    chk (e.plane == 0 || e.plane == 3) .planeOrFormat (chk (e.isFI || e.isHdr) .planeOrFormat (chk (e.c == 0) .port (chk (e.mode / 1 % 64 == 0) .mode (chk (e.form == 0 || e.form == 1) .mode (none)))))
  | 0x07 => -- EABS
    chk (e.plane == 0) .planeOrFormat (chk (e.isFI || e.isHdr) .planeOrFormat (chk (e.b == 0) .port (chk (e.c == 0) .port (chk (e.mode / 1 % 64 == 0) .mode (chk (e.form == 0 || e.form == 1) .mode (none))))))
  | 0x08 => -- ECMP
    chk (e.plane == 2) .planeOrFormat (chk e.isFI .planeOrFormat (chk (e.c == 0) .port (chk (!e.modeBit 5 || e.b == 0) .port (chk (e.mode / 64 % 4 == 0) .mode (chk ((e.mode / 8 % 4) != 3) .mode (chk ((e.mode % 8) != 7 || e.modeBit 5) .mode (none)))))))
  | 0x09 => -- ESEL
    chk (e.plane == 0) .planeOrFormat (chk (e.isFI || e.isHdr || (e.fmt == 12 && e.form == 1)) .planeOrFormat (chk (e.mode / 1 % 64 == 0) .mode (chk (e.form == 0 || e.form == 1) .mode (none))))
  | 0x0A => -- ECVT
    chk (e.plane == 0) .planeOrFormat (chk (e.fmt == (convDst (Fin.ofNat 32 (e.mode % 32))).val) .planeOrFormat (chk (e.b == 0) .port (chk (e.c == 0) .port (chk (e.mode / 32 % 2 == 0) .mode (chk (e.form == 0 || e.form == 1) .mode (chk ((e.mode % 32) != 31) .mode (none)))))))
  | 0x0B => -- ESCALE
    chk (e.plane == 0 || e.plane == 3) .planeOrFormat (chk (e.fmt == 1 || e.isHdr) .planeOrFormat (chk (e.c == 0) .port (chk (e.mode / 2 % 32 == 0) .mode (chk (e.form == 0 || e.form == 1) .mode (none)))))
  | 0x0C => -- EBDOT
    chk (e.plane == 0) .planeOrFormat (chk (e.fmt == 0) .planeOrFormat (chk (e.c == 0) .port (chk (e.mode / 2 % 128 == 0) .mode (none))))
  | 0x0D => -- ECSADD
    chk (e.plane == 0) .planeOrFormat (chk (e.fmt == 0) .planeOrFormat (chk (e.c == 0) .port (chk (!e.modeBit 0 || e.b == 0) .port (chk (e.mode / 32 % 8 == 0) .mode (none)))))
  | 0x0E => -- ENORM
    chk (e.plane == 0) .planeOrFormat (chk (e.fmt == 1) .planeOrFormat (chk (e.b == 0) .port (chk (e.c == 0) .port (chk (e.mode / 2 % 128 == 0) .mode (none)))))
  | 0x0F => -- ECFWD
    chk (e.plane == 0) .planeOrFormat (chk (e.fmt == 1 || e.fmt == 2 || e.fmt == 11) .planeOrFormat (chk (e.c == 0) .port (chk (!e.modeBit 1 || e.b == 0) .port (chk (e.mode / 4 % 64 == 0) .mode (none)))))
  | 0x10 => -- ECONST
    chk (e.plane == 0 || e.plane == 3) .planeOrFormat (chk e.isFI .planeOrFormat (chk (e.c == 0) .port (chk (e.plane == 3 || e.b == 0) .port (chk (e.plane == 0 || (e.mode % 256) == 0) .mode (none)))))
  | 0x11 => -- EIDX
    chk (e.plane == 0 || (e.plane == 3 && !e.modeBit 3 && (e.mode % 8) != 6)) .planeOrFormat (chk (e.fmt == 11) .planeOrFormat (chk (e.c == 0) .port (chk ((!e.modeBit 3 && (e.mode % 8) != 6) || e.b == 0) .port (chk (e.mode / 16 % 16 == 0) .mode (chk ((e.mode % 8) != 6 || !e.modeBit 3) .mode (none))))))
  | 0x12 => -- EPIV
    chk (e.plane == 0) .planeOrFormat (chk (e.fmt == 1 || e.isHdr) .planeOrFormat (chk (e.b == 0) .port (chk (e.c == 0) .port (chk (e.mode / 1 % 64 == 0) .mode (chk (e.form == 0 || e.form == 1) .mode (none))))))
  | 0x13 => -- ERCP
    chk (e.plane == 0) .planeOrFormat (chk (e.fmt == 1 || e.isHdr) .planeOrFormat (chk (e.b == 0) .port (chk (e.c == 0) .port (chk (e.mode / 2 % 32 == 0) .mode (chk (e.form == 0 || e.form == 1) .mode (none))))))
  | 0x14 => -- EPOP
    chk (e.plane == 0) .planeOrFormat (chk e.isFI .planeOrFormat (chk (e.b == 0) .port (chk (e.c == 0) .port (chk (e.mode / 2 % 128 == 0) .mode (none)))))
  | 0x15 => -- EAND
    chk (e.plane == 0 || e.plane == 3) .planeOrFormat (chk (e.fmt == 11 || e.isHdr || (e.fmt == 12 && e.form == 1)) .planeOrFormat (chk (e.c == 0) .port (chk (e.mode / 1 % 64 == 0) .mode (chk (e.form == 0 || e.form == 1) .mode (none)))))
  | 0x16 => -- EOR
    chk (e.plane == 0 || e.plane == 3) .planeOrFormat (chk (e.fmt == 11 || e.isHdr || (e.fmt == 12 && e.form == 1)) .planeOrFormat (chk (e.c == 0) .port (chk (e.mode / 1 % 64 == 0) .mode (chk (e.form == 0 || e.form == 1) .mode (none)))))
  | 0x17 => -- EXOR
    chk (e.plane == 0 || e.plane == 3) .planeOrFormat (chk (e.fmt == 11 || e.isHdr || (e.fmt == 12 && e.form == 1)) .planeOrFormat (chk (e.c == 0) .port (chk (e.mode / 1 % 64 == 0) .mode (chk (e.form == 0 || e.form == 1) .mode (none)))))
  | 0x18 => -- MDENSE
    chk (e.plane == 0) .planeOrFormat (chk (e.fmt == 1 || e.fmt == 11) .planeOrFormat (chk (e.c == 0) .port (chk (e.mode / 8 % 32 == 0) .mode (chk ((e.mode % 4) != 3) .mode (none)))))
  | 0x19 => -- MNM2
    chk (e.plane == 0) .planeOrFormat (chk (e.fmt == 1 || e.fmt == 11) .planeOrFormat (chk (e.mode / 8 % 32 == 0) .mode (chk ((e.mode % 4) != 3) .mode (none))))
  | 0x1A => -- MMATCH
    chk (e.plane == 0) .planeOrFormat (chk (e.fmt == 1 || e.fmt == 11) .planeOrFormat (chk (e.c == 0) .port (chk (e.mode / 8 % 32 == 0) .mode (chk ((e.mode % 4) != 3) .mode (none)))))
  | 0x1B => -- MBXOR
    chk (e.plane == 0) .planeOrFormat (chk (e.fmt == 11) .planeOrFormat (chk (e.c == 0) .port (chk (e.mode / 8 % 32 == 0) .mode (chk ((e.mode % 4) != 3 && (e.mode % 4) != 1) .mode (none)))))
  | 0x1C => -- MBAND
    chk (e.plane == 0) .planeOrFormat (chk (e.fmt == 11) .planeOrFormat (chk (e.c == 0) .port (chk (e.mode / 8 % 32 == 0) .mode (chk ((e.mode % 4) != 3 && (e.mode % 4) != 1) .mode (none)))))
  | 0x1D => -- MPP8
    chk (e.plane == 0) .planeOrFormat (chk (e.fmt == 1) .planeOrFormat (chk (e.c == 0) .port (chk (e.mode / 8 % 32 == 0) .mode (chk ((e.mode % 4) != 3) .mode (none)))))
  | 0x1E => -- MEXPERT
    chk (e.plane == 0) .planeOrFormat (chk (e.fmt == 1) .planeOrFormat (chk (e.mode / 8 % 32 == 0) .mode (chk ((e.mode % 4) != 3) .mode (none))))
  | 0x1F => -- MPRED
    chk (e.plane == 0) .planeOrFormat (chk (e.fmt == 12) .planeOrFormat (chk (e.c == 0) .port (chk (e.mode / 1 % 4 == 0) .mode (chk (e.mode / 16 % 16 == 0) .mode (none)))))
  | 0x20 => -- SCANC
    chk (e.plane == 0) .planeOrFormat (chk (e.fmt == 0) .planeOrFormat (chk (e.c == 0) .port (chk (!e.modeBit 4 || e.a == 0) .port (chk (e.mode / 32 % 8 == 0) .mode (none)))))
  | 0x21 => -- SCANB
    chk (e.plane == 0) .planeOrFormat (chk (e.fmt == 0) .planeOrFormat (chk (e.c == 0) .port (chk (!e.modeBit 4 || e.a == 0) .port (chk (e.mode / 32 % 8 == 0) .mode (none)))))
  | 0x22 => -- SCAND
    chk (e.plane == 0) .planeOrFormat (chk (e.fmt == 0) .planeOrFormat (chk (e.c == 0) .port (chk (!e.modeBit 4 || e.a == 0) .port (chk (e.mode / 32 % 8 == 0) .mode (none)))))
  | 0x23 => -- LWC
    chk (e.plane == 0) .planeOrFormat (chk e.isValue .planeOrFormat (chk (e.b == 0) .port (chk (e.c == 0) .port (chk (e.mode / 16 % 16 == 0) .mode (none)))))
  | 0x24 => -- LWB
    chk (e.plane == 0) .planeOrFormat (chk e.isValue .planeOrFormat (chk (e.b == 0) .port (chk (e.c == 0) .port (chk (e.mode / 16 % 16 == 0) .mode (none)))))
  | 0x25 => -- LWD
    chk (e.plane == 0) .planeOrFormat (chk e.isValue .planeOrFormat (chk (e.b == 0) .port (chk (e.c == 0) .port (chk (e.mode / 32 % 8 == 0) .mode (none)))))
  | 0x26 => -- ISECT
    chk (e.plane == 0) .planeOrFormat (chk (e.fmt == 0) .planeOrFormat (chk (e.c == 0) .port (chk (e.mode / 4 % 64 == 0) .mode (none))))
  | 0x27 => -- UNION
    chk (e.plane == 0) .planeOrFormat (chk (e.fmt == 0) .planeOrFormat (chk (e.c == 0) .port (chk (e.mode / 1 % 256 == 0) .mode (none))))
  | 0x28 => -- REPT
    chk (e.plane == 0) .planeOrFormat (chk (e.fmt == 0) .planeOrFormat (chk (e.c == 0) .port (chk (e.mode / 1 % 256 == 0) .mode (none))))
  | 0x29 => -- REDC
    chk (e.plane == 0) .planeOrFormat (chk (e.fmt == 1 || e.fmt == 2 || e.fmt == 11) .planeOrFormat (chk (e.b == 0) .port (chk (e.c == 0) .port (chk (e.mode / 8 % 32 == 0) .mode (chk ((e.mode / 2 % 4) != 3) .mode (none))))))
  | 0x2A => -- ARRD
    chk (e.plane == 0) .planeOrFormat (chk e.isValue .planeOrFormat (chk (e.b == 0) .port (chk (e.c == 0) .port (chk (e.mode / 16 % 16 == 0) .mode (none)))))
  | 0x2B => -- UPSINK
    chk (e.plane == 0) .planeOrFormat (chk (e.fmt == 1 || e.fmt == 2 || e.fmt == 11) .planeOrFormat (chk ((e.mode % 4) == 0 || e.fmt == 11) .planeOrFormat (chk (e.c == 0) .port (chk (e.mode / 4 % 64 == 0) .mode (chk ((e.mode % 4) != 3) .mode (none))))))
  | 0x2C => -- CROP
    chk (e.plane == 0) .planeOrFormat (chk e.isValue .planeOrFormat (chk (e.modeBit 0 || e.fmt != 0) .planeOrFormat (chk (e.c == 0) .port (chk (e.modeBit 0 || e.b == 0) .port (chk (e.mode / 2 % 128 == 0) .mode (none))))))
  | 0x2D => -- CMERGE
    chk (e.plane == 0) .planeOrFormat (chk (e.fmt == 1 || e.fmt == 11) .planeOrFormat (chk (e.c == 0) .port (chk (e.mode / 4 % 64 == 0) .mode (none))))
  | 0x30 => -- AGEN
    chk (e.plane == 0) .planeOrFormat (chk (e.fmt == 0) .planeOrFormat (chk (e.b == 0) .port (chk (e.c == 0) .port (chk (e.mode / 16 % 16 == 0) .mode (none)))))
  | 0x31 => -- OPST
    chk (e.plane == 0) .planeOrFormat (chk (e.fmt == 0) .planeOrFormat (chk (e.c == 0) .port (chk (e.a == 10 || e.a == 11) .port (chk (e.mode / 16 % 16 == 0) .mode (none)))))
  | 0x32 => -- FIFO
    chk (e.plane == 0) .planeOrFormat (chk (e.fmt == 0) .planeOrFormat (chk (e.b == 0) .port (chk (e.c == 0) .port (chk (e.mode / 16 % 16 == 0) .mode (none)))))
  | 0x33 => -- LBUF
    chk (e.plane == 0) .planeOrFormat (chk (e.fmt == 0) .planeOrFormat (chk (e.c == 0) .port (chk (e.mode / 16 % 16 == 0) .mode (none))))
  | 0x34 => -- MLD
    chk (e.plane == 0) .planeOrFormat (chk (e.fmt == 0) .planeOrFormat (chk (e.b == 0) .port (chk (e.c == 0) .port (chk (e.mode / 16 % 16 == 0) .mode (none)))))
  | 0x35 => -- MST
    chk (e.plane == 0) .planeOrFormat (chk (e.fmt == 0) .planeOrFormat (chk (e.c == 0) .port (chk (e.mode / 16 % 16 == 0) .mode (none))))
  | 0x38 => -- STEER
    chk (e.fmt == 0) .planeOrFormat (chk (e.plane == 1 || e.plane == 2) .planeOrFormat (chk (e.c == 0) .port (chk (e.mode / 2 % 128 == 0) .mode (none))))
  | 0x39 => -- MERGE
    chk (e.fmt == 0) .planeOrFormat (chk (e.plane == 1 || e.plane == 2) .planeOrFormat (chk (e.mode / 1 % 256 == 0) .mode (none)))
  | 0x3A => -- CARRY
    chk (e.plane == 1) .planeOrFormat (chk (e.fmt == 0) .planeOrFormat (chk (e.mode / 1 % 256 == 0) .mode (none)))
  | 0x3B => -- INVAR
    chk (e.fmt == 0) .planeOrFormat (chk (e.plane == 1 || e.plane == 2) .planeOrFormat (chk (e.c == 0) .port (chk (e.mode / 1 % 256 == 0) .mode (none))))
  | 0x3C => -- CAND
    chk (e.plane == 2) .planeOrFormat (chk (e.fmt == 0) .planeOrFormat (chk (e.c == 0) .port (chk (e.mode / 1 % 256 == 0) .mode (none))))
  | 0x3D => -- CNOT
    chk (e.plane == 2) .planeOrFormat (chk (e.fmt == 0) .planeOrFormat (chk (e.b == 0) .port (chk (e.c == 0) .port (chk (e.mode / 1 % 256 == 0) .mode (none)))))
  | _ => some .eop

/-- The fields of an element operation word; none for any other instruction. -/
def Instr.elemWord? : Instr → Option ElemWord
  | .eadd p a b f m => some ⟨0x01, p.val, a.val, b.val, 0, f.val, m.val * 64⟩
  | .esub p a b f m => some ⟨0x02, p.val, a.val, b.val, 0, f.val, m.val * 64⟩
  | .emul p a b f m => some ⟨0x03, p.val, a.val, b.val, 0, f.val, m.val * 64⟩
  | .efma p a b c f m x => some ⟨0x04, p.val, a.val, b.val, c.val, f.val, m.val * 64 + x.toNat⟩
  | .emin p a b f m => some ⟨0x05, p.val, a.val, b.val, 0, f.val, m.val * 64⟩
  | .emax p a b f m => some ⟨0x06, p.val, a.val, b.val, 0, f.val, m.val * 64⟩
  | .eabs a f m => some ⟨0x07, 0, a.val, 0, 0, f.val, m.val * 64⟩
  | .ecmp a b f z r l => some ⟨0x08, 2, a.val, b.val, 0, f.val, z.toNat * 32 + r.val * 8 + l.val⟩
  | .esel a b c f m => some ⟨0x09, 0, a.val, b.val, c.val, f.val, m.val * 64⟩
  | .ecvt a f m k => some ⟨0x0A, 0, a.val, 0, 0, f.val, m.val * 64 + k.val⟩
  | .escale p a b f m x => some ⟨0x0B, p.val, a.val, b.val, 0, f.val, m.val * 64 + x.toNat⟩
  | .ebdot a b x => some ⟨0x0C, 0, a.val, b.val, 0, 0, x.toNat⟩
  | .ecsadd a b k x => some ⟨0x0D, 0, a.val, b.val, 0, 0, k.val * 2 + x.toNat⟩
  | .enorm a f x => some ⟨0x0E, 0, a.val, 0, 0, f.val, x.toNat⟩
  | .ecfwd a b f r x => some ⟨0x0F, 0, a.val, b.val, 0, f.val, r.toNat * 2 + x.toNat⟩
  | .econst p a b f m => some ⟨0x10, p.val, a.val, b.val, 0, f.val, m.val⟩
  | .eidx p a b f k n => some ⟨0x11, p.val, a.val, b.val, 0, f.val, k.toNat * 8 + n.val⟩
  | .epiv a f m => some ⟨0x12, 0, a.val, 0, 0, f.val, m.val * 64⟩
  | .ercp a f m x => some ⟨0x13, 0, a.val, 0, 0, f.val, m.val * 64 + x.toNat⟩
  | .epop a f x => some ⟨0x14, 0, a.val, 0, 0, f.val, x.toNat⟩
  | .eand p a b f m => some ⟨0x15, p.val, a.val, b.val, 0, f.val, m.val * 64⟩
  | .eor p a b f m => some ⟨0x16, p.val, a.val, b.val, 0, f.val, m.val * 64⟩
  | .exor p a b f m => some ⟨0x17, p.val, a.val, b.val, 0, f.val, m.val * 64⟩
  | .mdense a b f h o => some ⟨0x18, 0, a.val, b.val, 0, f.val, h.toNat * 4 + o.val⟩
  | .mnm2 a b c f h o => some ⟨0x19, 0, a.val, b.val, c.val, f.val, h.toNat * 4 + o.val⟩
  | .mmatch a b f h o => some ⟨0x1A, 0, a.val, b.val, 0, f.val, h.toNat * 4 + o.val⟩
  | .mbxor a b f h o => some ⟨0x1B, 0, a.val, b.val, 0, f.val, h.toNat * 4 + o.val⟩
  | .mband a b f h o => some ⟨0x1C, 0, a.val, b.val, 0, f.val, h.toNat * 4 + o.val⟩
  | .mpp8 a b f h o => some ⟨0x1D, 0, a.val, b.val, 0, f.val, h.toNat * 4 + o.val⟩
  | .mexpert a b c f h o => some ⟨0x1E, 0, a.val, b.val, c.val, f.val, h.toNat * 4 + o.val⟩
  | .mpred a b f x h => some ⟨0x1F, 0, a.val, b.val, 0, f.val, x.toNat * 8 + h.toNat * 4⟩
  | .scanc a b r d => some ⟨0x20, 0, a.val, b.val, 0, 0, r.toNat * 16 + d.val⟩
  | .scanb a b r d => some ⟨0x21, 0, a.val, b.val, 0, 0, r.toNat * 16 + d.val⟩
  | .scand a b r d => some ⟨0x22, 0, a.val, b.val, 0, 0, r.toNat * 16 + d.val⟩
  | .lwc a f d => some ⟨0x23, 0, a.val, 0, 0, f.val, d.val⟩
  | .lwb a f d => some ⟨0x24, 0, a.val, 0, 0, f.val, d.val⟩
  | .lwd a f z d => some ⟨0x25, 0, a.val, 0, 0, f.val, z.toNat * 16 + d.val⟩
  | .isect a b y x => some ⟨0x26, 0, a.val, b.val, 0, 0, y.toNat * 2 + x.toNat⟩
  | .union a b => some ⟨0x27, 0, a.val, b.val, 0, 0, 0⟩
  | .rept a b => some ⟨0x28, 0, a.val, b.val, 0, 0, 0⟩
  | .redc a f o n => some ⟨0x29, 0, a.val, 0, 0, f.val, o.val * 2 + n.toNat⟩
  | .arrd a f d => some ⟨0x2A, 0, a.val, 0, 0, f.val, d.val⟩
  | .upsink a b f w => some ⟨0x2B, 0, a.val, b.val, 0, f.val, w.val⟩
  | .crop a b f x => some ⟨0x2C, 0, a.val, b.val, 0, f.val, x.toNat⟩
  | .cmerge a b f o => some ⟨0x2D, 0, a.val, b.val, 0, f.val, o.val⟩
  | .agen a d => some ⟨0x30, 0, a.val, 0, 0, 0, d.val⟩
  | .opst a b d => some ⟨0x31, 0, a.val, b.val, 0, 0, d.val⟩
  | .fifo a d => some ⟨0x32, 0, a.val, 0, 0, 0, d.val⟩
  | .lbuf a b d => some ⟨0x33, 0, a.val, b.val, 0, 0, d.val⟩
  | .mld a d => some ⟨0x34, 0, a.val, 0, 0, 0, d.val⟩
  | .mst a b d => some ⟨0x35, 0, a.val, b.val, 0, 0, d.val⟩
  | .steer p a b i => some ⟨0x38, p.val, a.val, b.val, 0, 0, i.toNat⟩
  | .merge p a b c => some ⟨0x39, p.val, a.val, b.val, c.val, 0, 0⟩
  | .carry a b c => some ⟨0x3A, 1, a.val, b.val, c.val, 0, 0⟩
  | .invar p a b => some ⟨0x3B, p.val, a.val, b.val, 0, 0, 0⟩
  | .cand a b => some ⟨0x3C, 2, a.val, b.val, 0, 0, 0⟩
  | .cnot a => some ⟨0x3D, 2, a.val, 0, 0, 0, 0⟩
  | _ => none

/-- The field rules of the control instructions (R12, R15, R20, R60, R113, R123). -/
def controlWf : Instr → Bool
  | .loop _ _ l => l != 0
  | .loopi _ _ l => l != 0
  | .vfadd _ _ _ _ e => e != 3
  | .vfsub _ _ _ _ e => e != 3
  | .vfmul _ _ _ _ e => e != 3
  | .vfma _ _ _ _ e => e != 3
  | .vfnma _ _ _ _ e => e != 3
  | .vfmin _ _ _ _ e => e != 3
  | .vfmax _ _ _ _ e => e != 3
  | .vfabs _ _ _ e => e != 3
  | .vfneg _ _ _ e => e != 3
  | .vfdiv _ _ _ _ e => e != 3
  | .vfsqrt _ _ _ e => e != 3
  | .vfrsq _ _ _ e => e != 3
  | .vfexp2 _ _ _ e => e != 3
  | .vflog2 _ _ _ e => e != 3
  | .vceq d _ _ _ _ => d != 0
  | .vclt d _ _ _ _ => d != 0
  | .vcltz d _ _ _ _ => d != 0
  | .vcle d _ _ _ _ => d != 0
  | .vfceq d _ _ _ e => e != 3 && d != 0
  | .vfclt d _ _ _ e => e != 3 && d != 0
  | .vfcle d _ _ _ e => e != 3 && d != 0
  | .vfcun d _ _ _ e => e != 3 && d != 0
  | .vcvt _ _ c _ => c != 31
  | .updv _ _ _ _ e => e != 0
  | .vfreda _ _ _ e => e != 3
  | .mand d _ _ => d != 0
  | .mor d _ _ => d != 0
  | .mxor d _ _ => d != 0
  | .mnot d _ => d != 0
  | .mmov d _ => d != 0
  | .mmovScalar d _ => d != 0
  | .vfman _ _ _ _ e => e != 3
  | .dcas d a b => d.val % 2 == 0 && a.val % 2 == 0 && b.val % 2 == 0 && d.val < 62 && a.val < 62 && b.val < 62
  | .sbar u g c t => (u || g || c || t)
  | _ => true

/-- Well formed: no control field rule is broken and no element flaw is present. -/
def wellFormed (i : Instr) : Bool :=
  controlWf i && (match i.elemWord? with | some e => e.flaw.isNone | none => true)

end Sys2Proof
end

