-- ==== Sys2Proof/Decode.lean ====
section
/-!
DEFINITION. Decoding (R10 to R27): control words by major opcode and function code, element words by eop, each total and
rejecting by name; then the encoder written from the same tables, and the two numberings the host asks for.
-/
namespace Sys2Proof

/-- Why a control word is ILLEGAL (R15), or an element word refused (R23). -/
inductive Reject where
  | zeroWord | major | fn | field | register | wellFormed | eop | planeOrFormat | port | mode
  deriving DecidableEq, Repr

/-- Bits [lo + n − 1 : lo] of a word (R4). -/
def bits (w lo n : Nat) : Nat := w / 2 ^ lo % 2 ^ n

/-- A register or small field of `n` values at bit `lo`; `n` is a power of two or was checked. -/
def fin (k : Nat) [NeZero k] (w lo n : Nat) : Fin k := Fin.ofNat k (bits w lo n)

/-- The size codes of LD and LDX (R16). -/
def LdSize.ofNat? : Nat → Option LdSize
  | 0 => some .s8 | 1 => some .z8 | 2 => some .s16 | 3 => some .z16 | 4 => some .s32 | 5 => some .z32 | 6 => some .d64
  | _ => none
def LdSize.toNat : LdSize → Nat
  | .s8 => 0 | .z8 => 1 | .s16 => 2 | .z16 => 3 | .s32 => 4 | .z32 => 5 | .d64 => 6
/-- The size codes of ST and STX (R16). -/
def StSize.ofNat? : Nat → Option StSize
  | 0 => some .b1 | 1 => some .b2 | 2 => some .b4 | 3 => some .b8
  | _ => none
def StSize.toNat : StSize → Nat
  | .b1 => 0 | .b2 => 1 | .b4 => 2 | .b8 => 3
/-- The condition codes (R13). -/
def Cond.ofNat? : Nat → Option Cond
  | 0 => some .eqz | 1 => some .nez | 2 => some .ltz | 3 => some .gez | 4 => some .gtz | 5 => some .lez | 6 => some .bit0
  | _ => none
def Cond.toNat : Cond → Nat
  | .eqz => 0 | .nez => 1 | .ltz => 2 | .gez => 3 | .gtz => 4 | .lez => 5 | .bit0 => 6
/-- The system register numbers (R129). -/
def SysReg.ofNat? : Nat → Option SysReg
  | 0x000 => some .status
  | 0x001 => some .trapcause
  | 0x002 => some .trappc
  | 0x003 => some .trapframe
  | 0x004 => some .trapvec
  | 0x005 => some .machvec
  | 0x008 => some .repidx
  | 0x009 => some .lc0
  | 0x00A => some .lc1
  | 0x010 => some .fpstat
  | 0x011 => some .round
  | 0x012 => some .stochseed
  | 0x013 => some .pivtau
  | 0x014 => some .pivstat
  | 0x020 => some .asid
  | 0x021 => some .agentid
  | 0x022 => some .pdrain
  | 0x030 => some .hashch0
  | 0x031 => some .hashch1
  | 0x032 => some .hashch2
  | 0x033 => some .hashch3
  | 0x034 => some .hashch4
  | 0x035 => some .hashpc
  | 0x040 => some .wextbase
  | 0x041 => some .wextsize
  | 0x042 => some .ubinthresh
  | _ => none
def SysReg.toNat : SysReg → Nat
  | .status => 0x000
  | .trapcause => 0x001
  | .trappc => 0x002
  | .trapframe => 0x003
  | .trapvec => 0x004
  | .machvec => 0x005
  | .repidx => 0x008
  | .lc0 => 0x009
  | .lc1 => 0x00A
  | .fpstat => 0x010
  | .round => 0x011
  | .stochseed => 0x012
  | .pivtau => 0x013
  | .pivstat => 0x014
  | .asid => 0x020
  | .agentid => 0x021
  | .pdrain => 0x022
  | .hashch0 => 0x030
  | .hashch1 => 0x031
  | .hashch2 => 0x032
  | .hashch3 => 0x033
  | .hashch4 => 0x034
  | .hashpc => 0x035
  | .wextbase => 0x040
  | .wextsize => 0x041
  | .ubinthresh => 0x042
/-- The trap cause codes (R398). -/
def Cause.code : Cause → Nat
  | .illegal => 0x01
  | .priv => 0x02
  | .misalign => 0x03
  | .pagefault => 0x04
  | .access => 0x05
  | .uregion => 0x06
  | .fpx => 0x07
  | .deadlock => 0x08
  | .orphan => 0x09
  | .waitfull => 0x0A
  | .framebad => 0x0B
  | .watch => 0x0C
  | .bkpt => 0x0D
  | .trapi => 0x0E
  | .preempt => 0x0F
  | .ecc => 0x10
  | .link => 0x11
  | .coll => 0x12
  | .cfgrefuse => 0x13
  | .streamproto => 0x14

/-- The second source of format V (R11, R12). -/
def vsrc (w : Nat) : VSrc := if bits w 5 1 = 1 then .s (fin 32 w 11 5) else .v (fin 32 w 11 5)
def VSrc.enc : VSrc → Nat
  | .v r => r.val * 2048
  | .s r => r.val * 2048 + 32

/-- Keep an answer only when a reserved or selecting field holds. -/
def need (b : Bool) (r : Reject) (x : Except Reject Instr) : Except Reject Instr := if b then x else .error r

/-- Major 0x01: ADD, SUB, AND, OR …. -/
def decMajor01 (w : Nat) : Except Reject Instr :=
  match bits w 0 8 with
  | 0 => .ok (.add (fin 64 w 20 6) (fin 64 w 14 6) (fin 64 w 8 6))
  | 1 => .ok (.sub (fin 64 w 20 6) (fin 64 w 14 6) (fin 64 w 8 6))
  | 2 => .ok (.and (fin 64 w 20 6) (fin 64 w 14 6) (fin 64 w 8 6))
  | 3 => .ok (.or (fin 64 w 20 6) (fin 64 w 14 6) (fin 64 w 8 6))
  | 4 => .ok (.xor (fin 64 w 20 6) (fin 64 w 14 6) (fin 64 w 8 6))
  | 5 => .ok (.andn (fin 64 w 20 6) (fin 64 w 14 6) (fin 64 w 8 6))
  | 6 => .ok (.shl (fin 64 w 20 6) (fin 64 w 14 6) (fin 64 w 8 6))
  | 7 => .ok (.shr (fin 64 w 20 6) (fin 64 w 14 6) (fin 64 w 8 6))
  | 8 => .ok (.sra (fin 64 w 20 6) (fin 64 w 14 6) (fin 64 w 8 6))
  | 9 => .ok (.ror (fin 64 w 20 6) (fin 64 w 14 6) (fin 64 w 8 6))
  | 10 => .ok (.mul (fin 64 w 20 6) (fin 64 w 14 6) (fin 64 w 8 6))
  | 11 => .ok (.mulh (fin 64 w 20 6) (fin 64 w 14 6) (fin 64 w 8 6))
  | 12 => .ok (.mulhz (fin 64 w 20 6) (fin 64 w 14 6) (fin 64 w 8 6))
  | 13 => .ok (.div (fin 64 w 20 6) (fin 64 w 14 6) (fin 64 w 8 6))
  | 14 => .ok (.divz (fin 64 w 20 6) (fin 64 w 14 6) (fin 64 w 8 6))
  | 15 => .ok (.rem (fin 64 w 20 6) (fin 64 w 14 6) (fin 64 w 8 6))
  | 16 => .ok (.remz (fin 64 w 20 6) (fin 64 w 14 6) (fin 64 w 8 6))
  | 17 => .ok (.min (fin 64 w 20 6) (fin 64 w 14 6) (fin 64 w 8 6))
  | 18 => .ok (.max (fin 64 w 20 6) (fin 64 w 14 6) (fin 64 w 8 6))
  | 19 => .ok (.minz (fin 64 w 20 6) (fin 64 w 14 6) (fin 64 w 8 6))
  | 20 => .ok (.maxz (fin 64 w 20 6) (fin 64 w 14 6) (fin 64 w 8 6))
  | 21 => .ok (.slt (fin 64 w 20 6) (fin 64 w 14 6) (fin 64 w 8 6))
  | 22 => .ok (.sltz (fin 64 w 20 6) (fin 64 w 14 6) (fin 64 w 8 6))
  | 23 => .ok (.seq (fin 64 w 20 6) (fin 64 w 14 6) (fin 64 w 8 6))
  | 24 => need (bits w 8 6 == 0) .field (.ok (.clz (fin 64 w 20 6) (fin 64 w 14 6)))
  | 25 => need (bits w 8 6 == 0) .field (.ok (.ctz (fin 64 w 20 6) (fin 64 w 14 6)))
  | 26 => need (bits w 8 6 == 0) .field (.ok (.popc (fin 64 w 20 6) (fin 64 w 14 6)))
  | 27 => .ok (.bext (fin 64 w 20 6) (fin 64 w 14 6) (fin 64 w 8 6))
  | 28 => .ok (.bins (fin 64 w 20 6) (fin 64 w 14 6) (fin 64 w 8 6))
  | 29 => .ok (.selnz (fin 64 w 20 6) (fin 64 w 14 6) (fin 64 w 8 6))
  | _ => .error .fn

/-- Major 0x02: ADDI. -/
def decMajor02 (w : Nat) : Except Reject Instr :=
  .ok (.addi (fin 64 w 20 6) (fin 64 w 14 6) (BitVec.ofNat 14 (bits w 0 14)))

/-- Major 0x03: ANDI. -/
def decMajor03 (w : Nat) : Except Reject Instr :=
  .ok (.andi (fin 64 w 20 6) (fin 64 w 14 6) (BitVec.ofNat 14 (bits w 0 14)))

/-- Major 0x04: ORI. -/
def decMajor04 (w : Nat) : Except Reject Instr :=
  .ok (.ori (fin 64 w 20 6) (fin 64 w 14 6) (BitVec.ofNat 14 (bits w 0 14)))

/-- Major 0x05: XORI. -/
def decMajor05 (w : Nat) : Except Reject Instr :=
  .ok (.xori (fin 64 w 20 6) (fin 64 w 14 6) (BitVec.ofNat 14 (bits w 0 14)))

/-- Major 0x06: SHLI, SHRI, SRAI, RORI. -/
def decMajor06 (w : Nat) : Except Reject Instr :=
  match bits w 12 2 with
  | 0 => need (bits w 6 6 == 0) .field (.ok (.shli (fin 64 w 20 6) (fin 64 w 14 6) (BitVec.ofNat 6 (bits w 0 6))))
  | 1 => need (bits w 6 6 == 0) .field (.ok (.shri (fin 64 w 20 6) (fin 64 w 14 6) (BitVec.ofNat 6 (bits w 0 6))))
  | 2 => need (bits w 6 6 == 0) .field (.ok (.srai (fin 64 w 20 6) (fin 64 w 14 6) (BitVec.ofNat 6 (bits w 0 6))))
  | 3 => need (bits w 6 6 == 0) .field (.ok (.rori (fin 64 w 20 6) (fin 64 w 14 6) (BitVec.ofNat 6 (bits w 0 6))))
  | _ => .error .fn

/-- Major 0x07: SLTI. -/
def decMajor07 (w : Nat) : Except Reject Instr :=
  .ok (.slti (fin 64 w 20 6) (fin 64 w 14 6) (BitVec.ofNat 14 (bits w 0 14)))

/-- Major 0x08: SLTZI. -/
def decMajor08 (w : Nat) : Except Reject Instr :=
  .ok (.sltzi (fin 64 w 20 6) (fin 64 w 14 6) (BitVec.ofNat 14 (bits w 0 14)))

/-- Major 0x09: LUI. -/
def decMajor09 (w : Nat) : Except Reject Instr :=
  .ok (.lui (fin 64 w 20 6) (BitVec.ofNat 20 (bits w 0 20)))

/-- Major 0x0A: AUIPC. -/
def decMajor0A (w : Nat) : Except Reject Instr :=
  .ok (.auipc (fin 64 w 20 6) (BitVec.ofNat 20 (bits w 0 20)))

/-- Major 0x0B: LD. -/
def decMajor0B (w : Nat) : Except Reject Instr :=
  (match LdSize.ofNat? (bits w 11 3) with | some z => .ok (.ld (fin 64 w 20 6) (fin 64 w 14 6) z (BitVec.ofNat 11 (bits w 0 11))) | none => .error .field)

/-- Major 0x0C: ST. -/
def decMajor0C (w : Nat) : Except Reject Instr :=
  need (bits w 13 1 == 0) .field ((match StSize.ofNat? (bits w 11 2) with | some z => .ok (.st (fin 64 w 20 6) (fin 64 w 14 6) z (BitVec.ofNat 11 (bits w 0 11))) | none => .error .field))

/-- Major 0x0D: LDX. -/
def decMajor0D (w : Nat) : Except Reject Instr :=
  need (bits w 3 5 == 0) .field ((match LdSize.ofNat? (bits w 0 3) with | some z => .ok (.ldx (fin 64 w 20 6) (fin 64 w 14 6) (fin 64 w 8 6) z) | none => .error .field))

/-- Major 0x0E: STX. -/
def decMajor0E (w : Nat) : Except Reject Instr :=
  need (bits w 2 6 == 0) .field ((match StSize.ofNat? (bits w 0 2) with | some z => .ok (.stx (fin 64 w 20 6) (fin 64 w 14 6) (fin 64 w 8 6) z) | none => .error .field))

/-- Major 0x0F: LEA. -/
def decMajor0F (w : Nat) : Except Reject Instr :=
  .ok (.lea (fin 64 w 20 6) (fin 64 w 14 6) (BitVec.ofNat 14 (bits w 0 14)))

/-- Major 0x10: PFCH. -/
def decMajor10 (w : Nat) : Except Reject Instr :=
  need (bits w 20 6 == 0) .field (.ok (.pfch (fin 64 w 14 6) (BitVec.ofNat 14 (bits w 0 14))))

/-- Major 0x11: BR. -/
def decMajor11 (w : Nat) : Except Reject Instr :=
  (match Cond.ofNat? (bits w 17 3) with | some z => .ok (.br (fin 64 w 20 6) z (BitVec.ofNat 17 (bits w 0 17))) | none => .error .field)

/-- Major 0x12: JMP. -/
def decMajor12 (w : Nat) : Except Reject Instr :=
  .ok (.jmp (BitVec.ofNat 26 (bits w 0 26)))

/-- Major 0x13: CALL. -/
def decMajor13 (w : Nat) : Except Reject Instr :=
  .ok (.call (BitVec.ofNat 26 (bits w 0 26)))

/-- Major 0x14: JR, CALLR, RET. -/
def decMajor14 (w : Nat) : Except Reject Instr :=
  match bits w 0 8 with
  | 0 => need (bits w 20 6 == 0) .field (need (bits w 8 6 == 0) .field (.ok (.jr (fin 64 w 14 6))))
  | 1 => need (bits w 20 6 == 0) .field (need (bits w 8 6 == 0) .field (.ok (.callr (fin 64 w 14 6))))
  | 2 => need (bits w 8 18 == 0) .field (.ok (.ret))
  | _ => .error .fn

/-- Major 0x15: LOOP. -/
def decMajor15 (w : Nat) : Except Reject Instr :=
  need (bits w 0 10 == 0) .field (.ok (.loop (fin 2 w 25 1) (fin 64 w 19 6) (BitVec.ofNat 9 (bits w 10 9))))

/-- Major 0x16: LOOPI. -/
def decMajor16 (w : Nat) : Except Reject Instr :=
  need (bits w 0 1 == 0) .field (.ok (.loopi (fin 2 w 25 1) (BitVec.ofNat 15 (bits w 10 15)) (BitVec.ofNat 9 (bits w 1 9))))

/-- Major 0x17: REP, REPI. -/
def decMajor17 (w : Nat) : Except Reject Instr :=
  match bits w 0 8 with
  | 0 => need (bits w 8 6 == 0) .field (.ok (.rep (fin 64 w 20 6) (fin 64 w 14 6)))
  | 1 => .ok (.repi (fin 64 w 20 6) (BitVec.ofNat 12 (bits w 8 12)))
  | _ => .error .fn

/-- Major 0x18: JTAB. -/
def decMajor18 (w : Nat) : Except Reject Instr :=
  .ok (.jtab (fin 64 w 20 6) (fin 64 w 14 6) (BitVec.ofNat 14 (bits w 0 14)))

/-- Major 0x19: NOP. -/
def decMajor19 (w : Nat) : Except Reject Instr :=
  need (bits w 0 26 == 0) .field (.ok (.nop))

/-- Major 0x20: VADD, VSUB, VMUL, VMULH …. -/
def decMajor20 (w : Nat) : Except Reject Instr :=
  match bits w 0 5 with
  | 0 => .ok (.vadd (fin 32 w 21 5) (fin 32 w 16 5) (vsrc w) (fin 8 w 8 3) (fin 4 w 6 2))
  | 1 => .ok (.vsub (fin 32 w 21 5) (fin 32 w 16 5) (vsrc w) (fin 8 w 8 3) (fin 4 w 6 2))
  | 2 => .ok (.vmul (fin 32 w 21 5) (fin 32 w 16 5) (vsrc w) (fin 8 w 8 3) (fin 4 w 6 2))
  | 3 => .ok (.vmulh (fin 32 w 21 5) (fin 32 w 16 5) (vsrc w) (fin 8 w 8 3) (fin 4 w 6 2))
  | 4 => .ok (.vmin (fin 32 w 21 5) (fin 32 w 16 5) (vsrc w) (fin 8 w 8 3) (fin 4 w 6 2))
  | 5 => .ok (.vmax (fin 32 w 21 5) (fin 32 w 16 5) (vsrc w) (fin 8 w 8 3) (fin 4 w 6 2))
  | 6 => .ok (.vminz (fin 32 w 21 5) (fin 32 w 16 5) (vsrc w) (fin 8 w 8 3) (fin 4 w 6 2))
  | 7 => .ok (.vmaxz (fin 32 w 21 5) (fin 32 w 16 5) (vsrc w) (fin 8 w 8 3) (fin 4 w 6 2))
  | 8 => .ok (.vand (fin 32 w 21 5) (fin 32 w 16 5) (vsrc w) (fin 8 w 8 3) (fin 4 w 6 2))
  | 9 => .ok (.vor (fin 32 w 21 5) (fin 32 w 16 5) (vsrc w) (fin 8 w 8 3) (fin 4 w 6 2))
  | 10 => .ok (.vxor (fin 32 w 21 5) (fin 32 w 16 5) (vsrc w) (fin 8 w 8 3) (fin 4 w 6 2))
  | 11 => .ok (.vshl (fin 32 w 21 5) (fin 32 w 16 5) (vsrc w) (fin 8 w 8 3) (fin 4 w 6 2))
  | 12 => .ok (.vshr (fin 32 w 21 5) (fin 32 w 16 5) (vsrc w) (fin 8 w 8 3) (fin 4 w 6 2))
  | 13 => .ok (.vsra (fin 32 w 21 5) (fin 32 w 16 5) (vsrc w) (fin 8 w 8 3) (fin 4 w 6 2))
  | 14 => .ok (.vadds (fin 32 w 21 5) (fin 32 w 16 5) (vsrc w) (fin 8 w 8 3) (fin 4 w 6 2))
  | 15 => .ok (.vsubs (fin 32 w 21 5) (fin 32 w 16 5) (vsrc w) (fin 8 w 8 3) (fin 4 w 6 2))
  | _ => .error .fn

/-- Major 0x21: VFADD, VFSUB, VFMUL, VFMA …. -/
def decMajor21 (w : Nat) : Except Reject Instr :=
  match bits w 0 5 with
  | 0 => .ok (.vfadd (fin 32 w 21 5) (fin 32 w 16 5) (vsrc w) (fin 8 w 8 3) (fin 4 w 6 2))
  | 1 => .ok (.vfsub (fin 32 w 21 5) (fin 32 w 16 5) (vsrc w) (fin 8 w 8 3) (fin 4 w 6 2))
  | 2 => .ok (.vfmul (fin 32 w 21 5) (fin 32 w 16 5) (vsrc w) (fin 8 w 8 3) (fin 4 w 6 2))
  | 3 => .ok (.vfma (fin 32 w 21 5) (fin 32 w 16 5) (vsrc w) (fin 8 w 8 3) (fin 4 w 6 2))
  | 4 => .ok (.vfnma (fin 32 w 21 5) (fin 32 w 16 5) (vsrc w) (fin 8 w 8 3) (fin 4 w 6 2))
  | 5 => .ok (.vfmin (fin 32 w 21 5) (fin 32 w 16 5) (vsrc w) (fin 8 w 8 3) (fin 4 w 6 2))
  | 6 => .ok (.vfmax (fin 32 w 21 5) (fin 32 w 16 5) (vsrc w) (fin 8 w 8 3) (fin 4 w 6 2))
  | 7 => need (bits w 11 5 == 0) .field (need (bits w 5 1 == 0) .field (.ok (.vfabs (fin 32 w 21 5) (fin 32 w 16 5) (fin 8 w 8 3) (fin 4 w 6 2))))
  | 8 => need (bits w 11 5 == 0) .field (need (bits w 5 1 == 0) .field (.ok (.vfneg (fin 32 w 21 5) (fin 32 w 16 5) (fin 8 w 8 3) (fin 4 w 6 2))))
  | 9 => .ok (.vfdiv (fin 32 w 21 5) (fin 32 w 16 5) (vsrc w) (fin 8 w 8 3) (fin 4 w 6 2))
  | 10 => need (bits w 11 5 == 0) .field (need (bits w 5 1 == 0) .field (.ok (.vfsqrt (fin 32 w 21 5) (fin 32 w 16 5) (fin 8 w 8 3) (fin 4 w 6 2))))
  | 11 => need (bits w 11 5 == 0) .field (need (bits w 5 1 == 0) .field (.ok (.vfrsq (fin 32 w 21 5) (fin 32 w 16 5) (fin 8 w 8 3) (fin 4 w 6 2))))
  | 12 => need (bits w 11 5 == 0) .field (need (bits w 5 1 == 0) .field (.ok (.vfexp2 (fin 32 w 21 5) (fin 32 w 16 5) (fin 8 w 8 3) (fin 4 w 6 2))))
  | 13 => need (bits w 11 5 == 0) .field (need (bits w 5 1 == 0) .field (.ok (.vflog2 (fin 32 w 21 5) (fin 32 w 16 5) (fin 8 w 8 3) (fin 4 w 6 2))))
  | _ => .error .fn

/-- Major 0x22: VCEQ, VCLT, VCLTZ, VCLE …. -/
def decMajor22 (w : Nat) : Except Reject Instr :=
  match bits w 0 5 with
  | 0 => need (bits w 21 5 < 8) .register (.ok (.vceq (fin 8 w 21 5) (fin 32 w 16 5) (vsrc w) (fin 8 w 8 3) (fin 4 w 6 2)))
  | 1 => need (bits w 21 5 < 8) .register (.ok (.vclt (fin 8 w 21 5) (fin 32 w 16 5) (vsrc w) (fin 8 w 8 3) (fin 4 w 6 2)))
  | 2 => need (bits w 21 5 < 8) .register (.ok (.vcltz (fin 8 w 21 5) (fin 32 w 16 5) (vsrc w) (fin 8 w 8 3) (fin 4 w 6 2)))
  | 3 => need (bits w 21 5 < 8) .register (.ok (.vcle (fin 8 w 21 5) (fin 32 w 16 5) (vsrc w) (fin 8 w 8 3) (fin 4 w 6 2)))
  | 4 => need (bits w 21 5 < 8) .register (.ok (.vfceq (fin 8 w 21 5) (fin 32 w 16 5) (vsrc w) (fin 8 w 8 3) (fin 4 w 6 2)))
  | 5 => need (bits w 21 5 < 8) .register (.ok (.vfclt (fin 8 w 21 5) (fin 32 w 16 5) (vsrc w) (fin 8 w 8 3) (fin 4 w 6 2)))
  | 6 => need (bits w 21 5 < 8) .register (.ok (.vfcle (fin 8 w 21 5) (fin 32 w 16 5) (vsrc w) (fin 8 w 8 3) (fin 4 w 6 2)))
  | 7 => need (bits w 21 5 < 8) .register (.ok (.vfcun (fin 8 w 21 5) (fin 32 w 16 5) (vsrc w) (fin 8 w 8 3) (fin 4 w 6 2)))
  | _ => .error .fn

/-- Major 0x23: VCVT. -/
def decMajor23 (w : Nat) : Except Reject Instr :=
  match bits w 0 8 with
  | 0 => .ok (.vcvt (fin 32 w 21 5) (fin 32 w 16 5) (fin 32 w 11 5) (fin 8 w 8 3))
  | _ => .error .fn

/-- Major 0x24: VLD, VST, VLDS, VSTS …. -/
def decMajor24 (w : Nat) : Except Reject Instr :=
  match bits w 0 5 with
  | 0 => need (bits w 11 5 == 0) .field (need (bits w 5 1 == 0) .field (.ok (.vld (fin 32 w 21 5) (fin 32 w 16 5) (fin 8 w 8 3) (fin 4 w 6 2))))
  | 1 => need (bits w 11 5 == 0) .field (need (bits w 5 1 == 0) .field (.ok (.vst (fin 32 w 21 5) (fin 32 w 16 5) (fin 8 w 8 3) (fin 4 w 6 2))))
  | 2 => need (bits w 5 1 == 1) .field (.ok (.vlds (fin 32 w 21 5) (fin 32 w 16 5) (fin 32 w 11 5) (fin 8 w 8 3) (fin 4 w 6 2)))
  | 3 => need (bits w 5 1 == 1) .field (.ok (.vsts (fin 32 w 21 5) (fin 32 w 16 5) (fin 32 w 11 5) (fin 8 w 8 3) (fin 4 w 6 2)))
  | 4 => need (bits w 5 1 == 0) .field (.ok (.vgth (fin 32 w 21 5) (fin 32 w 16 5) (fin 32 w 11 5) (fin 8 w 8 3) (fin 4 w 6 2)))
  | 5 => need (bits w 5 1 == 0) .field (.ok (.vsct (fin 32 w 21 5) (fin 32 w 16 5) (fin 32 w 11 5) (fin 8 w 8 3) (fin 4 w 6 2)))
  | 6 => need (bits w 11 5 == 0) .field (need (bits w 5 1 == 0) .field (.ok (.vldb (fin 32 w 21 5) (fin 32 w 16 5) (fin 8 w 8 3) (fin 4 w 6 2))))
  | 7 => need (bits w 5 6 == 5) .field (need (bits w 16 5 < 16) .register (.ok (.vldq (fin 32 w 21 5) (fin 16 w 16 5) (fin 32 w 11 5))))
  | 8 => need (bits w 5 6 == 5) .field (need (bits w 16 5 < 16) .register (.ok (.vstq (fin 32 w 21 5) (fin 16 w 16 5) (fin 32 w 11 5))))
  | 9 => need (bits w 5 1 == 0) .field (.ok (.updv (fin 32 w 21 5) (fin 32 w 16 5) (fin 32 w 11 5) (fin 8 w 8 3) (fin 4 w 6 2)))
  | _ => .error .fn

/-- Major 0x25: VPERM, VSLUP, VSLDN, VREDA …. -/
def decMajor25 (w : Nat) : Except Reject Instr :=
  match bits w 0 5 with
  | 0 => need (bits w 5 1 == 0) .field (.ok (.vperm (fin 32 w 21 5) (fin 32 w 16 5) (fin 32 w 11 5) (fin 8 w 8 3) (fin 4 w 6 2)))
  | 1 => need (bits w 5 1 == 1) .field (.ok (.vslup (fin 32 w 21 5) (fin 32 w 16 5) (fin 32 w 11 5) (fin 8 w 8 3) (fin 4 w 6 2)))
  | 2 => need (bits w 5 1 == 1) .field (.ok (.vsldn (fin 32 w 21 5) (fin 32 w 16 5) (fin 32 w 11 5) (fin 8 w 8 3) (fin 4 w 6 2)))
  | 3 => need (bits w 11 5 == 0) .field (need (bits w 5 1 == 0) .field (.ok (.vreda (fin 32 w 21 5) (fin 32 w 16 5) (fin 8 w 8 3) (fin 4 w 6 2))))
  | 4 => need (bits w 11 5 == 0) .field (need (bits w 5 1 == 0) .field (.ok (.vredx (fin 32 w 21 5) (fin 32 w 16 5) (fin 8 w 8 3) (fin 4 w 6 2))))
  | 5 => need (bits w 11 5 == 0) .field (need (bits w 5 1 == 0) .field (.ok (.vredn (fin 32 w 21 5) (fin 32 w 16 5) (fin 8 w 8 3) (fin 4 w 6 2))))
  | 6 => need (bits w 11 5 == 0) .field (need (bits w 5 1 == 0) .field (.ok (.vfreda (fin 32 w 21 5) (fin 32 w 16 5) (fin 8 w 8 3) (fin 4 w 6 2))))
  | 7 => need (bits w 11 5 == 0) .field (need (bits w 5 1 == 0) .field (.ok (.vcmpr (fin 32 w 21 5) (fin 32 w 16 5) (fin 8 w 8 3) (fin 4 w 6 2))))
  | 8 => need (bits w 11 5 == 0) .field (need (bits w 5 1 == 0) .field (.ok (.vexpd (fin 32 w 21 5) (fin 32 w 16 5) (fin 8 w 8 3) (fin 4 w 6 2))))
  | 9 => .ok (.vmrg (fin 32 w 21 5) (fin 32 w 16 5) (vsrc w) (fin 8 w 8 3) (fin 4 w 6 2))
  | _ => .error .fn

/-- Major 0x26: VSPLAT, VINS, VEXT, VIOTA. -/
def decMajor26 (w : Nat) : Except Reject Instr :=
  match bits w 0 5 with
  | 0 => need (bits w 16 5 == 0) .field (need (bits w 5 1 == 1) .field (.ok (.vsplat (fin 32 w 21 5) (fin 32 w 11 5) (fin 8 w 8 3) (fin 4 w 6 2))))
  | 1 => need (bits w 8 3 == 0) .field (need (bits w 5 1 == 1) .field (.ok (.vins (fin 32 w 21 5) (fin 32 w 16 5) (fin 32 w 11 5) (fin 4 w 6 2))))
  | 2 => need (bits w 8 3 == 0) .field (need (bits w 5 1 == 1) .field (.ok (.vext (fin 32 w 21 5) (fin 32 w 16 5) (fin 32 w 11 5) (fin 4 w 6 2))))
  | 3 => need (bits w 11 10 == 0) .field (need (bits w 5 1 == 0) .field (.ok (.viota (fin 32 w 21 5) (fin 8 w 8 3) (fin 4 w 6 2))))
  | _ => .error .fn

/-- Major 0x27: MAND, MOR, MXOR, MNOT …. -/
def decMajor27 (w : Nat) : Except Reject Instr :=
  match bits w 0 5 with
  | 0 => need (bits w 5 6 == 0) .field (need (bits w 21 5 < 8) .register (need (bits w 16 5 < 8) .register (need (bits w 11 5 < 8) .register (.ok (.mand (fin 8 w 21 5) (fin 8 w 16 5) (fin 8 w 11 5))))))
  | 1 => need (bits w 5 6 == 0) .field (need (bits w 21 5 < 8) .register (need (bits w 16 5 < 8) .register (need (bits w 11 5 < 8) .register (.ok (.mor (fin 8 w 21 5) (fin 8 w 16 5) (fin 8 w 11 5))))))
  | 2 => need (bits w 5 6 == 0) .field (need (bits w 21 5 < 8) .register (need (bits w 16 5 < 8) .register (need (bits w 11 5 < 8) .register (.ok (.mxor (fin 8 w 21 5) (fin 8 w 16 5) (fin 8 w 11 5))))))
  | 3 => need (bits w 5 11 == 0) .field (need (bits w 21 5 < 8) .register (need (bits w 16 5 < 8) .register (.ok (.mnot (fin 8 w 21 5) (fin 8 w 16 5)))))
  | 4 => need (bits w 5 11 == 0) .field (need (bits w 16 5 < 8) .register (.ok (.mpopc (fin 32 w 21 5) (fin 8 w 16 5))))
  | 5 => if bits w 5 1 = 0 then need (bits w 5 11 == 0) .field (need (bits w 21 5 < 8) .register (need (bits w 16 5 < 8) .register (.ok (.mmov (fin 8 w 21 5) (fin 8 w 16 5))))) else need (bits w 16 5 == 0) .field (need (bits w 5 6 == 1) .field (need (bits w 21 5 < 8) .register (.ok (.mmovScalar (fin 8 w 21 5) (fin 32 w 11 5)))))
  | _ => .error .fn

/-- Major 0x28: VPIV, VPRCP, VFMAN, VPSTAT. -/
def decMajor28 (w : Nat) : Except Reject Instr :=
  match bits w 0 5 with
  | 0 => need (bits w 5 3 == 4) .field (need (bits w 11 5 < 8) .register (.ok (.vpiv (fin 32 w 21 5) (fin 32 w 16 5) (fin 8 w 11 5) (fin 8 w 8 3))))
  | 1 => need (bits w 5 3 == 4) .field (need (bits w 11 5 < 8) .register (.ok (.vprcp (fin 32 w 21 5) (fin 32 w 16 5) (fin 8 w 11 5) (fin 8 w 8 3))))
  | 2 => .ok (.vfman (fin 32 w 21 5) (fin 32 w 16 5) (vsrc w) (fin 8 w 8 3) (fin 4 w 6 2))
  | 3 => need (bits w 5 16 == 0) .field (.ok (.vpstat (fin 32 w 21 5)))
  | _ => .error .fn

/-- Major 0x29: VBDOT. -/
def decMajor29 (w : Nat) : Except Reject Instr :=
  match bits w 0 5 with
  | 0 => need (bits w 7 1 == 1) .field (.ok (.vbdot (fin 32 w 21 5) (fin 32 w 16 5) (vsrc w) (fin 8 w 8 3) (fin 2 w 6 1)))
  | _ => .error .fn

/-- Major 0x30: FLOAD, FARM, FSEL, FSTAT …. -/
def decMajor30 (w : Nat) : Except Reject Instr :=
  match bits w 0 8 with
  | 0 => .ok (.fload (fin 64 w 20 6) (fin 64 w 14 6) (fin 64 w 8 6))
  | 1 => need (bits w 20 6 == 0) .field (.ok (.farm (fin 64 w 14 6) (fin 64 w 8 6)))
  | 2 => need (bits w 20 6 == 0) .field (.ok (.fsel (fin 64 w 14 6) (fin 64 w 8 6)))
  | 3 => need (bits w 8 6 == 0) .field (.ok (.fstat (fin 64 w 20 6) (fin 64 w 14 6)))
  | 4 => need (bits w 20 6 == 0) .field (need (bits w 8 6 == 0) .field (.ok (.fkill (fin 64 w 14 6))))
  | 5 => need (bits w 20 6 == 0) .field (.ok (.fckpt (fin 64 w 14 6) (fin 64 w 8 6)))
  | 6 => need (bits w 20 6 == 0) .field (need (bits w 8 6 == 0) .field (.ok (.fdrain (fin 64 w 14 6))))
  | 7 => need (bits w 20 6 < 16) .register (.ok (.fbind (fin 16 w 20 6) (fin 64 w 14 6) (fin 64 w 8 6)))
  | 8 => need (bits w 20 6 < 16) .register (.ok (.qpush (fin 16 w 20 6) (fin 64 w 14 6) (fin 64 w 8 6)))
  | 9 => need (bits w 14 6 < 16) .register (.ok (.qpop (fin 64 w 20 6) (fin 16 w 14 6) (fin 64 w 8 6)))
  | 10 => need (bits w 8 6 == 0) .field (need (bits w 20 6 < 16) .register (.ok (.qstop (fin 16 w 20 6) (fin 64 w 14 6))))
  | 11 => need (bits w 8 12 == 0) .field (need (bits w 20 6 < 16) .register (.ok (.qdone (fin 16 w 20 6))))
  | _ => .error .fn

/-- Major 0x31: CPY, CPWP, CPWAIT, CPCAN …. -/
def decMajor31 (w : Nat) : Except Reject Instr :=
  match bits w 0 8 with
  | 0 => need (bits w 8 6 == 0) .field (.ok (.cpy (fin 64 w 20 6) (fin 64 w 14 6)))
  | 1 => need (bits w 8 6 == 0) .field (.ok (.cpwp (fin 64 w 20 6) (fin 64 w 14 6)))
  | 2 => .ok (.cpwait (fin 64 w 20 6) (fin 64 w 14 6) (fin 64 w 8 6))
  | 3 => need (bits w 20 6 == 0) .field (need (bits w 8 6 == 0) .field (.ok (.cpcan (fin 64 w 14 6))))
  | 4 => need (bits w 8 6 == 0) .field (.ok (.gath (fin 64 w 20 6) (fin 64 w 14 6)))
  | 5 => need (bits w 20 6 == 0) .field (.ok (.cpcode (fin 64 w 14 6) (fin 64 w 8 6)))
  | _ => .error .fn

/-- Major 0x32: UPD, UFENCE, UAPPLY, UREGION …. -/
def decMajor32 (w : Nat) : Except Reject Instr :=
  match bits w 0 8 with
  | 0 => need (bits w 20 6 == 0) .field (.ok (.upd (fin 64 w 14 6) (fin 64 w 8 6)))
  | 1 => need (bits w 20 6 == 0) .field (need (bits w 8 6 == 0) .field (.ok (.ufence (fin 64 w 14 6))))
  | 2 => need (bits w 20 6 == 0) .field (.ok (.uapply (fin 64 w 14 6) (fin 64 w 8 6)))
  | 3 => need (bits w 8 6 == 0) .field (.ok (.uregion (fin 64 w 20 6) (fin 64 w 14 6)))
  | 4 => need (bits w 20 6 == 0) .field (need (bits w 8 6 == 0) .field (.ok (.ufree (fin 64 w 14 6))))
  | 5 => need (bits w 8 6 == 0) .field (.ok (.ustat (fin 64 w 20 6) (fin 64 w 14 6)))
  | _ => .error .fn

/-- Major 0x33: CAS, DCAS, AMOVE, SWAP …. -/
def decMajor33 (w : Nat) : Except Reject Instr :=
  match bits w 0 8 with
  | 0 => .ok (.cas (fin 64 w 20 6) (fin 64 w 14 6) (fin 64 w 8 6))
  | 1 => .ok (.dcas (fin 64 w 20 6) (fin 64 w 14 6) (fin 64 w 8 6))
  | 2 => .ok (.amove (fin 64 w 20 6) (fin 64 w 14 6) (fin 64 w 8 6))
  | 3 => .ok (.swap (fin 64 w 20 6) (fin 64 w 14 6) (fin 64 w 8 6))
  | 4 => need (bits w 8 6 == 0) .field (.ok (.ldaq (fin 64 w 20 6) (fin 64 w 14 6)))
  | 5 => need (bits w 20 6 == 0) .field (.ok (.strl (fin 64 w 14 6) (fin 64 w 8 6)))
  | _ => .error .fn

/-- Major 0x34: BINIT, BARR, BWAIT, BARW …. -/
def decMajor34 (w : Nat) : Except Reject Instr :=
  match bits w 0 8 with
  | 0 => .ok (.binit (fin 64 w 20 6) (fin 64 w 14 6) (fin 64 w 8 6))
  | 1 => need (bits w 8 6 == 0) .field (.ok (.barr (fin 64 w 20 6) (fin 64 w 14 6)))
  | 2 => .ok (.bwait (fin 64 w 20 6) (fin 64 w 14 6) (fin 64 w 8 6))
  | 3 => need (bits w 8 6 == 0) .field (.ok (.barw (fin 64 w 20 6) (fin 64 w 14 6)))
  | 4 => .ok (.badj (fin 64 w 20 6) (fin 64 w 14 6) (fin 64 w 8 6))
  | 5 => need (bits w 20 6 == 0) .field (need (bits w 8 6 == 0) .field (.ok (.babort (fin 64 w 14 6))))
  | 6 => need (bits w 8 6 == 0) .field (.ok (.lkacq (fin 64 w 20 6) (fin 64 w 14 6)))
  | 7 => need (bits w 8 6 == 0) .field (.ok (.lktry (fin 64 w 20 6) (fin 64 w 14 6)))
  | 8 => need (bits w 20 6 == 0) .field (need (bits w 8 6 == 0) .field (.ok (.lkrel (fin 64 w 14 6))))
  | _ => .error .fn

/-- Major 0x35: WOBJ, WHOLD, WDROP, WWAIT …. -/
def decMajor35 (w : Nat) : Except Reject Instr :=
  match bits w 0 8 with
  | 0 => need (bits w 20 6 == 0) .field (.ok (.wobj (fin 64 w 14 6) (fin 64 w 8 6)))
  | 1 => need (bits w 20 6 == 0) .field (need (bits w 8 6 == 0) .field (.ok (.whold (fin 64 w 14 6))))
  | 2 => need (bits w 20 6 == 0) .field (need (bits w 8 6 == 0) .field (.ok (.wdrop (fin 64 w 14 6))))
  | 3 => .ok (.wwait (fin 64 w 20 6) (fin 64 w 14 6) (fin 64 w 8 6))
  | 4 => need (bits w 8 6 == 0) .field (.ok (.wquery (fin 64 w 20 6) (fin 64 w 14 6)))
  | 5 => need (bits w 8 6 == 0) .field (.ok (.wcycle (fin 64 w 20 6) (fin 64 w 14 6)))
  | _ => .error .fn

/-- Major 0x36: SPAWN, JOIN, YIELD, EXIT …. -/
def decMajor36 (w : Nat) : Except Reject Instr :=
  match bits w 0 8 with
  | 0 => .ok (.spawn (fin 64 w 20 6) (fin 64 w 14 6) (fin 64 w 8 6))
  | 1 => need (bits w 8 6 == 0) .field (.ok (.join (fin 64 w 20 6) (fin 64 w 14 6)))
  | 2 => need (bits w 8 18 == 0) .field (.ok (.yield))
  | 3 => need (bits w 8 18 == 0) .field (.ok (.exit))
  | 4 => .ok (.launch (fin 64 w 20 6) (fin 64 w 14 6) (fin 64 w 8 6))
  | 5 => need (bits w 8 6 == 0) .field (.ok (.prio (fin 64 w 20 6) (fin 64 w 14 6)))
  | 6 => need (bits w 20 6 == 0) .field (.ok (.estim (fin 64 w 14 6) (fin 64 w 8 6)))
  | 7 => need (bits w 8 12 == 0) .field (.ok (.self (fin 64 w 20 6)))
  | _ => .error .fn

/-- Major 0x37: FENCE, SBAR, DRAINW. -/
def decMajor37 (w : Nat) : Except Reject Instr :=
  match bits w 0 8 with
  | 0 => need (bits w 14 12 == 0) .field (.ok (.fence (fin 16 w 10 4) (fin 4 w 8 2)))
  | 1 => need (bits w 12 14 == 0) .field (.ok (.sbar (bits w 11 1 == 1) (bits w 10 1 == 1) (bits w 9 1 == 1) (bits w 8 1 == 1)))
  | 2 => need (bits w 8 6 == 0) .field (.ok (.drainw (fin 64 w 20 6) (fin 64 w 14 6)))
  | _ => .error .fn

/-- Major 0x38: COLLS, COLLW, COLLST, COLLABT …. -/
def decMajor38 (w : Nat) : Except Reject Instr :=
  match bits w 0 8 with
  | 0 => need (bits w 8 6 == 0) .field (.ok (.colls (fin 64 w 20 6) (fin 64 w 14 6)))
  | 1 => need (bits w 8 6 == 0) .field (.ok (.collw (fin 64 w 20 6) (fin 64 w 14 6)))
  | 2 => need (bits w 8 6 == 0) .field (.ok (.collst (fin 64 w 20 6) (fin 64 w 14 6)))
  | 3 => need (bits w 20 6 == 0) .field (need (bits w 8 6 == 0) .field (.ok (.collabt (fin 64 w 14 6))))
  | 4 => .ok (.memb (fin 64 w 20 6) (fin 64 w 14 6) (fin 64 w 8 6))
  | _ => .error .fn

/-- Major 0x39: SYSR, SYSW, SYSSET, SYSCLR …. -/
def decMajor39 (w : Nat) : Except Reject Instr :=
  match bits w 0 8 with
  | 0 => (match SysReg.ofNat? (bits w 8 12) with | some z => .ok (.sysr (fin 64 w 20 6) z) | none => .error .field)
  | 1 => (match SysReg.ofNat? (bits w 8 12) with | some z => .ok (.sysw (fin 64 w 20 6) z) | none => .error .field)
  | 2 => (match SysReg.ofNat? (bits w 8 12) with | some z => .ok (.sysset (fin 64 w 20 6) z) | none => .error .field)
  | 3 => (match SysReg.ofNat? (bits w 8 12) with | some z => .ok (.sysclr (fin 64 w 20 6) z) | none => .error .field)
  | 4 => need (bits w 20 6 == 0) .field (.ok (.xlinv (fin 64 w 14 6) (fin 64 w 8 6)))
  | _ => .error .fn

/-- Major 0x3A: TRAP, TRET, BKPT, HALT. -/
def decMajor3A (w : Nat) : Except Reject Instr :=
  match bits w 0 8 with
  | 0 => need (bits w 20 6 == 0) .field (.ok (.trap (BitVec.ofNat 12 (bits w 8 12))))
  | 1 => need (bits w 8 18 == 0) .field (.ok (.tret))
  | 2 => need (bits w 8 18 == 0) .field (.ok (.bkpt))
  | 3 => need (bits w 8 18 == 0) .field (.ok (.halt))
  | _ => .error .fn

/-- Major 0x3B: TRCON, TRCOFF, TRCMARK, WPSET …. -/
def decMajor3B (w : Nat) : Except Reject Instr :=
  match bits w 0 8 with
  | 0 => need (bits w 8 18 == 0) .field (.ok (.trcon))
  | 1 => need (bits w 8 18 == 0) .field (.ok (.trcoff))
  | 2 => .ok (.trcmark (fin 64 w 20 6) (BitVec.ofNat 12 (bits w 8 12)))
  | 3 => .ok (.wpset (fin 64 w 20 6) (fin 64 w 14 6) (fin 64 w 8 6))
  | 4 => need (bits w 20 6 == 0) .field (need (bits w 8 6 == 0) .field (.ok (.wpclr (fin 64 w 14 6))))
  | _ => .error .fn

/-- A control word by its major opcode (R16 to R18), before the checks of `wellFormed`. -/
def decodeMajor (w : Nat) : Except Reject Instr :=
  match bits w 26 6 with
  | 0x01 => decMajor01 w
  | 0x02 => decMajor02 w
  | 0x03 => decMajor03 w
  | 0x04 => decMajor04 w
  | 0x05 => decMajor05 w
  | 0x06 => decMajor06 w
  | 0x07 => decMajor07 w
  | 0x08 => decMajor08 w
  | 0x09 => decMajor09 w
  | 0x0A => decMajor0A w
  | 0x0B => decMajor0B w
  | 0x0C => decMajor0C w
  | 0x0D => decMajor0D w
  | 0x0E => decMajor0E w
  | 0x0F => decMajor0F w
  | 0x10 => decMajor10 w
  | 0x11 => decMajor11 w
  | 0x12 => decMajor12 w
  | 0x13 => decMajor13 w
  | 0x14 => decMajor14 w
  | 0x15 => decMajor15 w
  | 0x16 => decMajor16 w
  | 0x17 => decMajor17 w
  | 0x18 => decMajor18 w
  | 0x19 => decMajor19 w
  | 0x20 => decMajor20 w
  | 0x21 => decMajor21 w
  | 0x22 => decMajor22 w
  | 0x23 => decMajor23 w
  | 0x24 => decMajor24 w
  | 0x25 => decMajor25 w
  | 0x26 => decMajor26 w
  | 0x27 => decMajor27 w
  | 0x28 => decMajor28 w
  | 0x29 => decMajor29 w
  | 0x30 => decMajor30 w
  | 0x31 => decMajor31 w
  | 0x32 => decMajor32 w
  | 0x33 => decMajor33 w
  | 0x34 => decMajor34 w
  | 0x35 => decMajor35 w
  | 0x36 => decMajor36 w
  | 0x37 => decMajor37 w
  | 0x38 => decMajor38 w
  | 0x39 => decMajor39 w
  | 0x3A => decMajor3A w
  | 0x3B => decMajor3B w
  | _ => .error .major

/-- A control instruction word (R11 to R20): the instruction, or the reason it is ILLEGAL under R15. -/
def decodeControl (w : Nat) : Except Reject Instr :=
  if w = 0 then .error .zeroWord else
  match decodeMajor w with
  | .ok i => if controlWf i then .ok i else .error .wellFormed
  | .error r => .error r

/-- The operation of an element word by its eop (R22), part A; the word's checks are those of `ElemWord.flaw`. -/
def decodeEopA (w : Nat) : Option Instr :=
  match bits w 26 6 with
  | 0x01 => some (.eadd (fin 4 w 24 2) (fin 16 w 20 4) (fin 16 w 16 4) (fin 16 w 8 4) (fin 4 w 6 2))
  | 0x02 => some (.esub (fin 4 w 24 2) (fin 16 w 20 4) (fin 16 w 16 4) (fin 16 w 8 4) (fin 4 w 6 2))
  | 0x03 => some (.emul (fin 4 w 24 2) (fin 16 w 20 4) (fin 16 w 16 4) (fin 16 w 8 4) (fin 4 w 6 2))
  | 0x04 => some (.efma (fin 4 w 24 2) (fin 16 w 20 4) (fin 16 w 16 4) (fin 16 w 12 4) (fin 16 w 8 4) (fin 4 w 6 2) (bits w 0 1 == 1))
  | 0x05 => some (.emin (fin 4 w 24 2) (fin 16 w 20 4) (fin 16 w 16 4) (fin 16 w 8 4) (fin 4 w 6 2))
  | 0x06 => some (.emax (fin 4 w 24 2) (fin 16 w 20 4) (fin 16 w 16 4) (fin 16 w 8 4) (fin 4 w 6 2))
  | 0x07 => some (.eabs (fin 16 w 20 4) (fin 16 w 8 4) (fin 4 w 6 2))
  | 0x08 => some (.ecmp (fin 16 w 20 4) (fin 16 w 16 4) (fin 16 w 8 4) (bits w 5 1 == 1) (fin 4 w 3 2) (fin 8 w 0 3))
  | 0x09 => some (.esel (fin 16 w 20 4) (fin 16 w 16 4) (fin 16 w 12 4) (fin 16 w 8 4) (fin 4 w 6 2))
  | 0x0A => some (.ecvt (fin 16 w 20 4) (fin 16 w 8 4) (fin 4 w 6 2) (fin 32 w 0 5))
  | 0x0B => some (.escale (fin 4 w 24 2) (fin 16 w 20 4) (fin 16 w 16 4) (fin 16 w 8 4) (fin 4 w 6 2) (bits w 0 1 == 1))
  | 0x0C => some (.ebdot (fin 16 w 20 4) (fin 16 w 16 4) (bits w 0 1 == 1))
  | 0x0D => some (.ecsadd (fin 16 w 20 4) (fin 16 w 16 4) (fin 16 w 1 4) (bits w 0 1 == 1))
  | 0x0E => some (.enorm (fin 16 w 20 4) (fin 16 w 8 4) (bits w 0 1 == 1))
  | 0x0F => some (.ecfwd (fin 16 w 20 4) (fin 16 w 16 4) (fin 16 w 8 4) (bits w 1 1 == 1) (bits w 0 1 == 1))
  | 0x10 => some (.econst (fin 4 w 24 2) (fin 16 w 20 4) (fin 16 w 16 4) (fin 16 w 8 4) (fin 256 w 0 8))
  | 0x11 => some (.eidx (fin 4 w 24 2) (fin 16 w 20 4) (fin 16 w 16 4) (fin 16 w 8 4) (bits w 3 1 == 1) (fin 8 w 0 3))
  | 0x12 => some (.epiv (fin 16 w 20 4) (fin 16 w 8 4) (fin 4 w 6 2))
  | 0x13 => some (.ercp (fin 16 w 20 4) (fin 16 w 8 4) (fin 4 w 6 2) (bits w 0 1 == 1))
  | 0x14 => some (.epop (fin 16 w 20 4) (fin 16 w 8 4) (bits w 0 1 == 1))
  | 0x15 => some (.eand (fin 4 w 24 2) (fin 16 w 20 4) (fin 16 w 16 4) (fin 16 w 8 4) (fin 4 w 6 2))
  | 0x16 => some (.eor (fin 4 w 24 2) (fin 16 w 20 4) (fin 16 w 16 4) (fin 16 w 8 4) (fin 4 w 6 2))
  | 0x17 => some (.exor (fin 4 w 24 2) (fin 16 w 20 4) (fin 16 w 16 4) (fin 16 w 8 4) (fin 4 w 6 2))
  | 0x18 => some (.mdense (fin 16 w 20 4) (fin 16 w 16 4) (fin 16 w 8 4) (bits w 2 1 == 1) (fin 4 w 0 2))
  | 0x19 => some (.mnm2 (fin 16 w 20 4) (fin 16 w 16 4) (fin 16 w 12 4) (fin 16 w 8 4) (bits w 2 1 == 1) (fin 4 w 0 2))
  | 0x1A => some (.mmatch (fin 16 w 20 4) (fin 16 w 16 4) (fin 16 w 8 4) (bits w 2 1 == 1) (fin 4 w 0 2))
  | 0x1B => some (.mbxor (fin 16 w 20 4) (fin 16 w 16 4) (fin 16 w 8 4) (bits w 2 1 == 1) (fin 4 w 0 2))
  | 0x1C => some (.mband (fin 16 w 20 4) (fin 16 w 16 4) (fin 16 w 8 4) (bits w 2 1 == 1) (fin 4 w 0 2))
  | 0x1D => some (.mpp8 (fin 16 w 20 4) (fin 16 w 16 4) (fin 16 w 8 4) (bits w 2 1 == 1) (fin 4 w 0 2))
  | 0x1E => some (.mexpert (fin 16 w 20 4) (fin 16 w 16 4) (fin 16 w 12 4) (fin 16 w 8 4) (bits w 2 1 == 1) (fin 4 w 0 2))
  | 0x1F => some (.mpred (fin 16 w 20 4) (fin 16 w 16 4) (fin 16 w 8 4) (bits w 3 1 == 1) (bits w 2 1 == 1))
  | 0x20 => some (.scanc (fin 16 w 20 4) (fin 16 w 16 4) (bits w 4 1 == 1) (fin 16 w 0 4))
  | 0x21 => some (.scanb (fin 16 w 20 4) (fin 16 w 16 4) (bits w 4 1 == 1) (fin 16 w 0 4))
  | 0x22 => some (.scand (fin 16 w 20 4) (fin 16 w 16 4) (bits w 4 1 == 1) (fin 16 w 0 4))
  | 0x23 => some (.lwc (fin 16 w 20 4) (fin 16 w 8 4) (fin 16 w 0 4))
  | 0x24 => some (.lwb (fin 16 w 20 4) (fin 16 w 8 4) (fin 16 w 0 4))
  | 0x25 => some (.lwd (fin 16 w 20 4) (fin 16 w 8 4) (bits w 4 1 == 1) (fin 16 w 0 4))
  | 0x26 => some (.isect (fin 16 w 20 4) (fin 16 w 16 4) (bits w 1 1 == 1) (bits w 0 1 == 1))
  | 0x27 => some (.union (fin 16 w 20 4) (fin 16 w 16 4))
  | 0x28 => some (.rept (fin 16 w 20 4) (fin 16 w 16 4))
  | 0x29 => some (.redc (fin 16 w 20 4) (fin 16 w 8 4) (fin 4 w 1 2) (bits w 0 1 == 1))
  | _ => none

/-- The operation of an element word by its eop (R22), part B; the word's checks are those of `ElemWord.flaw`. -/
noncomputable def decodeEopB (w : Nat) : Option Instr :=
  match bits w 26 6 with
  | 0x2A => some (.arrd (fin 16 w 20 4) (fin 16 w 8 4) (fin 16 w 0 4))
  | 0x2B => some (.upsink (fin 16 w 20 4) (fin 16 w 16 4) (fin 16 w 8 4) (fin 4 w 0 2))
  | 0x2C => some (.crop (fin 16 w 20 4) (fin 16 w 16 4) (fin 16 w 8 4) (bits w 0 1 == 1))
  | 0x2D => some (.cmerge (fin 16 w 20 4) (fin 16 w 16 4) (fin 16 w 8 4) (fin 4 w 0 2))
  | 0x30 => some (.agen (fin 16 w 20 4) (fin 16 w 0 4))
  | 0x31 => some (.opst (fin 16 w 20 4) (fin 16 w 16 4) (fin 16 w 0 4))
  | 0x32 => some (.fifo (fin 16 w 20 4) (fin 16 w 0 4))
  | 0x33 => some (.lbuf (fin 16 w 20 4) (fin 16 w 16 4) (fin 16 w 0 4))
  | 0x34 => some (.mld (fin 16 w 20 4) (fin 16 w 0 4))
  | 0x35 => some (.mst (fin 16 w 20 4) (fin 16 w 16 4) (fin 16 w 0 4))
  | 0x38 => some (.steer (fin 4 w 24 2) (fin 16 w 20 4) (fin 16 w 16 4) (bits w 0 1 == 1))
  | 0x39 => some (.merge (fin 4 w 24 2) (fin 16 w 20 4) (fin 16 w 16 4) (fin 16 w 12 4))
  | 0x3A => some (.carry (fin 16 w 20 4) (fin 16 w 16 4) (fin 16 w 12 4))
  | 0x3B => some (.invar (fin 4 w 24 2) (fin 16 w 20 4) (fin 16 w 16 4))
  | 0x3C => some (.cand (fin 16 w 20 4) (fin 16 w 16 4))
  | 0x3D => some (.cnot (fin 16 w 20 4))
  | _ => none

/-- The fields of an element operation word (R21). -/
def ElemWord.ofNat (w : Nat) : ElemWord :=
  ⟨bits w 26 6, bits w 24 2, bits w 20 4, bits w 16 4, bits w 12 4, bits w 8 4, bits w 0 8⟩

/-- An element operation word from its fields (R21). -/
def ElemWord.toNat (e : ElemWord) : Nat :=
  e.eop * 2 ^ 26 + e.plane * 2 ^ 24 + e.a * 2 ^ 20 + e.b * 2 ^ 16 + e.c * 2 ^ 12 + e.fmt * 2 ^ 8 + e.mode

/-- The rejection that a flaw of the whole word stands for. -/
def ElemFlaw.reject : ElemFlaw → Reject
  | .eop => .eop
  | .planeOrFormat => .planeOrFormat
  | .port => .port
  | .mode => .mode

/-- An element operation word (R21 to R25): the operation, or why the loader refuses it. Not compiled, because the
compiler builds no constructor beyond the 244th of a type (assumption 1); the kernel evaluates it. -/
noncomputable def decodeElement (w : Nat) : Except Reject Instr :=
  match (ElemWord.ofNat w).flaw with
  | some f => .error f.reject
  | none => match decodeEopA w with
    | some i => .ok i
    | none => match decodeEopB w with
      | some i => .ok i
      | none => .error .eop

/-- The word of a control instruction or an element operation, written from R11 to R22; an event has none. -/
def encode : Instr → Option Nat
  | .add d a b => some (0x04000000 + d.val * 1048576 + a.val * 16384 + b.val * 256)
  | .sub d a b => some (0x04000001 + d.val * 1048576 + a.val * 16384 + b.val * 256)
  | .and d a b => some (0x04000002 + d.val * 1048576 + a.val * 16384 + b.val * 256)
  | .or d a b => some (0x04000003 + d.val * 1048576 + a.val * 16384 + b.val * 256)
  | .xor d a b => some (0x04000004 + d.val * 1048576 + a.val * 16384 + b.val * 256)
  | .andn d a b => some (0x04000005 + d.val * 1048576 + a.val * 16384 + b.val * 256)
  | .shl d a b => some (0x04000006 + d.val * 1048576 + a.val * 16384 + b.val * 256)
  | .shr d a b => some (0x04000007 + d.val * 1048576 + a.val * 16384 + b.val * 256)
  | .sra d a b => some (0x04000008 + d.val * 1048576 + a.val * 16384 + b.val * 256)
  | .ror d a b => some (0x04000009 + d.val * 1048576 + a.val * 16384 + b.val * 256)
  | .mul d a b => some (0x0400000A + d.val * 1048576 + a.val * 16384 + b.val * 256)
  | .mulh d a b => some (0x0400000B + d.val * 1048576 + a.val * 16384 + b.val * 256)
  | .mulhz d a b => some (0x0400000C + d.val * 1048576 + a.val * 16384 + b.val * 256)
  | .div d a b => some (0x0400000D + d.val * 1048576 + a.val * 16384 + b.val * 256)
  | .divz d a b => some (0x0400000E + d.val * 1048576 + a.val * 16384 + b.val * 256)
  | .rem d a b => some (0x0400000F + d.val * 1048576 + a.val * 16384 + b.val * 256)
  | .remz d a b => some (0x04000010 + d.val * 1048576 + a.val * 16384 + b.val * 256)
  | .min d a b => some (0x04000011 + d.val * 1048576 + a.val * 16384 + b.val * 256)
  | .max d a b => some (0x04000012 + d.val * 1048576 + a.val * 16384 + b.val * 256)
  | .minz d a b => some (0x04000013 + d.val * 1048576 + a.val * 16384 + b.val * 256)
  | .maxz d a b => some (0x04000014 + d.val * 1048576 + a.val * 16384 + b.val * 256)
  | .slt d a b => some (0x04000015 + d.val * 1048576 + a.val * 16384 + b.val * 256)
  | .sltz d a b => some (0x04000016 + d.val * 1048576 + a.val * 16384 + b.val * 256)
  | .seq d a b => some (0x04000017 + d.val * 1048576 + a.val * 16384 + b.val * 256)
  | .clz d a => some (0x04000018 + d.val * 1048576 + a.val * 16384)
  | .ctz d a => some (0x04000019 + d.val * 1048576 + a.val * 16384)
  | .popc d a => some (0x0400001A + d.val * 1048576 + a.val * 16384)
  | .bext d a b => some (0x0400001B + d.val * 1048576 + a.val * 16384 + b.val * 256)
  | .bins d a b => some (0x0400001C + d.val * 1048576 + a.val * 16384 + b.val * 256)
  | .selnz d a b => some (0x0400001D + d.val * 1048576 + a.val * 16384 + b.val * 256)
  | .addi d a i => some (0x08000000 + d.val * 1048576 + a.val * 16384 + i.toNat)
  | .andi d a i => some (0x0C000000 + d.val * 1048576 + a.val * 16384 + i.toNat)
  | .ori d a i => some (0x10000000 + d.val * 1048576 + a.val * 16384 + i.toNat)
  | .xori d a i => some (0x14000000 + d.val * 1048576 + a.val * 16384 + i.toNat)
  | .shli d a n => some (0x18000000 + d.val * 1048576 + a.val * 16384 + n.toNat)
  | .shri d a n => some (0x18001000 + d.val * 1048576 + a.val * 16384 + n.toNat)
  | .srai d a n => some (0x18002000 + d.val * 1048576 + a.val * 16384 + n.toNat)
  | .rori d a n => some (0x18003000 + d.val * 1048576 + a.val * 16384 + n.toNat)
  | .slti d a i => some (0x1C000000 + d.val * 1048576 + a.val * 16384 + i.toNat)
  | .sltzi d a i => some (0x20000000 + d.val * 1048576 + a.val * 16384 + i.toNat)
  | .lui d i => some (0x24000000 + d.val * 1048576 + i.toNat)
  | .auipc d i => some (0x28000000 + d.val * 1048576 + i.toNat)
  | .ld d a s o => some (0x2C000000 + d.val * 1048576 + a.val * 16384 + s.toNat * 2048 + o.toNat)
  | .st d a s o => some (0x30000000 + d.val * 1048576 + a.val * 16384 + s.toNat * 2048 + o.toNat)
  | .ldx d a b s => some (0x34000000 + d.val * 1048576 + a.val * 16384 + b.val * 256 + s.toNat)
  | .stx d a b s => some (0x38000000 + d.val * 1048576 + a.val * 16384 + b.val * 256 + s.toNat)
  | .lea d a i => some (0x3C000000 + d.val * 1048576 + a.val * 16384 + i.toNat)
  | .pfch a i => some (0x40000000 + a.val * 16384 + i.toNat)
  | .br a c o => some (0x44000000 + a.val * 1048576 + c.toNat * 131072 + o.toNat)
  | .jmp o => some (0x48000000 + o.toNat)
  | .call o => some (0x4C000000 + o.toNat)
  | .jr a => some (0x50000000 + a.val * 16384)
  | .callr a => some (0x50000001 + a.val * 16384)
  | .ret => some (0x50000002)
  | .loop c a l => some (0x54000000 + c.val * 33554432 + a.val * 524288 + l.toNat * 1024)
  | .loopi c n l => some (0x58000000 + c.val * 33554432 + n.toNat * 1024 + l.toNat * 2)
  | .rep d a => some (0x5C000000 + d.val * 1048576 + a.val * 16384)
  | .repi d n => some (0x5C000001 + d.val * 1048576 + n.toNat * 256)
  | .jtab d a i => some (0x60000000 + d.val * 1048576 + a.val * 16384 + i.toNat)
  | .nop => some (0x64000000)
  | .vadd d a b m e => some (0x80000000 + d.val * 2097152 + a.val * 65536 + b.enc + m.val * 256 + e.val * 64)
  | .vsub d a b m e => some (0x80000001 + d.val * 2097152 + a.val * 65536 + b.enc + m.val * 256 + e.val * 64)
  | .vmul d a b m e => some (0x80000002 + d.val * 2097152 + a.val * 65536 + b.enc + m.val * 256 + e.val * 64)
  | .vmulh d a b m e => some (0x80000003 + d.val * 2097152 + a.val * 65536 + b.enc + m.val * 256 + e.val * 64)
  | .vmin d a b m e => some (0x80000004 + d.val * 2097152 + a.val * 65536 + b.enc + m.val * 256 + e.val * 64)
  | .vmax d a b m e => some (0x80000005 + d.val * 2097152 + a.val * 65536 + b.enc + m.val * 256 + e.val * 64)
  | .vminz d a b m e => some (0x80000006 + d.val * 2097152 + a.val * 65536 + b.enc + m.val * 256 + e.val * 64)
  | .vmaxz d a b m e => some (0x80000007 + d.val * 2097152 + a.val * 65536 + b.enc + m.val * 256 + e.val * 64)
  | .vand d a b m e => some (0x80000008 + d.val * 2097152 + a.val * 65536 + b.enc + m.val * 256 + e.val * 64)
  | .vor d a b m e => some (0x80000009 + d.val * 2097152 + a.val * 65536 + b.enc + m.val * 256 + e.val * 64)
  | .vxor d a b m e => some (0x8000000A + d.val * 2097152 + a.val * 65536 + b.enc + m.val * 256 + e.val * 64)
  | .vshl d a b m e => some (0x8000000B + d.val * 2097152 + a.val * 65536 + b.enc + m.val * 256 + e.val * 64)
  | .vshr d a b m e => some (0x8000000C + d.val * 2097152 + a.val * 65536 + b.enc + m.val * 256 + e.val * 64)
  | .vsra d a b m e => some (0x8000000D + d.val * 2097152 + a.val * 65536 + b.enc + m.val * 256 + e.val * 64)
  | .vadds d a b m e => some (0x8000000E + d.val * 2097152 + a.val * 65536 + b.enc + m.val * 256 + e.val * 64)
  | .vsubs d a b m e => some (0x8000000F + d.val * 2097152 + a.val * 65536 + b.enc + m.val * 256 + e.val * 64)
  | .vfadd d a b m e => some (0x84000000 + d.val * 2097152 + a.val * 65536 + b.enc + m.val * 256 + e.val * 64)
  | .vfsub d a b m e => some (0x84000001 + d.val * 2097152 + a.val * 65536 + b.enc + m.val * 256 + e.val * 64)
  | .vfmul d a b m e => some (0x84000002 + d.val * 2097152 + a.val * 65536 + b.enc + m.val * 256 + e.val * 64)
  | .vfma d a b m e => some (0x84000003 + d.val * 2097152 + a.val * 65536 + b.enc + m.val * 256 + e.val * 64)
  | .vfnma d a b m e => some (0x84000004 + d.val * 2097152 + a.val * 65536 + b.enc + m.val * 256 + e.val * 64)
  | .vfmin d a b m e => some (0x84000005 + d.val * 2097152 + a.val * 65536 + b.enc + m.val * 256 + e.val * 64)
  | .vfmax d a b m e => some (0x84000006 + d.val * 2097152 + a.val * 65536 + b.enc + m.val * 256 + e.val * 64)
  | .vfabs d a m e => some (0x84000007 + d.val * 2097152 + a.val * 65536 + m.val * 256 + e.val * 64)
  | .vfneg d a m e => some (0x84000008 + d.val * 2097152 + a.val * 65536 + m.val * 256 + e.val * 64)
  | .vfdiv d a b m e => some (0x84000009 + d.val * 2097152 + a.val * 65536 + b.enc + m.val * 256 + e.val * 64)
  | .vfsqrt d a m e => some (0x8400000A + d.val * 2097152 + a.val * 65536 + m.val * 256 + e.val * 64)
  | .vfrsq d a m e => some (0x8400000B + d.val * 2097152 + a.val * 65536 + m.val * 256 + e.val * 64)
  | .vfexp2 d a m e => some (0x8400000C + d.val * 2097152 + a.val * 65536 + m.val * 256 + e.val * 64)
  | .vflog2 d a m e => some (0x8400000D + d.val * 2097152 + a.val * 65536 + m.val * 256 + e.val * 64)
  | .vceq d a b m e => some (0x88000000 + d.val * 2097152 + a.val * 65536 + b.enc + m.val * 256 + e.val * 64)
  | .vclt d a b m e => some (0x88000001 + d.val * 2097152 + a.val * 65536 + b.enc + m.val * 256 + e.val * 64)
  | .vcltz d a b m e => some (0x88000002 + d.val * 2097152 + a.val * 65536 + b.enc + m.val * 256 + e.val * 64)
  | .vcle d a b m e => some (0x88000003 + d.val * 2097152 + a.val * 65536 + b.enc + m.val * 256 + e.val * 64)
  | .vfceq d a b m e => some (0x88000004 + d.val * 2097152 + a.val * 65536 + b.enc + m.val * 256 + e.val * 64)
  | .vfclt d a b m e => some (0x88000005 + d.val * 2097152 + a.val * 65536 + b.enc + m.val * 256 + e.val * 64)
  | .vfcle d a b m e => some (0x88000006 + d.val * 2097152 + a.val * 65536 + b.enc + m.val * 256 + e.val * 64)
  | .vfcun d a b m e => some (0x88000007 + d.val * 2097152 + a.val * 65536 + b.enc + m.val * 256 + e.val * 64)
  | .vcvt d a c m => some (0x8C000000 + d.val * 2097152 + a.val * 65536 + c.val * 2048 + m.val * 256)
  | .vld d a m e => some (0x90000000 + d.val * 2097152 + a.val * 65536 + m.val * 256 + e.val * 64)
  | .vst d a m e => some (0x90000001 + d.val * 2097152 + a.val * 65536 + m.val * 256 + e.val * 64)
  | .vlds d a b m e => some (0x90000022 + d.val * 2097152 + a.val * 65536 + b.val * 2048 + m.val * 256 + e.val * 64)
  | .vsts d a b m e => some (0x90000023 + d.val * 2097152 + a.val * 65536 + b.val * 2048 + m.val * 256 + e.val * 64)
  | .vgth d a b m e => some (0x90000004 + d.val * 2097152 + a.val * 65536 + b.val * 2048 + m.val * 256 + e.val * 64)
  | .vsct d a b m e => some (0x90000005 + d.val * 2097152 + a.val * 65536 + b.val * 2048 + m.val * 256 + e.val * 64)
  | .vldb d a m e => some (0x90000006 + d.val * 2097152 + a.val * 65536 + m.val * 256 + e.val * 64)
  | .vldq d a b => some (0x900000A7 + d.val * 2097152 + a.val * 65536 + b.val * 2048)
  | .vstq d a b => some (0x900000A8 + d.val * 2097152 + a.val * 65536 + b.val * 2048)
  | .updv d a b m e => some (0x90000009 + d.val * 2097152 + a.val * 65536 + b.val * 2048 + m.val * 256 + e.val * 64)
  | .vperm d a b m e => some (0x94000000 + d.val * 2097152 + a.val * 65536 + b.val * 2048 + m.val * 256 + e.val * 64)
  | .vslup d a b m e => some (0x94000021 + d.val * 2097152 + a.val * 65536 + b.val * 2048 + m.val * 256 + e.val * 64)
  | .vsldn d a b m e => some (0x94000022 + d.val * 2097152 + a.val * 65536 + b.val * 2048 + m.val * 256 + e.val * 64)
  | .vreda d a m e => some (0x94000003 + d.val * 2097152 + a.val * 65536 + m.val * 256 + e.val * 64)
  | .vredx d a m e => some (0x94000004 + d.val * 2097152 + a.val * 65536 + m.val * 256 + e.val * 64)
  | .vredn d a m e => some (0x94000005 + d.val * 2097152 + a.val * 65536 + m.val * 256 + e.val * 64)
  | .vfreda d a m e => some (0x94000006 + d.val * 2097152 + a.val * 65536 + m.val * 256 + e.val * 64)
  | .vcmpr d a m e => some (0x94000007 + d.val * 2097152 + a.val * 65536 + m.val * 256 + e.val * 64)
  | .vexpd d a m e => some (0x94000008 + d.val * 2097152 + a.val * 65536 + m.val * 256 + e.val * 64)
  | .vmrg d a b m e => some (0x94000009 + d.val * 2097152 + a.val * 65536 + b.enc + m.val * 256 + e.val * 64)
  | .vsplat d b m e => some (0x98000020 + d.val * 2097152 + b.val * 2048 + m.val * 256 + e.val * 64)
  | .vins d a b e => some (0x98000021 + d.val * 2097152 + a.val * 65536 + b.val * 2048 + e.val * 64)
  | .vext d a b e => some (0x98000022 + d.val * 2097152 + a.val * 65536 + b.val * 2048 + e.val * 64)
  | .viota d m e => some (0x98000003 + d.val * 2097152 + m.val * 256 + e.val * 64)
  | .mand d a b => some (0x9C000000 + d.val * 2097152 + a.val * 65536 + b.val * 2048)
  | .mor d a b => some (0x9C000001 + d.val * 2097152 + a.val * 65536 + b.val * 2048)
  | .mxor d a b => some (0x9C000002 + d.val * 2097152 + a.val * 65536 + b.val * 2048)
  | .mnot d a => some (0x9C000003 + d.val * 2097152 + a.val * 65536)
  | .mpopc d a => some (0x9C000004 + d.val * 2097152 + a.val * 65536)
  | .mmov d a => some (0x9C000005 + d.val * 2097152 + a.val * 65536)
  | .mmovScalar d b => some (0x9C000025 + d.val * 2097152 + b.val * 2048)
  | .vpiv d a b m => some (0xA0000080 + d.val * 2097152 + a.val * 65536 + b.val * 2048 + m.val * 256)
  | .vprcp d a b m => some (0xA0000081 + d.val * 2097152 + a.val * 65536 + b.val * 2048 + m.val * 256)
  | .vfman d a b m e => some (0xA0000002 + d.val * 2097152 + a.val * 65536 + b.enc + m.val * 256 + e.val * 64)
  | .vpstat d => some (0xA0000003 + d.val * 2097152)
  | .vbdot d a b m e => some (0xA4000080 + d.val * 2097152 + a.val * 65536 + b.enc + m.val * 256 + e.val * 64)
  | .fload d a b => some (0xC0000000 + d.val * 1048576 + a.val * 16384 + b.val * 256)
  | .farm a b => some (0xC0000001 + a.val * 16384 + b.val * 256)
  | .fsel a b => some (0xC0000002 + a.val * 16384 + b.val * 256)
  | .fstat d a => some (0xC0000003 + d.val * 1048576 + a.val * 16384)
  | .fkill a => some (0xC0000004 + a.val * 16384)
  | .fckpt a b => some (0xC0000005 + a.val * 16384 + b.val * 256)
  | .fdrain a => some (0xC0000006 + a.val * 16384)
  | .fbind d a b => some (0xC0000007 + d.val * 1048576 + a.val * 16384 + b.val * 256)
  | .qpush d a b => some (0xC0000008 + d.val * 1048576 + a.val * 16384 + b.val * 256)
  | .qpop d a b => some (0xC0000009 + d.val * 1048576 + a.val * 16384 + b.val * 256)
  | .qstop d a => some (0xC000000A + d.val * 1048576 + a.val * 16384)
  | .qdone d => some (0xC000000B + d.val * 1048576)
  | .cpy d a => some (0xC4000000 + d.val * 1048576 + a.val * 16384)
  | .cpwp d a => some (0xC4000001 + d.val * 1048576 + a.val * 16384)
  | .cpwait d a b => some (0xC4000002 + d.val * 1048576 + a.val * 16384 + b.val * 256)
  | .cpcan a => some (0xC4000003 + a.val * 16384)
  | .gath d a => some (0xC4000004 + d.val * 1048576 + a.val * 16384)
  | .cpcode a b => some (0xC4000005 + a.val * 16384 + b.val * 256)
  | .upd a b => some (0xC8000000 + a.val * 16384 + b.val * 256)
  | .ufence a => some (0xC8000001 + a.val * 16384)
  | .uapply a b => some (0xC8000002 + a.val * 16384 + b.val * 256)
  | .uregion d a => some (0xC8000003 + d.val * 1048576 + a.val * 16384)
  | .ufree a => some (0xC8000004 + a.val * 16384)
  | .ustat d a => some (0xC8000005 + d.val * 1048576 + a.val * 16384)
  | .cas d a b => some (0xCC000000 + d.val * 1048576 + a.val * 16384 + b.val * 256)
  | .dcas d a b => some (0xCC000001 + d.val * 1048576 + a.val * 16384 + b.val * 256)
  | .amove d a b => some (0xCC000002 + d.val * 1048576 + a.val * 16384 + b.val * 256)
  | .swap d a b => some (0xCC000003 + d.val * 1048576 + a.val * 16384 + b.val * 256)
  | .ldaq d a => some (0xCC000004 + d.val * 1048576 + a.val * 16384)
  | .strl a b => some (0xCC000005 + a.val * 16384 + b.val * 256)
  | .binit d a b => some (0xD0000000 + d.val * 1048576 + a.val * 16384 + b.val * 256)
  | .barr d a => some (0xD0000001 + d.val * 1048576 + a.val * 16384)
  | .bwait d a b => some (0xD0000002 + d.val * 1048576 + a.val * 16384 + b.val * 256)
  | .barw d a => some (0xD0000003 + d.val * 1048576 + a.val * 16384)
  | .badj d a b => some (0xD0000004 + d.val * 1048576 + a.val * 16384 + b.val * 256)
  | .babort a => some (0xD0000005 + a.val * 16384)
  | .lkacq d a => some (0xD0000006 + d.val * 1048576 + a.val * 16384)
  | .lktry d a => some (0xD0000007 + d.val * 1048576 + a.val * 16384)
  | .lkrel a => some (0xD0000008 + a.val * 16384)
  | .wobj a b => some (0xD4000000 + a.val * 16384 + b.val * 256)
  | .whold a => some (0xD4000001 + a.val * 16384)
  | .wdrop a => some (0xD4000002 + a.val * 16384)
  | .wwait d a b => some (0xD4000003 + d.val * 1048576 + a.val * 16384 + b.val * 256)
  | .wquery d a => some (0xD4000004 + d.val * 1048576 + a.val * 16384)
  | .wcycle d a => some (0xD4000005 + d.val * 1048576 + a.val * 16384)
  | .spawn d a b => some (0xD8000000 + d.val * 1048576 + a.val * 16384 + b.val * 256)
  | .join d a => some (0xD8000001 + d.val * 1048576 + a.val * 16384)
  | .yield => some (0xD8000002)
  | .exit => some (0xD8000003)
  | .launch d a b => some (0xD8000004 + d.val * 1048576 + a.val * 16384 + b.val * 256)
  | .prio d a => some (0xD8000005 + d.val * 1048576 + a.val * 16384)
  | .estim a b => some (0xD8000006 + a.val * 16384 + b.val * 256)
  | .self d => some (0xD8000007 + d.val * 1048576)
  | .fence s k => some (0xDC000000 + s.val * 1024 + k.val * 256)
  | .sbar u g c t => some (0xDC000001 + u.toNat * 2048 + g.toNat * 1024 + c.toNat * 512 + t.toNat * 256)
  | .drainw d a => some (0xDC000002 + d.val * 1048576 + a.val * 16384)
  | .colls d a => some (0xE0000000 + d.val * 1048576 + a.val * 16384)
  | .collw d a => some (0xE0000001 + d.val * 1048576 + a.val * 16384)
  | .collst d a => some (0xE0000002 + d.val * 1048576 + a.val * 16384)
  | .collabt a => some (0xE0000003 + a.val * 16384)
  | .memb d a b => some (0xE0000004 + d.val * 1048576 + a.val * 16384 + b.val * 256)
  | .sysr d n => some (0xE4000000 + d.val * 1048576 + n.toNat * 256)
  | .sysw d n => some (0xE4000001 + d.val * 1048576 + n.toNat * 256)
  | .sysset d n => some (0xE4000002 + d.val * 1048576 + n.toNat * 256)
  | .sysclr d n => some (0xE4000003 + d.val * 1048576 + n.toNat * 256)
  | .xlinv a b => some (0xE4000004 + a.val * 16384 + b.val * 256)
  | .trap n => some (0xE8000000 + n.toNat * 256)
  | .tret => some (0xE8000001)
  | .bkpt => some (0xE8000002)
  | .halt => some (0xE8000003)
  | .trcon => some (0xEC000000)
  | .trcoff => some (0xEC000001)
  | .trcmark d n => some (0xEC000002 + d.val * 1048576 + n.toNat * 256)
  | .wpset d a b => some (0xEC000003 + d.val * 1048576 + a.val * 16384 + b.val * 256)
  | .wpclr a => some (0xEC000004 + a.val * 16384)
  | i => i.elemWord?.map ElemWord.toNat

/-- Whether an instruction is an element operation word, loaded into a slot and never fetched by a hart (R10). -/
def Instr.isElement (i : Instr) : Bool := i.elemWord?.isSome

/-- The instruction the device reads from a 32-bit word (R10): a hart's decoding first, since a hart decodes any word it
meets as a control instruction; a word that is no control instruction is read as an element word (assumption 2). -/
noncomputable def decodeTableWord (nbits w : Nat) : Option Instr :=
  if nbits = 32 then
    match decodeControl (w % 2 ^ 32) with
    | .ok i => some i
    | .error _ => match decodeElement (w % 2 ^ 32) with
      | .ok i => some i
      | .error _ => none
  else none

end Sys2Proof
end

