-- ==== Sys2Proof/Config.lean ====
section
/-!
DEFINITION. What one implementation fixes, and the free values: constants with no body stand for what the manual leaves open,
so that nothing in Lean can evaluate them; a statement about one holds whatever it is.
-/
namespace Sys2Proof.Config

/-- The number of this package in its scale-up domain (R284, R120 SELF); the manual leaves it to the installation
(assumption 3). -/
def package : Nat := 0

/-- Which free identifier UREGION issues (R109: not specified): the n-th free choice (assumption 4). -/
opaque freeChoice : Nat → Nat

/-- The bytes the device writes in the bodies of kinds 1, 2, 4 and 5 of a checkpoint image (R408: written and read only
by the device), n-th byte of the image's k-th such body (assumption 5). -/
opaque imageByte : Nat → Nat → Byte

/-- The number of body bytes of those kinds, a multiple of 64 under the bound of R408 (assumption 5). -/
opaque imageBodyUnits : Nat → Nat

/-- Morhan's signature over an attestation report's first 2,208 bytes (R431, R433): n-th byte (assumption 6). -/
opaque signatureByte : List Byte → Nat → Byte

/-- The identity public key, its certificate, and the line of die 0's HBM at which Morhan lays the certificate (R433) (assumption 6). -/
opaque identityKeyByte : Nat → Byte
opaque certificate : List Byte
opaque certificateLine : Fin 0xC0000000

/-- The fuses: the 16-bit security version and the digest of the vendor key (R431) (assumption 6). -/
opaque securityVersion : BitVec 16
opaque vendorKeyDigest : List Byte

/-- SHAKE256 to so many bytes, and whether an ML-DSA-65 signature of an image holds under a key, as key, version, body and signature (R431):
the manual names both and writes neither out (assumption 6). -/
opaque shake256 : Nat → List Byte → List Byte
opaque mlDsaVerify : List Byte → BitVec 16 → List Byte → List Byte → Bool

/-- The die-to-die edges, 24 to 30, that a request crosses between two dies: no rule draws the edges or routes requests (R2, R427)
(assumption 61). -/
opaque dieRoute : Fin 6 → Fin 6 → List Nat

/-- A value the manual gives no rule for, drawn once for each n: a copy's decode of a racing byte, a lost record's
content, a datum behind an uncorrectable error (assumption 4). -/
opaque freeWord : Nat → Word

end Sys2Proof.Config
end

