-- ==== Sys2Proof/Machine/State.lean ====
section
/-!
DEFINITION. The state of one package, as plain data: harts, dies, fabric, engines, host interface; the faults and refusals;
the state after reset. Tables are lists of (number, entry) in rising order of the number.
-/
namespace Sys2Proof.Machine

/-- A sparse table by number: keys strictly rising; an absent key stands for the table's stated default. -/
abbrev Tbl (α : Type) := List (Nat × α)

/-! ## Streams -/

/-- A beat (R218): 512 payload bits and 32 side-band bits. A scalar token uses payload [31:0], a condition bit [0]. -/
structure Beat where
  pay : Line := 0
  side : BitVec 32 := 0xCCCCCCCC#32
  deriving DecidableEq, Repr

/-- A stream-form token (R137): coordinate, value or reference, kind code of R219. -/
structure Tok where
  c : BitVec 32
  v : BitVec 32
  k : Nat
  deriving DecidableEq, Repr

/-- A stream handle (R106, R107): its binding, the partly filled beat of pushes, and whether DONE closed it. -/
structure Handle where
  bound : Bool := false
  region : Word := 0
  sel : BitVec 10 := 0
  closed : Bool := false
  pend : Beat := {}
  pendN : Nat := 0
  pendAt : Nat := 0
  /-- the push of this handle, by its address, that stands at the port, not yet accepted by every reader (R254); `first` while that is the pending
  beat, which goes before the beat of a VSTQ -/
  sending : Option Word := none
  first : Bool := false
  /-- what that push changed of the handle and its port: the pending beat and its length, DONE, the port's pass -/
  before : Beat × Nat × Bool × Bool := ({}, 0, false, false)
  deriving DecidableEq, Repr

/-! ## Waiting (R99 to R101, R357 to R359) -/

/-- The wait kinds of R100. -/
inductive WaitKind where
  | queue | copy | barrier | lock | word | join | region | collective | launch | apply
  deriving DecidableEq, Repr

/-- The objects of R359. -/
inductive ObjKey where
  | mem (pa : Nat)
  | port (task : TaskId) (tile : Nat) (port : Nat) (write : Bool)
  | copy (id : Nat)
  | channel (die ch : Nat)
  | task (t : TaskId)
  | round (handle : Nat)
  | queue (n : Nat)
  | parterre (die : Nat)
  | token (die tok : Nat)
  deriving DecidableEq, Repr

/-- What a hart waits for, and since when (R99); `gen` is the arrival generation of a barrier wait. -/
structure Wait where
  kind : WaitKind
  key : ObjKey
  gen : Nat := 0
  since : Nat := 0
  deriving DecidableEq, Repr

/-- What a release handed to a waiter in the same step (R99, R117, R118, R119): the rest of its instruction uses it. -/
inductive Grant where
  | lock (abandoned : Bool)
  | barrier (aborted : Bool)
  | word (v : Word)
  deriving DecidableEq, Repr

/-- The type of a Belvedere entry (R357). -/
inductive EntryType where
  | obj | hold | wait
  deriving DecidableEq, Repr

/-- A Belvedere entry (R358). -/
structure WEntry where
  typ : EntryType
  kind : Nat
  pkg : Nat
  agent : Nat
  key : ObjKey
  vaddr : Word
  time : Nat
  prio : Nat
  bprio : Nat
  arrived : Bool := false
  swout : Bool := false
  /-- the slot of the die's extension that holds the entry, none on chip (R358, R360) -/
  slot : Option Nat := none
  asid : Nat := 0
  aux : Nat := 0
  /-- the continuation that registered, which keeps its entries when it moves to another hart (R101, R376) -/
  uid : Nat := 0
  /-- OBJ: reserved by WOBJ or BINIT; whether its orphaned barrier has been reported; the agent and number of the first arrival to
  which the report falls (R357, R119, R332) -/
  reserved : Bool := false
  told : Bool := false
  owed : Option (Nat × Nat) := none
  /-- OBJ: BINIT has made the object a barrier, whatever its first registration was (R115, R117) -/
  bar : Bool := false
  deriving DecidableEq, Repr

/-- A unit that departed from a barrier without arriving in the generation (R369): how is 0 EXIT, 1 kill, 2 WDROP. -/
structure Departed where
  key : ObjKey
  gen : Nat
  agent : Nat
  pkg : Nat
  how : Nat
  time : Nat
  deriving DecidableEq, Repr

/-! ## Harts (R19, R129, R399 to R403) -/

/-- A hardware loop (R48): first word, last word, active bit. Its counter is lc0 or lc1. -/
structure HwLoop where
  start : Word := 0
  stop : Word := 0
  active : Bool := false
  deriving DecidableEq, Repr

/-- A repeat in progress (R52, R54): next index, elements left, index register, address and word of the instruction. -/
structure Rep where
  active : Bool := false
  next : Word := 0
  left : Word := 0
  d : SReg := 0
  t : Word := 0
  word : BitVec 32 := 0
  deriving DecidableEq, Repr

/-- A committed instruction whose result is not yet written (R403); for a load that was translated and checked when it issued, the
address that serves it, and whether L1 may hold its line. -/
structure Replay where
  pc : Word
  word : BitVec 32
  err : Bool
  opa : Word
  opb : Word
  served : Option (Nat × Bool) := none
  deriving DecidableEq, Repr

/-- A store on its way to its point of coherence (R309): the addresses it writes (every replica's under R321), its bytes,
and the virtual address it named. An entry with a `fence` is no store: it is a release fence that holds the later stores behind the
earlier ones, with whether it is SC and its scope (R122, R315). -/
structure Flight where
  pas : List Nat
  bytes : List Byte
  va : Word
  fence : Option (Bool × Fin 16) := none
  /-- the lines that the vector store it belongs to covers whole (R352) -/
  whole : List Nat := []
  deriving DecidableEq, Repr

/-- A write that some of its addresses have not received yet, which they receive in the order of the list that holds it: a multicast
store that its primary holds, or a write of a step that leaves it on its way (R282, R317, R321, R322). Its writer's class is R417's; a mask
says which bits of each byte it writes, all of them where it is empty (R91). -/
structure Cast where
  pas : List Nat
  bytes : List Byte
  mask : List Byte := []
  agent : Nat
  asid : Nat := 0
  va : Word := 0
  cls : Nat := 0
  /-- the cause word of the memory node that made it (R304, R427) -/
  unit : Word := 0
  deriving DecidableEq, Repr

/-- A hart's store performed after a core's L1 took the line, the agents it happens before, and their releases after it: agent, launch and
scope (R312). -/
structure Later where
  core : Nat
  pa : Nat
  bytes : List Byte
  known : List Nat
  rel : List (Nat × Nat × Fin 16) := []
  deriving DecidableEq, Repr

/-- An address–value pair (R336). -/
structure Pair where
  pa : Nat
  val : Word
  rid : Nat
  agent : Nat
  seq : Nat
  /-- the launch whose budget the pair counts against, and the continuation that made it (R354, R331) -/
  launch : Nat := 0
  uid : Nat := 0
  /-- the units whose pairs for the element were merged into it, as agent and continuation (R344) -/
  also : List (Nat × Nat) := []
  /-- the UFENCEs that released it: issuer, launch and scope; `limited` where only UFENCEs did, so that nobody else is promised it (R111) -/
  scopes : List (Nat × Nat × Fin 16) := []
  limited : Bool := false
  deriving DecidableEq, Repr

/-- A trap to be taken between two instructions: WATCH (R135), a stream's fault (R415), PREEMPT (R406). -/
structure PendTrap where
  cause : Cause
  detail : Nat
  addr : Word
  aux : Word
  /-- the record of a cycle or an orphaned barrier (R366, R369) -/
  record : List Byte := []
  /-- the instruction TRAPPC names, when it is not the next one -/
  at_ : Option Word := none
  deriving DecidableEq, Repr

/-- Which continuation runs (R120, R330): its number, its launch, its join record, a graph RUN's internal join. -/
structure Cont where
  uid : Nat := 0
  launch : Nat := 0
  join : Word := 0
  node : Bool := false
  /-- where the join record lay when SPAWN counted the continuation in (R120, R359) -/
  joinPa : Option Nat := none
  /-- the time of its record, its place in its launch's order (R375) -/
  time : Nat := 0
  deriving DecidableEq, Repr

/-- The state of a hart that belongs to the continuation it runs: what a switch saves and a kill discards (R407, R331). -/
structure Ctx where
  pc : Word := 0
  s : Vector Word 64 := Vector.replicate 64 0
  v : Vector Line 32 := Vector.replicate 32 0
  m : Vector Word 8 := Vector.replicate 8 0
  q : Vector Handle 16 := Vector.replicate 16 {}
  lc0 : Word := 0
  lc1 : Word := 0
  loop0 : HwLoop := {}
  loop1 : HwLoop := {}
  last1 : Bool := false
  rep : Rep := {}
  repidx : Word := 0
  dz : Bool := false
  fpstat : Word := 0
  round : Word := 0
  stochseed : Word := 0
  pivtau : Word := 0x34000000#64
  pivstat : Word := 0
  bprio : BitVec 4 := 0
  estim : Nat := 0
  replay : List Replay := []
  stores : List Flight := []
  log : List Pair := []
  cont : Cont := {}
  grant : Option Grant := none
  /-- the generation in which the BARW at an address has arrived while it still waits (R101) -/
  arrived : Option (Word × Nat) := none
  pend : List PendTrap := []
  /-- registers that fail their parity: scalar, 64 + vector, 96 + mask (R416) -/
  bad : List Nat := []
  deriving DecidableEq, Repr

/-- What a hart is doing (R133, R376). -/
inductive Run where
  | idle
  | running
  | waiting (w : Wait)
  | halted (c : Option Cause)
  deriving DecidableEq, Repr

/-- A hart: its continuation's state, and the registers that stay with the hart (R399). -/
structure Hart where
  run : Run := .idle
  ctx : Ctx := {}
  pl : Bool := false
  hm : Bool := false
  trc : Bool := false
  eprio : BitVec 4 := 0
  trapcause : Word := 0
  trappc : Word := 0
  frameBase : Word := 0
  mact : Bool := false
  trapvec : Word := 0
  machvec : Word := 0
  asid : BitVec 10 := 0
  /-- how many loads may still return late (R403, R309); a turn of the hart sets it -/
  late : Bool := false
  /-- the frame words of its handles when its handler's frame and its machine frame were written (R133) -/
  words : List Nat := []
  machWords : List Nat := []
  /-- the newcomer for which the hart's continuation is drained (R387), by its number -/
  drainFor : Option Nat := none
  dispatchedAt : Nat := 0
  deriving DecidableEq, Repr

/-! ## Copy channels (R86 to R95, R290 to R298) -/

/-- A command block (R88). -/
structure CopyBlk where
  kind : Nat := 0
  flags : Nat := 0
  sfmt : Nat := 0
  dfmt : Nat := 0
  ctab : Nat := 0
  chan : Nat := 0
  source : Word := 0
  dest : Word := 0
  rows : Nat := 0
  cols : Nat := 0
  sstride : Nat := 0
  dstride : Nat := 0
  vrows : Nat := 0
  vcols : Nat := 0
  scale : BitVec 32 := 0
  dtok : Nat := 0
  aux : Word := 0
  deriving DecidableEq, Repr

/-- A code table as CPCODE read it (R294, R295); `none` marks a slot loaded with an invalid table. -/
structure CodeTab where
  efmt : Nat
  maxlen : Nat
  count : List Nat
  sym : List Nat
  deriving DecidableEq, Repr

/-- A destination row between its issue and its landing: each byte's value and the bits of it that are written (R91); the residency slots it
has claimed, as slot of the tile and number (R290); the bytes that have left for memory one by one (R282). -/
structure CopyRow where
  row : Nat
  bytes : List (Byte × Byte)
  sat : Bool := false
  claims : List (Nat × Nat) := []
  out : List Nat := []
  deriving DecidableEq, Repr

/-- A copy (R87 to R94): its block and state; rows in flight, rows landed beyond WP, the held row. -/
structure Copy where
  id : Nat
  asid : Nat
  owner : Nat
  launch : Nat
  /-- the level of the hart that issued it, whose permissions its accesses have (R41) -/
  sys : Bool := false
  blk : CopyBlk
  mask : List Byte := []
  tab : Option CodeTab := none
  state : Nat := 0
  sat : Bool := false
  /-- rows that a receiving package refused (R429) -/
  held : List CopyRow := []
  fail : Nat := 0
  nextRow : Nat := 0
  /-- rows whose fill an EVICT cancelled, to be issued again (R292) -/
  again : List Nat := []
  flying : List CopyRow := []
  landed : List Nat := []
  done : Nat := 0
  tokenTaken : Bool := false
  cancelled : Bool := false
  deriving DecidableEq, Repr

/-- A retired copy's kept status (R93). -/
structure Retired where
  id : Nat
  asid : Nat
  status : Word
  deriving DecidableEq, Repr

/-- A copy channel: commands in order, the 256 latest retired records, the next ticket, and every issued (asid, ticket). -/
structure Chan where
  cmds : List Copy := []
  kept : List Retired := []
  ticket : Nat := 0
  issued : List (Nat × Nat) := []
  deriving DecidableEq, Repr

/-! ## The Parterre (R108 to R112, R336 to R354) -/

/-- A live update region (R108, R109): the page segments (virtual base, physical base, bytes) as UREGION translated them. -/
structure URegion where
  base : Word
  size : Nat
  etype : Nat
  op : Nat
  asid : Nat
  segs : List (Nat × Nat × Nat)
  throttled : Bool := false
  deriving DecidableEq, Repr

/-- A bin's or a run's entry for one element (R345): value, winning key, and the units whose pairs it holds, as agent and continuation. -/
structure BinEntry where
  pa : Nat
  val : Word
  agent : Nat
  seq : Nat
  who : List (Nat × Nat) := []
  deriving DecidableEq, Repr

/-- The pending pairs of one line of one region (R345, R348). -/
structure Bin where
  line : Nat
  rid : Nat
  entries : List BinEntry
  bad : Bool := false
  deriving DecidableEq, Repr

/-- A pre-combining entry and the cycle it was taken (R344). -/
structure PreEntry where
  pair : Pair
  at_ : Nat
  deriving DecidableEq, Repr

/-- One die's Parterre: released pairs before ingress, pre-combining, closed pairs in flight, bins, spilled runs oldest first. -/
structure Parterre where
  ingress : List Pair := []
  pre : List PreEntry := []
  flight : List Pair := []
  bins : List Bin := []
  runs : List Bin := []
  throttled : Bool := false
  drops : Nat := 0
  deriving DecidableEq, Repr

/-! ## Dies -/

/-- A data watchpoint (R135). -/
structure Watch where
  asid : Nat
  setter : HartId
  base : Nat
  len : Nat
  access : Nat
  classes : Nat
  action : Nat
  deriving DecidableEq, Repr

/-- A translation entry (R412 to R414): the page, its physical base, its permissions, its replica set. -/
structure TlbEntry where
  asid : Nat
  va : Nat
  size : Nat
  pa : Nat
  r : Bool
  w : Bool
  x : Bool
  prog : Bool
  repl : Option Nat
  deriving DecidableEq, Repr

/-- A continuation record (R120, R330), ready in a pool or a memory queue; a resumed continuation brings its state. -/
structure Rec where
  uid : Nat
  launch : Nat
  code : Word
  frame : Word
  join : Word
  prio : BitVec 4
  seed : Word
  node : Bool
  time : Nat
  saved : Option Ctx
  /-- its privilege, handler mode and machine frame when it was saved, where its save area begins in the extension, and the slot that holds the record
  itself in the memory queue (R377, R407) -/
  pl : Bool := false
  hm : Bool := false
  mact : Bool := false
  area : Option Nat := none
  slot : Option Nat := none
  joinPa : Option Nat := none
  deriving DecidableEq, Repr

/-- A switched-out continuation that still waits (R376), with its asid. -/
structure Sleeper where
  ctx : Ctx
  wait : Wait
  agent : Nat
  asid : Nat
  /-- where its save area begins in the extension (R407) -/
  area : Nat
  pl : Bool := false
  /-- its wait has ended, and it becomes a ready record when the pool has room (R377) -/
  woken : Bool := false
  deriving DecidableEq, Repr

/-- One die. -/
structure Die where
  /-- staged HASHCH0 to HASHCH4 masks, and the six committed masks, HASHPC last (R301, R302) -/
  staged : Vector Word 5 := #v[0x200#64, 0x400#64, 0x800#64, 0x1000#64, 0x2000#64]
  masks : Vector Word 6 := #v[0x200#64, 0x400#64, 0x800#64, 0x1000#64, 0x2000#64, 0x100#64]
  busy : Bool := false
  pdrain : Word := 0
  wextbase : Word := 0
  wextsize : Word := 0
  ubin : Word := 24
  tokens : Tbl Nat := []
  watches : Tbl Watch := []
  wft : List WEntry := []
  /-- registrations of region tasks that R361 left unmade -/
  unmade : List WEntry := []
  departed : List Departed := []
  chans : Tbl Chan := []
  codes : Tbl (Option CodeTab) := []
  par : Parterre := {}
  pool : List Rec := []
  memq : List Rec := []
  sleepers : List Sleeper := []
  /-- the slots of the extension that save areas of region tasks hold, as first slot and count (R360, R407) -/
  taskSaves : Tbl (Nat × Nat) := []
  errs : Tbl Nat := []
  tlb : List TlbEntry := []
  deriving DecidableEq, Repr

/-- A core's trace buffer (R417, R418): records oldest first, frozen, records lost while frozen. -/
structure Trace where
  recs : List (BitVec 128) := []
  frozen : Bool := false
  lost : Nat := 0
  deriving DecidableEq, Repr

/-! ## The Trellis (R206 to R236) -/

/-- Beats at an input, on an outgoing link or at a unit's output, the depth (R172), and which readers have accepted the
head (R169). -/
structure Buf where
  q : List Beat := []
  depth : Nat := 2
  got : List Nat := []
  deriving DecidableEq, Repr

/-- A carry-save beat (R155): four sums under one exponent; STK, OVF, NAN and VALID by lane. -/
structure CsBeat where
  sum : Vector Int 4 := Vector.replicate 4 0
  e : Nat := 0
  stk : BitVec 4 := 0
  ovf : BitVec 4 := 0
  nan : BitVec 4 := 0
  valid : BitVec 4 := 0
  deriving DecidableEq, Repr

/-- The states of a residency slot (R290). -/
inductive SlotState where
  | free | claimed | filling | resident
  deriving DecidableEq, Repr

/-- A residency slot (R290): state, tag, the copy row that fills it, the cycle it became FREE; `leaving` once EMITFREE has begun (R292). -/
structure OSlot where
  st : SlotState := .free
  tag : BitVec 16 := 0
  beats : List Beat := []
  by_ : Option (Nat × Nat) := none
  freedAt : Nat := 0
  leaving : Bool := false
  deriving DecidableEq, Repr

/-- A scan in progress (R180): parent reference, the position of the next entry, the end position, the last coordinate. -/
structure Scan where
  p : Nat
  pos : Nat
  stop : Nat
  lastC : Option Nat := none
  deriving DecidableEq, Repr

/-- The state of one slot's unit in one context (R161). Each unit uses the fields its own rule needs. -/
structure UnitSt where
  fmt : Nat := 0
  hdrA : Option Beat := none
  hdrB : Option Beat := none
  hdrC : Option Beat := none
  pktA : List Beat := []
  pktB : List Beat := []
  pktC : List Beat := []
  /-- the matrix slot's second packet of each port (R241) -/
  behind : Tbl (Beat × List Beat) := []
  accs : List CsBeat := []
  acc : Option Line := none
  ints : List (BitVec 32) := []
  toks : List Tok := []
  win : Option Tok := none
  scal : List (BitVec 32) := []
  gen : Word := 0
  n : Nat := 0
  f : Nat := 0
  q : Nat := 0
  stops : Nat := 0
  stopsB : Nat := 0
  lastSkipA : Option Nat := none
  lastSkipB : Option Nat := none
  prev : Nat := 12
  fires : Nat := 0
  scan : Option Scan := none
  pos : List Nat := []
  out : List Tok := []
  outB : List Beat := []
  flag : Bool := false
  tsA : Option (BitVec 32) := none
  tsB : Option (BitVec 32) := none
  /-- write-log entries, one for each write (R190): the address in bits, the number of bits, the value -/
  wlog : List (Nat × Nat × Nat) := []
  /-- the cycle of each entry of a memory node's log, the order of its chain's accesses (R196) -/
  wtimes : List Nat := []
  plog : List Pair := []
  slots : List OSlot := []
  any : Bool := false
  all : Bool := true
  /-- the address a translation holds the stream at (R414, R415): 0 a walk in flight, 1 a fault that was raised -/
  stalled : Option (Word × Nat) := none
  /-- beats a preloaded FIFO emitted since FARM (R251); passes a root unit began since the last region commit (R229) -/
  emitted : Nat := 0
  drained : Bool := false
  deriving DecidableEq, Repr

/-- One tile's one context (R213): the loaded words and descriptors, its buffers and its units' states. -/
structure TileCtx where
  ops : Tbl (BitVec 32) := []
  /-- each operation word's index in the block's operation section, which a cause word names (R225) -/
  places : Tbl Nat := []
  sws : List (BitVec 16) := []
  descs : Tbl (BitVec 256) := []
  ins : Tbl Buf := []
  links : Tbl Buf := []
  outs : Tbl Buf := []
  units : Tbl UnitSt := []
  deriving DecidableEq, Repr

/-- The FSTAT states of R105. -/
inductive TaskState where
  | empty | loaded | running | parked | draining | drained | checkpointing | checkpointed | killed
  deriving DecidableEq, Repr

/-- A restart point (R229): the recorded unit states of the roots, the tokens taken at each port, and COUNT. -/
structure Restart where
  roots : List (Nat × UnitSt) := []
  ports : List (Nat × Nat) := []
  count : Nat := 0
  deriving DecidableEq, Repr

/-- A region task (R213 to R236). -/
structure Task where
  asid : Nat := 0
  launch : Nat := 0
  w1 : Nat := 0
  h1 : Nat := 0
  state : TaskState := .empty
  count : Nat := 0
  positive : Bool := false
  eflags : BitVec 16 := 0
  /-- EFLAGS at the task's last drain or kill (R212) -/
  endFlags : BitVec 16 := 0
  regCount : Nat := 0
  cause : Nat := 0
  held : Option (Cause × Word) := none
  ckpt : Bool := false
  restartable : Bool := false
  cauto : Bool := false
  next : Nat := 0
  psrc : Nat := 0
  round : Word := 0
  pivtau : Word := 0
  seed : Word := 0
  estim : Nat := 0
  arming : Option HartId := none
  armingCont : Nat := 0
  /-- every hart that has armed the task (R208) -/
  armers : List HartId := []
  bprio : BitVec 4 := 0
  eprio : BitVec 4 := 0
  fsel : Option Nat := none
  phaseBit : Option Bool := none
  restart : Restart := {}
  taken : Tbl Nat := []
  /-- the block's header and sections as loaded (R213) -/
  block : List Byte := []
  /-- a checkpoint under way or standing (R233): its address, or none for a save area of the extension; the saved task's number -/
  image : Option Word := none
  saved : Option Nat := none
  /-- an image was loaded: the state before the checkpoint, 2, 3 or 4; 0 otherwise (R408) -/
  resume : Nat := 0
  /-- the rows of kind-6 records, delivered when the task resumes (R409): tile, port, beats -/
  rows : List (Nat × Nat × List Beat) := []
  drainPending : Bool := false
  /-- the cycle of its last FARM; what the Arbour owes it after pre-emption: 1 its phase again, 2 its saved state, 3 its restart
  point; the task its tiles go to (R385, R387) -/
  armedAt : Nat := 0
  owed : Nat := 0
  handTo : Option TaskId := none
  /-- the cycle of the last movement in the task (R234); DONEs passed at each exit since the last one counted (R227) -/
  moved : Nat := 0
  dones : Tbl Nat := []
  /-- the tiles that a drain has left, which have taken the selected context (R230, R231) -/
  gone : List Nat := []
  /-- the driven scanners' states as COMMIT passed them, by tile × 16 + slot (R180) -/
  marks : Tbl UnitSt := []
  /-- the input at which each unit that could not go on lacked a beat (R254), by tile × 16 + slot -/
  wants : Tbl Nat := []
  deriving DecidableEq, Repr

/-- A state record of a checkpoint image (R408): kind, tile, slot code, body length, store offset. -/
structure SavedRec where
  kind : Nat
  tile : Nat
  slot : Nat
  len : Nat
  off : Nat
  deriving DecidableEq, Repr

/-- A task saved in a checkpoint image: what its device-only bodies stand for (R408), its records, the rows of kind 6 as tile,
port and bytes in each, and the areas when the image is no memory of a program. -/
structure SavedTask where
  task : Task
  tiles : List TileCtx
  head : List Byte
  recs : List SavedRec
  rows : List (Nat × Nat × Nat) := []
  areas : List (List Byte) := []
  deriving DecidableEq, Repr

/-! ## The Arbour (R206 to R212, R373 to R387) -/

/-- A launch record waiting in a queue (R206, R374): where it lies, its bytes as taken, who submitted it. -/
structure LReq where
  rec_ : List Byte
  host : Bool
  prioCap : Nat
  deriving DecidableEq, Repr

/-- A launch queue (R373, R374). -/
structure LQueue where
  word : Word := 0x000000FFFFFFFF3F#64
  recs : List LReq := []
  deriving DecidableEq, Repr

/-- The walk of a task graph (R378, R379): current node, live LOOP counters, whether a RUN's code is still out. -/
structure Walk where
  node : Nat := 0
  counters : List (Nat × Nat) := []
  /-- the node was entered through a next field; a RUN has spawned its code; that code is still out -/
  viaNext : Bool := false
  ran : Bool := false
  after : Nat := 0
  out : Bool := false
  table : Word := 0
  deriving DecidableEq, Repr

/-- A launch (R206 to R212): budgets and uses in the order harts, tiles, HBM, link, applies. -/
structure Launch where
  seq : Word := 0
  asid : Nat := 0
  prio : BitVec 4 := 0
  ptok : Nat := 1
  levels : List (Nat × Nat × Nat × Nat × Nat) := []
  stat : Word := 0
  notify : Bool := false
  host : Bool := false
  nckpt : Bool := false
  nkill : Bool := false
  clamp : Bool := false
  queue : Nat := 0
  budget : List Nat := [0, 0, 0, 0, 0]
  used : List Nat := [0, 0, 0, 0, 0]
  period : List Nat := [0, 0, 0, 0, 0]
  deficit : Int := 0
  conts : Nat := 0
  walk : Option Walk := none
  eflags : BitVec 16 := 0
  live : Bool := true
  impdrain : Bool := false
  statfail : Bool := false
  state : Nat := 0
  cause : Nat := 0
  agent : Nat := 0
  /-- a region fault still held when another load took its task's place: the cause and the unit (R212, R234) -/
  unreported : Option (Nat × Nat) := none
  deriving DecidableEq, Repr

/-! ## Collectives (R125 to R127, R390 to R394, R430) -/

/-- A collective descriptor as COLLS read it (R125). -/
structure CollDesc where
  op : Nat
  fmt : Nat
  rop : Nat
  flags : Nat
  count : Nat
  epoch : Nat
  n : Nat
  list : List Nat
  sbuf : Word
  rbuf : Word
  tmo : Nat
  round : Nat
  root : Nat
  deriving DecidableEq, Repr

/-- A probe of a round's members (R392): when it was sent, the packages whose link had been declared down by then, and those silent at
once because nothing reached them. -/
structure Probing where
  at_ : Nat
  down : List Nat
  silent : List Nat
  deriving DecidableEq, Repr

/-- A round at this member (R126, R390, R391): whose launch and level it has, its own operands, the running partial, what the tree
received as (level, member, values), what it sent, its state, and a probe as (cycle, packages whose link was down then). -/
structure Round where
  handle : Nat
  asid : Nat
  sys : Bool
  launch : Nat
  desc : CollDesc
  mine : List (BitVec 32)
  got : List (Nat × Nat × List (BitVec 32)) := []
  sent : Bool := false
  passed : Bool := false
  state : Nat := 0
  why : Nat := 0
  pkg : Nat := 0
  start : Nat := 0
  probing : Option Probing := none
  /-- the packages from which a message of the round has come (R100) -/
  heard : List Nat := []
  deriving DecidableEq, Repr

/-- A MEMB in progress (R127, R394): the continuation and its instruction, the old list as read at issue, the coordinator and the cycle
of the last probe. -/
structure Memb where
  agent : Nat
  uid : Nat
  pc : Word
  handle : Nat
  epoch : Nat
  list : List Nat
  tmo : Nat
  coordinator : Nat
  since : Nat
  result : Option (List Nat) := none
  deriving DecidableEq, Repr

/-- What a coordinator collects (R394). -/
structure Collection where
  epoch : Nat
  list : List Nat
  tmo : Nat
  since : Nat
  collected : List Nat := []
  deriving DecidableEq, Repr

/-- What a collective engine sends (R390 to R394). -/
inductive CollOut where
  | partial_ | total | value | done | abort | probe | answer | memb | publish
  deriving DecidableEq, Repr

/-! ## Links (R424 to R428) -/

/-- A flit (R424): its fields, KIND first of all, and its payload. -/
structure Flit where
  seq : BitVec 16 := 0
  ack : BitVec 16 := 0
  free : BitVec 32 := 0
  kind : BitVec 8 := 0
  payload : List Byte := []
  deriving DecidableEq, Repr

/-- One end of a link: sender's and receiver's counters, the replay buffer, retraining, down (R424 to R427). -/
structure Link where
  txSeq : BitVec 16 := 0
  rxSeq : BitVec 16 := 0
  sent : BitVec 32 := 0
  freeSeen : BitVec 32 := 0
  freed : BitVec 32 := 0
  received : BitVec 32 := 0
  occupancy : Nat := 0
  replay : List Flit := []
  wire : List Flit := []
  naks : Nat := 0
  retraining : Option Nat := none
  quiesced : Bool := false
  /-- the freed count of an occupancy report, which F takes once every flit is acknowledged (R426) -/
  report : Option (BitVec 32) := none
  down : Bool := false
  /-- LINKUP has been issued at this end, and at the other (R428) -/
  near : Bool := false
  far : Bool := false
  /-- the cycle of the last audit (R426) -/
  audited : Nat := 0
  deriving DecidableEq, Repr

/-! ## Host and Morhan (R419 to R436) -/

/-- An accepted command (R421). -/
structure Cmd where
  seq : Nat
  op : Nat
  operands : BitVec 384
  deriving DecidableEq, Repr

/-- A status record before and after it is posted (R423). -/
structure StatRec where
  sseq : Nat := 0
  cseq : Nat := 0
  op : Nat := 0
  result : Nat := 0
  data : Word := 0
  deriving DecidableEq, Repr

/-- The mailbox (R419 to R423): slots, commands accepted and not yet complete, completed seqs above DONE, the status queue. -/
structure Mailbox where
  slots : Tbl (BitVec 512) := []
  /-- slots written and not yet fetched -/
  unread : List Nat := []
  doorbell : Nat := 0
  acc : Nat := 0
  cmds : List Cmd := []
  complete : List Nat := []
  done : Nat := 0
  stat : Nat := 0
  sqbase : Word := 0
  sqsize : Nat := 0
  sqhead : Nat := 0
  heldRecs : List StatRec := []
  kept : List StatRec := []
  /-- the host's status queue as the device has written it: 32 bytes at each host bus address -/
  queue : Tbl (List Byte) := []
  deriving DecidableEq, Repr

/-- Morhan (R431 to R436): boot stage and failure, the power cap and its idled sixteenths, shutdown. -/
structure Morhan where
  stage : Nat := 0
  fail : Nat := 0
  cap : Nat := 4800
  average : Nat := 0
  idleMatrix : Nat := 0
  idleVector : Nat := 0
  idleHart : Nat := 0
  shutdown : Bool := false
  /-- the firmware that boot has checked: Morhan's, the sequencer's, the link's (R432, R433) -/
  firmware : List (List Byte) := []
  deriving DecidableEq, Repr

/-- An HBM stack (R303, R304): layer temperatures, refresh interval in cycles, throttled ports, ports stopped. -/
structure Stack where
  layers : Vector Nat 16 := Vector.replicate 16 0
  tr : Nat := 80000000
  throttled : Bool := false
  stopped : Bool := false
  groups : Tbl Nat := []
  deriving DecidableEq, Repr

/-! ## The whole package -/

/-- What an error of a storage structure strikes (R416): the bins and runs of a line, or the line itself where it has none; a register of a hart,
scalar, 64 + vector, 96 + mask; a line of an L1; a Belvedere entry, a pool record or a save area of the extension, by place; a record
of a trace buffer; or a bit that a structure's code corrects. -/
inductive Damage where
  | line (ln : Nat)
  | register (h : HartId) (r : Nat)
  | l1 (core : Fin 192) (ln : Nat)
  | entry (die : Fin 6) (idx : Nat)
  | record (die : Fin 6) (idx : Nat)
  | area (die : Fin 6) (idx : Nat)
  | trace (core : Fin 192) (idx : Nat)
  | corrected (die : Fin 6) (code : Nat)
  deriving DecidableEq, Repr

/-- Whose turn comes next (assumption 7): a hart runs one instruction, a slot takes its next step, a step of the device
happens, or cycles pass. The list of turns is the order of agents, which the manual leaves open. -/
inductive Turn where
  | hart (h : HartId) (late : Bool)
  | unit (u : UnitRef)
  | event (i : Instr)
  | pass (cycles : Nat)
  /-- a step of the device whose writes to memory stay on their way, and the k-th such write landing at one address (R282, R322) -/
  | slow (i : Instr)
  | land (k : Nat)
  /-- an error strikes (R305, R352, R416) -/
  | damage (d : Damage)
  /-- an end of a link sends a data flit with a payload, or acknowledges only (R424, R425); LINKUP is issued at the other end (R428) -/
  | transmit (port : Nat) (payload : Option (List Byte))
  | farLinkup (port : Nat)
  /-- an access activates a row of a row group (R303) -/
  | activate (stack : Fin 12) (group : Nat)
  deriving DecidableEq, Repr

/-- The state of the package. -/
structure State where
  /-- the turns to come; when there is none, the hart `cur` runs -/
  turns : List Turn := []
  /-- the hart whose instruction runs -/
  cur : HartId := 0
  /-- the slot whose element operation runs -/
  focus : UnitRef := ⟨⟨0, 0, 0⟩, 0, 0⟩
  /-- the model's counter of free values (assumption 4) -/
  free : Nat := 0
  /-- package cycle count (R381) -/
  cycle : Nat := 0
  /-- the bytes of every space by global physical address (R284) -/
  mem : List Host.Cell := []
  /-- lines that carry the poison marker (R352) -/
  poison : List Nat := []
  /-- lines held in each core's L1 data cache (R309), and in its L1 instruction cache (R2, R43) -/
  l1 : Tbl (List (Nat × Line)) := []
  il1 : Tbl (List (Nat × Line)) := []
  /-- writes that have not landed everywhere, in order; whether this step's writes stay on their way (R322) -/
  casts : List Cast := []
  slow : Bool := false
  /-- the stores that lines of an L1 do not show, and the older lines that a hart's loads may still return after a fence of a narrow
  scope (R312) -/
  later : List Later := []
  olds : List (Nat × Nat × Line) := []
  harts : Tbl Hart := []
  dies : Vector Die 6 := Vector.replicate 6 {}
  traces : Tbl Trace := []
  /-- emission sequence counters by agent id (R337) -/
  seqs : Tbl Nat := []
  /-- live update regions (R109), each under a number that is never used again and is its id modulo 4,096 (R336) -/
  regions : Tbl URegion := []
  /-- tile contexts by (die × 480 + x + 24 × y) × 4 + ctx; current contexts by die × 480 + x + 24 × y (R217) -/
  tiles : Tbl TileCtx := []
  current : Tbl Nat := []
  /-- translation caches of the memory tiles (R414) -/
  mtTlb : Tbl (List TlbEntry) := []
  tasks : Tbl Task := []
  images : Tbl SavedTask := []
  queues : Tbl LQueue := []
  launches : Tbl Launch := []
  nextLaunch : Nat := 1
  /-- the launch the round-robin pointer of each priority visited last (R375) -/
  rr : Tbl Nat := []
  nextCont : Nat := 1
  /-- the budget period that has begun (R381) -/
  period : Nat := 0
  /-- root of the ASID table (R411) -/
  asidTab : Nat := 0
  rounds : List Round := []
  membs : List Memb := []
  collections : List Collection := []
  /-- messages of rounds for which this package has issued no COLLS yet (R390, R392) -/
  early : List (CollOut × CollMsg) := []
  /-- the list published for each old epoch (R394), and the package's current epoch (R393) -/
  published : Tbl (List Nat) := []
  epoch : Nat := 0
  sent : List (CollOut × Nat × CollMsg) := []
  links : Tbl Link := []
  /-- the Pergola port that leads to each package some link reaches (R284); the second-tier ports that have failed (R305) -/
  reach : Tbl Nat := []
  portDown : List Nat := []
  host : Mailbox := {}
  morhan : Morhan := {}
  hbmStacks : Vector Stack 12 := Vector.replicate 12 {}
  deriving DecidableEq, Repr

/-- Why the machine stops with a fault. -/
inductive Fault where
  /-- No step raises it: every misuse has an outcome (R7), and an access to a hole takes a trap (R285). Safe. -/
  | unreachable
  deriving DecidableEq, Repr

/-- Why an instruction has no meaning. -/
inductive Refusal where
  /-- Raised by `exec` for an instruction not modelled yet, and by nothing else. Safe. -/
  | notModelled (mnemonic : String)
  deriving DecidableEq, Repr

/-- The package right after reset: every hart idle, nothing loaded, every register at the value its rule states. -/
def State.reset : State := {}

end Sys2Proof.Machine
end

