-- ==== Sys2Proof/Machine/Tbl.lean ====
section
/-!
DEFINITION. Sparse tables in canonical form: look-up, update and removal keep the keys strictly rising; and lists in order.
-/
namespace Sys2Proof.Machine.Tbl

/-- The entry at a key, if there is one. -/
def find? {α : Type} : Tbl α → Nat → Option α
  | [], _ => none
  | (k, a) :: t, n => if k == n then some a else find? t n

/-- The entry at a key, or the table's default. -/
def getD {α : Type} (t : Tbl α) (n : Nat) (d : α) : α := (find? t n).getD d

/-- Put an entry at a key, keeping the keys rising. -/
def set {α : Type} : Tbl α → Nat → α → Tbl α
  | [], n, a => [(n, a)]
  | (k, b) :: t, n, a =>
    if n < k then (n, a) :: (k, b) :: t
    else if n = k then (n, a) :: t
    else (k, b) :: set t n a

/-- Remove a key. -/
def erase {α : Type} (t : Tbl α) (n : Nat) : Tbl α := t.filter fun p => p.1 != n

/-- Change the entry at a key, starting from the default. -/
def upd {α : Type} (t : Tbl α) (n : Nat) (d : α) (f : α → α) : Tbl α := set t n (f (getD t n d))

/-- Keys strictly rising. -/
def rising {α : Type} : Tbl α → Bool
  | [] => true
  | [_] => true
  | (k, _) :: (j, b) :: t => k < j && rising ((j, b) :: t)

/-- Insert before the first element that it does not come after. -/
def insertBy {α : Type} (le : α → α → Bool) (a : α) : List α → List α
  | [] => [a]
  | b :: t => if le a b then a :: b :: t else b :: insertBy le a t

/-- Sort by an order, equal elements as they stood. -/
def sortBy {α : Type} (le : α → α → Bool) (l : List α) : List α := l.foldr (insertBy le) []

end Sys2Proof.Machine.Tbl
end

