-- ==== Sys2Proof/Machine/Operands.lean ====
section
/-!
DEFINITION. Operand forms: the registers of the running hart (R19, R20), vector lanes (R59), masks, agent ids (R101), and the
little-endian view of bytes (R4). Every read and write of a register goes through these.
-/
namespace Sys2Proof.Machine

/-! ## Bytes and fields -/

/-- The n bytes of a value, least significant first (R4). -/
def leBytes (n v : Nat) : List Byte := (List.range n).map fun i => BitVec.ofNat 8 (v / 256 ^ i)

/-- The value of bytes, least significant first (R4). -/
def leValue (l : List Byte) : Nat := l.foldr (fun b acc => b.toNat + 256 * acc) 0

/-- A field of n bits at lo. -/
def fld (v lo n : Nat) : Nat := v / 2 ^ lo % 2 ^ n

/-- A field of a word, as a number. -/
def wfld (w : Word) (lo n : Nat) : Nat := Machine.fld w.toNat lo n

/-- A word from a number, modulo 2^64. -/
def word (n : Nat) : Word := BitVec.ofNat 64 n

/-- A number read as a signed field of w bits. -/
def signed (w v : Nat) : Int := if v % 2 ^ w < 2 ^ (w - 1) then (v % 2 ^ w : Nat) else (v % 2 ^ w : Nat) - (2 ^ w : Nat)

/-- Bytes lo to lo + n of a list, zero beyond its end. -/
def slice (l : List Byte) (lo n : Nat) : List Byte :=
  let t := (l.drop lo).take n
  t ++ List.replicate (n - t.length) 0#8

/-- The little-endian field of n bytes at an offset of a record. -/
def fieldOf (l : List Byte) (lo n : Nat) : Nat := leValue (slice l lo n)

/-- Whether every byte of a span is zero. -/
def zeroSpan (l : List Byte) (lo n : Nat) : Bool := (slice l lo n).all (· == 0#8)

/-! ## The running hart -/

/-- A hart's state; a hart the table does not list is as after reset. -/
def State.hart (s : State) (h : HartId) : Hart := Tbl.getD s.harts h.val {}

def State.setHart (s : State) (h : HartId) (x : Hart) : State := { s with harts := Tbl.set s.harts h.val x }

def State.updHart (s : State) (h : HartId) (f : Hart → Hart) : State := s.setHart h (f (s.hart h))

/-- The hart that runs. -/
def State.me (s : State) : Hart := s.hart s.cur

/-- What the running hart's continuation owns. -/
def State.ctx (s : State) : Ctx := s.me.ctx

def State.updMe (s : State) (f : Hart → Hart) : State := s.updHart s.cur f

def State.updCtx (s : State) (f : Ctx → Ctx) : State := s.updMe fun h => { h with ctx := f h.ctx }

/-- The address of the instruction that runs. -/
def State.pc (s : State) : Word := s.ctx.pc

def State.setPc (s : State) (a : Word) : State := s.updCtx fun c => { c with pc := a }

/-- s(r): s0 reads zero (R19). -/
def Ctx.rd (c : Ctx) (r : SReg) : Word := if r = 0 then 0 else c.s[r.val]

/-- s(r) ← v: a write to s0 is discarded (R19, R20); a register written anew has its parity (R416). -/
def Ctx.wr (c : Ctx) (r : SReg) (v : Word) : Ctx := if r = 0 then c else { c with s := c.s.set r.val v, bad := c.bad.filter (· != r.val) }

def State.rd (s : State) (r : SReg) : Word := s.ctx.rd r

def State.wr (s : State) (r : SReg) (v : Word) : State := s.updCtx fun c => c.wr r v

/-- A scalar named by a five-bit field (R12). -/
def s5 (r : Fin 32) : SReg := ⟨r.val, by omega⟩

/-- The die of a hart (R101). -/
def hartDie (h : HartId) : Fin 6 := ⟨h.val / 128, by omega⟩

/-- The core of a hart: four harts share it (R2). -/
def hartCore (h : HartId) : Nat := h.val / 4

/-- A hart's agent id (R101). -/
def hartAgent (h : HartId) : Nat := h.val / 128 * 2 ^ 26 + h.val % 128

/-- The hart an agent id names, if it names one (R101). -/
def hartOf (agent : Nat) : Option HartId :=
  let n := fld agent 26 3 * 128 + agent % 2 ^ 26
  if agent / 2 ^ 29 = 0 ∧ agent % 2 ^ 26 < 128 then (if h : n < 768 then some ⟨n, h⟩ else none) else none

def State.die (s : State) : Fin 6 := hartDie s.cur

/-- AGENTID of the running hart (R101). -/
def State.agent (s : State) : Nat := hartAgent s.cur

def State.getDie (s : State) (d : Fin 6) : Die := s.dies[d.val]

def State.updDie (s : State) (d : Fin 6) (f : Die → Die) : State := { s with dies := s.dies.set d.val (f s.dies[d.val]) }

/-- Change every die. -/
def State.mapDies (s : State) (f : Die → Die) : State := { s with dies := s.dies.map f }

/-- The numbers of the dies, in order. -/
def allDies : List (Fin 6) := List.finRange 6

/-- Every hart, in order. -/
def allHarts : List HartId := List.finRange 768

/-- STATUS as it reads (R130). -/
def Hart.status (h : Hart) : Word :=
  word (h.pl.toNat + h.hm.toNat * 2 + h.ctx.dz.toNat * 8 + h.trc.toNat * 16 + h.ctx.bprio.toNat * 256 + h.eprio.toNat * 4096)

/-! ## Masks and lanes -/

/-- m(r): m0 reads all ones (R19). -/
def State.rdM (s : State) (r : MReg) : Word := if r = 0 then BitVec.allOnes 64 else s.ctx.m[r.val]

/-- m(r) ← v; no instruction names m0 as its destination (R20). -/
def State.wrM (s : State) (r : MReg) (v : Word) : State :=
  s.updCtx fun c => if r = 0 then c else { c with m := c.m.set r.val v, bad := c.bad.filter (· != 96 + r.val) }

def State.rdV (s : State) (r : Fin 32) : Line := s.ctx.v[r.val]

def State.wrV (s : State) (r : Fin 32) (x : Line) : State := s.updCtx fun c => { c with v := c.v.set r.val x, bad := c.bad.filter (· != 64 + r.val) }

/-- Lane i of w bits. -/
def lane (x : Line) (w i : Nat) : Nat := x.toNat / 2 ^ (w * i) % 2 ^ w

/-- All lanes of w bits, lane 0 first. -/
def lanes (x : Line) (w : Nat) : List Nat := (List.range (512 / w)).map (lane x w)

/-- A line from its lanes. -/
def ofLanes (w : Nat) (l : List Nat) : Line := BitVec.ofNat 512 (l.foldr (fun v acc => v % 2 ^ w + 2 ^ w * acc) 0)

/-- The 64 bytes of a line. -/
def lineBytes (x : Line) : List Byte := leBytes 64 x.toNat
def lineOf (l : List Byte) : Line := BitVec.ofNat 512 (leValue l)

/-- Whether element i is active under a mask (R59). -/
def active (m : Word) (i : Nat) : Bool := m.toNat.testBit i

/-- The element width of an ew code (R59). -/
def ewBits (e : Fin 4) : Nat := 8 * 2 ^ e.val

/-- The lanes of a second source: a vector, or a scalar broadcast at the element width (R12). -/
def State.vsrcLanes (s : State) (b : VSrc) (w : Nat) : List Nat :=
  match b with
  | .v r => lanes (s.rdV r) w
  | .s r => List.replicate (512 / w) ((s.rd (s5 r)).toNat % 2 ^ w)

/-! ## Free values -/

/-- A fresh index of a free value (assumption 4). -/
def State.fresh (s : State) : Nat × State := (s.free, { s with free := s.free + 1 })

/-! ## Instruction results with traps and waits -/

/-- How an instruction ends without completing: a trap, a wait, or a transfer that has already set the pc. -/
inductive Stop where
  | trap (p : PendTrap)
  | wait (w : Wait)
  | done
  deriving DecidableEq, Repr

/-- A computation over the state that may stop; a stop keeps the state reached so far. -/
abbrev M := EStateM Stop State

/-- Trap(cause) with what the frame's ADDR and AUX hold (R398). -/
def trapM {α : Type} (c : Cause) (detail : Nat := 0) (addr aux : Word := 0) : M α := throw (.trap ⟨c, detail, addr, aux, [], none⟩)

/-- Trap unless a condition holds. -/
def demand (b : Bool) (c : Cause) (detail : Nat := 0) (addr aux : Word := 0) : M Unit :=
  if b then pure () else trapM c detail addr aux

/-- Trap(cause) where no address is at fault: the manual says nothing of what ADDR then holds, so it is a free value. -/
def openTrapM {α : Type} (c : Cause) : M α := do
  let f := (← get).fresh
  set f.2
  trapM c 0 (Config.freeWord f.1)

/-- As `demand`, where no address is at fault. -/
def demandOpen (b : Bool) (c : Cause) : M Unit := if b then pure () else openTrapM c

/-- Change the state. -/
def doS (f : State → State) : M Unit := modify f

/-! ## Tracing (R134, R417, R418) -/

/-- A record in a core's ring: a frozen buffer counts it as lost, and the ring keeps the 4,096 newest. -/
def State.record (s : State) (core typ b5 h67 : Nat) (w : Nat) : State :=
  { s with traces := Tbl.upd s.traces core {} fun t =>
      if t.frozen then { t with lost := t.lost + 1 }
      else
        let r : BitVec 128 := BitVec.ofNat 128
          (s.cycle % 2 ^ 32 + typ % 256 * 2 ^ 32 + b5 % 256 * 2 ^ 40 + h67 % 65536 * 2 ^ 48 + w % 2 ^ 64 * 2 ^ 64)
        { t with recs := (t.recs ++ [r]).drop (t.recs.length + 1 - 4096) } }

/-- A record of the running hart, when it traces. -/
def State.traceEvent (s : State) (typ h67 w : Nat) : State :=
  if s.me.trc then s.record (hartCore s.cur) typ (s.cur.val % 4) h67 w else s

end Sys2Proof.Machine
end

