-- ==== Sys2Proof/Machine/Bytes.lean ====
section
/-!
DEFINITION. Memory as a canonical list of bytes, the spaces of the package-local map (R284, R286), where a line is homed (R299),
and which lines carry an uncorrectable error (R304, R305, R352).
-/
namespace Sys2Proof.Machine

namespace Memory

/-- One byte; an address the list does not hold reads zero (assumption 8). -/
def get : List Host.Cell → Nat → Byte
  | [], _ => 0#8
  | (k, b) :: t, a => if k = a then b else get t a

/-- The cells of bytes laid from an address, zeros left out. -/
def cells : Nat → List Byte → List Host.Cell
  | _, [] => []
  | a, b :: t => if b = 0#8 then cells (a + 1) t else (a, b) :: cells (a + 1) t

/-- Write bytes from an address, keeping the canonical form. -/
def write (m : List Host.Cell) (a : Nat) (l : List Byte) : List Host.Cell :=
  m.filter (fun c => c.1 < a) ++ cells a l ++ m.filter (fun c => a + l.length ≤ c.1)

/-- The n bytes from an address. -/
def bytes (m : List Host.Cell) (a n : Nat) : List Byte := (List.range n).map fun i => get m (a + i)

/-- The canonical form: addresses strictly rising, no zero listed. -/
def wf : List Host.Cell → Bool
  | [] => true
  | [(_, b)] => b != 0#8
  | (a, b) :: (c, d) :: t => b != 0#8 && decide (a < c) && wf ((c, d) :: t)

end Memory

/-- The n bytes at a global physical address. -/
def State.bytesAt (s : State) (pa n : Nat) : List Byte := Memory.bytes s.mem pa n

/-- Their little-endian value (R4). -/
def State.valueAt (s : State) (pa n : Nat) : Nat := leValue (s.bytesAt pa n)

/-- Write bytes at a global physical address, and nothing else. -/
def State.put (s : State) (pa : Nat) (l : List Byte) : State := { s with mem := Memory.write s.mem pa l }

/-! ## Spaces -/

/-- What lies at an address (R284, R286): HBM, a memory tile's store, a copy-port window, a second-tier port, a hole. -/
inductive Space where
  | hbm (die : Fin 6)
  | store (die : Fin 6) (tile off : Nat)
  | portWin (die : Fin 6) (tile port off : Nat)
  | tier2 (port : Nat)
  | hole
  deriving DecidableEq, Repr

/-- The package number and the package-local address (R284). -/
def pkgOf (pa : Nat) : Nat := pa / 2 ^ 46
def localOf (pa : Nat) : Nat := pa % 2 ^ 46

/-- A tile is a compute tile when x + y is even (R3). -/
def isMT (tile : Nat) : Bool := (tile % 24 + tile / 24) % 2 == 1

/-- The space of an address (R284, R286). -/
def spaceOf (pa : Nat) : Space :=
  let a := localOf pa
  if a < 6 * 2 ^ 38 then
    (if a % 2 ^ 38 < 0x3000000000 then .hbm ⟨a / 2 ^ 38 % 6, by omega⟩ else .hole)
  else if 2 ^ 41 ≤ a ∧ a < 2 ^ 41 + 6 * 2 ^ 31 then
    let b := a - 2 ^ 41
    let die : Fin 6 := ⟨b / 2 ^ 31 % 6, by omega⟩
    let tile := b % 2 ^ 31 / 2 ^ 22
    let off := b % 2 ^ 22
    if 480 ≤ tile ∨ isMT tile = false then .hole
    else if off < 0x300000 then .store die tile off
    else if off < 0x310000 then .portWin die tile 0 (off - 0x300000)
    else if off < 0x320000 then .portWin die tile 1 (off - 0x310000)
    else .hole
  else if 2 ^ 44 ≤ a ∧ a < 2 ^ 45 then
    let b := a - 2 ^ 44
    if b % 2 ^ 40 < 2 ^ 39 then .tier2 (b / 2 ^ 40) else .hole
  else .hole

def isHbm (pa : Nat) : Bool := match spaceOf pa with | .hbm _ => true | _ => false

/-- The physical address of byte `off` of a memory tile's store on this package (R286). -/
def storeAddr (die : Fin 6) (tile off : Nat) : Nat :=
  Config.package * 2 ^ 46 + 2 ^ 41 + die.val * 2 ^ 31 + tile * 2 ^ 22 + off

/-- The die a second-tier port attaches to (R305). -/
def tier2Die (port : Nat) : Fin 6 :=
  if port < 3 then 0 else if port < 6 then 1 else if port < 8 then 2 else if port < 11 then 3 else if port < 14 then 4 else 5

/-- The die at which a line is homed (R299, R287). -/
def homeDie (pa : Nat) : Fin 6 :=
  match spaceOf pa with
  | .hbm d => d
  | .store d _ _ => d
  | .portWin d _ _ _ => d
  | .tier2 p => tier2Die p
  | .hole => 0

/-- Whether a package can be reached: this one, or one that an up link leads to (R284, R427). -/
def State.linked (s : State) (pkg : Nat) : Bool :=
  pkg == Config.package || match Tbl.find? s.reach pkg with
    | some p => !(Tbl.getD s.links p {}).down
    | none => false

/-- The die of a Pergola port: four to each (R2). -/
def portDie (port : Nat) : Fin 6 := ⟨port / 4 % 6, by omega⟩

/-- Whether an edge between dies carries what goes from one die to another. -/
def edgeCarries (edge : Nat) (a b : Fin 6) : Bool := decide (24 ≤ edge) && a != b && (Config.dieRoute a b).contains edge

/-- Whether a link carries a request of a die for an address (R427). -/
def State.carries (s : State) (link : Nat) (d : Fin 6) (pa : Nat) : Bool :=
  if pkgOf pa == Config.package then edgeCarries link d (homeDie pa)
  else match Tbl.find? s.reach (pkgOf pa) with
    | some p => link == p || edgeCarries link d (portDie p)
    | none => false

/-- Whether requests pass between two dies: no edge on their way is down. -/
def State.edgesUp (s : State) (a b : Fin 6) : Bool := s.links.all fun x => !(x.2.down && edgeCarries x.1 a b)

/-- Whether a request of a die reaches an address: some way leads there, and no link on it is down (R427). -/
def State.reaches (s : State) (d : Fin 6) (pa : Nat) : Bool :=
  (pkgOf pa == Config.package || (Tbl.find? s.reach (pkgOf pa)).isSome) && s.links.all fun x => !(x.2.down && s.carries x.1 d pa)

/-- The exclusive OR of all bits (R9). -/
def parity (n : Nat) : Bool := (List.range 64).foldl (fun b i => b != n.testBit i) false

/-- The stack of an HBM address (R300), 0 to 11. -/
def stackOf (pa : Nat) : Nat :=
  let a := localOf pa
  a / 2 ^ 38 % 6 * 2 + (parity (a % 2 ^ 38 / 256)).toNat

/-- The home slice of a line on its die (R299): A[37:6] mod 48, of the package-local address. -/
def sliceNo (pa : Nat) : Nat := localOf pa % 2 ^ 38 / 64 % 48

/-- The channel of an HBM address in its stack, 0 to 31, and its pseudo-channel (R300), under a die's committed masks. -/
def channelOf (masks : Vector Word 6) (pa : Nat) : Nat :=
  ((List.range 5).map fun i => if parity (localOf pa &&& (masks.toList.getD i 0).toNat) then 2 ^ i else 0).foldl (· + ·) 0
def pseudoChannel (masks : Vector Word 6) (pa : Nat) : Nat := (parity (localOf pa &&& (masks.toList.getD 5 0).toNat)).toNat

/-- Whether an HBM stack of this package that holds an address has stopped (R304). -/
def State.stopped (s : State) (pa : Nat) : Bool :=
  pkgOf pa == Config.package && isHbm pa && (s.hbmStacks.toList.map (·.stopped)).getD (stackOf pa) false

/-- Whether data at an address returns with an uncorrectable error: a poisoned line, a stopped stack, a failed port. -/
def State.broken (s : State) (pa : Nat) : Bool :=
  s.poison.contains (pa / 64) || s.stopped pa || match spaceOf pa with
    | .tier2 p => pkgOf pa == Config.package && s.portDown.contains p
    | _ => false

/-! ## Tasks and tiles by number -/

/-- The die, context, row and column of a task (R101). -/
def taskDie (t : TaskId) : Fin 6 := ⟨t / 2048 % 6, by omega⟩
def taskCtx (t : TaskId) : Fin 4 := ⟨t % 2048 / 480 % 4, by omega⟩
def taskX (t : TaskId) : Nat := t % 2048 % 480 % 24
def taskY (t : TaskId) : Nat := t % 2048 % 480 / 24

def taskOf (die x y ctx : Nat) : TaskId := die * 2048 + x + 24 * y + 480 * ctx

/-- A task's agent id (R101). -/
def taskAgent (t : TaskId) : Nat := 2 ^ 29 + t / 2048 * 2 ^ 26 + t % 2048

def State.task (s : State) (t : TaskId) : Task := Tbl.getD s.tasks t {}
def State.updTask (s : State) (t : TaskId) (f : Task → Task) : State := { s with tasks := Tbl.upd s.tasks t {} f }

/-- Tile k of a task's rectangle, numbered row-major (R106, R213): its number within the die. -/
def tileAt (t : TaskId) (w1 k : Nat) : Nat := taskX t + k % (w1 + 1) + 24 * (taskY t + k / (w1 + 1))

/-- The tiles of a rectangle, in order. -/
def tilesOf (t : TaskId) (w1 h1 : Nat) : List Nat := (List.range ((w1 + 1) * (h1 + 1))).map (tileAt t w1)

/-- Where a tile's context is kept. -/
def tcKey (die tile ctx : Nat) : Nat := (die * 480 + tile) * 4 + ctx

def State.tc (s : State) (die tile ctx : Nat) : TileCtx := Tbl.getD s.tiles (tcKey die tile ctx) {}
def State.updTc (s : State) (die tile ctx : Nat) (f : TileCtx → TileCtx) : State :=
  { s with tiles := Tbl.upd s.tiles (tcKey die tile ctx) {} f }

/-- The tile and context of a slot. -/
def TileNo (t : TileRef) : Nat := t.x.val + 24 * t.y.val

/-- The current context of a tile (R217). -/
def State.curCtx (s : State) (die tile : Nat) : Nat := Tbl.getD s.current (die * 480 + tile) 0

/-- Whether a task's context is current on every tile of its rectangle that no drain of its has left (R217, R231). -/
def State.isCurrent (s : State) (t : TaskId) : Bool :=
  let k := s.task t
  (tilesOf t k.w1 k.h1).all fun tile => k.gone.contains tile || s.curCtx (taskDie t).val tile == (taskCtx t).val

/-- The region word of a task, die resolved (R102). -/
def regionWord (t : TaskId) (w1 h1 : Nat) : Word :=
  word ((taskDie t).val * 2 ^ 29 + taskX t * 2 ^ 24 + taskY t * 2 ^ 19 + w1 * 2 ^ 15 + h1 * 2 ^ 11 + (taskCtx t).val * 2 ^ 9)

/-! ## Launches -/

def State.launch (s : State) (l : Nat) : Launch := Tbl.getD s.launches l {}
/-- Change a launch; what runs outside any launch has none (assumption 10). -/
def State.updLaunch (s : State) (l : Nat) (f : Launch → Launch) : State :=
  { s with launches := s.launches.map fun ((n, x) : Nat × Launch) => (n, if n == l then f x else x) }

end Sys2Proof.Machine
end

