-- ==== Sys2Proof/Machine/Belvedere.lean ====
section
/-!
DEFINITION. The Belvedere: entries, homes, holders, the cycle search, priority inheritance, waking, hand-over of locks,
departures and orphaned barriers (R99 to R101, R115, R331, R332, R357 to R370).
-/
namespace Sys2Proof.Machine

/-- Codes of the wait kinds (R100). -/
def WaitKind.code : WaitKind → Nat
  | .queue => 1 | .copy => 2 | .barrier => 3 | .lock => 4 | .word => 5
  | .join => 6 | .region => 7 | .collective => 8 | .launch => 9 | .apply => 10

/-- The die at which an object is homed (R357). -/
def ObjKey.home : ObjKey → Fin 6
  | .mem pa => homeDie pa
  | .port t _ _ _ => taskDie t
  | .copy c => ⟨c / 2 ^ 38 % 6, by omega⟩
  | .channel d _ => ⟨d % 6, by omega⟩
  | .task t => taskDie t
  | .round h => ⟨h / 2 ^ 32 / 4 % 6, by omega⟩
  | .queue _ => 0
  | .parterre d => ⟨d % 6, by omega⟩
  | .token d _ => ⟨d % 6, by omega⟩

/-- The 64-bit key (R359). -/
def State.keyWord (s : State) : ObjKey → Word
  | .mem pa => word (pa % 2 ^ 58)
  | .port t tile port write =>
    word (1 * 2 ^ 60 + (regionWord t (s.task t).w1 (s.task t).h1).toNat / 512 + port * 2 ^ 32 + tile * 2 ^ 37 + write.toNat * 2 ^ 41)
  | .copy c => word (2 * 2 ^ 60 + c)
  | .channel d ch => word (3 * 2 ^ 60 + d + ch * 8)
  | .task t => word (4 * 2 ^ 60 + taskAgent t)
  | .round h => word (5 * 2 ^ 60 + h)
  | .queue q => word (6 * 2 ^ 60 + q % 64)
  | .parterre d => word (7 * 2 ^ 60 + d)
  | .token d t => word (8 * 2 ^ 60 + d + t * 8)

/-- Who waits or holds: an agent id and, for a continuation, its number. -/
structure Party where
  agent : Nat
  uid : Nat
  deriving DecidableEq, Repr

/-- One unit or two: a continuation keeps its identity when it moves to another hart (R101, R376). -/
def Party.same (p q : Party) : Bool :=
  if p.agent / 2 ^ 29 == 0 && q.agent / 2 ^ 29 == 0 && p.uid != 0 then p.uid == q.uid else p == q

def WEntry.party (e : WEntry) : Party := ⟨e.agent, e.uid⟩

/-- The running hart's continuation. -/
def State.myself (s : State) : Party := ⟨s.agent, s.ctx.cont.uid⟩

def State.entries (s : State) (k : ObjKey) : List WEntry := (s.getDie k.home).wft.filter (·.key == k)

def State.allEntries (s : State) : List WEntry := s.dies.toList.flatMap (·.wft)

def State.waitsOf (s : State) (p : Party) : List WEntry := s.allEntries.filter fun e => e.typ == .wait && e.party.same p

def State.waiters (s : State) (k : ObjKey) : List WEntry := (s.entries k).filter (·.typ == .wait)
def State.holdings (s : State) (k : ObjKey) : List WEntry := (s.entries k).filter (·.typ == .hold)
def State.objOf (s : State) (k : ObjKey) : Option WEntry := (s.entries k).find? (·.typ == .obj)

/-! ## Room (R357, R358, R360, R361) -/

/-- 64-byte slots of a save area (R407): a frame, and 32 bytes for each logged pair beyond 512. -/
def saveSlots (c : Ctx) : Nat := 64 + ((c.log.length - 512) * 32 + 63) / 64

/-- The slots of the extension that one use each holds (R360), as first slot and count: entries, memory-queue records, save areas. -/
def Die.extUses (d : Die) : List (Nat × Nat) :=
  (d.wft.filterMap fun e => e.slot.map (·, 1)) ++ (d.memq.filterMap fun r => r.slot.map (·, 1)) ++ d.taskSaves.map (·.2)
    ++ d.sleepers.map (fun z => (z.area, saveSlots z.ctx))
    ++ (d.pool ++ d.memq).filterMap fun r => r.area.map fun a => (a, match r.saved with | some c => saveSlots c | none => 0)

/-- How many slots are in use. -/
def Die.extUsed (d : Die) : Nat := (d.extUses.map (·.2)).foldl (· + ·) 0

/-- How many slots the extension has (R360). -/
def Die.extSize (d : Die) : Nat := d.wextsize.toNat % 2 ^ 24 * 1024

/-- The first n contiguous free slots (R360, R407). -/
def Die.extFind (d : Die) (n : Nat) : Option Nat :=
  let ends := 0 :: d.extUses.map fun u => u.1 + u.2
  (ends.filter fun a => a + n ≤ d.extSize && d.extUses.all fun u => decide (a + n ≤ u.1) || decide (u.1 + u.2 ≤ a)).foldl
    (fun best a => match best with
      | none => some a
      | some b => some (min a b)) none

/-- Slots of the extension that are free. -/
def Die.extFree (d : Die) : Nat := d.extSize - d.extUsed

/-- The physical address of a slot (R360). -/
def Die.slotAddr (d : Die) (k : Nat) : Nat := Config.package * 2 ^ 46 + wfld d.wextbase 16 30 * 2 ^ 16 + 64 * k

/-- Type codes of R358. -/
def EntryType.code : EntryType → Nat
  | .obj => 1 | .hold => 2 | .wait => 3

/-- The 64 bytes of an entry (R358). An OBJ's aux counts the registered participants of a barrier. -/
def State.entryBytes (s : State) (e : WEntry) : List Byte :=
  let aux := if e.typ == .obj then ((s.entries e.key).filter fun x => x.typ == .hold && x.kind == 3).length
    else if e.typ == .wait then e.aux else 0
  leBytes 1 e.typ.code ++ leBytes 1 e.kind ++ leBytes 2 e.pkg ++ leBytes 4 e.agent ++ leBytes 8 (s.keyWord e.key).toNat
    ++ leBytes 8 (match e.key with | .mem _ => e.vaddr.toNat | _ => 0) ++ leBytes 8 e.time ++ leBytes 1 (e.prio + e.bprio * 16)
    ++ leBytes 1 (e.arrived.toNat + e.swout.toNat * 2 + e.slot.isSome.toNat * 4) ++ leBytes 2 e.asid ++ leBytes 4 aux ++ leBytes 24 0

/-- The Belvedere writes each entry of an object that lies in the extension into its slot (R358, R360). -/
def State.storeEntries (s : State) (k : ObjKey) : State :=
  (s.entries k).foldl (fun s e => match e.slot with
    | some n => s.put ((s.getDie k.home).slotAddr n) (s.entryBytes e)
    | none => s) s

def Die.chipFree (d : Die) : Nat := 16384 - (d.wft.filter (·.slot.isNone)).length

/-- Whether an object's OBJ or HOLD entries lie in the extension, where its WAITs are then placed too (R361). -/
def Die.away (d : Die) (k : ObjKey) : Bool := d.wft.any fun x => x.key == k && x.typ != .wait && x.slot.isSome

/-- Whether an entry is placed in the extension: a WAIT goes with its object; any other only when no chip entry is free (R361). -/
def Die.outside (d : Die) (e : WEntry) : Bool := (e.typ == .wait && d.away e.key) || d.chipFree == 0

/-- Whether the n entries of a registration fit, of which a WAIT goes with its object (R361). -/
def Die.roomFor (d : Die) (k : ObjKey) (typ : EntryType) (n : Nat) : Bool :=
  n == 0 || (decide (n ≤ d.chipFree + d.extFree) && (typ != .wait || !d.away k || decide (1 ≤ d.extFree)))

/-- Add an entry, in the place R361 gives it. -/
def State.addEntry (s : State) (e : WEntry) : State :=
  (s.updDie e.key.home fun d =>
    { d with wft := d.wft ++ [{ e with slot := if d.outside e then d.extFind 1 else none }] }).storeEntries e.key

/-- The object's record, made at its first registration, whose kind it keeps (R358). -/
def State.addObj (s : State) (k : ObjKey) (kind : Nat) : State :=
  match s.objOf k with
  | some o =>
    if o.kind == 0 then
      s.updDie k.home fun d => { d with wft := d.wft.map fun e => if e.typ == .obj && e.key == k then { e with kind := kind } else e }
    else s
  | none => s.addEntry { typ := .obj, kind := kind, pkg := 0, agent := 0, key := k, vaddr := 0, time := s.cycle, prio := 0, bprio := 0 }

/-- How many entries a registration needs (R357). -/
def State.need (s : State) (k : ObjKey) : Nat := if (s.objOf k).isSome then 1 else 2

/-- Take entries out of a die's table; a slot of the extension they held reads free (R358, R360). -/
def State.keepEntries (s : State) (d : Fin 6) (keep : WEntry → Bool) : State :=
  let x := s.getDie d
  let s := (x.wft.filter fun e => !keep e).foldl (fun s e => match e.slot with
    | some n => s.put (x.slotAddr n) (leBytes 64 0)
    | none => s) s
  s.updDie d fun x => { x with wft := x.wft.filter keep }

/-- Drop an object's record that nothing holds, awaits or reserves (R119, R357). -/
def State.tidy (s : State) (k : ObjKey) : State :=
  if (s.getDie k.home).wft.any fun e => e.key == k && (e.typ != .obj || e.reserved) then s
  else s.keepEntries k.home fun e => e.key != k

/-- Remove the entries that a test names, and records left empty; the object's own record follows (R358). -/
def State.dropEntries (s : State) (k : ObjKey) (f : WEntry → Bool) : State :=
  ((s.keepEntries k.home fun e => !(e.key == k && e.typ != .obj && f e)).tidy k).storeEntries k

/-- Change the entries that a test names. -/
def State.mapEntries (s : State) (k : ObjKey) (f : WEntry → WEntry) : State :=
  (s.updDie k.home fun d => { d with wft := d.wft.map fun e => if e.key == k then f e else e }).storeEntries k

/-! ## Units that live -/

/-- A record's party; it has no hart yet. -/
def recParty (r : Rec) : Party := ⟨0, r.uid⟩

/-- Live continuations: the party, where its join record lies, asid, base priority. -/
def State.conts (s : State) : List (Party × Option Nat × Nat × Nat) :=
  (s.harts.filterMap fun (n, h) =>
    if h.run == .idle then none
    else if hn : n < 768 then some (⟨hartAgent ⟨n, hn⟩, h.ctx.cont.uid⟩, h.ctx.cont.joinPa, h.asid.toNat, h.ctx.bprio.toNat) else none)
  ++ s.dies.toList.flatMap fun d =>
    ((d.pool ++ d.memq).map fun r => (recParty r, r.joinPa, (s.launch r.launch).asid, r.prio.toNat))
    ++ d.sleepers.map fun z => (⟨z.agent, z.ctx.cont.uid⟩, z.ctx.cont.joinPa, z.asid, z.ctx.bprio.toNat)

/-- Copies of a die with their channel. -/
def State.copiesOf (s : State) (d : Fin 6) : List Copy := (s.getDie d).chans.flatMap (·.2.cmds)

/-- A channel's agent id (R101), from a copy id (R87). -/
def copyAgent (c : CopyId) : Nat := 2 * 2 ^ 29 + c / 2 ^ 38 * 2 ^ 26 + c / 2 ^ 32 % 64
def copyParty (c : CopyId) : Party := ⟨copyAgent c, c % 2 ^ 32 + 1⟩

/-- Every live continuation's state with its party: on a hart, asleep or ready with its state saved (R376). -/
def State.allCtx (s : State) : List (Party × Ctx) :=
  (s.harts.filterMap fun ((n, h) : Nat × Hart) =>
    if h.run == .idle then none
    else if hn : n < 768 then some (⟨hartAgent ⟨n, hn⟩, h.ctx.cont.uid⟩, h.ctx) else none)
  ++ s.dies.toList.flatMap fun d =>
    d.sleepers.map (fun z => (⟨z.agent, z.ctx.cont.uid⟩, z.ctx))
    ++ d.pool.filterMap fun r => r.saved.map fun c => (recParty r, c)

/-- Change the contexts of a party, wherever they are. -/
def State.mapCtx (s : State) (q : Party) (f : Ctx → Ctx) : State :=
  let g (p : Party) (c : Ctx) : Ctx := if p.same q then f c else c
  { s.mapDies (fun d => { d with
      sleepers := d.sleepers.map fun z => { z with ctx := g ⟨z.agent, z.ctx.cont.uid⟩ z.ctx }
      pool := d.pool.map fun r => { r with saved := r.saved.map (g (recParty r)) } }) with
    harts := s.harts.map fun ((n, h) : Nat × Hart) =>
      (n, if hn : n < 768 then (if h.run == .idle then h else { h with ctx := g ⟨hartAgent ⟨n, hn⟩, h.ctx.cont.uid⟩ h.ctx }) else h) }

/-- The Arbour, as the holder of what waits for room in a queue (R100, R377): agent kind 6 names no agent of R101. -/
def arbourParty : Party := ⟨6 * 2 ^ 29, 0⟩

/-- A die's Parterre (R101). -/
def parterreParty (d : Nat) : Party := ⟨3 * 2 ^ 29 + d * 2 ^ 26, 0⟩

/-- The collective engine of a member on another package (R101): the package number stands above the 32 bits of the agent id. -/
def memberParty (pkg handle : Nat) : Party := ⟨pkg * 2 ^ 32 + 4 * 2 ^ 29 + handle / 2 ^ 32 / 4 * 2 ^ 26 + handle / 2 ^ 32 % 4, 0⟩

/-- The members a round, or a re-forming of a ring, has not yet heard from (R100, R126, R127). -/
def State.unheard (s : State) (handle : Nat) : List Party :=
  match s.rounds.find? fun r => r.handle == handle && r.state < 2 with
  | some r => ((r.desc.list.zipIdx.filter fun x => x.1 != Config.package && !r.heard.contains x.1).map fun x => memberParty x.1 handle)
  | none =>
    match s.membs.find? fun m => m.handle == handle with
    | some m =>
      let heard := (s.collections.filter fun c => c.epoch == m.epoch && c.list == m.list).flatMap (·.collected)
      ((m.list.filter fun p => p != Config.package && !heard.contains p).map fun p => memberParty p handle)
    | none => []

/-- Whether a handle is bound to a port of a task (R102, R106). -/
def Handle.onTask (q : Handle) (t : TaskId) : Bool :=
  q.bound && taskOf (wfld q.region 29 3) (wfld q.region 24 5) (wfld q.region 19 5) (wfld q.region 9 2) == t

/-- Whose handles are bound to a port of a task, by the selection bits (R106, R170). -/
def State.boundTo (s : State) (t : TaskId) (sel : Nat) : List Party :=
  (s.allCtx.filter fun x => x.2.q.toList.any fun q => q.onTask t && q.sel.toNat == sel).map (·.1)

/-- Who holds a draining task's wait open (R235): whose handles write a data port that is inside a pass. -/
def State.boundWriters (s : State) (t : TaskId) : List Party :=
  let inPass (q : Handle) : Bool :=
    (Tbl.getD (s.tc (taskDie t).val (tileAt t (s.task t).w1 (q.sel.toNat % 16)) (taskCtx t).val).units 31 {}).flag
  (s.allCtx.filter fun x => x.2.q.toList.any fun q => q.onTask t && q.sel.toNat.testBit 9 && !q.sel.toNat.testBit 8 && inPass q).map (·.1)

/-- The continuations whose record names a join record, through whichever address its SPAWN named it (R100, R359, R364). -/
def State.children (s : State) (k : ObjKey) : List Party := (s.conts.filter fun c => c.2.1.any fun pa => k == .mem pa).map (·.1)

/-- The holdings of a memory object that a wait concerns (R100): the lock's, participants yet to arrive, or those WHOLD declared. -/
def State.heldFor (s : State) (e : WEntry) : List WEntry :=
  (s.holdings e.key).filter fun h => match e.kind with
    | 3 => h.kind == 3 && !h.arrived
    | 4 => h.kind == 4
    | _ => h.kind != 4

/-- The holders of an object that a wait of a kind waits on (R100, R235). -/
def State.holdersOf (s : State) (e : WEntry) : List Party :=
  match e.key with
  | .mem _ =>
    if e.kind == 6 then s.children e.key else (s.heldFor e).map (·.party)
  | .port t _ _ _ =>
    -- what a task waits for at a port, the hart bound to it holds (R254)
    if e.agent / 2 ^ 29 == 1 then (s.holdings e.key).map (·.party) else [⟨taskAgent t, 0⟩]
  | .task t => ⟨taskAgent t, 0⟩ :: (if (s.task t).state == .draining then s.boundWriters t else [])
  | .copy c => [copyParty c]
  | .channel d ch => ((Tbl.getD (s.getDie ⟨d % 6, by omega⟩).chans ch {}).cmds.map fun c => copyParty c.id)
  | .token d tok => ((s.copiesOf ⟨d % 6, by omega⟩).filter fun c => c.blk.dtok == 2 ^ 15 + tok && c.state < 2).map fun c => copyParty c.id
  | .round h => s.unheard h
  | .queue _ => [arbourParty]
  | .parterre d => [parterreParty d]

/-- Whether a search follows the object: a watched word with two or more holders is not followed (R364). -/
def State.followed (s : State) (e : WEntry) : Bool := e.kind != 5 || (s.heldFor e).length < 2

/-- Search from an object back to the waiter, through up to `fuel` wait edges; the path lists the waits (R364). -/
def State.findCycle (s : State) (me : Party) : Nat → WEntry → List WEntry → Option (List WEntry)
  | 0, _, _ => none
  | fuel + 1, e, path =>
    if s.followed e then
      let hs := s.holdersOf e
      if hs.any (·.same me) then some (path ++ [e])
      else hs.firstM fun h => (s.waitsOf h).firstM fun w => State.findCycle s me fuel w (path ++ [e])
    else none

/-- The cycle a wait would close (R364): JOIN on a record its own continuation would lower counts too. -/
def State.cycleOf (s : State) (e : WEntry) : Option (List WEntry) := s.findCycle e.party 64 e []

/-! ## Records (R366, R369) -/

/-- The object's address as its waiter registered it, or its key (R366). -/
def State.vaddrOf (s : State) (e : WEntry) : Word := match e.key with | .mem _ => e.vaddr | k => s.keyWord k

def State.pairBytes (s : State) (e : WEntry) : List Byte :=
  leBytes 4 e.agent ++ leBytes 2 e.pkg ++ leBytes 1 e.kind ++ leBytes 1 0 ++ leBytes 8 (s.vaddrOf e).toNat

/-- The record of a cycle (R366). -/
def State.cycleRecord (s : State) (path : List WEntry) (how : Nat) : List Byte :=
  slice (leBytes 4 path.length ++ leBytes 1 (min path.length 16) ++ leBytes 1 how ++ leBytes 2 0 ++ leBytes 8 s.cycle
    ++ (path.take 16).flatMap s.pairBytes) 0 272

/-- A barrier's words (R115). -/
def State.barExpected (s : State) (pa : Nat) : Nat := s.valueAt pa 4
def State.barArrived (s : State) (pa : Nat) : Nat := s.valueAt (pa + 4) 4
def State.barGen (s : State) (pa : Nat) : Nat := s.valueAt (pa + 8) 4
def State.barState (s : State) (pa : Nat) : Nat := s.valueAt (pa + 12) 4

/-- The arrivals that can still come (R332). -/
def State.barPossible (s : State) (pa : Nat) : Nat :=
  s.barArrived pa + ((s.holdings (.mem pa)).filter (!·.arrived)).length

/-- Units departed in the generation without arriving, in order (R369). -/
def State.departedOf (s : State) (pa : Nat) : List Departed :=
  (s.getDie (homeDie pa)).departed.filter fun d => d.key == .mem pa && d.gen == s.barGen pa

/-- The ORPHAN record (R369). -/
def State.orphanRecord (s : State) (pa : Nat) (vaddr : Word) : List Byte :=
  let ds := s.departedOf pa
  slice (leBytes 8 vaddr.toNat ++ leBytes 4 (s.barExpected pa) ++ leBytes 4 (s.barPossible pa) ++ leBytes 4 (s.barGen pa)
    ++ leBytes 1 (min ds.length 15) ++ leBytes 3 0 ++ leBytes 4 ds.length ++ leBytes 4 0
    ++ (ds.take 15).flatMap fun d => leBytes 4 d.agent ++ leBytes 2 d.pkg ++ leBytes 1 d.how ++ leBytes 1 0 ++ leBytes 8 d.time) 0 272

/-! ## Inheritance (R370) -/

/-- Base priorities of all units: continuations and region tasks. -/
def State.basePrio (s : State) : List (Party × Nat) :=
  s.conts.map (fun c => (c.1, c.2.2.2)) ++ s.tasks.map fun (t, k) => (⟨taskAgent t, 0⟩, k.bprio.toNat)

def prioOf (l : List (Party × Nat)) (p : Party) : Nat :=
  match l.find? (·.1.same p) with
  | some x => x.2
  | none => 0

/-- One link of inheritance: every waiter lends to the holders of its object. -/
def State.lendStep (s : State) (l : List (Party × Nat)) : List (Party × Nat) :=
  let gifts := (s.allEntries.filter (·.typ == .wait)).flatMap fun e => (s.holdersOf e).map fun h => (h, prioOf l e.party)
  l.map fun (p, n) => (p, (gifts.filter (·.1.same p)).foldl (fun acc g => max acc g.2) n)

/-- Effective priorities, through up to 8 links (R370). -/
def State.effPrio (s : State) : List (Party × Nat) := (List.range 8).foldl (fun l _ => s.lendStep l) s.basePrio

/-- Recompute every unit's effective priority (R370). -/
def State.reprio (s : State) : State :=
  let l := s.effPrio
  { s with
    harts := s.harts.map fun (n, h) =>
      (n, if h.run == .idle then h
          else if hn : n < 768 then { h with eprio := BitVec.ofNat 4 (prioOf l ⟨hartAgent ⟨n, hn⟩, h.ctx.cont.uid⟩) } else h)
    tasks := s.tasks.map fun (t, k) => (t, { k with eprio := BitVec.ofNat 4 (prioOf l ⟨taskAgent t, 0⟩) }) }

/-! ## Waking -/

/-- The hart on which a party's continuation is. -/
def State.hartOfParty (s : State) (p : Party) : Option HartId :=
  allHarts.find? fun h => (s.hart h).run != .idle && (Party.mk (hartAgent h) (s.hart h).ctx.cont.uid).same p

/-- The ready record that a sleeping continuation becomes (R376). -/
def Sleeper.record (z : Sleeper) (time : Nat) : Rec :=
  { uid := z.ctx.cont.uid, launch := z.ctx.cont.launch, code := z.ctx.pc, frame := 0, join := z.ctx.cont.join, joinPa := z.ctx.cont.joinPa
    prio := z.ctx.bprio, seed := z.ctx.stochseed, node := z.ctx.cont.node, time := time, saved := some z.ctx, pl := z.pl, area := some z.area }

/-- Continuations whose wait has ended enter the pool, the reserve allowed, while it has room (R377). -/
def Die.letIn (d : Die) (time : Nat) : Die :=
  let go := (d.sleepers.filter (·.woken)).take (4096 - d.pool.length)
  { d with
    sleepers := d.sleepers.filter fun z => !go.any (·.ctx.cont.uid == z.ctx.cont.uid)
    pool := d.pool ++ go.map fun z => z.record time }

/-- Change a waiting continuation and let it go on: on its hart, or as a ready record in the pool of the die that
holds its save area (R376, R377, R437). -/
def State.rouse (s : State) (p : Party) (f : Ctx → Ctx) : State :=
  match s.hartOfParty p with
  | some h => s.updHart h fun x =>
      match x.run with
      | .waiting _ => { x with run := .running, ctx := f x.ctx }
      | _ => { x with ctx := f x.ctx }
  | none => s.mapDies fun d =>
      let woken (z : Sleeper) : Sleeper := if (Party.mk z.agent z.ctx.cont.uid).same p then { z with ctx := f z.ctx, woken := true } else z
      { d with sleepers := d.sleepers.map woken }.letIn s.cycle

/-- End a wait: its entry goes and its unit goes on with what the release granted (R99). -/
def State.wake (s : State) (e : WEntry) (g : Option Grant) : State :=
  (s.dropEntries e.key fun x => x.typ == .wait && x.party.same e.party).rouse e.party fun c => { c with grant := g }

/-- Wake every waiter of an object. -/
def State.wakeAll (s : State) (k : ObjKey) (g : Option Grant) : State := ((s.waiters k).foldl (fun s e => s.wake e g) s).reprio

/-! ## Room in the pools (R377) -/

/-- Records that fit the pool of a die beyond what it holds. -/
def Die.poolFree (d : Die) : Nat := 4096 - d.pool.length

/-- Whether a spawned record finds room: the pool beyond its reserve, or a slot of the extension. -/
def Die.spawnRoom (d : Die) : Bool := 256 < d.poolFree || 1 ≤ d.extFree

/-- The object a SPAWN waits on: the memory queue of a die (R359: queues 0 to 63 are launch queues). -/
def memqKey (d : Fin 6) : ObjKey := .queue (64 + d.val)

/-- Room has been freed on a die: continuations whose wait has ended enter the pool, and SPAWNs that wait for room go on. -/
def State.wakeSpawners (s : State) (d : Fin 6) : State :=
  let s := if (s.getDie d).sleepers.any (·.woken) then s.updDie d fun x => x.letIn s.cycle else s
  if s.waiters (memqKey d) != [] && (s.getDie d).spawnRoom then s.wakeAll (memqKey d) none else s

/-- The same on every die. -/
def State.roomFreed (s : State) : State := allDies.foldl State.wakeSpawners s

/-- Withdraw a wait and give its unit a trap to take at its waiting instruction (R365, R368). -/
def State.deliver (s : State) (e : WEntry) (t : PendTrap) : State :=
  ((s.dropEntries e.key fun x => x.typ == .wait && x.party.same e.party).rouse e.party fun c => { c with pend := c.pend ++ [t] }).reprio

/-! ## Scopes (R121, R208, R313) -/

/-- The die of an agent (R101). -/
def agentDie (a : Nat) : Nat := a / 2 ^ 26 % 8

/-- The tiles an agent uses (R208): a task's whole rectangle; the tiles of the ports whose handles a hart holds, or tile 0 of a region it
armed. Each with its task and its offsets in the rectangle. -/
def State.tilesUsed (s : State) (a : Nat) : List (TaskId × Nat × Nat) :=
  s.tasks.flatMap fun (t, k) =>
    let place (i : Nat) : TaskId × Nat × Nat := (t, i % (k.w1 + 1), i / (k.w1 + 1))
    if taskAgent t == a then (List.range ((k.w1 + 1) * (k.h1 + 1))).map place
    else
      let used := (s.allCtx.filter fun x => x.1.agent == a).flatMap fun x => (x.2.q.toList.filter (·.onTask t)).map fun q => place (q.sel.toNat % 16)
      if used == [] && (k.armers.any fun h => hartAgent h == a) then [place 0] else used

/-- Whether two agents share a group of a REGION level (R208): one region, and with w and h one sub-rectangle of it. -/
def State.shareRegion (s : State) (w h p q : Nat) : Bool :=
  let cut (x : TaskId × Nat × Nat) : TaskId × Nat × Nat := (x.1, if w == 0 then 0 else x.2.1 / w, if h == 0 then 0 else x.2.2 / h)
  p == q || ((s.tilesUsed p).map cut).any ((s.tilesUsed q).map cut).contains

/-- Whether agent q of this package lies within a scope of issuer p, whose launch is l (R121, R208, R313). A group of PACKAGE, GROUP or
DOMAIN that holds the issuer holds every agent of its package. -/
def State.inScope (s : State) (z : Fin 16) (l p q : Nat) : Bool :=
  let near := if p / 2 ^ 29 == 0 then agentDie p == agentDie q && q / 2 ^ 29 != 5 else p == q
  match z.val with
  | 0 => p == q
  | 1 | 2 => near
  | 3 => agentDie p == agentDie q && q / 2 ^ 29 != 5
  | 4 | 5 | 6 => q / 2 ^ 29 != 5
  | 7 => true
  | c => match (s.launch l).levels.find? fun v => v.2.1 == c with
    | none => true
    | some v => match v.1 with
      | 1 => p == q
      | 2 => near
      | 3 => s.shareRegion v.2.2.1 v.2.2.2.1 p q
      | 4 => agentDie p / v.2.2.2.2 == agentDie q / v.2.2.2.2 && q / 2 ^ 29 != 5
      | _ => q / 2 ^ 29 != 5

/-! ## What a change of a memory word wakes (R119, R120) -/

/-- After a word changed: the waiters on the word, and those on a join record that reached 0. -/
def State.wordChanged (s : State) (pa : Nat) (old : Nat) : State :=
  let v := s.valueAt pa 8
  if v == old then s
  else
    let s := ((s.waiters (.mem pa)).filter (·.kind == 5)).foldl (fun s e => s.wake e (some (.word (word v)))) s
    if v == 0 then ((s.waiters (.mem pa)).filter (·.kind == 6)).foldl (fun s e => s.wake e (some (.word 0))) s else s

/-- Write bytes at the point of coherence and wake what waits on the words they change. -/
def State.putWake (s : State) (pa : Nat) (l : List Byte) : State :=
  let first := pa / 8
  let ws := (List.range ((pa + l.length + 7) / 8 - first)).map fun i => (first + i) * 8
  let watched := ws.filter fun w => s.waiters (.mem w) != []
  let olds := watched.map fun w => (w, s.valueAt w 8)
  olds.foldl (fun s o => s.wordChanged o.1 o.2) (s.put pa l)

/-! ## Locks (R115, R118) -/

def lockHeld (w : Nat) : Bool := w.testBit 63
def lockAbandoned (w : Nat) : Bool := w.testBit 62

/-- A held lock's word (R115). -/
def lockWord (p : Party) : Nat := 2 ^ 63 + Config.package * 2 ^ 32 + p.agent

/-- The waiter a lock goes to: highest effective priority, earliest first (R118). -/
def State.nextWaiter (s : State) (k : ObjKey) : Option WEntry :=
  let l := s.effPrio
  ((s.waiters k).filter (·.kind == 4)).foldl (fun best e => match best with
    | none => some e
    | some b => if prioOf l b.party < prioOf l e.party then some e else best) none

/-- The waiter with the earliest registration, ties going to the lower agent id (R368). -/
def State.firstWaiter (s : State) (k : ObjKey) : Option WEntry :=
  (s.waiters k).foldl (fun best e => match best with
    | none => some e
    | some b => if e.time < b.time || (e.time == b.time && e.agent < b.agent) then some e else best) none

/-- Hand a lock on, or leave it free: with ABANDONED and its old holder when its holder left it (R118, R331). -/
def State.passLock (s : State) (pa : Nat) (abandoned : Bool) : State :=
  let s := s.dropEntries (.mem pa) fun e => e.typ == .hold && e.kind == 4
  match s.nextWaiter (.mem pa) with
  | some e =>
    let s := s.putWake pa (leBytes 8 (lockWord e.party))
    let s := s.mapEntries (.mem pa) fun x =>
      if x.typ == .wait && x.kind == 4 && x.party.same e.party then { x with typ := .hold, swout := false } else x
    (s.rouse e.party fun c => { c with grant := some (.lock abandoned) }).reprio
  | none =>
    let w := s.valueAt pa 8
    (s.putWake pa (leBytes 8 (if abandoned then w % 2 ^ 62 + 2 ^ 62 else 0))).reprio

/-! ## Barriers (R117, R332, R368) -/

/-- Complete a generation: no arrivals, the next generation, waiters released with 0 (R117). -/
def State.nextGen (s : State) (pa : Nat) : State :=
  let s := s.putWake (pa + 4) (leBytes 4 0 ++ leBytes 4 (s.barGen pa + 1))
  let s := s.mapEntries (.mem pa) fun e => if e.typ == .hold then { e with arrived := false } else e
  s.wakeAll (.mem pa) (some (.barrier false))

/-- ORPHANED is set, and the report falls to a waiter or, with none, to whoever then waits (R368). -/
def State.orphan (s : State) (pa : Nat) : State :=
  let s := s.putWake (pa + 12) (leBytes 4 (s.barState pa ||| 2))
  match s.firstWaiter (.mem pa) with
  | none => s
  | some e =>
    let s := s.mapEntries (.mem pa) fun x => if x.typ == .obj then { x with told := true } else x
    s.deliver e ⟨.orphan, min (s.departedOf pa).length 4095, e.vaddr, word e.aux, s.orphanRecord pa e.vaddr, none⟩

/-- Whether a barrier's expected count exceeds the arrivals that can still come, and no report stands (R332). -/
def State.orphaned (s : State) (pa : Nat) : Bool := !(s.barState pa).testBit 1 && decide (s.barPossible pa < s.barExpected pa)

/-- The test at a departure (R332, R368): a generation with neither an arrival nor a waiter is not tested. -/
def State.orphanTest (s : State) (pa : Nat) : State :=
  if s.barArrived pa == 0 && s.waiters (.mem pa) == [] then s else if s.orphaned pa then s.orphan pa else s

/-- The test at a generation's first arrival (R332, R368): that arrival sets ORPHANED and takes ORPHAN at its wait. -/
def State.firstArrivalTest (s : State) (pa : Nat) (p : Party) : State :=
  if s.orphaned pa then
    (s.putWake (pa + 12) (leBytes 4 (s.barState pa ||| 2))).mapEntries (.mem pa) fun x =>
      if x.typ == .obj then { x with owed := some (p.agent, p.uid) } else x
  else s

/-- One participant departs from a barrier (R117, R332). -/
def State.departBarrier (s : State) (pa : Nat) (e : WEntry) (how : Nat) : State :=
  let s' := s.dropEntries (.mem pa) fun x => x.typ == .hold && x.kind == 3 && x.party.same e.party
  if e.arrived then s'
  else
    (s'.updDie (homeDie pa) fun d =>
      { d with departed := d.departed ++ [⟨.mem pa, s.barGen pa, e.agent, e.pkg, how, s.cycle⟩] }).orphanTest pa

/-- A unit departs from everything: its waits, its holdings, its locks, its barriers (R331, R118, R117). -/
def State.depart (s : State) (p : Party) (how : Nat) : State :=
  let s := allDies.foldl (fun s d => s.keepEntries d fun e => !(e.typ == .wait && e.party.same p)) s
  let mine := s.allEntries.filter fun e => e.typ == .hold && e.party.same p
  let s := mine.foldl (fun s e =>
    match e.key, e.kind with
    | .mem pa, 4 => s.passLock pa true
    | .mem pa, 3 => s.departBarrier pa e how
    | k, n => s.dropEntries k fun x => x.typ == .hold && x.kind == n && x.party.same p) s
  let keep (d : Die) (e : WEntry) : Bool := e.typ != .obj || e.reserved || d.wft.any (fun x => x.key == e.key && x.typ != .obj)
  let s := allDies.foldl (fun s d => s.keepEntries d (keep (s.getDie d))) s
  { s with membs := s.membs.filter fun m => !(Party.mk m.agent m.uid).same p }.reprio.roomFreed

/-! ## Protected bytes (R115) -/

/-- Whether a record is that of a barrier: BINIT made it one, or it was first registered as one (assumption 26). -/
def WEntry.isBarrier (e : WEntry) : Bool := e.typ == .obj && (e.bar || e.kind == 3)
def State.isBarrier (s : State) (k : ObjKey) : Bool := (s.objOf k).any WEntry.isBarrier

/-- Whether bytes are protected from stores: a barrier object, or a lock held or awaited (R115). -/
def State.protectedAt (s : State) (pa n : Nat) : Bool :=
  (s.getDie (homeDie pa)).wft.any fun e => match e.key with
    | .mem k => (e.isBarrier && decide (k < pa + n) && decide (pa < k + 16))
        || (e.kind == 4 && e.typ != .obj && decide (k < pa + n) && decide (pa < k + 8))
    | _ => false

end Sys2Proof.Machine
end

