-- ==== Sys2Proof/Machine/Budget.lean ====
section
/-!
DEFINITION. Budgets (R381): what a use is charged to, lending (R372) and throttles (R382).
-/
namespace Sys2Proof.Machine

/-- Kinds of use, in the order of R381. -/
def Launch.charge (l : Launch) (k n : Nat) : Launch :=
  { l with used := l.used.set k (l.used.getD k 0 + n), period := l.period.set k (l.period.getD k 0 + n) }

/-- What one unit of a budget counts (R381): HBM in KiB of 64-byte transfers, links in KiB of bytes. -/
def budgetUnit (k : Nat) : Nat := match k with | 2 => 16 | 3 => 1024 | _ => 1

/-- Whether a launch has used its budget of a kind for the period (R382); 0 is unlimited. -/
def Launch.exhausted (l : Launch) (k : Nat) : Bool := l.budget.getD k 0 != 0 && l.budget.getD k 0 * budgetUnit k ≤ l.period.getD k 0

/-- The launch of a unit (R101): a region task's, a copy's, or a continuation's wherever it is. -/
def State.partyLaunch (s : State) (p : Party) : Nat :=
  match p.agent / 2 ^ 29 with
  | 1 => (s.task (p.agent % 2 ^ 29 / 2 ^ 26 * 2048 + p.agent % 2 ^ 26)).launch
  | 2 => match (allDies.flatMap s.copiesOf).find? fun c => (copyParty c.id).same p with
    | some c => c.launch
    | none => 0
  | _ => match s.allCtx.find? fun x => x.1.same p with
    | some x => x.2.cont.launch
    | none => 0

/-- The waits through which a unit inherits (R370): those on objects it holds, and on objects that their waiters hold, through n links. -/
def State.lenders (s : State) : Nat → Party → List WEntry
  | 0, _ => []
  | n + 1, p =>
    let l := s.allEntries.filter fun e => e.typ == .wait && (s.holdersOf e).any (·.same p)
    l ++ l.flatMap fun e => State.lenders s n e.party

/-- The launch that a unit's use of a kind is charged to (R372): its own, or, while that is exhausted and the unit runs above its base
priority, that of the highest-priority waiter it inherits from, ties going to the earliest registration; one that is itself exhausted
lends nothing. -/
def State.lender (s : State) (p : Party) (own k : Nat) : Nat :=
  if !(s.launch own).exhausted k then own
  else
    let l := s.effPrio
    if prioOf l p ≤ prioOf s.basePrio p then own
    else match (s.lenders 8 p).foldl (fun best e => match best with
      | none => some e
      | some b => if prioOf l b.party < prioOf l e.party || (prioOf l b.party == prioOf l e.party && e.time < b.time) then some e
                  else best) (none : Option WEntry) with
    | none => own
    | some e => if (s.launch (s.partyLaunch e.party)).exhausted k then own else s.partyLaunch e.party

/-- Whether a unit is throttled in a kind: its launch is exhausted and no waiter lends (R372, R382). -/
def State.throttled (s : State) (p : Party) (own k : Nat) : Bool :=
  own != 0 && (s.launch (s.lender p own k)).exhausted k

/-- The kind of budget that a request to an address counts against: HBM here, a link to another package. -/
def portKind (pa : Nat) : Option Nat :=
  if pkgOf pa != Config.package then some 3
  else match spaceOf pa with
    | .hbm _ => some 2
    | _ => none

/-- Whether a request is held at its port (R382). -/
def State.portHeld (s : State) (p : Party) (own pa : Nat) : Bool :=
  match portKind pa with
  | some k => s.throttled p own k
  | none => false

/-- Charge a request of n bytes (R381): the 64-byte transfers it makes, or its bytes on a link. -/
def State.chargePort (s : State) (p : Party) (own pa n : Nat) : State :=
  match portKind pa with
  | some k => if own == 0 then s else s.updLaunch (s.lender p own k) fun l => l.charge k (if k == 2 then (pa + n + 63) / 64 - pa / 64 else n)
  | none => s

end Sys2Proof.Machine
end

