-- ==== Sys2Proof/Machine/Num.lean ====
section
/-!
DEFINITION. Number formats and exact arithmetic with one rounding (R64, R65, R258 to R270): a value is decoded to an exact
dyadic number, computed exactly, and narrowed once.
-/
namespace Sys2Proof.Machine

/-- Rounding modes of ROUND.MODE (R61). -/
inductive RMode where
  | rne | rz | ru | rd
  deriving DecidableEq, Repr

/-- The mode of ROUND[1:0] (R61). -/
def RMode.ofCode (n : Nat) : RMode :=
  match n % 4 with
  | 0 => .rne
  | 1 => .rz
  | 2 => .ru
  | _ => .rd

/-- The formats of R258. -/
inductive Fmt where
  | f32 | bf16 | f16 | e4m3 | e5m2 | e2m1 | e8m0 | pp8 | s8 | s4 | s32 | b1 | z8
  deriving DecidableEq, Repr

/-- Format codes (R258). -/
def Fmt.ofCode? : Nat → Option Fmt
  | 1 => some .f32 | 2 => some .bf16 | 3 => some .f16 | 4 => some .e4m3 | 5 => some .e5m2 | 6 => some .e2m1
  | 7 => some .e8m0 | 8 => some .pp8 | 9 => some .s8 | 10 => some .s4 | 11 => some .s32 | 12 => some .b1 | 13 => some .z8
  | _ => none

/-- Bits per element (R258). -/
def Fmt.width : Fmt → Nat
  | .f32 | .s32 => 32
  | .bf16 | .f16 => 16
  | .e2m1 | .s4 => 4
  | .b1 => 1
  | _ => 8

/-- A floating layout (R259): exponent bits, fraction bits, bias, and how infinities and NaNs are coded. -/
structure FpSpec where
  eb : Nat
  mb : Nat
  bias : Nat
  /-- an all-ones exponent holds infinity (f = 0) and NaN -/
  ieee : Bool
  /-- the largest finite code, sign aside -/
  maxCode : Nat
  /-- the NaN a unit writes, sign aside (R261) -/
  nanCode : Nat
  deriving DecidableEq, Repr

/-- The floating layouts (R259). -/
def Fmt.fp? : Fmt → Option FpSpec
  | .f32 => some ⟨8, 23, 127, true, 0x7F7FFFFF, 0x7FC00000⟩
  | .bf16 => some ⟨8, 7, 127, true, 0x7F7F, 0x7FC0⟩
  | .f16 => some ⟨5, 10, 15, true, 0x7BFF, 0x7E00⟩
  | .e4m3 => some ⟨4, 3, 7, false, 0x7E, 0x7F⟩
  | .e5m2 => some ⟨5, 2, 15, true, 0x7B, 0x7F⟩
  | .e2m1 => some ⟨2, 1, 1, false, 0x7, 0x7⟩
  | _ => none

def f32Spec : FpSpec := ⟨8, 23, 127, true, 0x7F7FFFFF, 0x7FC00000⟩

/-- An exact value: NaN, an infinity, or (−1)^neg × m × 2^e; a zero keeps its sign. -/
inductive ExNum where
  | nan
  | inf (neg : Bool)
  | fin (neg : Bool) (m : Nat) (e : Int)
  deriving DecidableEq, Repr

/-- The value of a floating code (R259, R260). -/
def FpSpec.decode (sp : FpSpec) (x : Nat) : ExNum :=
  let neg := x / 2 ^ (sp.eb + sp.mb) % 2 == 1
  let e := x / 2 ^ sp.mb % 2 ^ sp.eb
  let f := x % 2 ^ sp.mb
  if sp.ieee && e == 2 ^ sp.eb - 1 then (if f == 0 then .inf neg else .nan)
  else if !sp.ieee && sp.mb == 3 && e == 2 ^ sp.eb - 1 && f == 7 then .nan
  else if e == 0 then .fin neg f (1 - (sp.bias : Int) - sp.mb)
  else .fin neg (2 ^ sp.mb + f) ((e : Int) - sp.bias - sp.mb)

/-- A signed integer read from the low bits. -/
def sint (w x : Nat) : Int := if x % 2 ^ w < 2 ^ (w - 1) then (x % 2 ^ w : Nat) else (x % 2 ^ w : Nat) - (2 ^ w : Nat)

/-- An integer as an exact value. -/
def ExNum.ofInt (i : Int) : ExNum := .fin (i < 0) i.natAbs 0

/-- The value of a pp8 code (R265). -/
def pp8Value (x : Nat) : ExNum :=
  let a := x / 16 % 8
  let b := x % 8
  let ta : Int := if a == 7 then 0 else if x / 128 % 2 == 1 then -(2 ^ (6 - a) : Nat) else (2 ^ (6 - a) : Nat)
  let tb : Int := if b == 7 then 0 else if x / 8 % 2 == 1 then -(2 ^ (6 - b) : Nat) else (2 ^ (6 - b) : Nat)
  let t := ta + tb
  .fin (t < 0) t.natAbs (-6)

/-- The exact value of an encoding (R260 to R265). -/
def Fmt.value (f : Fmt) (x : Nat) : ExNum :=
  match f with
  | .s8 => .ofInt (sint 8 x)
  | .s4 => .ofInt (sint 4 x)
  | .s32 => .ofInt (sint 32 x)
  | .z8 => .fin false (x % 256) 0
  | .b1 => .fin false (x % 2) 0
  | .pp8 => pp8Value x
  | .e8m0 => if x % 256 == 255 then .nan else .fin false 1 ((x % 256 : Nat) - 127)
  | f => match f.fp? with
    | some sp => sp.decode x
    | none => .nan

/-- The nonzero rule (R266): it looks at the encoding alone. -/
def Fmt.nonzero (f : Fmt) (x : Nat) : Bool :=
  match f with
  | .e8m0 => true
  | .pp8 => x / 16 % 8 != 7 || x % 8 != 7
  | .s8 | .z8 => x % 256 != 0
  | .s4 => x % 16 != 0
  | .s32 => x % 2 ^ 32 != 0
  | .b1 => x % 2 != 0
  | f => x % 2 ^ (f.width - 1) != 0

/-- Flags in the order of FPSTAT and EFLAGS (R62, R141): NV, FDZ, OF, UF, NX, SAT. -/
abbrev Fl := BitVec 6
def Fl.nv : Fl := 0x01#6
def Fl.fdz : Fl := 0x02#6
def Fl.of_ : Fl := 0x04#6
def Fl.uf : Fl := 0x08#6
def Fl.nx : Fl := 0x10#6
def Fl.sat : Fl := 0x20#6

/-- An exact result before its one rounding; `sticky` adds an infinitesimal to the magnitude. -/
structure Ex where
  num : ExNum
  sticky : Bool := false
  fl : Fl := 0#6
  deriving DecidableEq, Repr

/-- An input flush (R64): a subnormal becomes a zero of its sign, with no flag. -/
def flushIn (sp : FpSpec) (denorm : Bool) (x : ExNum) : ExNum :=
  match x with
  | .fin neg m e => if !denorm && m != 0 && m < 2 ^ sp.mb && e == 1 - (sp.bias : Int) - sp.mb then .fin neg 0 0 else x
  | y => y

/-- An operand of floating arithmetic in a format (R64); only f32, bf16 and f16 are flushed (R269). -/
def operand (f : Fmt) (denorm : Bool) (x : Nat) : ExNum :=
  match f with
  | .f32 => flushIn f32Spec denorm (f.value x)
  | .bf16 => flushIn ⟨8, 7, 127, true, 0x7F7F, 0x7FC0⟩ denorm (f.value x)
  | .f16 => flushIn ⟨5, 10, 15, true, 0x7BFF, 0x7E00⟩ denorm (f.value x)
  | f => f.value x

/-! ## Exact operations -/

/-- The sum of signed magnitudes at one exponent. -/
def alignSum (n1 : Bool) (m1 : Nat) (e1 : Int) (n2 : Bool) (m2 : Nat) (e2 : Int) : Int × Int :=
  let e := min e1 e2
  let a : Int := (m1 * 2 ^ (e1 - e).toNat : Nat)
  let b : Int := (m2 * 2 ^ (e2 - e).toNat : Nat)
  ((if n1 then -a else a) + (if n2 then -b else b), e)

/-- x + y (R64, R268): an exact zero from non-zero operands is +0, −0 under RD; zeros of one sign keep it. DESIGN CHOICE
(assumption 84): zeros of opposite signs, for which the spec gives no rule, make the same zero as other operands that cancel. -/
def ExNum.add (rm : RMode) (x y : ExNum) : Ex :=
  match x, y with
  | .nan, _ => ⟨.nan, false, 0⟩
  | _, .nan => ⟨.nan, false, 0⟩
  | .inf a, .inf b => if a == b then ⟨.inf a, false, 0⟩ else ⟨.nan, false, Fl.nv⟩
  | .inf a, _ => ⟨.inf a, false, 0⟩
  | _, .inf b => ⟨.inf b, false, 0⟩
  | .fin n1 m1 e1, .fin n2 m2 e2 =>
    if m1 == 0 && m2 == 0 then ⟨.fin (if n1 == n2 then n1 else rm == .rd) 0 0, false, 0⟩
    else
      let r := alignSum n1 m1 e1 n2 m2 e2
      if r.1 == 0 then ⟨.fin (rm == .rd) 0 0, false, 0⟩ else ⟨.fin (r.1 < 0) r.1.natAbs r.2, false, 0⟩

/-- −x. -/
def ExNum.neg : ExNum → ExNum
  | .nan => .nan
  | .inf a => .inf (!a)
  | .fin n m e => .fin (!n) m e

/-- x × y (R64, R268). -/
def ExNum.mul (x y : ExNum) : Ex :=
  match x, y with
  | .nan, _ => ⟨.nan, false, 0⟩
  | _, .nan => ⟨.nan, false, 0⟩
  | .inf a, .inf b => ⟨.inf (a != b), false, 0⟩
  | .inf a, .fin n m _ => if m == 0 then ⟨.nan, false, Fl.nv⟩ else ⟨.inf (a != n), false, 0⟩
  | .fin n m _, .inf b => if m == 0 then ⟨.nan, false, Fl.nv⟩ else ⟨.inf (n != b), false, 0⟩
  | .fin n1 m1 e1, .fin n2 m2 e2 => ⟨.fin (n1 != n2) (m1 * m2) (e1 + e2), false, 0⟩

/-- x × y + z with no rounding between (R67). -/
def ExNum.fma (rm : RMode) (x y z : ExNum) : Ex :=
  let p := x.mul y
  match p.num with
  | .nan => ⟨.nan, false, p.fl⟩
  | q => q.add rm z

/-- Number of bits of a natural number. -/
def bitLen (m : Nat) : Nat := if m == 0 then 0 else Nat.log2 m + 1

/-- x / y (R67): finite x ≠ 0 over ±0 gives ±∞ and FDZ. -/
def ExNum.div (x y : ExNum) : Ex :=
  match x, y with
  | .nan, _ => ⟨.nan, false, 0⟩
  | _, .nan => ⟨.nan, false, 0⟩
  | .inf _, .inf _ => ⟨.nan, false, Fl.nv⟩
  | .inf a, .fin n _ _ => ⟨.inf (a != n), false, 0⟩
  | .fin n _ _, .inf b => ⟨.fin (n != b) 0 0, false, 0⟩
  | .fin n1 m1 e1, .fin n2 m2 e2 =>
    if m2 == 0 then (if m1 == 0 then ⟨.nan, false, Fl.nv⟩ else ⟨.inf (n1 != n2), false, Fl.fdz⟩)
    else if m1 == 0 then ⟨.fin (n1 != n2) 0 0, false, 0⟩
    else
      let k := 64 + bitLen m2
      let n := m1 * 2 ^ k
      ⟨.fin (n1 != n2) (n / m2) (e1 - e2 - k), n % m2 != 0, 0⟩

/-- Binary digits of the square root, from bit `i` down. -/
def isqrtGo (n : Nat) : Nat → Nat → Nat
  | 0, r => r
  | i + 1, r => if (r + 2 ^ i) * (r + 2 ^ i) ≤ n then isqrtGo n i (r + 2 ^ i) else isqrtGo n i r

/-- The integer square root. -/
def isqrt (n : Nat) : Nat := isqrtGo n (bitLen n / 2 + 1) 0

/-- √x (R67). -/
def ExNum.sqrt : ExNum → Ex
  | .nan => ⟨.nan, false, 0⟩
  | .inf true => ⟨.nan, false, Fl.nv⟩
  | .inf false => ⟨.inf false, false, 0⟩
  | .fin neg m e =>
    if m == 0 then ⟨.fin neg 0 0, false, 0⟩
    else if neg then ⟨.nan, false, Fl.nv⟩
    else
      let odd := e % 2 != 0
      let n := m * 2 ^ (if odd then 81 else 80)
      let r := isqrt n
      ⟨.fin false r ((if odd then e - 1 else e) / 2 - 40), r * r != n, 0⟩

/-- 1/√x (R67). -/
def ExNum.rsqrt : ExNum → Ex
  | .nan => ⟨.nan, false, 0⟩
  | .inf true => ⟨.nan, false, Fl.nv⟩
  | .inf false => ⟨.fin false 0 0, false, 0⟩
  | .fin neg m e =>
    if m == 0 then ⟨.inf neg, false, Fl.fdz⟩
    else if neg then ⟨.nan, false, Fl.nv⟩
    else
      let m' := if e % 2 != 0 then 2 * m else m
      let h := (if e % 2 != 0 then e - 1 else e) / 2
      let k := 100 + bitLen m'
      let n := 2 ^ (2 * k) / m'
      let r := isqrt n
      ⟨.fin false r (-h - k), !(2 ^ (2 * k) % m' == 0 && r * r == n), 0⟩

/-- Fractional bits carried by exp2 and log2 (assumption 16). -/
def fracBits : Nat := 256

/-- The product of the roots 2^(2^−i) that the bits of a fraction select, most significant first. -/
def exp2Go : Nat → Nat → Nat → Nat → Nat → Nat
  | 0, _, _, _, acc => acc
  | k + 1, p, root, width, acc =>
    let acc' := if p / 2 ^ k % 2 == 1 then acc * root / 2 ^ width else acc
    exp2Go k p (isqrt (root * 2 ^ width)) width acc'

/-- 2^x (R67), to `fracBits` bits below the leading one; a non-integer power of two is irrational, so never a tie. -/
def ExNum.exp2 : ExNum → Ex
  | .nan => ⟨.nan, false, 0⟩
  | .inf true => ⟨.fin false 0 0, false, 0⟩
  | .inf false => ⟨.inf false, false, 0⟩
  | .fin neg m e =>
    if m == 0 then ⟨.fin false 1 0, false, 0⟩
    else if 14 ≤ e + bitLen m then (if neg then ⟨.fin false 1 (-20000), true, 0⟩ else ⟨.fin false 1 20000, true, 0⟩)
    else if e + bitLen m ≤ -40 then
      (if neg then ⟨.fin false (2 ^ 60 - 1) (-60), true, 0⟩ else ⟨.fin false (2 ^ 60) (-60), true, 0⟩)
    else if 0 ≤ e then ⟨.fin false 1 (if neg then -(m * 2 ^ e.toNat : Nat) else (m * 2 ^ e.toNat : Nat)), false, 0⟩
    else
      let k := (-e).toNat
      let i : Int := if neg then -((m + 2 ^ k - 1) / 2 ^ k : Nat) else (m / 2 ^ k : Nat)
      let p := if neg then (2 ^ k - m % 2 ^ k) % 2 ^ k else m % 2 ^ k
      if p == 0 then ⟨.fin false 1 i, false, 0⟩
      else ⟨.fin false (exp2Go k p (isqrt (2 * 2 ^ (2 * fracBits))) fracBits (2 ^ fracBits)) (i - fracBits), true, 0⟩

/-- Bits of a logarithm by repeated squaring. -/
def log2Go : Nat → Nat → Nat → Nat
  | 0, _, acc => acc
  | k + 1, t, acc =>
    let t2 := t * t / 2 ^ fracBits
    if t2 ≥ 2 ^ (fracBits + 1) then log2Go k (t2 / 2) (acc * 2 + 1) else log2Go k t2 (acc * 2)

/-- log2 x (R67), to 200 fractional bits; the logarithm of a number that is no power of two is irrational. -/
def ExNum.log2 : ExNum → Ex
  | .nan => ⟨.nan, false, 0⟩
  | .inf true => ⟨.nan, false, Fl.nv⟩
  | .inf false => ⟨.inf false, false, 0⟩
  | .fin neg m e =>
    if m == 0 then ⟨.inf true, false, Fl.fdz⟩
    else if neg then ⟨.nan, false, Fl.nv⟩
    else
      let n : Int := e + bitLen m - 1
      if m == 2 ^ (bitLen m - 1) then ⟨.ofInt n, false, 0⟩
      else
        let f := log2Go 200 (m * 2 ^ fracBits / 2 ^ (bitLen m - 1)) 0
        let v : Int := n * (2 ^ 200 : Nat) + f
        if 0 ≤ v then ⟨.fin false v.natAbs (-200), true, 0⟩ else ⟨.fin true (v.natAbs - 1) (-200), true, 0⟩

/-- The order of two numbers; none with a NaN. Zeros of either sign are equal. -/
def ExNum.cmp : ExNum → ExNum → Option Ordering
  | .nan, _ => none
  | _, .nan => none
  | .inf a, .inf b => some (if a == b then .eq else if a then .lt else .gt)
  | .inf a, _ => some (if a then .lt else .gt)
  | _, .inf b => some (if b then .gt else .lt)
  | .fin n1 m1 e1, .fin n2 m2 e2 =>
    let r := (alignSum n1 m1 e1 (!n2) m2 e2).1
    some (if r < 0 then .lt else if r == 0 then .eq else .gt)

def ExNum.isNan : ExNum → Bool
  | .nan => true
  | _ => false
def ExNum.isNeg : ExNum → Bool
  | .nan => false
  | .inf n => n
  | .fin n _ _ => n
def ExNum.isZero : ExNum → Bool
  | .fin _ m _ => m == 0
  | _ => false
def ExNum.isInf : ExNum → Bool
  | .inf _ => true
  | _ => false

/-! ## Rounding (R64, R71, R268) -/

/-- What becomes of a finite value beyond the largest finite one, and of an infinity (R71). -/
inductive Overflow where
  | ieee | nan | saturate
  deriving DecidableEq, Repr

/-- Whether a remainder of `sh` bits rounds the magnitude up. -/
def roundsUp (rm : RMode) (neg : Bool) (mant rem sh : Nat) : Bool :=
  match rm with
  | .rne => decide (2 ^ sh < 2 * rem) || (2 ^ sh == 2 * rem && mant % 2 == 1)
  | .rz => false
  | .ru => rem != 0 && !neg
  | .rd => rem != 0 && neg

/-- The magnitude m × 2^e at a unit of 2^q: the multiple and whether it is inexact. -/
def roundAt (rm : RMode) (neg : Bool) (m : Nat) (e q : Int) : Nat × Bool :=
  if q ≤ e then (m * 2 ^ (e - q).toNat, false)
  else
    let sh := (q - e).toNat
    let mant := m / 2 ^ sh
    let rem := m % 2 ^ sh
    (if roundsUp rm neg mant rem sh then mant + 1 else mant, rem != 0)

/-- The sign bit of a format. -/
def FpSpec.signBit (sp : FpSpec) (neg : Bool) : Nat := if neg then 2 ^ (sp.eb + sp.mb) else 0

/-- The unit of the last place of a value of leading exponent `ev` (R259). -/
def FpSpec.ulp (sp : FpSpec) (ev : Int) : Int := max ev (1 - (sp.bias : Int)) - sp.mb

/-- The code, sign aside and perhaps beyond the largest, of mant × 2^q where q is the unit of R259. -/
def FpSpec.pack (sp : FpSpec) (mant : Nat) (q : Int) : Nat :=
  if mant < 2 ^ sp.mb then mant
  else if mant < 2 ^ (sp.mb + 1) then ((q + sp.mb + sp.bias).toNat) * 2 ^ sp.mb + (mant - 2 ^ sp.mb)
  else ((q + sp.mb + 1 + sp.bias).toNat) * 2 ^ sp.mb

/-- The code for a result beyond the largest finite (R71). -/
def overflowCode (sp : FpSpec) (ov : Overflow) (rm : RMode) (neg : Bool) : Nat :=
  match ov with
  | .saturate => sp.maxCode
  | .nan => sp.nanCode
  | .ieee =>
    let toInf := match rm with
      | .rne => true
      | .rz => false
      | .ru => !neg
      | .rd => neg
    if toInf && sp.ieee then (2 ^ sp.eb - 1) * 2 ^ sp.mb else sp.maxCode

/-- Whether a non-zero magnitude is tiny (R64): below the smallest normal after rounding with unbounded exponents. -/
def tiny (sp : FpSpec) (rm : RMode) (neg : Bool) (m : Nat) (e : Int) : Bool :=
  let ev := e + bitLen m - 1
  if 1 - (sp.bias : Int) ≤ ev then false
  else if ev < -(sp.bias : Int) then true
  else (roundAt rm neg m e (ev - sp.mb)).1 < 2 ^ (sp.mb + 1)

/-- An infinitesimal is made a bit far below the unit (R157, R273). -/
def withSticky (m : Nat) (e : Int) (sticky : Bool) : Nat × Int :=
  if sticky then (if m == 0 then (1, -5000) else (m * 2 ^ 40 + 1, e - 40)) else (m, e)

/-- Round(x, fmt, mode) with the overflow rule, and the flush of a subnormal result when `flush` (R64, R71). -/
def roundFp (sp : FpSpec) (rm : RMode) (flush : Bool) (ov : Overflow) (x : Ex) : Nat × Fl :=
  match x.num with
  | .nan => (sp.nanCode, x.fl)
  | .inf neg =>
    if ov == .ieee then (sp.signBit neg + (2 ^ sp.eb - 1) * 2 ^ sp.mb, x.fl)
    else (sp.signBit neg + overflowCode sp ov rm neg, x.fl ||| Fl.of_ ||| Fl.nx)
  | .fin neg m0 e0 =>
    if m0 == 0 && !x.sticky then (sp.signBit neg, x.fl)
    else
      let me := withSticky m0 e0 x.sticky
      let q := sp.ulp (me.2 + bitLen me.1 - 1)
      let r := roundAt rm neg me.1 me.2 q
      let code := sp.pack r.1 q
      if sp.maxCode < code then (sp.signBit neg + overflowCode sp ov rm neg, x.fl ||| Fl.of_ ||| Fl.nx)
      else if flush && code < 2 ^ sp.mb && code != 0 then (sp.signBit neg, x.fl ||| Fl.uf ||| Fl.nx)
      else
        let inex := if r.2 then Fl.nx else 0#6
        let uf := if r.2 && tiny sp rm neg me.1 me.2 then Fl.uf else 0#6
        (sp.signBit neg + code, x.fl ||| inex ||| uf)

/-- An arithmetic result in f32, bf16 or f16 (R64). -/
def roundIeee (f : Fmt) (rm : RMode) (denorm : Bool) (x : Ex) : Nat × Fl :=
  match f.fp? with
  | some sp => roundFp sp rm (!denorm) .ieee x
  | none => (0, 0)

/-- The exact integer nearest under a mode, for a finite value; whether it was inexact. -/
def roundInt (rm : RMode) (neg : Bool) (m : Nat) (e : Int) : Int × Bool :=
  let r := roundAt rm neg m e 0
  ((if neg then -(r.1 : Int) else r.1), r.2)

/-- A conversion of a float to an integer range (R71, R268): clamped with SAT and NX, NaN gives 0 and NV (assumption 85). -/
def toInteger (lo hi : Int) (rm : RMode) (x : Ex) : Int × Fl :=
  match x.num with
  | .nan => (0, Fl.nv)
  | .inf neg => (if neg then lo else hi, Fl.sat ||| Fl.nx)
  | .fin neg m e =>
    let r := roundInt rm neg m e
    if r.1 < lo then (lo, Fl.sat ||| Fl.nx) else if hi < r.1 then (hi, Fl.sat ||| Fl.nx)
    else (r.1, if r.2 then Fl.nx else 0#6)

/-- An integer as the low bits of a field. -/
def toField (w : Nat) (i : Int) : Nat := (i % (2 ^ w : Nat)).toNat

/-! ## Stochastic rounding (R65, R270) -/

/-- Next() of R65: the new STOCHSEED; the draw is its low 16 bits. -/
def nextSeed (seed : Word) : Word :=
  let x0 := if seed == 0 then 0x9E3779B97F4A7C15#64 else seed
  let x1 := x0 ^^^ (x0 <<< 13)
  let x2 := x1 ^^^ (x1 >>> 7)
  x2 ^^^ (x2 <<< 17)

/-- A magnitude rounded stochastically to an integer at exponent q with a draw (R65): up when the 16 bits below the unit and the
draw carry. -/
def stochAt (u m : Nat) (e q : Int) : Nat :=
  let sh := (q - e).toNat
  let d := if 16 ≤ sh then m / 2 ^ (sh - 16) % 2 ^ 16 else m * 2 ^ (16 - sh) % 2 ^ 16
  (roundAt .rz false m e q).1 + (if 2 ^ 16 ≤ d + u then 1 else 0)

/-- Whether a non-zero magnitude is tiny under a draw (R64): stochastic rounding is then the mode that rounds it. -/
def tinyStoch (sp : FpSpec) (u m : Nat) (e : Int) : Bool :=
  let ev := e + bitLen m - 1
  if 1 - (sp.bias : Int) ≤ ev then false else stochAt u m e (ev - sp.mb) < 2 ^ (sp.mb + 1) || ev < -(sp.bias : Int)

/-- StochRound into a narrow format that keeps subnormals (R65, R270): the code, the flags, the generator after it. -/
def roundStoch (sp : FpSpec) (seed : Word) (neg : Bool) (m : Nat) (e : Int) : Nat × Fl × Word :=
  if m == 0 then (sp.signBit neg, 0, seed)
  else
    let q := sp.ulp (e + bitLen m - 1)
    let top := roundAt .rz neg m e q
    let lim := match sp.decode sp.maxCode with
      | .fin _ mm me => decide ((alignSum false m e true mm me).1 ≤ 0)
      | _ => true
    if !lim then (sp.signBit neg + sp.maxCode, Fl.of_ ||| Fl.nx, seed)
    else if !top.2 then (sp.signBit neg + sp.pack top.1 q, 0, seed)
    else
      let seed' := nextSeed seed
      let u := (seed' &&& 0xFFFF#64).toNat
      (sp.signBit neg + sp.pack (stochAt u m e q) q, Fl.nx ||| (if tinyStoch sp u m e then Fl.uf else 0#6), seed')

/-! ## Conversions (R70, R71) -/

/-- How a row of R70 rounds. -/
inductive ConvRound where
  | mode | stoch | exact | floor
  deriving DecidableEq, Repr

/-- A row of R70: destination, source, rounding, overflow. -/
structure ConvRow where
  dst : Fmt
  src : Fmt
  rnd : ConvRound
  ov : Overflow
  deriving DecidableEq, Repr

/-- The conversion rows (R70). -/
def convRow : Nat → Option ConvRow
  | 0x00 => some ⟨.bf16, .f32, .mode, .ieee⟩
  | 0x01 => some ⟨.f16, .f32, .mode, .ieee⟩
  | 0x02 => some ⟨.f32, .bf16, .exact, .ieee⟩
  | 0x03 => some ⟨.f32, .f16, .exact, .ieee⟩
  | 0x04 => some ⟨.e4m3, .f32, .mode, .nan⟩
  | 0x05 => some ⟨.e4m3, .f32, .mode, .saturate⟩
  | 0x06 => some ⟨.e4m3, .f32, .stoch, .saturate⟩
  | 0x07 => some ⟨.e5m2, .f32, .mode, .ieee⟩
  | 0x08 => some ⟨.e5m2, .f32, .mode, .saturate⟩
  | 0x09 => some ⟨.e5m2, .f32, .stoch, .saturate⟩
  | 0x0A => some ⟨.e2m1, .f32, .mode, .saturate⟩
  | 0x0B => some ⟨.e2m1, .f32, .stoch, .saturate⟩
  | 0x0C => some ⟨.f32, .e4m3, .exact, .ieee⟩
  | 0x0D => some ⟨.f32, .e5m2, .exact, .ieee⟩
  | 0x0E => some ⟨.f32, .e2m1, .exact, .ieee⟩
  | 0x0F => some ⟨.bf16, .e4m3, .exact, .ieee⟩
  | 0x10 => some ⟨.bf16, .e2m1, .exact, .ieee⟩
  | 0x11 => some ⟨.e4m3, .bf16, .mode, .saturate⟩
  | 0x12 => some ⟨.e4m3, .bf16, .stoch, .saturate⟩
  | 0x13 => some ⟨.f32, .e8m0, .exact, .ieee⟩
  | 0x14 => some ⟨.s32, .f32, .mode, .saturate⟩
  | 0x15 => some ⟨.f32, .s32, .mode, .ieee⟩
  | 0x16 => some ⟨.s8, .f32, .mode, .saturate⟩
  | 0x17 => some ⟨.f32, .s8, .exact, .ieee⟩
  | 0x18 => some ⟨.s32, .s8, .exact, .saturate⟩
  | 0x19 => some ⟨.s8, .s32, .exact, .saturate⟩
  | 0x1A => some ⟨.z8, .s32, .exact, .saturate⟩
  | 0x1B => some ⟨.s32, .z8, .exact, .saturate⟩
  | 0x1C => some ⟨.s4, .s8, .exact, .saturate⟩
  | 0x1D => some ⟨.s8, .s4, .exact, .saturate⟩
  | 0x1E => some ⟨.e8m0, .f32, .floor, .saturate⟩
  | _ => none

/-- The range of an integer format. -/
def Fmt.intRange? : Fmt → Option (Int × Int)
  | .s8 => some (-128, 127)
  | .s4 => some (-8, 7)
  | .s32 => some (-2147483648, 2147483647)
  | .z8 => some (0, 255)
  | _ => none

/-- The sign of a floating encoding. -/
def Fmt.sign (f : Fmt) (x : Nat) : Bool := x / 2 ^ (f.width - 1) % 2 == 1

/-- A NaN met by a conversion (R71, R261): canonical in the wide formats, sign kept in e4m3 and e5m2, +0 with NV in e2m1. -/
def convNan (src dst : Fmt) (x : Nat) : Nat × Fl :=
  match dst with
  | .f32 => (0x7FC00000, 0)
  | .bf16 => (0x7FC0, 0)
  | .f16 => (0x7E00, 0)
  | .e4m3 | .e5m2 => ((if src.sign x then 0x80 else 0) + 0x7F, 0)
  | .e8m0 => (0xFF, Fl.nv)
  | .e2m1 => (0, Fl.nv)
  | _ => (0, Fl.nv)

/-- Convert(code, x) under a rounding mode, DENORM and a generator (R69 to R71): the code, the flags, the generator. -/
def convert (row : ConvRow) (rm : RMode) (denorm : Bool) (seed : Word) (x : Nat) : Nat × Fl × Word :=
  let v := operand row.src denorm x
  match row.dst.intRange? with
  | some (lo, hi) =>
    let r := toInteger lo hi rm ⟨v, false, 0⟩
    -- an integer narrows without rounding
    (toField row.dst.width r.1, if row.src.intRange?.isSome then r.2 &&& ~~~Fl.nx else r.2, seed)
  | none =>
    match v with
    | .nan => let r := convNan row.src row.dst x; (r.1, r.2, seed)
    | v =>
      match row.rnd, row.dst.fp?, v with
      | .floor, _, .fin _ m e =>
        (if m == 0 then 0 else (min (max (e + bitLen m - 1 + 127) 0) 254).toNat, 0, seed)
      | .floor, _, _ => (0xFF, 0, seed)
      | .stoch, some sp, .fin neg m e => roundStoch sp seed neg m e
      | _, some sp, v =>
        let flush := !denorm && (row.dst == .f32 || row.dst == .bf16 || row.dst == .f16)
        let r := roundFp sp rm flush row.ov ⟨v, false, 0⟩
        (r.1, r.2, seed)
      | _, none, _ => (0, 0, seed)

end Sys2Proof.Machine
end

