-- ==== Sys2Proof/Machine/Flags.lean ====
section
/-!
DEFINITION. Flags: the floating environment of a hart (R61 to R65), DZ (R33, R37), and the element functions that return a
result together with the flags it raises.
-/
namespace Sys2Proof.Machine

/-- ROUND.MODE and ROUND.DENORM (R61). -/
def roundMode (round : Word) : RMode := RMode.ofCode (wfld round 0 2)
def roundDenorm (round : Word) : Bool := round.toNat.testBit 2

/-- The format a floating instruction's ew selects (R60). -/
def fpFmt (e : Fin 4) : Fmt := match e.val with | 0 => .f16 | 1 => .bf16 | _ => .f32

/-- Raise flags: FPX when one is enabled, with no other effect; else they are ORed into FPSTAT (R63). -/
def raiseM (fl : Fl) : M Unit := do
  let s ← get
  if fl.toNat &&& wfld s.ctx.fpstat 8 6 != 0 then trapM .fpx 0 0 (word fl.toNat)
  else doS fun s => s.updCtx fun c => { c with fpstat := c.fpstat ||| word fl.toNat }

/-- STATUS.DZ ← 1 (R33, R37). -/
def State.setDz (s : State) : State := s.updCtx fun c => { c with dz := true }

/-- The sign, sign aside, and NaN test of an f32, bf16 or f16 code. -/
def Fmt.absCode (f : Fmt) (x : Nat) : Nat := x % 2 ^ (f.width - 1)
def Fmt.isNanCode (f : Fmt) (x : Nat) : Bool := (f.value x).isNan

/-- The canonical NaN of a wide format (R64, R261). -/
def Fmt.canon (f : Fmt) : Nat := match f.fp? with | some sp => sp.nanCode | none => 0

/-- A subnormal code becomes a zero of its sign (R64). -/
def flushCode (f : Fmt) (denorm : Bool) (x : Nat) : Nat :=
  match f.fp? with
  | some sp => if !denorm && f.absCode x < 2 ^ sp.mb then x - f.absCode x else x
  | none => x

/-- A rounded result of two operands (R64). -/
def fp2 (f : Fmt) (rm : RMode) (dn : Bool) (op : ExNum → ExNum → Ex) (x y : Nat) : Nat × Fl :=
  roundIeee f rm dn (op (operand f dn x) (operand f dn y))

/-- A rounded result of one operand. -/
def fp1 (f : Fmt) (rm : RMode) (dn : Bool) (op : ExNum → Ex) (x : Nat) : Nat × Fl := roundIeee f rm dn (op (operand f dn x))

/-- The smaller or larger operand (R67): −0 < +0; a NaN gives the other operand; two NaNs give the canonical NaN. -/
def fpPick (larger : Bool) (f : Fmt) (dn : Bool) (x0 y0 : Nat) : Nat :=
  let x := flushCode f dn x0
  let y := flushCode f dn y0
  if f.isNanCode x then (if f.isNanCode y then f.canon else y)
  else if f.isNanCode y then x
  else
    let less := match (f.value x).cmp (f.value y) with
      | some .lt => true
      | some .eq => f.sign x && !f.sign y
      | _ => false
    if less == larger then y else x

/-- Clamp a signed result to w bits; SAT if clamped (R66). -/
def satSigned (w : Nat) (i : Int) : Nat × Fl :=
  let lo : Int := -(2 ^ (w - 1) : Nat)
  let hi : Int := (2 ^ (w - 1) : Nat) - 1
  if i < lo then (toField w lo, Fl.sat) else if hi < i then (toField w hi, Fl.sat) else (toField w i, 0)

/-- The flags of a list of results, ORed (R63). -/
def orFlags (l : List (Nat × Fl)) : Fl := l.foldl (fun a r => a ||| r.2) 0

end Sys2Proof.Machine
end

