-- ==== Sys2Proof/Machine/Parterre.lean ====
section
/-!
DEFINITION. The Parterre: combining, pre-combining, bins, spill, sweep, apply and throttling (R336 to R354).
-/
namespace Sys2Proof.Machine

/-- Bytes of a region's element (R108). -/
def etypeBytes (etype : Nat) : Nat := if etype == 3 || etype == 6 then 8 else 4

/-- a ⊕ b of an operator other than ASSIGN (R341). -/
def combine (etype op : Nat) (a b : Word) : Word :=
  let x := a.toNat
  let y := b.toNat
  let w := 8 * etypeBytes etype
  match op with
  | 0 =>
    if etype ≤ 1 then word (fp2 .f32 .rne true (ExNum.add .rne) x y).1 else word ((x + y) % 2 ^ w)
  | 1 =>
    if etype == 0 then word (fpPick true .f32 true x y)
    else if etype == 2 then (if signed w x < signed w y then b else a) else word (max x y)
  | 2 =>
    if etype == 0 then word (fpPick false .f32 true x y)
    else if etype == 2 then (if signed w y < signed w x then b else a) else word (min x y)
  | 3 => a ||| b
  | 4 => a &&& b
  | 5 => a ^^^ b
  | _ => b

/-- Two entries of one element: under ASSIGN the larger key wins (R342). -/
def mergeEntries (r : URegion) (a b : BinEntry) : BinEntry :=
  { (if r.op != 6 then { a with val := combine r.etype r.op a.val b.val }
     else if a.agent < b.agent || (a.agent == b.agent && a.seq ≤ b.seq) then b else a) with
    who := (a.who ++ b.who).eraseDups }

/-- A pair as an entry of its bin (R345). -/
def pairEntry (p : Pair) : BinEntry := ⟨p.pa, p.val, p.agent, p.seq, ((p.agent, p.uid) :: p.also).eraseDups⟩

/-- Put an entry among the entries of a line, merging it with its element's. -/
def insertEntry (r : URegion) (l : List BinEntry) (e : BinEntry) : List BinEntry :=
  if l.any (·.pa == e.pa) then l.map fun x => if x.pa == e.pa then mergeEntries r x e else x else l ++ [e]

def State.updPar (s : State) (d : Fin 6) (f : Parterre → Parterre) : State := s.updDie d fun x => { x with par := f x.par }

/-- Count dropped pairs (R336, R112). -/
def State.countDrops (s : State) (d : Fin 6) (n : Nat) : State := s.updPar d fun p => { p with drops := p.drops + n }

/-- A pair reaches its bin (R345): dropped and counted when its region is gone or its line is poisoned (R336, R352). -/
def State.toBin (s : State) (p : Pair) : State :=
  let d := homeDie p.pa
  match Tbl.find? s.regions p.rid with
  | none => s.countDrops d 1
  | some r =>
    if s.poison.contains (p.pa / 64) then s.countDrops d 1
    else
      let ln := p.pa / 64
      let s := s.updLaunch (s.lender ⟨p.agent, p.uid⟩ p.launch 4) fun l => l.charge 4 1
      s.updPar d fun x =>
        if x.bins.any fun b => b.line == ln && b.rid == p.rid then
          { x with bins := x.bins.map fun b =>
              if b.line == ln && b.rid == p.rid then { b with entries := insertEntry r b.entries (pairEntry p) } else b }
        else { x with bins := x.bins ++ [⟨ln, p.rid, [pairEntry p], false⟩] }

/-- The agents whose pairs a pair holds (R344). -/
def Pair.makers (p : Pair) : List Nat := p.agent :: p.also.map (·.1)

/-- Two pairs that no stage reorders: one element, and an agent in common (R338). -/
def Pair.tied (p q : Pair) : Bool := p.pa == q.pa && p.makers.any q.makers.contains

/-- Gather the closed pairs of a line that a test names, from every die, into its bin (R340): pairs on their way first, then those held
back; what is tied to such a pair goes with it (R338). -/
def State.sweepLine (s : State) (ln : Nat) (seen : Pair → Bool := fun _ => true) : State :=
  let all := s.dies.toList.flatMap fun d => d.par.flight ++ d.par.pre.map (·.pair)
  let mine (p : Pair) : Bool := p.pa / 64 == ln && (seen p || all.any fun q => q.tied p && seen q)
  let taken := s.dies.toList.flatMap fun d => d.par.flight.filter mine ++ (d.par.pre.filter fun e => mine e.pair).map (·.pair)
  let s := s.mapDies fun d => { d with par := { d.par with
    flight := d.par.flight.filter fun p => !mine p
    pre := d.par.pre.filter fun e => !mine e.pair } }
  taken.foldl State.toBin s

/-- Mark a line with the home slice's poison (R352). -/
def State.poisonLine (s : State) (ln : Nat) : State := { s with poison := if s.poison.contains ln then s.poison else ln :: s.poison }

/-- Combine one bin or run into memory (R343); damaged entries poison the line instead (R352), and a stopped stack takes nothing (R304). -/
def State.applyBin (s : State) (b : Bin) : State :=
  match Tbl.find? s.regions b.rid with
  | none => s
  | some r =>
    if b.bad then s.poisonLine b.line
    else if s.stopped (b.line * 64) then s
    else b.entries.foldl (fun s e =>
      let n := etypeBytes r.etype
      let v := if r.op == 6 then e.val else combine r.etype r.op (word (s.valueAt e.pa n)) e.val
      s.putWake e.pa (leBytes n v.toNat)) s

/-- What an apply combines (R342, R343, R348): the runs oldest first, then the bin; under ASSIGN one bin with the winning keys of them
all, so that spilling changes no value. -/
def State.applyOrder (s : State) (l : List Bin) : List Bin :=
  match l with
  | [] => []
  | b :: _ => match Tbl.find? s.regions b.rid with
    | some r => if r.op == 6 then [{ b with entries := (l.flatMap (·.entries)).foldl (insertEntry r) [], bad := l.any (·.bad) }] else l
    | none => l

/-- Whether pairs of a line wait anywhere past ingress. -/
def State.pendingLine (s : State) (ln : Nat) : Bool :=
  s.dies.toList.any fun d => d.par.flight.any (·.pa / 64 == ln) || d.par.pre.any (·.pair.pa / 64 == ln)
    || d.par.bins.any (·.line == ln) || d.par.runs.any (·.line == ln)

/-- Apply every bin of a line (R343, R351) in one step, after a sweep. -/
def State.applyLine (s : State) (ln : Nat) (seen : Pair → Bool := fun _ => true) : State :=
  if s.pendingLine ln then
    let s := s.sweepLine ln seen
    let p := (s.getDie (homeDie (ln * 64))).par
    let s := (s.applyOrder ((p.runs ++ p.bins).filter (·.line == ln))).foldl State.applyBin s
    s.updPar (homeDie (ln * 64)) fun p => { p with runs := p.runs.filter (·.line != ln), bins := p.bins.filter (·.line != ln) }
  else s

/-- The lines that a span of bytes touches. -/
def linesOf (pa n : Nat) : List Nat := (List.range ((pa + n + 63) / 64 - pa / 64)).map (pa / 64 + ·)

/-- The live region whose pages hold an address (R109). -/
def State.regionAt (s : State) (pa : Nat) : Option (Nat × URegion) :=
  List.find? (fun r => r.2.segs.any fun g => g.2.1 ≤ pa && pa < g.2.1 + g.2.2) s.regions

/-! ## Occupancy, spill and throttle (R346 to R349) -/

def binBytes (l : List Bin) : Nat := (l.map fun b => 16 * b.entries.length).foldl (· + ·) 0

def Die.thr (d : Die) : Nat := d.ubin.toNat % 64
def Die.spillSize (d : Die) : Nat := wfld d.ubin 26 12 * 2 ^ 24

/-- The bin with the most entries. -/
def fullest (l : List Bin) : Option Bin :=
  l.foldl (fun best b => match best with
    | none => some b
    | some x => if x.entries.length < b.entries.length then some b else best) none

/-- A run: the bin's entries in order of address (R348). -/
def toRun (b : Bin) : Bin :=
  { b with entries := b.entries.foldr (fun e acc => acc.takeWhile (·.pa < e.pa) ++ [e] ++ acc.dropWhile (·.pa < e.pa)) [] }

/-- Spill bins, fullest first, until occupancy is at most three quarters of the threshold or the area is full (R348, R349). -/
def spillGo (area limit : Nat) : Nat → Parterre → Parterre
  | 0, p => p
  | fuel + 1, p =>
    if binBytes p.bins ≤ limit then p
    else match fullest p.bins with
      | none => p
      | some b =>
        if binBytes p.runs + 16 * b.entries.length ≤ area then
          spillGo area limit fuel { p with bins := p.bins.filter (· != b), runs := p.runs ++ [toRun b] }
        else { p with throttled := true }

/-- Spill when occupancy exceeds the threshold; lift the throttle when there is room again (R348, R349). -/
def State.settleBins (s : State) (d : Fin 6) : State :=
  let die := s.getDie d
  let p := die.par
  let p1 := if die.thr * 2 ^ 20 < binBytes p.bins then spillGo die.spillSize (die.thr * 2 ^ 20 * 3 / 4) p.bins.length p else p
  let p2 := if p1.throttled && 2 * binBytes p1.runs ≤ die.spillSize && binBytes p1.bins ≤ die.thr * 2 ^ 20
    then { p1 with throttled := false } else p1
  let s := s.updPar d fun _ => p2
  let onDie (r : URegion) (x : Nat) : Bool := r.segs.any fun g => (homeDie g.2.1).val == x
  let s := { s with regions := s.regions.map fun (i, r) =>
    (i, { r with throttled := allDies.any fun x => (s.getDie x).par.throttled && onDie r x.val }) }
  if p.throttled && !p2.throttled then allDies.foldl (fun s x => s.wakeAll (.parterre x.val) none) s else s

/-- An access reaches a line: the line's bins are applied, and the throttle of its die follows (R43, R320, R340, R349). -/
def State.meetLine (s : State) (seen : Pair → Bool) (ln : Nat) : State :=
  if s.pendingLine ln then (s.applyLine ln seen).settleBins (homeDie (ln * 64)) else s

/-- A non-update access applies the bins that cover it first (R43, R320, R340). -/
def State.touch (s : State) (pa n : Nat) : State := (linesOf pa n).foldl (State.meetLine · fun _ => true) s

/-! ## Logs and ingress (R77, R111, R338) -/

/-- Whether ingress holds a pair back: its region is throttled, or its launch has used its applies and nobody lends (R349, R354, R372). -/
def State.heldBack (s : State) (p : Pair) : Bool :=
  (match Tbl.find? s.regions p.rid with | some r => r.throttled | none => false) || s.throttled ⟨p.agent, p.uid⟩ p.launch 4

/-- A pair merged into a held one of its element (R344): the value, the winning key, both makers and the promises of both. -/
def Pair.merge (r : URegion) (a b : Pair) : Pair :=
  let m := mergeEntries r (pairEntry a) (pairEntry b)
  { a with val := m.val, agent := m.agent, seq := m.seq
           also := m.who, scopes := (a.scopes ++ b.scopes).eraseDups, limited := a.limited && b.limited }

/-- One pair passes ingress and is closed (R338, R344). -/
def State.closePair (s : State) (d : Fin 6) (p : Pair) : State :=
  match Tbl.find? s.regions p.rid with
  | none => s.countDrops d 1
  | some r =>
    s.updPar d fun x =>
      if x.pre.any fun e => e.pair.pa == p.pa && e.pair.rid == p.rid then
        { x with pre := x.pre.map fun e => if e.pair.pa == p.pa && e.pair.rid == p.rid then { e with pair := e.pair.merge r p } else e }
      else if x.pre.length < 256 then { x with pre := x.pre ++ [⟨p, s.cycle⟩] }
      else { x with flight := x.flight ++ [p] }

/-- The first pair of a list that a test frees and to which none before it is tied (R338). -/
def firstFree (free : Pair → Bool) (l : List Pair) : Option (Nat × Pair) :=
  (l.zipIdx.find? fun x => free x.1 && !(l.take x.2).any x.1.tied).map fun x => (x.2, x.1)

/-- Up to n released pairs pass a die's ingress, in the order of their release, as far as a test lets them. -/
def State.closeWhile (s : State) (d : Fin 6) (free : State → Pair → Bool) : Nat → State
  | 0 => s
  | n + 1 =>
    match firstFree (free s) (s.getDie d).par.ingress with
    | none => s
    | some (i, p) => State.closeWhile ((s.updPar d fun x => { x with ingress := x.ingress.eraseIdx i }).closePair d p) d free n

/-- Up to n released pairs pass a die's ingress; a throttle holds back its own pairs. -/
def State.closeN (s : State) (d : Fin 6) (n : Nat) : State := s.closeWhile d (fun s p => !s.heldBack p) n

/-- Every released pair passes ingress, as far as no throttle stops it. -/
def State.closeAll (s : State) (d : Fin 6) : State := s.closeN d (s.getDie d).par.ingress.length

/-- Whether a pair was made by a unit: by its continuation wherever that runs, else by its agent (R111, R331). -/
def Pair.by_ (p : Pair) (q : Party) : Bool := (Party.mk p.agent p.uid).same q

/-- Every released pair of a unit passes ingress whatever is throttled, on whichever die it stands, and with it what no stage may reorder
against it (R331, R338). -/
def State.closeOf (s : State) (q : Party) : State :=
  let l := allDies.flatMap fun d => (s.getDie d).par.ingress
  allDies.foldl (fun s d => s.closeWhile d (fun _ p => p.by_ q || l.any fun x => x.by_ q && x.tied p) (s.getDie d).par.ingress.length) s

/-- Release the running hart's log to its die's ingress (R77, R111), at a UFENCE or otherwise. -/
def State.releaseLog (s : State) (fence : Bool := false) : State :=
  let l := s.ctx.log.map fun p => { p with limited := fence }
  (s.updPar s.die fun x => { x with ingress := x.ingress ++ l }).updCtx fun c => { c with log := [] }

/-- A UFENCE's scope is promised for every pair of the unit that only UFENCEs released and that has not reached its bin (R111). -/
def State.promise (s : State) (q : Party) (z : Nat × Nat × Fin 16) : State :=
  let f (p : Pair) : Pair := if p.by_ q && p.limited then { p with scopes := (p.scopes ++ [z]).eraseDups } else p
  s.mapDies fun d => { d with par := { d.par with
    ingress := d.par.ingress.map f, flight := d.par.flight.map f, pre := d.par.pre.map fun e => { e with pair := f e.pair } } }

/-- Whether an agent must see a closed pair (R111, R320): more than UFENCEs released it, or one whose scope holds the agent did. -/
def State.promised (s : State) (q : Nat) (p : Pair) : Bool := !p.limited || p.scopes.any fun z => s.inScope z.2.2 z.2.1 z.1 q

/-- Whether more of what a unit has released can pass ingress now (R338). -/
def State.passing (s : State) (q : Party) : Bool :=
  allDies.any fun d => (s.getDie d).par.ingress.any (·.by_ q) && (firstFree (fun p => !s.heldBack p) (s.getDie d).par.ingress).isSome

/-- A die at whose ingress a released pair of a unit still stands (R111). -/
def State.openDie (s : State) (q : Party) : Option (Fin 6) := allDies.find? fun d => (s.getDie d).par.ingress.any (·.by_ q)

/-- Whether every released emission of a unit is closed (R111). -/
def State.allClosed (s : State) (q : Party) : Bool := (s.openDie q).isNone

/-- The next emission sequence number of an agent, 48 bits (R337). -/
def State.nextSeq (s : State) (agent : Nat) : Nat × State :=
  let n := Tbl.getD s.seqs agent 0
  (n, { s with seqs := Tbl.set s.seqs agent ((n + 1) % 2 ^ 48) })

/-- Append a pair to the running hart's log (R77, R336). -/
def State.emitPair (s : State) (pa rid : Nat) (v : Word) : State :=
  let q := s.nextSeq s.agent
  q.2.updCtx fun c => { c with log := c.log ++ [{ pa := pa, val := v, rid := rid, agent := s.agent, seq := q.1, launch := c.cont.launch, uid := c.cont.uid }] }

/-- The value of a pair as a region forms it at emission (R110, R341). -/
def pairValue (etype : Nat) (v : Word) : Word :=
  if etype == 1 then word (v.toNat % 2 ^ 16 * 2 ^ 16)
  else if etypeBytes etype == 4 then word (v.toNat % 2 ^ 32) else v

/-! ## Areas closed to everything but the device (R347, R360) -/

def Die.inSpill (d : Die) (die pa n : Nat) : Bool :=
  let base := die * 2 ^ 38 + wfld d.ubin 38 18 * 2 ^ 20
  d.spillSize != 0 && decide (localOf pa < base + d.spillSize) && decide (base < localOf pa + n)

def Die.inExt (d : Die) (pa n : Nat) : Bool :=
  let base := wfld d.wextbase 16 30 * 2 ^ 16
  d.extSize != 0 && decide (localOf pa < base + d.wextsize.toNat % 2 ^ 24 * 65536) && decide (base < localOf pa + n)

/-- Whether bytes of this package lie in a spill area or an extension. -/
def State.closedArea (s : State) (pa n : Nat) : Bool :=
  pkgOf pa == Config.package && allDies.any fun d => (s.getDie d).inSpill d.val pa n || (s.getDie d).inExt pa n

end Sys2Proof.Machine
end

