-- ==== Sys2Proof/Machine/Mem.lean ====
section
/-!
DEFINITION. Accesses: translation (R411 to R414), the checks of R41 and R98 with the spaces of R285, loads through L1, stores in
flight and performed (R42, R308 to R310, R321), watchpoints (R135), fences (R122), instruction fetch (R35, R43).
-/
namespace Sys2Proof.Machine

/-! ## Translation -/

/-- A fault of a walk: its cause and DETAIL (R412, R413). -/
abbrev XFault := Cause × Nat

/-- A leaf of a page of 2^k bytes at a virtual address (R412, R413). -/
def leafOf (asid va k : Nat) (e : Nat) : Except XFault TlbEntry :=
  let pa := e / 256 % 2 ^ 50 * 256
  if e.testBit 5 then
    let dies := pa / 256 % 64
    let base := pa - dies * 256
    if base % 2 ^ k != 0 then .error (.access, 1)
    else match spaceOf base with
      | .hbm p =>
        let set := (List.range 6).filter fun d => dies.testBit d
        if set.length < 2 || set.headD 9 != p.val then .error (.access, 2)
        else .ok ⟨asid, va / 2 ^ k * 2 ^ k, 2 ^ k, base, e.testBit 1, e.testBit 2, e.testBit 3, e.testBit 4, some dies⟩
      | _ => .error (.access, 2)
  else if pa % 2 ^ k != 0 then .error (.access, 1)
  else .ok ⟨asid, va / 2 ^ k * 2 ^ k, 2 ^ k, pa, e.testBit 1, e.testBit 2, e.testBit 3, e.testBit 4, none⟩

/-- Walk from a level, given its table's address and the levels left (R412). -/
def State.walkFrom (s : State) (asid va : Nat) : Nat → Nat → Except XFault TlbEntry
  | 0, table =>
    if table % 256 != 0 || !isHbm table then .error (.access, 1)
    else
      let e := s.valueAt (table + va / 2 ^ 16 % 32 * 8) 8
      if !e.testBit 0 then .error (.pagefault, 0)
      else if e / 2 ^ 58 != 0 || e / 64 % 4 != 0 then .error (.access, 1)
      else leafOf asid va 16 e
  | k + 1, table =>
    if table % 4096 != 0 || !isHbm table then .error (.access, 1)
    else
      let sh := 21 + 9 * k
      let e := s.valueAt (table + va / 2 ^ sh % 512 * 8) 8
      let leaf := e.testBit 6 && k < 2
      if !e.testBit 0 then .error (.pagefault, 0)
      else if e / 2 ^ 58 != 0 || e.testBit 7 || (e.testBit 6 && !leaf) then .error (.access, 1)
      else if leaf then leafOf asid va sh e
      else State.walkFrom s asid va k (e / 256 % 2 ^ 50 * 256)

/-- A full walk from the ASID table (R411, R412). -/
def State.walk (s : State) (asid va : Nat) : Except XFault TlbEntry :=
  let e := s.valueAt (s.asidTab + asid % 1024 * 16) 8
  if !e.testBit 0 then .error (.pagefault, 0)
  else if s.valueAt (s.asidTab + asid % 1024 * 16 + 8) 8 != 0 then .error (.access, 1)
  else s.walkFrom asid (va % 2 ^ 57) 4 (e - 1)

def TlbEntry.covers (t : TlbEntry) (asid va : Nat) : Bool := t.asid == asid && t.va == va % 2 ^ 57 / t.size * t.size

/-- Translate through a die's second level, installing what a walk finds (R414); the oldest entry leaves a full level. -/
def State.translate (s : State) (d : Fin 6) (asid va : Nat) : State × Except XFault TlbEntry :=
  match (s.getDie d).tlb.find? (·.covers asid va) with
  | some t => (s, .ok t)
  | none =>
    match s.walk asid va with
    | .error e => (s, .error e)
    | .ok t =>
      (s.updDie d fun x => { x with tlb := (x.tlb ++ [t]).drop (x.tlb.length + 1 - 16384) }, .ok t)

/-- Where an address translates to now. -/
def State.peekVa (s : State) (d : Fin 6) (asid va : Nat) : Except XFault TlbEntry := (s.translate d asid va).2

/-- The same through a memory tile's own cache of 64 entries (R414). -/
def State.translateMt (s : State) (d : Fin 6) (tile asid va : Nat) : State × Except XFault TlbEntry :=
  let key := d.val * 480 + tile
  match (Tbl.getD s.mtTlb key []).find? (·.covers asid va) with
  | some t => (s, .ok t)
  | none =>
    match s.translate d asid va with
    | (s, .error e) => (s, .error e)
    | (s, .ok t) => ({ s with mtTlb := Tbl.upd s.mtTlb key [] fun l => (l ++ [t]).drop (l.length + 1 - 64) }, .ok t)

/-- The address that serves an access from a die: its own replica, or the primary (R321, R413). -/
def TlbEntry.addrFor (t : TlbEntry) (d : Fin 6) (va : Nat) : Nat :=
  let off := va % 2 ^ 57 - t.va
  match t.repl with
  | none => t.pa + off
  | some set => if set.testBit d.val then localOf t.pa % 2 ^ 38 + d.val * 2 ^ 38 + pkgOf t.pa * 2 ^ 46 + off else t.pa + off

/-- The addresses that a store through an entry writes, the primary first (R321). -/
def TlbEntry.allAddrs (t : TlbEntry) (va : Nat) : List Nat :=
  match t.repl with
  | none => [t.pa + (va % 2 ^ 57 - t.va)]
  | some set => (allDies.filter fun d => set.testBit d.val).map fun d => t.addrFor d va

/-- Whether the tables of some ASID hold a table at an address, so many levels below the root (R411, R412). -/
def State.tableAt (s : State) : Nat → Nat → Bool
  | 0, table => table % 4096 == 0 && isHbm table && s.mem.any fun c =>
      s.asidTab ≤ c.1 && c.1 < s.asidTab + 16384 && (c.1 - s.asidTab) % 16 == 0 && c.2.toNat.testBit 0
        && s.valueAt c.1 8 == table + 1 && s.valueAt (c.1 + 8) 8 == 0
  | k + 1, table => table % (if k == 3 then 256 else 4096) == 0 && isHbm table && s.mem.any fun c =>
      c.1 % 8 == 0 && c.2.toNat % 128 / 64 == 0 && c.2.toNat.testBit 0 && s.valueAt c.1 8 / 256 == table / 256
        && State.tableAt s k (c.1 / 4096 * 4096)

/-- The replicated pages that the translation tables hold (R412, R413). -/
def State.replicas (s : State) : List TlbEntry :=
  s.mem.flatMap fun c =>
    if c.1 % 8 == 0 && c.2.toNat.testBit 0 && c.2.toNat.testBit 5 && !c.2.toNat.testBit 7 && s.valueAt c.1 8 / 2 ^ 58 == 0 then
      let page (level sh table : Nat) : List TlbEntry := match leafOf 0 0 sh (s.valueAt c.1 8) with
        | .ok t => if s.tableAt level table then [t] else []
        | .error _ => []
      if c.2.toNat.testBit 6 then page 3 21 (c.1 / 4096 * 4096) ++ page 2 30 (c.1 / 4096 * 4096) else page 4 16 (c.1 / 256 * 256)
    else []

/-- Whether an address lies in a replica of a replicated page (R321): the tables have it, or a second level still holds it (R414). -/
def State.aliased (s : State) (pa : Nat) : Bool :=
  (s.replicas ++ s.dies.toList.flatMap fun d => d.tlb.filter (·.repl.isSome)).any fun t =>
    (t.allAddrs t.va).any fun b => b ≤ pa && pa < b + t.size

/-! ## Checks (R41, R98, R285) -/

/-- A checked access: the address that serves it, those a store writes, and whether L1 may hold its line. -/
structure Acc where
  pa : Nat
  pas : List Nat
  cached : Bool
  repl : Bool
  deriving DecidableEq, Repr

/-- What an access does: a `read` takes what an instruction or the device reads beside its loads. -/
inductive Use where
  | load | store | fetch | object (write : Bool) | read
  deriving DecidableEq, Repr

def Use.reads : Use → Bool
  | .load => true
  | .read => true
  | .object _ => true
  | _ => false
def Use.writes : Use → Bool
  | .store => true
  | .object w => w
  | _ => false

/-- Canonical address: bits [63:57] equal bit 56 (R41). -/
def canonical (va : Word) : Bool := va.toNat / 2 ^ 56 == 0 || va.toNat / 2 ^ 56 == 255

/-- The outcome of a check: a trap's cause, DETAIL and, for LINK, the package; or the access. -/
abbrev Checked := Except (Cause × Nat × Nat) Acc

/-- Step 5 of R41 with the rules of R98, R284, R285, R305, R347 and R360, for an access through a translation entry. DESIGN CHOICE
(assumption 94): an object's page must allow reading, whatever the access does. -/
def State.judge (s : State) (d : Fin 6) (sys : Bool) (use : Use) (va : Word) (n : Nat) (t : TlbEntry) : Checked :=
  let ok := (!use.reads || t.r) && (!use.writes || t.w) && (use != .fetch || t.x) && (sys || t.prog)
  let pa := t.addrFor d va.toNat
  let region := (s.regionAt pa).isSome
  let all := t.allAddrs va.toNat
  let pas := if use.writes then all else [pa]
  let a : Acc := ⟨pa, pas, t.repl.isNone && !region && !s.aliased pa, t.repl.isSome⟩
  if !ok || 2304 ≤ pkgOf pa || pas.any fun q => s.closedArea q n then .error (.access, 0, 0)
  else match use with
    | .object _ =>
      if region then .error (.uregion, 0, 0)
      else match spaceOf pa with
        | .hbm _ => if t.repl.isSome || s.aliased pa then .error (.access, 0, 0)
                    else if s.reaches d pa then .ok a else .error (.link, 0, pkgOf pa)
        | _ => .error (.access, 0, 0)
    | _ =>
      if !s.reaches d pa then .error (.link, 0, pkgOf pa)
      else match spaceOf pa with
        | .hbm _ => .ok a
        | .store _ _ _ => .ok { a with cached := false }
        | .tier2 _ => if use == .load then .ok a else .error (.access, 0, 0)
        | _ => .error (.access, 0, 0)

/-- Steps 3 to 5 of R41 for an access of n bytes by an agent on a die. -/
def State.check (s : State) (d : Fin 6) (asid : Nat) (sys : Bool) (use : Use) (va : Word) (n : Nat) : State × Checked :=
  if !canonical va then (s, .error (.access, 0, 0))
  else
    match s.translate d asid va.toNat with
    | (s, .error (c, k)) => (s, .error (c, k, 0))
    | (s, .ok t) => (s, s.judge d sys use va n t)

/-- The same for the running hart, with the alignment of step 2, as a trap (R41). -/
def checkM (use : Use) (va : Word) (n align : Nat) (aux : Word := 0) : M Acc := do
  demand (va.toNat % align == 0) .misalign 0 va aux
  let s ← get
  match s.check s.die s.me.asid.toNat s.me.pl use va n with
  | (s, .ok a) => set s; pure a
  | (s, .error (c, k, p)) => set s; trapM c k va (if c == .link then word p else aux)

/-! ## Watchpoints (R135, R417) -/

/-- The writer classes of R417. -/
inductive WClass where
  | hart | copy | remote | node
  deriving DecidableEq, Repr
def WClass.code : WClass → Nat
  | .hart => 0 | .copy => 1 | .remote => 2 | .node => 3
def WClass.ofCode (n : Nat) : WClass := match n with
  | 0 => .hart | 1 => .copy | 2 => .remote | _ => .node

/-- One watchpoint against one access: trace record, freeze, and under action 2 a WATCH for the writing hart of the same
ASID or else for the hart that set it (R135). -/
def State.watchOne (s : State) (num : Nat) (w : Watch) (pa : Nat) (va : Word) (write : Bool) (cls : WClass) (agent asid : Nat)
    (at_ : Option Word) : State :=
  let core := hartCore w.setter
  let pkg := if agent < 2 ^ 32 then Config.package else agent / 2 ^ 32 % 4096
  let s := s.record core 6 (w.setter.val % 4 + cls.code * 4) num (agent % 2 ^ 32 + pkg * 2 ^ 32 + (pa - w.base) % 65536 * 2 ^ 48)
  if w.action == 1 then
    let s := s.record core 7 (w.setter.val % 4) num 0
    { s with traces := Tbl.upd s.traces core {} fun t => { t with frozen := true } }
  else if w.action == 2 then
    let p : PendTrap := ⟨.watch, 0, va, word (num + cls.code * 256), [], none⟩
    match cls, write, hartOf agent with
    | .hart, true, some h =>
      if asid == w.asid then s.updHart h fun x => { x with ctx := { x.ctx with pend := x.ctx.pend ++ [{ p with at_ := at_ }] } }
      else s.updHart w.setter fun x => { x with ctx := { x.ctx with pend := x.ctx.pend ++ [p] } }
    | _, _, _ => s.updHart w.setter fun x => { x with ctx := { x.ctx with pend := x.ctx.pend ++ [p] } }
  else s

/-- Whether an address has a home slice, where watchpoints are armed (R135, R299): the stores of a tile have none (R287). -/
def homed (pa : Nat) : Bool := match spaceOf pa with
  | .hbm _ => true
  | .tier2 _ => true
  | _ => false

/-- Every watchpoint an access of n bytes at a home slice hits (R135): acc is 1 for a write, 2 for a read, 3 for both. -/
def State.watch (s : State) (pa n : Nat) (va : Word) (acc : Nat) (cls : WClass) (agent asid : Nat) (at_ : Option Word := none) : State :=
  if homed pa then
    ((s.dies.toList.flatMap (·.watches)).filter fun w =>
      decide (w.2.base < pa + n) && decide (pa < w.2.base + w.2.len) && w.2.access &&& acc != 0 && w.2.classes.testBit cls.code).foldl
      (fun s w => s.watchOne w.1 w.2 pa va (acc.testBit 0) cls agent asid at_) s
  else s

/-! ## L1 and stores in flight (R42, R309) -/

/-- Lines a core's L1 holds. -/
def State.l1Of (s : State) (core : Nat) : List (Nat × Line) := Tbl.getD s.l1 core []

/-- Bytes laid over others at an offset, where they meet. -/
def overlay (base : Nat) (l : List Byte) (pa : Nat) (b : List Byte) : List Byte :=
  l.zipIdx.map fun (x, i) => if pa ≤ base + i && base + i < pa + b.length then b.getD (base + i - pa) x else x

/-- Whether two spans of bytes meet. -/
def meets (a n b k : Nat) : Bool := decide (a < b + k) && decide (b < a + n)

/-- The hart's own stores in flight, laid over what memory or L1 gives (R42). -/
def forward (fl : List Flight) (pa : Nat) (l : List Byte) : List Byte :=
  fl.foldl (fun l f => f.pas.foldl (fun l q => overlay pa l q f.bytes) l) l

/-- The hart's own multicast stores too, at the replicas that have yet to receive them (R321). -/
def State.ownStores (s : State) : List Flight :=
  (s.casts.filter fun c => c.agent == s.agent).map (fun c => { pas := c.pas, bytes := c.bytes, va := c.va }) ++ s.ctx.stores

/-- A core's L1 gives up the lines that a span of bytes touches: an access past L1 leaves no older copy behind (R114, R314). -/
def State.dropL1 (s : State) (core pa n : Nat) : State :=
  { s with
    l1 := s.l1.map fun (c, l) => (c, if c == core then l.filter fun x => !(linesOf pa n).contains x.1 else l)
    later := s.later.filter fun x => !(x.core == core && (linesOf pa n).contains (x.pa / 64))
    olds := s.olds.filter fun x => !(x.1 / 4 == core && (linesOf pa n).contains x.2.1) }

/-- A line enters a core's L1; the oldest of 1,024 leaves. -/
def State.fillL1 (s : State) (core ln : Nat) (x : Line) : State :=
  let s := s.dropL1 core (ln * 64) 64
  { s with l1 := Tbl.upd s.l1 core [] fun l => (l ++ [(ln, x)]).drop (l.length + 1 - 1024) }

/-- A hart's load reaches its home slice (R43, R320). A late one need not see an emission whose UFENCE promised it to no scope that
holds the hart (R111, R327). -/
def State.arrive (s : State) (pa n : Nat) : State :=
  if s.me.late then (linesOf pa n).foldl (State.meetLine · (s.promised s.agent)) s else s.touch pa n

/-- The n bytes of a load by the running hart (R309): from L1, or from the point of coherence, which applies bins first. -/
def State.readBytes (s : State) (a : Acc) (n : Nat) : List Byte × State :=
  let core := hartCore s.cur
  let ln := a.pa / 64
  let own := s.ownStores
  if a.cached then
    match (s.l1Of core).find? (·.1 == ln) with
    | some x => (forward own a.pa (slice (lineBytes x.2) (a.pa % 64) n), s)
    | none =>
      let s := s.chargePort s.myself s.ctx.cont.launch (ln * 64) 64
      let b := s.bytesAt (ln * 64) 64
      (forward own a.pa (slice b (a.pa % 64) n), s.fillL1 core ln (lineOf b))
  else
    let s := (s.arrive a.pa n).chargePort s.myself s.ctx.cont.launch a.pa n
    (forward own a.pa (s.bytesAt a.pa n), s)

/-- Lines written anew over a span carry no poison (R352). -/
def State.clearPoison (s : State) (pa n : Nat) : State :=
  { s with poison := s.poison.filter fun ln => !(decide (pa ≤ ln * 64) && decide (ln * 64 + 64 ≤ pa + n)) }

/-- Given lines carry no poison. -/
def State.clearLines (s : State) (l : List Nat) : State := { s with poison := s.poison.filter fun ln => !l.contains ln }

/-- A write of some agent lands at one address (R309, R320). A stopped stack takes no write (R304). -/
def State.landAt (s : State) (cls : WClass) (agent asid : Nat) (va : Word) (bytes : List Byte) (at_ : Option Word) (pa : Nat) : State :=
  if s.stopped pa then s
  else (((s.touch pa bytes.length).putWake pa bytes).clearPoison pa bytes.length).watch pa bytes.length va 1 cls agent asid at_

/-- A store changed a line that other cores hold, or that older values of other harts stand for: it happens before nothing of theirs
yet (R312). -/
def State.noteLater (s : State) (core agent pa : Nat) (bytes : List Byte) : State :=
  let ln := pa / 64
  let cores := (s.l1.filterMap fun (c, l) => if c != core && l.any (·.1 == ln) then some c else none)
    ++ (s.olds.filterMap fun x => if x.1 / 4 != core && x.2.1 == ln then some (x.1 / 4) else none)
  { s with
    later := s.later ++ cores.eraseDups.map fun c => { core := c, pa := pa, bytes := bytes, known := [agent] }
    olds := s.olds.filter fun x => !(x.1 / 4 == core && x.2.1 == ln) }

/-- A store reaches its point of coherence (R309), and its core's L1 line follows it. A multicast store reaches the primary, and has
still to reach the other replicas (R321, R322). -/
def State.performStore (s : State) (core agent asid : Nat) (f : Flight) (at_ : Option Word := none) : State :=
  match f.pas with
  | [] => s
  | q :: rest =>
    let s := (s.landAt .hart agent asid f.va f.bytes at_ q).noteLater core agent q f.bytes
    { s with
      casts := if rest == [] then s.casts else s.casts ++ [{ pas := rest, bytes := f.bytes, agent := agent, asid := asid, va := f.va }]
      l1 := s.l1.map fun (c, l) =>
        (c, if c == core then l.map fun x => (x.1, lineOf (overlay (x.1 * 64) (lineBytes x.2) q f.bytes)) else l) }

/-- Bytes of which some bits only are written, over what stands there (R91). -/
def mixBytes (old : List Byte) (l : List (Byte × Byte)) : List Byte := (old.zip l).map fun x => (x.1 &&& ~~~x.2.2) ||| (x.2.1 &&& x.2.2)

/-- A write lands at one of its addresses; a byte of a copy row is no access of its own (R282). -/
def State.landIn (s : State) (c : Cast) (q : Nat) : State :=
  if c.cls == WClass.copy.code then
    if s.stopped q then s
    else
      let s := s.touch q c.bytes.length
      s.putWake q (if c.mask == [] then c.bytes else mixBytes (s.bytesAt q c.bytes.length) (c.bytes.zip c.mask))
  else s.landAt (WClass.ofCode c.cls) c.agent c.asid c.va c.bytes none q

/-- A write lands wherever it has still to land, in order. -/
def State.landCast (s : State) (c : Cast) : State := c.pas.foldl (fun s q => s.landIn c q) s

/-- Every write that a test names lands everywhere, with the writes ordered before it (R321). -/
def State.landThose (s : State) (f : Cast → Bool) : State :=
  match s.casts.reverse.findIdx? f with
  | none => s
  | some i =>
    let n := s.casts.length - i
    let due := s.casts.take n
    due.foldl State.landCast { s with casts := s.casts.drop n }

/-- Every write of an agent lands everywhere. -/
def State.landAgent (s : State) (agent : Nat) : State := s.landThose (·.agent == agent)

/-- Every write still to land on some of n bytes at given addresses lands (R310, R321). -/
def State.landMeeting (s : State) (pas : List Nat) (n : Nat) : State :=
  s.landThose fun c => c.pas.any fun q => pas.any fun p => meets q c.bytes.length p n

/-- What tasks have published into a tile's store lands there (R249). -/
def State.landTile (s : State) (die : Fin 6) (tile : Nat) : State :=
  s.landThose fun c => c.cls == WClass.node.code && c.pas.any fun q => match spaceOf q with
    | .store d x _ => d == die && x == tile
    | _ => false

/-- One write lands at its next address, unless a write ordered before it has still to land in those bytes (R321, R322). -/
def State.landOne (s : State) (k : Nat) : State :=
  match s.casts[k]? with
  | none => s
  | some c =>
    match c.pas with
    | [] => s
    | q :: rest =>
      if (s.casts.take k).any fun b => b.pas.any fun p => meets p b.bytes.length q c.bytes.length then s
      else
        let s := { s with casts := if rest == [] then s.casts.eraseIdx k else s.casts.set k { c with pas := rest } }
        s.landIn c q

/-- A release of a scope by an agent of a launch, toward whoever acquires it (R311, R312). -/
def State.released (s : State) (agent launch : Nat) (z : Fin 16) : State :=
  { s with later := s.later.map fun x => if x.known.contains agent then { x with rel := (x.rel ++ [(agent, launch, z)]).eraseDups } else x }

/-- Whether a replica that serves an agent within a scope has still to receive a write of the agent (R313, R321). -/
def State.owes (s : State) (h : HartId) (z : Fin 16) : Bool :=
  let p := hartAgent h
  s.casts.any fun c => c.agent == p && c.pas.any fun q =>
    allHarts.any fun o => hartDie o == homeDie q && s.inScope z (s.hart h).ctx.cont.launch p (hartAgent o)

/-- Fences that no store stands before any more leave a hart's stores in flight, their release made. -/
def State.trimFences (s : State) (h : HartId) : State :=
  let past (f : Flight) : Bool := match f.fence with
    | some z => !s.owes h z.2
    | none => false
  let x := (s.hart h).ctx
  let s := (x.stores.takeWhile past).foldl (fun s f => match f.fence with
    | some z => s.released (hartAgent h) x.cont.launch z.2
    | none => s) s
  s.updHart h fun x => { x with ctx := { x.ctx with stores := x.ctx.stores.dropWhile past } }

/-- A store that was in flight is performed; a vector store's lines are whole once its last element has landed (R352). -/
def State.performFlight (s : State) (h : HartId) (f : Flight) : State :=
  let s := match f.fence with
    | some z => s.released (hartAgent h) (s.hart h).ctx.cont.launch z.2
    | none => s.performStore (hartCore h) (hartAgent h) (s.hart h).asid.toNat f
  s.clearLines (f.whole.filter fun ln => !(s.hart h).ctx.stores.any fun g => g.whole.contains ln)

/-- Every store in flight of a hart is performed, in order, and lands everywhere (R311). -/
def State.flushHart (s : State) (h : HartId) : State :=
  let fl := (s.hart h).ctx.stores
  let s := s.updHart h fun x => { x with ctx := { x.ctx with stores := [] } }
  fl.foldl (fun s f => (s.performFlight h f).landAgent (hartAgent h)) (s.landAgent (hartAgent h))

/-- A store of the running hart: performed at once after the earlier ones, or left in flight when its turn says so (R309). -/
def State.storeFlight (s : State) (f : Flight) : State :=
  let s := f.pas.foldl (fun s q => s.chargePort s.myself s.ctx.cont.launch q f.bytes.length) s
  if s.me.late then s.updCtx fun c => { c with stores := c.stores ++ [f] }
  else ((s.flushHart s.cur).performStore (hartCore s.cur) s.agent s.me.asid.toNat f (some s.pc)).landAgent s.agent

/-- Stores that an agent's acquire of a scope learns of (R312): those before a release whose agent lies within the acquire's scope, and
within whose scope this agent lies. -/
def State.learn (s : State) (z : Fin 16) : State :=
  { s with later := s.later.map fun x =>
      if !x.known.contains s.agent && x.rel.any (fun r => s.inScope r.2.2 r.2.1 r.1 s.agent && s.inScope z s.ctx.cont.launch s.agent r.1) then
        { x with known := x.known ++ [s.agent] }
      else x }

/-- An acquire of scope sys drops the core's L1 lines, so later loads go to the home slices (R42, R114, R122, R311). -/
def State.acquire (s : State) : State :=
  let core := hartCore s.cur
  let s := s.learn 7
  { s with
    l1 := Tbl.erase s.l1 core
    olds := s.olds.filter fun x => x.1 != s.cur.val
    later := s.later.filter fun x => x.core != core || s.olds.any fun o => o.1 != s.cur.val && o.1 / 4 == core && o.2.1 == x.pa / 64 }

/-- Whether an older line is one that no store the hart has learned of has changed: every byte that differs from memory is a store of an
agent that the hart does not synchronise with (R312, R314). -/
def State.unlearned (s : State) (core ln : Nat) (x : Line) : Bool :=
  let ws := s.later.filter fun w => w.core == core && w.pa / 64 == ln
  ws != [] && ws.all (fun w => !w.known.contains s.agent)
    && ws.foldl (fun b w => overlay (ln * 64) b w.pa w.bytes) (lineBytes x) == s.bytesAt (ln * 64) 64

/-- The acquire of a fence (R122, R312): the L1 data cache is invalidated. What stores outside the scope have changed since it took a
line, the hart's late loads need not see. -/
def State.acquireScope (s0 : State) (z : Fin 16) : State :=
  let s := s0.learn z
  let core := hartCore s.cur
  let kept := if !s.me.late then []
    else ((s.l1Of core).map fun x => (s.cur.val, x.1, x.2)) ++ s.olds.filter fun x => x.1 == s.cur.val && !(s.l1Of core).any (·.1 == x.2.1)
  let olds := s.olds.filter (fun x => x.1 != s.cur.val) ++ kept.filter fun x => s.unlearned core x.2.1 x.2.2
  { s with
    l1 := Tbl.erase s.l1 core
    olds := olds
    later := s.later.filter fun x => x.core != core || olds.any fun o => o.1 / 4 == core && o.2.1 == x.pa / 64 }

/-- The older line that a late load of a hart may still return (R312). -/
def State.oldLine (s : State) (a : Acc) : Option Line :=
  if s.me.late && a.cached then (s.olds.find? fun x => x.1 == s.cur.val && x.2.1 == a.pa / 64).map (·.2.2) else none

/-- Every store in flight is performed and lands everywhere; one that no link can carry takes LINK (R122, R311). -/
def flushM : M Unit := do
  let s ← get
  match s.ctx.stores.find? fun f => f.pas.any fun q => !s.reaches s.die q with
  | some f => trapM .link 0 f.va (word (pkgOf (f.pas.headD 0)))
  | none => doS fun s => s.flushHart s.cur

/-- The running hart's release of a scope, sys unless one is named (R311). -/
def State.escape (s : State) (z : Fin 16 := 7) : State := s.released s.agent s.ctx.cont.launch z

/-- A release (R311): the hart's stores are performed first. -/
def releaseM : M Unit := do
  flushM
  doS State.escape

/-- The hart's stores in flight to bytes of an object come before its access to the object (R42). -/
def ownFirstM (pa n : Nat) : M Unit := do
  if (← get).ctx.stores.any fun f => f.pas.any fun q => meets q f.bytes.length pa n then flushM

/-! ## Loads and stores of a hart -/

/-- Whether L1 answers a load (R309). -/
def State.hitsL1 (s : State) (a : Acc) : Bool := a.cached && (s.l1Of (hartCore s.cur)).any (·.1 == a.pa / 64)

/-- What a line's bins or the line itself suffers from an uncorrectable error (R305, R352, R416). -/
def State.strike (s : State) (ln : Nat) : State :=
  let hit (b : Bin) : Bool := b.line == ln
  if s.dies.toList.any fun d => d.par.bins.any hit || d.par.runs.any hit then
    s.mapDies fun d => { d with par := { d.par with
      bins := d.par.bins.map fun b => if hit b then { b with bad := true } else b
      runs := d.par.runs.map fun b => if hit b then { b with bad := true } else b } }
  else match spaceOf (ln * 64) with
    | .hbm _ | .tier2 _ | .store _ _ _ => s.poisonLine ln
    | _ => s

/-- The structure code of R416 for an error of an address: the store of a memory tile, or a home slice and what lies behind it. -/
def eccCode (pa : Nat) : Nat := match spaceOf pa with
  | .store _ _ _ => 4
  | _ => 3

/-- A throttle holds the running hart's requests to some addresses at their ports: the instruction waits where it stands (R382). -/
def heldM (pas : List Nat) : M Unit := do
  let s ← get
  if pas.any (s.portHeld s.myself s.ctx.cont.launch) then throw .done

/-- The running hart's request of n bytes is charged to its launch (R381). -/
def State.charged (s : State) (pa n : Nat) : State := s.chargePort s.myself s.ctx.cont.launch pa n

/-- A checked load of n bytes is performed (R42): its value as a number; a throttle holds its request at the port (R382). L1 answers
it, or its home slice, which applies the line's bins and may then find an error (R352). -/
def performLoadM (a : Acc) (va : Word) (n : Nat) : M Nat := do
  let s ← get
  match s.oldLine a with
  | some x => pure (leValue (forward s.ownStores a.pa (slice (lineBytes x) (a.pa % 64) n)))
  | none =>
    if s.hitsL1 a then pure (leValue (s.readBytes a n).1)
    else
      heldM [a.pa]
      doS fun s => s.arrive a.pa n
      let s ← get
      demand (!s.broken a.pa) .ecc 0 va (word (eccCode a.pa))
      let r := s.readBytes a n
      set (r.2.watch a.pa n va 2 .hart s.agent s.me.asid.toNat (some s.pc))
      pure (leValue r.1)

/-- A load of n bytes (R41), and its record (R417). -/
def loadM (va : Word) (n : Nat) (aux : Word := 0) : M Nat := do
  let a ← checkM .load va n n aux
  let v ← performLoadM a va n
  doS fun s => s.traceEvent 3 n va.toNat
  pure v

/-- The checks of a store (R41, R115, R304, R352): only a store that covers a line whole may write over its poison. -/
def checkStoreM (va : Word) (n : Nat) (aux : Word := 0) (whole : List Nat := []) : M Acc := do
  let a ← checkM .store va n n aux
  let s ← get
  demand (!a.pas.any fun q => s.protectedAt q n) .access 0 va aux
  demand (!a.pas.any fun q => s.stopped q || (s.poison.contains (q / 64) && !whole.contains (q / 64))) .ecc 0 va (word (eccCode a.pa))
  heldM a.pas
  pure a

/-- A store of n bytes (R41, R42). -/
def storeM (va : Word) (n v : Nat) : M Unit := do
  let a ← checkStoreM va n
  doS fun s => (s.storeFlight { pas := a.pas, bytes := leBytes n v, va := va }).traceEvent 4 n va.toNat

/-- The n bytes of a descriptor or table in memory, read under R41 steps 3 to 6 by the running hart, page by page. -/
def readRecordM (use : Use) (va : Word) (n : Nat) : M (List Byte) := do
  let spans := (List.range ((va.toNat + n + 63) / 64 - va.toNat / 64)).map fun i =>
    let lo := max va.toNat ((va.toNat / 64 + i) * 64)
    (lo, min (va.toNat + n) ((va.toNat / 64 + i + 1) * 64) - lo)
  let s ← get
  heldM (spans.filterMap fun sp => match s.peekVa s.die s.me.asid.toNat sp.1 with
    | .ok e => some (e.addrFor s.die sp.1)
    | .error _ => none)
  spans.foldlM (fun acc sp => do
    let a ← checkM use (word sp.1) sp.2 1
    let s ← get
    let s := ((s.touch a.pa sp.2).dropL1 (hartCore s.cur) a.pa sp.2).charged a.pa sp.2
    set s
    demand (!s.broken a.pa) .ecc 0 (word sp.1) (word (eccCode a.pa))
    doS fun s => s.watch a.pa sp.2 (word sp.1) 2 .hart s.agent s.me.asid.toNat (some s.pc)
    pure (acc ++ forward s.ownStores a.pa (s.bytesAt a.pa sp.2))) []

/-- A hart's own stores that have still to land on some of n bytes come before its access to them (R42, R310). -/
def State.ownFirst (s : State) (h : HartId) (pas : List Nat) (n : Nat) : State :=
  let hit (ps : List Nat) (k : Nat) : Bool := ps.any fun q => pas.any fun p => meets q k p n
  if (s.hart h).ctx.stores.any (fun f => hit f.pas f.bytes.length) || s.casts.any (fun c => c.agent == hartAgent h && hit c.pas c.bytes.length)
  then s.flushHart h else s

/-- System-level stores of bytes by the hart at a virtual address (R400): the failed step, or the new state. Protected bytes refuse them
like any store of the hart, though R115 lists no trap frame (DESIGN CHOICE, assumption 72). -/
def State.sysStore (s : State) (h : HartId) (va : Word) (l : List Byte) : Except (Cause × Nat × Nat) State :=
  match s.check (hartDie h) (s.hart h).asid.toNat true .store va l.length with
  | (_, .error e) => .error e
  | (s, .ok a) =>
    if a.pas.any fun q => s.protectedAt q l.length then .error (.access, 0, 0)
    else if a.pas.any s.stopped then .error (.ecc, 0, 3)
    else .ok (((s.ownFirst h a.pas l.length).performStore (hartCore h) (hartAgent h) (s.hart h).asid.toNat { pas := a.pas, bytes := l, va := va }).landAgent (hartAgent h))

/-- System-level loads by the hart at a virtual address, page by page of at most n bytes. -/
def State.sysLoad (s : State) (h : HartId) (va : Word) (n : Nat) : Except (Cause × Nat × Nat) (List Byte × State) :=
  match s.check (hartDie h) (s.hart h).asid.toNat true .read va n with
  | (_, .error e) => .error e
  | (s, .ok a) =>
    let s := (s.ownFirst h [a.pa] n).touch a.pa n
    if (linesOf a.pa n).any fun ln => s.broken (ln * 64) then .error (.ecc, 0, eccCode a.pa) else .ok (s.bytesAt a.pa n, s)

/-! ## Instruction fetch (R35, R43) -/

/-- A line enters a core's L1 instruction cache of 64 KiB (R2). -/
def State.fillIl1 (s : State) (core ln : Nat) (x : Line) : State :=
  { s with il1 := Tbl.upd s.il1 core [] fun l => (l.filter (·.1 != ln) ++ [(ln, x)]).drop (l.length + 1 - 1024) }

/-- The line of an L1 instruction cache that a turn of a hart fetches from (R2, R309): only a late turn may find one, since nothing says
how long a line stays. -/
def State.il1Line (s : State) (h : HartId) (a : Acc) : Option Line :=
  if (s.hart h).late && a.cached then ((Tbl.getD s.il1 (hartCore h) []).find? (·.1 == a.pa / 64)).map (·.2) else none

/-- The word at the pc, or why it cannot be fetched (R35): the cause with its DETAIL, or for LINK the package. -/
def State.fetch (s : State) (h : HartId) (va : Word) : State × Except (Cause × Nat) (BitVec 32) :=
  match s.check (hartDie h) (s.hart h).asid.toNat (s.hart h).pl .fetch va 4 with
  | (s, .error (c, k, p)) => (s, .error (c, if c == .link then p else k))
  | (s, .ok a) =>
    match s.il1Line h a with
    | some x => (s, .ok (BitVec.ofNat 32 (leValue (slice (lineBytes x) (a.pa % 64) 4))))
    | none =>
      let s := s.touch a.pa 4
      if s.broken a.pa then (s, .error (.ecc, eccCode a.pa))
      else
        let t := if (s.hart h).late && a.cached then s.fillIl1 (hartCore h) (a.pa / 64) (lineOf (s.bytesAt (a.pa / 64 * 64) 64)) else s
        (t, .ok (BitVec.ofNat 32 (s.valueAt a.pa 4)))

end Sys2Proof.Machine
end

