-- ==== Sys2Proof/Machine/Launch.lean ====
section
/-!
DEFINITION. The end of things: killing a region task (R232), a continuation (R331), completing or faulting a launch (R212), and
posting a status record to the host (R423).
-/
namespace Sys2Proof.Machine

/-! ## Status records (R423) -/

def Mailbox.full (m : Mailbox) : Bool := m.sqsize == 0 || m.sqsize ≤ m.stat - m.sqhead

/-- The 32 bytes of a status record (R423). -/
def StatRec.bytes (r : StatRec) : List Byte :=
  leBytes 8 r.sseq ++ leBytes 8 r.cseq ++ leBytes 1 r.op ++ leBytes 1 r.result ++ leBytes 6 0 ++ leBytes 8 r.data.toNat

/-- Where record sseq lies in the host's memory (R423). -/
def Mailbox.recordAddr (m : Mailbox) (sseq : Nat) : Nat := m.sqbase.toNat + 32 * (sseq % m.sqsize)

/-- Emit one record under the next status seq. -/
def Mailbox.emit (m : Mailbox) (r : StatRec) : Mailbox :=
  let r := { r with sseq := m.stat + 1 }
  { m with stat := m.stat + 1, queue := Tbl.set m.queue (m.recordAddr r.sseq) r.bytes, kept := (m.kept ++ [r]).drop (m.kept.length + 1 - 4096) }

/-- Post a record, or hold it while the queue is full. -/
def Mailbox.post (m : Mailbox) (r : StatRec) : Mailbox :=
  if m.heldRecs == [] && !m.full then m.emit r else { m with heldRecs := m.heldRecs ++ [r] }

def State.postStatus (s : State) (cseq op result : Nat) (data : Word) : State :=
  { s with host := s.host.post { cseq := cseq, op := op, result := result, data := data } }

/-! ## Region tasks (R232, R234) -/

/-- A context as it was loaded: every buffer, route and unit empty (R232). -/
def TileCtx.clear (c : TileCtx) : TileCtx :=
  { ops := c.ops, places := c.places, sws := c.sws, descs := c.descs
    ins := c.ins.map fun (k, b) => (k, { b with q := [], got := [] })
    links := c.links.map fun (k, b) => (k, { b with q := [], got := [] }) }

/-- Apply a change to each tile of a task's rectangle in its context. -/
def State.eachTile (s : State) (t : TaskId) (f : TileCtx → TileCtx) : State :=
  let k := s.task t
  (tilesOf t k.w1 k.h1).foldl (fun s tile => s.updTc (taskDie t).val tile (taskCtx t).val f) s

/-- The FSTAT state codes (R105). -/
def TaskState.code : TaskState → Nat
  | .empty => 0 | .loaded => 1 | .running => 2 | .parked => 3 | .draining => 4 | .drained => 5
  | .checkpointing => 6 | .checkpointed => 7 | .killed => 8

/-- The current context of a task's first tile (R105, R217). -/
def State.curOf (s : State) (t : TaskId) : Nat := s.curCtx (taskDie t).val (taskX t + 24 * taskY t)

/-- The FSTAT word of a task (R105). -/
def State.fstatWord (s : State) (t : TaskId) : Word :=
  let k := s.task t
  word (k.state.code * 2 ^ 60 + s.curOf t * 2 ^ 58 + k.cause * 2 ^ 48 + min k.count (2 ^ 32 - 1))

/-- Whether a task is in a state that keeps DRAINW and FLOAD waiting (R104, R124). -/
def TaskState.busy (x : TaskState) : Bool := x == .running || x == .parked || x == .draining || x == .checkpointing

/-- The waits on a task's state end when it is ready for them: a DRAINW takes the FSTAT word of the release, and a FLOAD runs again (R99,
R104, R124). -/
def State.wakeTask (s : State) (t : TaskId) : State :=
  if (s.task t).state.busy then s else s.wakeAll (.task t) (some (.word (s.fstatWord t)))

/-- The waits of harts on a task's ports end the same way (R107). -/
def State.wakePorts (s : State) (t : TaskId) : State :=
  ((s.getDie (taskDie t)).wft.filter fun e => e.typ == .wait && e.agent / 2 ^ 29 == 0 && match e.key with | .port u _ _ _ => u == t | _ => false).foldl
    (fun s e => s.wake e none) s |>.reprio

/-- The image of an unfinished checkpoint is marked invalid: bit 7 of its byte 18 (R226, R408). -/
def State.markInvalid (s : State) (t : TaskId) : State :=
  match (s.task t).image with
  | none => s
  | some va =>
    match s.check (taskDie t) (s.task t).asid false .store (va + 18) 1 with
    | (s, .error _) => s
    | (s, .ok a) => a.pas.foldl (fun s q => (s.touch q 1).putWake q (leBytes 1 (s.valueAt q 1 % 128 + 128))) s

/-- A kill of a region task, in one step (R232): logs dropped, context as loaded, state 8. -/
def State.killTask (s : State) (t : TaskId) : State :=
  let k := s.task t
  let s := if k.state == .checkpointing then s.markInvalid t else s
  let s := s.eachTile t TileCtx.clear
  let s := s.updTask t fun k => { k with state := .killed, drainPending := false, resume := 0, rows := [], phaseBit := none, gone := [], wants := [], endFlags := k.eflags }
  ((s.depart ⟨taskAgent t, 0⟩ 1).wakeTask t).wakePorts t

/-- The bytes of an FSTAT cause: 0x13 or 0x14 (R105, R225, R234). -/
def faultAddr (causeWord : Word) : Word := causeWord

/-- A region fault (R234): the task is killed, and the fault goes to every hart waiting on it, or is held. -/
def State.faultTask (s : State) (t : TaskId) (c : Cause) (causeWord : Word) : State :=
  let ws := (s.getDie (taskDie t)).wft.filter fun e => e.typ == .wait && e.agent / 2 ^ 29 == 0 && match e.key with
    | .port u _ _ _ => u == t
    | .task u => u == t
    | _ => false
  let s := ws.foldl (fun s e => s.deliver e ⟨c, 0, faultAddr causeWord, 0, [], none⟩) s
  let s := s.killTask t
  s.updTask t fun k => { k with cause := c.code, held := if ws == [] then some (c, causeWord) else none }

/-! ## Continuations (R331) -/

/-- A join record's count falls by 1 at its home slice (R120, R331): an address that fails its checks is left alone. A hart that exits does
the access, which watchpoints see (R135). -/
def State.addJoin (s : State) (d : Fin 6) (asid : Nat) (va : Word) (by_ : Option Nat) : State :=
  if va == 0 then s
  else match s.check d asid true (.object true) va 8 with
    | (s, .error _) => s
    | (s, .ok a) =>
      let s := match by_ with
        | some p => s.watch a.pa 8 va 3 .hart p asid
        | none => s
      s.putWake a.pa (leBytes 8 (s.valueAt a.pa 8 + 2 ^ 64 - 1))

/-- A continuation ends: its join count falls, a graph's RUN joins, its launch has one fewer (R120, R212, R331, R379). -/
def State.endCont (s : State) (d : Fin 6) (c : Cont) (by_ : Option Nat := none) : State :=
  let s := s.addJoin d (s.launch c.launch).asid c.join by_
  s.updLaunch c.launch fun l =>
    { l with conts := l.conts - 1, walk := if c.node then l.walk.map fun w => { w with out := false } else l.walk }

/-- The publications of a task have landed everywhere before an acquire of them ends (R317). -/
def State.acquireTask (s : State) (t : TaskId) : State := (s.landAgent (taskAgent t)).acquireScope 2

/-- A hart whose continuation is gone (R331, R375): the registers that stay with the hart stay, and the newcomer that it was drained for. -/
def Hart.free (h : Hart) : Hart := { h with run := .idle, ctx := {}, pl := false, hm := false, eprio := 0, mact := false }

/-- A kill of the continuation on a hart (R331): emissions released are closed whatever is throttled, the rest dropped; departures; the
join count; its state and its stores not yet performed discarded. -/
def State.killOn (s : State) (h : HartId) : State :=
  let x := s.hart h
  let s := s.closeOf ⟨hartAgent h, x.ctx.cont.uid⟩
  let s := s.depart ⟨hartAgent h, x.ctx.cont.uid⟩ 1
  let s := s.endCont (hartDie h) x.ctx.cont
  (s.updHart h Hart.free).reprio

/-- Remove every continuation of a launch, wherever it is (R212, R376); slots of a memory queue that they leave are zero. -/
def State.killConts (s : State) (l : Nat) : State :=
  let onHarts := s.harts.filterMap fun (n, h) =>
    if hn : n < 768 then (if h.run != .idle && h.ctx.cont.launch == l && h.ctx.cont.uid != 0 then some (⟨n, hn⟩ : HartId) else none) else none
  let s := onHarts.foldl State.killOn s
  let away := s.dies.toList.zipIdx.flatMap fun (d, i) =>
    ((d.pool ++ d.memq).filter (·.launch == l)).map (fun r => (i, recParty r, { uid := r.uid, launch := l, join := r.join, node := r.node : Cont }))
    ++ (d.sleepers.filter fun z => z.ctx.cont.launch == l).map fun z => (i, ⟨z.agent, z.ctx.cont.uid⟩, z.ctx.cont)
  let s := s.dies.toList.foldl (fun s d => ((d.memq.filter (·.launch == l)).filterMap (·.slot)).foldl (fun s n => s.put (d.slotAddr n) (leBytes 64 0)) s) s
  let s := s.mapDies fun d => { d with
    pool := d.pool.filter (·.launch != l), memq := d.memq.filter (·.launch != l)
    sleepers := d.sleepers.filter fun z => z.ctx.cont.launch != l }
  (away.foldl (fun s x => ((s.closeOf x.2.1).depart x.2.1 1).endCont ⟨x.1 % 6, by omega⟩ x.2.2) s).roomFreed

/-- The tasks a launch's harts loaded. -/
def State.tasksOf (s : State) (l : Nat) : List TaskId := (s.tasks.filter fun x => x.2.launch == l && x.2.state != .empty).map (·.1)

/-! ## Launches (R212) -/

/-- The completion record (R212). -/
def Launch.record (l : Launch) (state cause agent cycle : Nat) : List Byte :=
  leBytes 8 l.seq.toNat ++ leBytes 1 state ++ leBytes 1 cause ++ leBytes 1 (l.clamp.toNat + l.impdrain.toNat * 2) ++ leBytes 1 0
    ++ leBytes 2 l.eflags.toNat ++ leBytes 2 0 ++ leBytes 4 agent ++ leBytes 4 0 ++ leBytes 8 cycle
    ++ leBytes 8 (l.used.getD 0 0) ++ leBytes 8 (l.used.getD 1 0) ++ leBytes 16 0

/-- A task's part of its launch's eflags is the EFLAGS at its last drain or kill (R212). -/
def State.giveFlags (s : State) (t : TaskId) : State :=
  let k := s.task t
  s.updLaunch k.launch fun l => { l with eflags := l.eflags ||| k.endFlags }

/-- A launch completes (R212): the record as a system-level store in its ASID with release, what its tasks published having landed
first, then the host's status record. -/
def State.completeLaunch (s : State) (l : Nat) (state cause agent : Nat) : State :=
  if !(s.launch l).live then s
  else
    let s := (s.tasksOf l).foldl (fun s t => (s.landAgent (taskAgent t)).giveFlags t) s
    let x := s.launch l
    let rec_ := x.record state cause agent s.cycle
    let r : State × Bool := if x.stat == 0 then (s, false)
      else if x.stat.toNat % 64 != 0 then (s, true)
      else match s.check 0 x.asid true .store x.stat 64 with
        | (s, .error _) => (s, true)
        | (s, .ok a) =>
          if a.pas.any fun q => s.protectedAt q 64 || s.stopped q then (s, true)
          else (a.pas.foldl (fun s q => (((s.touch q 64).putWake q rec_).clearPoison q 64)) (s.landMeeting a.pas 64), false)
    let s := r.1.updLaunch l fun x => { x with live := false, state := state, cause := cause, agent := agent, statfail := r.2 }
    let data := state + cause * 2 ^ 8 + (x.clamp.toNat + x.impdrain.toNat * 2 + r.2.toNat * 4) * 2 ^ 16 + x.eflags.toNat * 2 ^ 24
    if x.notify || x.host || r.2 then s.postStatus 0 0 1 (word data) else s

/-- End a launch at once (R212, R133): its continuations removed, its region tasks killed, its record written. -/
def State.endLaunch (s : State) (l : Nat) (state cause agent : Nat) : State :=
  if !(s.launch l).live then s
  else
    let s := s.killConts l
    let s := ((s.tasksOf l).filter fun t => (s.task t).state != .loaded && (s.task t).state != .drained
      && (s.task t).state != .checkpointed && (s.task t).state != .killed).foldl State.killTask s
    s.completeLaunch l state cause agent

/-- A fault of a launch: state 2 (R212). -/
def State.faultLaunch (s : State) (l : Nat) (c : Cause) (agent : Nat) : State := s.endLaunch l 2 c.code agent

/-- Begin the drain of a task (R226, R230); a task in any other state is left as it is. -/
def State.drainTask (s : State) (t : TaskId) : State :=
  match (s.task t).state with
  | .running | .parked => s.updTask t fun k => { k with state := .draining }
  | .checkpointing => s.updTask t fun k => { k with drainPending := true }
  | _ => s

/-- Whether a launch has finished (R212): no continuation, no walk, no task running, parked or draining; tasks that remain are
drained first, which IMPDRAIN tells, and a fault still held makes its state 2. -/
def State.settleLaunch (s : State) (l : Nat) : State :=
  let x := s.launch l
  if l == 0 || !x.live || x.conts != 0 || x.walk.isSome then s
  else
    let busy := (s.tasksOf l).filter fun t => (s.task t).state == .running || (s.task t).state == .parked || (s.task t).state == .draining
    if busy != [] then
      (busy.foldl State.drainTask s).updLaunch l fun x => { x with impdrain := true }
    else
      match (s.tasksOf l).findSome? fun t => (s.task t).held.map fun h => (t, h.1) with
      | some (t, c) => s.completeLaunch l 2 c.code (taskAgent t)
      | none => match x.unreported with
        | some (c, agent) => s.completeLaunch l 2 c agent
        | none => s.completeLaunch l 0 0 0

/-! ## A hart that halts (R132, R133) -/

/-- The host is told which hart halted, and why (R132, R133): a status record of no command, whose data hold the agent id and above it the
cause, 0 for a HALT (DESIGN CHOICE, assumption 73). -/
def State.tellHalt (s : State) (h : HartId) (cause : Nat) : State := s.postStatus 0 0 0 (word (hartAgent h + cause * 2 ^ 32))

/-! ## Cycles that no hart's own wait closes (R365, R367) -/

/-- The launch of a unit that waits: of a region task, a copy or a continuation. -/
def State.launchOf (s : State) (e : WEntry) : Nat := s.partyLaunch e.party

def WEntry.ofHart (e : WEntry) : Bool := e.agent / 2 ^ 29 == 0

/-- DEADLOCK to the waiter at a place of a cycle, whose pair comes first in the record (R366). -/
def State.reportCycle (s : State) (path : List WEntry) (i how : Nat) : State :=
  let path := path.drop i ++ path.take i
  match path with
  | [] => s
  | e :: _ => s.deliver e ⟨.deadlock, min path.length 4095, 0, word e.aux, s.cycleRecord path how, none⟩

/-- A cycle with no hart waiter ends the closing unit's launch (R365). -/
def State.endCycle (s : State) (e : WEntry) : State :=
  let l := s.launchOf e
  if l == 0 then s else s.faultLaunch l .deadlock e.agent

/-- A registration that is not a hart's closes a cycle (R365): DEADLOCK goes to the first hart waiter that follows it. -/
def State.closeCycle (s : State) (e : WEntry) : State :=
  match s.cycleOf e with
  | none => s
  | some path =>
    let i := path.findIdx WEntry.ofHart
    if i < path.length then s.reportCycle path i 0 else s.endCycle e

/-- The launch a hart's continuation belongs to, and whether it has one. -/
def State.myLaunch (s : State) : Nat := s.ctx.cont.launch

end Sys2Proof.Machine
end

