-- ==== Sys2Proof/Machine/Ops.lean ====
section
/-!
DEFINITION. The named operations every instruction uses: completion with hardware loops and repeats (R48 to R54), transfers,
registered waits (R99), taking a trap (R400 to R403), leaving its frame (R133, R404), and how a meaning ends.
-/
namespace Sys2Proof.Machine

/-! ## Completion, loop-back and repeats -/

/-- Loop-back at the end address of one loop (R49): the new state, and whether control went to its start. -/
def Ctx.loop0Back (c : Ctx) : Ctx × Bool :=
  if c.loop0.active && c.loop0.stop == c.pc then
    if 1 < c.lc0.toNat then ({ c with lc0 := c.lc0 - 1, pc := c.loop0.start }, true)
    else ({ c with lc0 := 0, loop0 := { c.loop0 with active := false } }, false)
  else (c, false)

def Ctx.loop1Back (c : Ctx) : Ctx × Bool :=
  if c.loop1.active && c.loop1.stop == c.pc then
    if 1 < c.lc1.toNat then ({ c with lc1 := c.lc1 - 1, pc := c.loop1.start }, true)
    else ({ c with lc1 := 0, loop1 := { c.loop1 with active := false } }, false)
  else (c, false)

/-- The instruction at pc completes and falls through (R49): the loop armed last is tested first (R50). -/
def Ctx.fallThrough (c : Ctx) : Ctx :=
  let r := if c.last1 then c.loop1Back else c.loop0Back
  if r.2 then r.1
  else
    let q := if c.last1 then r.1.loop0Back else r.1.loop1Back
    if q.2 then q.1 else { q.1 with pc := c.pc + 4 }

/-- An instruction completes (R49, R52): inside a repeat the next element follows, or the repeat ends. -/
def Ctx.finish (c : Ctx) : Ctx :=
  let c := { c with grant := none, arrived := c.arrived.filter fun x => x.1 != c.pc }
  if c.rep.active then
    if c.rep.left.toNat ≤ 1 then { c with rep := { c.rep with active := false, left := 0, next := c.rep.next + 1 } }.fallThrough
    else { c with rep := { c.rep with next := c.rep.next + 1, left := c.rep.left - 1 } }
  else c.fallThrough

/-- The running hart completes its instruction. -/
def State.complete (s : State) : State := s.updCtx Ctx.finish

/-- A result goes to s(d) and the instruction completes. -/
def State.result (s : State) (d : SReg) (v : Word) : State := (s.wr d v).complete

/-- Control goes to an address (R46); a taken transfer is traced (R417). -/
def State.jump (s : State) (a : Word) : State := (s.setPc a).traceEvent 1 0 a.toNat

/-- Whether the pc is the end address of an active loop (R51). -/
def Ctx.atLoopEnd (c : Ctx) : Bool := (c.loop0.active && c.loop0.stop == c.pc) || (c.loop1.active && c.loop1.stop == c.pc)

/-! ## The frame (R401, R402) -/

/-- A handle's frame word (R401). -/
def Handle.frameWord (q : Handle) : Nat :=
  if q.bound then 2 ^ 63 + wfld q.region 9 23 * 2 ^ 18 + q.sel.toNat else 0

/-- CTL (R402). -/
def Ctx.ctl (c : Ctx) (fwfail : Bool) : Nat :=
  (if c.rep.active then c.rep.d.val * 2 ^ 21 + 2 ^ 20 else 0) + c.loop1.active.toNat * 2 ^ 19 + c.loop0.active.toNat * 2 ^ 18
    + c.last1.toNat * 2 ^ 17 + fwfail.toNat * 2 ^ 16 + c.replay.length

/-- A replay entry (R403). -/
def Replay.bytes (r : Replay) : List Byte :=
  leBytes 8 r.pc.toNat ++ leBytes 4 r.word.toNat ++ leBytes 4 (1 + r.err.toNat * 2) ++ leBytes 8 r.opa.toNat ++ leBytes 8 r.opb.toNat

/-- The 4,096 bytes of a trap frame (R401). -/
def Hart.frame (h : Hart) (p : PendTrap) (fwfail : Bool) : List Byte :=
  let c := h.ctx
  let act := c.rep.active
  leBytes 8 h.status.toNat ++ leBytes 8 (p.cause.code + p.detail % 4096 * 256) ++ leBytes 8 c.pc.toNat ++ leBytes 8 p.addr.toNat
    ++ leBytes 8 (c.ctl fwfail) ++ leBytes 8 (if act then c.rep.next.toNat else 0) ++ leBytes 8 (if act then c.rep.left.toNat else 0)
    ++ leBytes 8 (if act then c.rep.t.toNat else 0)
    ++ leBytes 8 c.lc0.toNat ++ leBytes 8 c.lc1.toNat ++ leBytes 8 c.loop0.start.toNat ++ leBytes 8 c.loop0.stop.toNat
    ++ leBytes 8 c.loop1.start.toNat ++ leBytes 8 c.loop1.stop.toNat ++ leBytes 8 p.aux.toNat ++ leBytes 8 0
    ++ (List.finRange 64).flatMap (fun r => leBytes 8 (c.rd r).toNat)
    ++ leBytes 8 (2 ^ 64 - 1) ++ (c.m.toList.drop 1).flatMap (fun m => leBytes 8 m.toNat)
    ++ c.q.toList.flatMap (fun q => leBytes 8 q.frameWord) ++ leBytes 8 c.repidx.toNat ++ leBytes 56 0
    ++ slice (c.replay.flatMap Replay.bytes) 0 512 ++ slice p.record 0 272 ++ leBytes 368 0
    ++ c.v.toList.flatMap lineBytes

/-! ## Taking a trap (R400) -/

/-- Halt (R133, R400): the hart stays halted, its launch completes with state 2 and the cause, and the host is told. -/
def State.haltHart (s : State) (h : HartId) (c : Cause) : State :=
  let l := (s.hart h).ctx.cont.launch
  let s := if l == 0 then s else s.faultLaunch l c (hartAgent h)
  (s.updHart h fun x => { x with run := .halted (some c) }).tellHalt h c.code

/-- An unhandled trap faults the launch (R212); a hart that runs outside any launch loses its continuation (assumption 10). -/
def State.faultHart (s : State) (h : HartId) (c : Cause) : State :=
  let l := (s.hart h).ctx.cont.launch
  if l == 0 then s.killOn h else s.faultLaunch l c (hartAgent h)

/-- What entry writes into the hart (R400): the cause, the pc, system level, handler mode, and the vector. -/
def Hart.entered (h : Hart) (p : PendTrap) (machine : Bool) (v : Word) : Hart :=
  { h with
    trapcause := word (p.cause.code + p.detail % 4096 * 256)
    trappc := match p.at_ with | some a => a | none => h.ctx.pc
    pl := true, hm := true, mact := machine
    words := if machine then h.words else h.ctx.q.toList.map Handle.frameWord
    machWords := if machine then h.ctx.q.toList.map Handle.frameWord else h.machWords
    run := .running
    ctx := { h.ctx with pc := v, replay := [], grant := none, rep := { h.ctx.rep with active := false } } }

/-- The address part of a vector register (R399). -/
def vecAddr (v : Word) : Word := v &&& ~~~3#64

/-- Enter(cause) once the frame and vector are chosen: the frame is written, or the failure is given back. -/
def State.enterAt (s : State) (h : HartId) (p : PendTrap) (machine fwfail : Bool) : Except Unit State :=
  let x := s.hart h
  let f := x.frameBase + (if machine then 4096 else 0)
  match s.sysStore h f (x.frame p fwfail) with
  | .error _ => .error ()
  | .ok s => .ok (s.updHart h fun x => x.entered p machine (vecAddr (if machine then x.machvec else x.trapvec)))

/-- What happens where the vector is 0 (R400). -/
def State.noVector (s : State) (h : HartId) (p : PendTrap) : State :=
  if (s.hart h).hm then s.haltHart h p.cause
  else if p.cause == .preempt then s
  else s.faultHart h p.cause

/-- Enter(cause) (R400): the one operation by which a hart takes a trap. -/
def State.enter (s : State) (h : HartId) (p : PendTrap) : State :=
  let x := s.hart h
  if x.mact then s.haltHart h p.cause
  else if x.hm then
    if vecAddr x.machvec == 0 then s.noVector h p
    else match s.enterAt h p true false with
      | .ok s => s
      | .error _ => s.haltHart h p.cause
  else if vecAddr x.trapvec == 0 then s.noVector h p
  else match s.enterAt h p false false with
    | .ok s => s
    | .error _ =>
      if vecAddr x.machvec == 0 then s.noVector h p
      else match s.enterAt h p true true with
        | .ok s => s
        | .error _ => s.haltHart h p.cause

/-! ## How a meaning ends -/

/-- Run a meaning: it completes, transfers, waits or traps (R34, R99, R400). -/
def State.runM (s : State) (m : M Unit) : State :=
  match m s with
  | .ok _ t => t.complete
  | .error .done t => t
  | .error (.wait w) t => t.updMe fun h => { h with run := .waiting w }
  | .error (.trap p) t => t.enter t.cur p

/-- Enter(cause) where no address is at fault: what ADDR then holds the manual does not say (R398), so it is a free value. -/
def State.enterOpen (s : State) (h : HartId) (c : Cause) : State :=
  s.fresh.2.enter h ⟨c, 0, Config.freeWord s.fresh.1, 0, [], none⟩

/-- The outcome of a meaning: always a next state, since every misuse has an outcome (R7). -/
def ends (s : State) (m : M Unit) : Host.Outcome State Fault Refusal := .next (s.runM m)

/-- Transfer control and end. -/
def jumpM (a : Word) : M Unit := do
  doS fun s => (s.jump a).updCtx fun c => { c with grant := none }
  throw .done

/-- A transfer to a register's address (R47): MISALIGN when it is no word address. -/
def alignedTarget (t : Word) : M Unit := demand (t.toNat % 4 == 0) .misalign 0 t

/-- s(r) and its write, within a meaning. -/
def rdM (r : SReg) : M Word := do return (← get).rd r
def wrM (r : SReg) (v : Word) : M Unit := doS fun s => s.wr r v

/-- System level, or PRIV (R97). -/
def systemM : M Unit := do demand (← get).me.pl .priv

/-! ## Registered waits (R99) -/

/-- The entry a wait of the running hart makes. -/
def State.waitEntry (s : State) (kind : WaitKind) (key : ObjKey) (vaddr : Word) (aux : Nat) : WEntry :=
  { typ := .wait, kind := kind.code, pkg := Config.package, agent := s.agent, key := key, vaddr := vaddr, time := s.cycle,
    prio := s.me.eprio.toNat, bprio := s.ctx.bprio.toNat, asid := s.me.asid.toNat, aux := aux, uid := s.ctx.cont.uid }

/-- Wait(kind, obj) of an object that is not ready (R99): the hart sleeps, or takes WAITFULL or DEADLOCK with the instruction having no
effect, which is the state before it where it has done something by then. -/
def waitM {α : Type} (kind : WaitKind) (key : ObjKey) (vaddr : Word) (aux : Nat := 0) (before : Option State := none) : M α := do
  let s ← get
  let e := s.waitEntry kind key vaddr aux
  if !(s.getDie key.home).roomFor key .wait (s.need key) then
    set (before.getD s)
    trapM .waitfull kind.code (s.vaddrOf e) (word aux)
  match s.cycleOf e with
  | some path =>
    set (before.getD s)
    throw (.trap ⟨.deadlock, min path.length 4095, 0, word aux, s.cycleRecord path 0, none⟩)
  | none =>
    set ((s.addObj key kind.code).addEntry e).reprio
    throw (.wait ⟨kind, key, aux, s.cycle⟩)

/-- Room for a holding, or WAITFULL before any effect (R361). -/
def roomM (key : ObjKey) (n kind : Nat) (addr aux : Word) : M Unit := do
  demand ((← get).getDie key.home |>.roomFor key .hold n) .waitfull kind addr aux

/-- A holding of the running hart (R357). -/
def State.addHold (s : State) (key : ObjKey) (kind : Nat) (vaddr : Word) (arrived : Bool) : State :=
  ((s.addObj key kind).addEntry
    { s.waitEntry .word key vaddr 0 with typ := .hold, kind := kind, arrived := arrived }).reprio

/-- The physical address of a checked object (R98); the hart's own stores to it come first (R42). -/
def objectM (va : Word) (n align : Nat) (write : Bool) : M Nat := do
  let pa := (← checkM (.object write) va n align).pa
  demand (!(← get).broken pa) .ecc 0 va 3
  heldM [pa]
  ownFirstM pa n
  doS fun s => s.charged pa n
  pure pa

/-- The running hart's access to an object at its home slice, as watchpoints see it (R135): acc is 2 for a read, 3 for a read and write. -/
def seeM (pa n : Nat) (va : Word) (acc : Nat) : M Unit :=
  doS fun s => s.watch pa n va acc .hart s.agent s.me.asid.toNat (some s.pc)

/-- A write of the running hart at the home slice of an object: no older copy stays in its core's L1 (R114, R115). -/
def State.objPut (s : State) (pa : Nat) (l : List Byte) : State := (s.putWake pa l).dropL1 (hartCore s.cur) pa l.length

end Sys2Proof.Machine
end

