-- ==== Sys2Proof/Machine/Alu.lean ====
section
/-!
DEFINITION. Scalar arithmetic, majors 0x01 to 0x0A (R33, R36 to R39), JTAB's companions LEA (R44) and NOP (R57).
-/
namespace Sys2Proof.Machine

/-- How a meaning ends: every one answers a next state (R7). -/
abbrev Ends := Host.Outcome State Fault Refusal

/-- The number of leading zero bits of the low n bits. -/
def leadZeros (x : Word) : Nat → Nat
  | 0 => 64
  | n + 1 => if x.toNat.testBit n then 63 - n else leadZeros x n

/-- The position of the lowest one bit, counting from 64 − n; 64 when there is none. -/
def trailZeros (x : Word) : Nat → Nat
  | 0 => 64
  | n + 1 => if x.toNat.testBit (63 - n) then 63 - n else trailZeros x n

/-- The number of one bits of a number of up to n bits. -/
def onesUpTo (x : Nat) : Nat → Nat
  | 0 => 0
  | n + 1 => (x.testBit n).toNat + onesUpTo x n

/-- The four divisions of R37: quotient or remainder, signed or not; a zero divisor sets DZ. -/
def divQuot (x y : Word) : Word := if y = 0 then BitVec.allOnes 64 else BitVec.ofInt 64 (x.toInt.tdiv y.toInt)
def divRem (x y : Word) : Word := if y = 0 then x else BitVec.ofInt 64 (x.toInt.tmod y.toInt)
def divzQuot (x y : Word) : Word := if y = 0 then BitVec.allOnes 64 else word (x.toNat / y.toNat)
def divzRem (x y : Word) : Word := if y = 0 then x else word (x.toNat % y.toNat)

/-- A division's result, with DZ (R37). -/
def State.divResult (s : State) (d : SReg) (y v : Word) : State := ((if y = 0 then s.setDz else s).wr d v).complete

/-- The field of BEXT and BINS (R38): its position, its length in 1 to 64. -/
def bitPos (y : Word) : Nat := y.toNat % 64
def bitLenField (y : Word) : Nat := if y.toNat / 256 % 64 = 0 then 64 else y.toNat / 256 % 64

/-- imm14 sign- and zero-extended, imm20 shifted (R39). -/
def sx14 (i : BitVec 14) : Word := i.signExtend 64
def zx14 (i : BitVec 14) : Word := i.zeroExtend 64
def sx20 (i : BitVec 20) : Word := i.signExtend 64 * 4096#64

/-- ADD (R36). -/
def execAdd (d a b : SReg) (s : State) : Ends :=
  let x := s.rd a
  let y := s.rd b
  .next (s.result d (x + y))

/-- SUB (R36). -/
def execSub (d a b : SReg) (s : State) : Ends :=
  let x := s.rd a
  let y := s.rd b
  .next (s.result d (x - y))

/-- AND (R36). -/
def execAnd (d a b : SReg) (s : State) : Ends :=
  let x := s.rd a
  let y := s.rd b
  .next (s.result d (x &&& y))

/-- OR (R36). -/
def execOr (d a b : SReg) (s : State) : Ends :=
  let x := s.rd a
  let y := s.rd b
  .next (s.result d (x ||| y))

/-- XOR (R36). -/
def execXor (d a b : SReg) (s : State) : Ends :=
  let x := s.rd a
  let y := s.rd b
  .next (s.result d (x ^^^ y))

/-- ANDN (R36). -/
def execAndn (d a b : SReg) (s : State) : Ends :=
  let x := s.rd a
  let y := s.rd b
  .next (s.result d (x &&& ~~~y))

/-- SHL (R36). -/
def execShl (d a b : SReg) (s : State) : Ends :=
  let x := s.rd a
  let y := s.rd b
  .next (s.result d (x <<< (y.toNat % 64)))

/-- SHR (R36). -/
def execShr (d a b : SReg) (s : State) : Ends :=
  let x := s.rd a
  let y := s.rd b
  .next (s.result d (x >>> (y.toNat % 64)))

/-- SRA (R36). -/
def execSra (d a b : SReg) (s : State) : Ends :=
  let x := s.rd a
  let y := s.rd b
  .next (s.result d (x.sshiftRight (y.toNat % 64)))

/-- ROR (R36). -/
def execRor (d a b : SReg) (s : State) : Ends :=
  let x := s.rd a
  let y := s.rd b
  .next (s.result d (x.rotateRight (y.toNat % 64)))

/-- MUL (R36). -/
def execMul (d a b : SReg) (s : State) : Ends :=
  let x := s.rd a
  let y := s.rd b
  .next (s.result d (x * y))

/-- MULH (R36). -/
def execMulh (d a b : SReg) (s : State) : Ends :=
  let x := s.rd a
  let y := s.rd b
  .next (s.result d (BitVec.ofInt 64 (x.toInt * y.toInt / (2 ^ 64 : Nat))))

/-- MULHZ (R36). -/
def execMulhz (d a b : SReg) (s : State) : Ends :=
  let x := s.rd a
  let y := s.rd b
  .next (s.result d (word (x.toNat * y.toNat / 2 ^ 64)))

/-- MIN (R36). -/
def execMin (d a b : SReg) (s : State) : Ends :=
  let x := s.rd a
  let y := s.rd b
  .next (s.result d (if x.toInt ≤ y.toInt then x else y))

/-- MAX (R36). -/
def execMax (d a b : SReg) (s : State) : Ends :=
  let x := s.rd a
  let y := s.rd b
  .next (s.result d (if x.toInt ≤ y.toInt then y else x))

/-- MINZ (R36). -/
def execMinz (d a b : SReg) (s : State) : Ends :=
  let x := s.rd a
  let y := s.rd b
  .next (s.result d (if x.toNat ≤ y.toNat then x else y))

/-- MAXZ (R36). -/
def execMaxz (d a b : SReg) (s : State) : Ends :=
  let x := s.rd a
  let y := s.rd b
  .next (s.result d (if x.toNat ≤ y.toNat then y else x))

/-- SLT (R36). -/
def execSlt (d a b : SReg) (s : State) : Ends :=
  let x := s.rd a
  let y := s.rd b
  .next (s.result d (if x.toInt < y.toInt then 1#64 else 0#64))

/-- SLTZ (R36). -/
def execSltz (d a b : SReg) (s : State) : Ends :=
  let x := s.rd a
  let y := s.rd b
  .next (s.result d (if x.toNat < y.toNat then 1#64 else 0#64))

/-- SEQ (R36). -/
def execSeq (d a b : SReg) (s : State) : Ends :=
  let x := s.rd a
  let y := s.rd b
  .next (s.result d (if x = y then 1#64 else 0#64))

/-- DIV (R37). -/
def execDiv (d a b : SReg) (s : State) : Ends := .next (s.divResult d (s.rd b) (divQuot (s.rd a) (s.rd b)))

/-- REM (R37). -/
def execRem (d a b : SReg) (s : State) : Ends := .next (s.divResult d (s.rd b) (divRem (s.rd a) (s.rd b)))

/-- DIVZ (R37). -/
def execDivz (d a b : SReg) (s : State) : Ends := .next (s.divResult d (s.rd b) (divzQuot (s.rd a) (s.rd b)))

/-- REMZ (R37). -/
def execRemz (d a b : SReg) (s : State) : Ends := .next (s.divResult d (s.rd b) (divzRem (s.rd a) (s.rd b)))

/-- CLZ (R36). -/
def execClz (d a : SReg) (s : State) : Ends := .next (s.result d (word (leadZeros (s.rd a) 64)))

/-- CTZ (R36). -/
def execCtz (d a : SReg) (s : State) : Ends := .next (s.result d (word (trailZeros (s.rd a) 64)))

/-- POPC (R36). -/
def execPopc (d a : SReg) (s : State) : Ends := .next (s.result d (word (onesUpTo (s.rd a).toNat 64)))

/-- BEXT (R38). -/
def execBext (d a b : SReg) (s : State) : Ends :=
  let y := s.rd b
  .next (s.result d (word ((s.rd a).toNat / 2 ^ bitPos y % 2 ^ bitLenField y)))

/-- BINS (R38). -/
def execBins (d a b : SReg) (s : State) : Ends :=
  let y := s.rd b
  let mask := word ((2 ^ bitLenField y - 1) * 2 ^ bitPos y)
  .next (s.result d ((s.rd d &&& ~~~mask) ||| ((s.rd a <<< bitPos y) &&& mask)))

/-- SELNZ (R38). -/
def execSelnz (d a b : SReg) (s : State) : Ends := .next (if s.rd b ≠ 0 then s.result d (s.rd a) else s.complete)

/-- ADDI (R39). -/
def execAddi (d a : SReg) (i : BitVec 14) (s : State) : Ends := .next (s.result d (s.rd a + sx14 i))

/-- ANDI (R39). -/
def execAndi (d a : SReg) (i : BitVec 14) (s : State) : Ends := .next (s.result d (s.rd a &&& zx14 i))

/-- ORI (R39). -/
def execOri (d a : SReg) (i : BitVec 14) (s : State) : Ends := .next (s.result d (s.rd a ||| sx14 i))

/-- XORI (R39). -/
def execXori (d a : SReg) (i : BitVec 14) (s : State) : Ends := .next (s.result d (s.rd a ^^^ sx14 i))

/-- SLTI (R39). -/
def execSlti (d a : SReg) (i : BitVec 14) (s : State) : Ends := .next (s.result d (if (s.rd a).toInt < (sx14 i).toInt then 1#64 else 0#64))

/-- SLTZI (R39). -/
def execSltzi (d a : SReg) (i : BitVec 14) (s : State) : Ends := .next (s.result d (if (s.rd a).toNat < (zx14 i).toNat then 1#64 else 0#64))

/-- SHLI (R39). -/
def execShli (d a : SReg) (n : BitVec 6) (s : State) : Ends := .next (s.result d (s.rd a <<< n.toNat))

/-- SHRI (R39). -/
def execShri (d a : SReg) (n : BitVec 6) (s : State) : Ends := .next (s.result d (s.rd a >>> n.toNat))

/-- SRAI (R39). -/
def execSrai (d a : SReg) (n : BitVec 6) (s : State) : Ends := .next (s.result d ((s.rd a).sshiftRight n.toNat))

/-- RORI (R39). -/
def execRori (d a : SReg) (n : BitVec 6) (s : State) : Ends := .next (s.result d ((s.rd a).rotateRight n.toNat))

/-- LUI (R39). -/
def execLui (d : SReg) (i : BitVec 20) (s : State) : Ends := .next (s.result d (sx20 i))

/-- AUIPC (R39). -/
def execAuipc (d : SReg) (i : BitVec 20) (s : State) : Ends := .next (s.result d (s.pc + sx20 i))

/-- LEA (R44): no translation, no trap. -/
def execLea (d a : SReg) (i : BitVec 14) (s : State) : Ends := .next (s.result d (s.rd a + sx14 i * 64#64))

/-- NOP (R57). -/
def execNop (s : State) : Ends := .next s.complete

end Sys2Proof.Machine
end

