-- ==== Sys2Proof/Machine/Device.lean ====
section
/-!
DEFINITION. Reads and writes that the device makes through a program's translation, line by line: checkpoint images, copies,
collectives, status and trace records.
-/
namespace Sys2Proof.Machine

/-- The spans of a range of bytes, none across a line: their addresses and lengths. -/
def lineSpans (va n : Nat) : List (Nat × Nat) :=
  (List.range ((va + n + 63) / 64 - va / 64)).map fun i =>
    let lo := max va ((va / 64 + i) * 64)
    (lo, min (va + n) ((va / 64 + i + 1) * 64) - lo)

/-- What failed in an access of the device: its cause, DETAIL, package and address. -/
abbrev DevFault := Cause × Nat × Nat × Word

/-- Write one span at the addresses a check gave, after every write that has still to land there (R321); `part` for one of which some bits only
are written (R352). -/
def State.devPut (s : State) (cls : WClass) (agent asid : Nat) (va : Word) (pas : List Nat) (l : List Byte) (part : Bool := false) : State :=
  pas.foldl (fun s q =>
    let s := (s.touch q l.length).putWake q l
    (if part then s else s.clearPoison q l.length).watch q l.length va 1 cls agent asid) (s.landMeeting pas l.length)

/-- Store bytes; spans before one that fails are written. -/
def State.devStore (s : State) (d : Fin 6) (asid : Nat) (sys : Bool) (cls : WClass) (agent : Nat) (va : Word) (l : List Byte) :
    State × Option DevFault :=
  (lineSpans va.toNat l.length).foldl (fun x sp =>
    match x.2 with
    | some _ => x
    | none =>
      match x.1.check d asid sys .store (word sp.1) sp.2 with
      | (t, .error (c, k, p)) => (t, some (c, k, p, word sp.1))
      | (t, .ok a) =>
        if a.pas.any fun q => t.protectedAt q sp.2 then (t, some (.access, 0, 0, word sp.1))
        else if a.pas.any t.stopped then (t, some (.ecc, 0, 0, word sp.1))
        else (t.devPut cls agent asid (word sp.1) a.pas (slice l (sp.1 - va.toNat) sp.2), none)) (s, none)

/-- Load bytes. -/
def State.devLoad (s : State) (d : Fin 6) (asid : Nat) (sys : Bool) (cls : WClass) (agent : Nat) (va : Word)
    (n : Nat) : State × Except DevFault (List Byte) :=
  (lineSpans va.toNat n).foldl (fun x sp =>
    match x with
    | (t, .error e) => (t, .error e)
    | (t, .ok l) =>
      match t.check d asid sys .load (word sp.1) sp.2 with
      | (t, .error (c, k, p)) => (t, .error (c, k, p, word sp.1))
      | (t, .ok a) =>
        let t := t.touch a.pa sp.2
        if t.broken a.pa then (t, .error (.ecc, 0, 0, word sp.1))
        else
          let t := t.watch a.pa sp.2 (word sp.1) 2 cls agent asid
          (t, .ok (l ++ t.bytesAt a.pa sp.2))) (s, .ok [])

end Sys2Proof.Machine
end

