-- ==== Sys2Proof/Machine/Copies.lean ====
section
/-!
DEFINITION. The copies that a channel holds: their tokens, numbers and status, and how one retires, settles or fails (R87, R93, R94, R293,
R297).
-/
namespace Sys2Proof.Machine

/-- The dependence token a copy waits on, or raises (R297). -/
def CopyBlk.waitsTok (b : CopyBlk) : Option Nat := if b.dtok != 0 && b.dtok < 2 ^ 12 then some b.dtok else none
def CopyBlk.raises (b : CopyBlk) : Option Nat := if 2 ^ 15 < b.dtok && b.dtok < 2 ^ 15 + 2 ^ 12 then some (b.dtok - 2 ^ 15) else none

/-! ## Channels -/

def copyDie (id : CopyId) : Fin 6 := ⟨id / 2 ^ 38 % 6, by omega⟩
def copyChan (id : CopyId) : Nat := id / 2 ^ 32 % 64
def copyIdOf (die ch ticket : Nat) : CopyId := die * 2 ^ 38 + ch * 2 ^ 32 + ticket % 2 ^ 32

def State.chan (s : State) (d : Fin 6) (ch : Nat) : Chan := Tbl.getD (s.getDie d).chans ch {}
def State.updChan (s : State) (d : Fin 6) (ch : Nat) (f : Chan → Chan) : State :=
  s.updDie d fun x => { x with chans := Tbl.upd x.chans ch {} f }

/-- A live copy, and a change of it. -/
def State.copy (s : State) (id : CopyId) : Option Copy := (s.chan (copyDie id) (copyChan id)).cmds.find? (·.id == id)
def State.updCopy (s : State) (id : CopyId) (f : Copy → Copy) : State :=
  s.updChan (copyDie id) (copyChan id) fun c => { c with cmds := c.cmds.map fun x => if x.id == id then f x else x }

/-- WP (R92). -/
def Copy.wp (c : Copy) : Nat := c.done * c.blk.dstride

/-- The status word (R93). -/
def Copy.status (c : Copy) (state fail : Nat) : Word :=
  word (state * 2 ^ 60 + c.sat.toNat * 2 ^ 59 + (c.held != []).toNat * 2 ^ 58 + fail * 2 ^ 48 + c.wp % 2 ^ 48)
def Copy.word (c : Copy) : Word := c.status c.state c.fail

/-- A copy retires (R93, R94, R297): its status is kept, its token raised at every port, its waiters released. -/
def State.retire (s : State) (c : Copy) (state fail : Nat) : State :=
  let d := copyDie c.id
  let ch := copyChan c.id
  let s := s.landAgent (copyAgent c.id)
  let s := s.updChan d ch fun x =>
    { x with
      cmds := x.cmds.filter (·.id != c.id)
      kept := (x.kept ++ [(⟨c.id, c.asid, c.status state fail⟩ : Retired)]).drop (x.kept.length + 1 - 256) }
  let s := match c.blk.raises with
    | some t => s.updDie d fun x => { x with tokens := Tbl.upd x.tokens t 0 fun n => min (n + 1) 65535 }
    | none => s
  let s := match c.blk.waitsTok with
    | some t => (s.dropEntries (.token d.val t) fun e => e.party == copyParty c.id).updDie d fun x =>
        { x with unmade := x.unmade.filter fun e => !(e.party == copyParty c.id) }
    | none => s
  ((s.wakeAll (.copy c.id) none).wakeAll (.channel d.val ch) none).reprio

/-- A copy that issues no more rows ends once none is in flight (R94, R293). -/
def State.settleCopy (s : State) (id : CopyId) : State :=
  match s.copy id with
  | none => s
  | some c => if c.cancelled && c.flying == [] then s.retire c (if c.fail == 0 then 3 else 4) c.fail else s

/-- A copy fails (R293): no further row is issued. -/
def State.failCopy (s : State) (id : CopyId) (code : Nat) : State :=
  (s.updCopy id fun c => { c with cancelled := true, fail := code, again := [] }).settleCopy id

end Sys2Proof.Machine
end

