-- ==== Sys2Proof/Machine/Regions.lean ====
section
/-!
DEFINITION. Region words (R102, R103), the FSTAT word (R105), a region's held fault (R234), and which tasks a hart may name.
-/
namespace Sys2Proof.Machine

/-- A region word resolved: the task it names, and its rectangle (R102). -/
structure RegionRef where
  task : TaskId
  w1 : Nat
  h1 : Nat
  deriving DecidableEq, Repr

/-- The die field of a region word, 7 naming the issuing die (R102). -/
def regionDie (die : Nat) (w : Word) : Nat := if wfld w 29 3 == 7 then die else wfld w 29 3

/-- Read a region word (R102): none when it is invalid. -/
def regionRef (die : Nat) (w : Word) : Option RegionRef :=
  let x := wfld w 24 5
  let y := wfld w 19 5
  let w1 := wfld w 15 4
  let h1 := wfld w 11 4
  if wfld w 29 3 != 6 && w.toNat / 2 ^ 32 == 0 && wfld w 0 9 == 0 && x + w1 < 24 && y + h1 < 20 && (w1 + 1) * (h1 + 1) ≤ 16 then
    some ⟨taskOf (regionDie die w) x y (wfld w 9 2), w1, h1⟩
  else none

/-- The word with its die resolved (R103). -/
def resolveRegion (die : Nat) (w : Word) : Word := word (wfld w 0 29 + regionDie die w * 2 ^ 29)

/-- Whether a task is loaded for an ASID with a given rectangle (R103). -/
def State.loadedFor (s : State) (r : RegionRef) (asid : Nat) : Bool :=
  let k := s.task r.task
  k.state != .empty && k.asid == asid && k.w1 == r.w1 && k.h1 == r.h1

/-- The task a region word names, or ACCESS (R103). -/
def taskM (w : Word) : M TaskId := do
  let s ← get
  match regionRef s.die.val w with
  | none => openTrapM .access
  | some r =>
    demandOpen (s.loadedFor r s.me.asid.toNat) .access
    pure r.task

/-- A fault held for the launch is taken at the next FSTAT, FARM or DRAINW of one of its harts (R234). -/
def heldFaultM (t : TaskId) : M Unit := do
  let s ← get
  match (s.task t).held with
  | some (c, w) =>
    if s.myLaunch == (s.task t).launch then
      doS fun s => s.updTask t fun k => { k with held := none }
      trapM c 0 w
  | none => pure ()

end Sys2Proof.Machine
end

