-- ==== Sys2Proof/Machine/Time.lean ====
section
/-!
DEFINITION. Time: the package cycle count, what a cycle charges to launches and estimates (R375, R381, R383), throttles (R382).
-/
namespace Sys2Proof.Machine

/-- Change one stack. -/
def State.updStack (s : State) (k : Fin 12) (f : Stack → Stack) : State := { s with hbmStacks := s.hbmStacks.set k.val (f s.hbmStacks[k.val]) }

/-- An access activates a row of a row group, which takes the time (R303). -/
def State.stampGroup (s : State) (k : Fin 12) (group : Nat) : State :=
  s.updStack k fun x => { x with groups := Tbl.set x.groups group s.cycle }

/-- The estimate of a task falls while it is current, unless its launch's throttle holds it, which no stall counts (R217, R234, R382, R383). -/
def State.ageTask (s : State) (t : TaskId) (k : Task) (n : Nat) : Task :=
  if !s.isCurrent t then k
  else if s.throttled ⟨taskAgent t, 0⟩ k.launch 1 then { k with moved := k.moved + n } else { k with estim := k.estim - n }

/-- Whether a hart's continuation runs in a cycle: a throttle on hart-cycles holds it (R381 to R383). -/
def State.runsNow (s : State) (i : Nat) (h : Hart) : Bool :=
  h.run == .running && !s.throttled ⟨hartAgent ⟨i % 768, by omega⟩, h.ctx.cont.uid⟩ h.ctx.cont.launch 0

/-- n cycles pass (R381, R383): harts that run and current region tasks (R217) in states 2, 4 and 6 are charged, to the launch that
lends where one does (R372); estimates fall. -/
def State.tick (s : State) (n : Nat) : State :=
  let s := { s with cycle := s.cycle + n }
  let going := s.harts.filterMap fun x => if s.runsNow x.1 x.2 then some x.1 else none
  let running := s.harts.filter fun x => going.contains x.1 && x.2.ctx.cont.launch != 0
  let s := running.foldl (fun s x =>
    let h : HartId := ⟨x.1 % 768, by omega⟩
    let l := s.lender ⟨hartAgent h, x.2.ctx.cont.uid⟩ x.2.ctx.cont.launch 0
    (s.updLaunch l fun l => l.charge 0 n).updLaunch x.2.ctx.cont.launch fun l => { l with deficit := l.deficit - n }) s
  let busy := s.tasks.filter fun x => x.2.launch != 0
    && (x.2.state == .running || x.2.state == .draining || x.2.state == .checkpointing) && s.isCurrent x.1
  let s := busy.foldl (fun s x =>
    s.updLaunch (s.lender ⟨taskAgent x.1, 0⟩ x.2.launch 1) fun l => l.charge 1 (n * (x.2.w1 + 1) * (x.2.h1 + 1))) s
  { s with
    harts := s.harts.map fun (i, h) => (i, if going.contains i then { h with ctx := { h.ctx with estim := h.ctx.estim - n } } else h)
    tasks := s.tasks.map fun (i, t) => (i, if t.state == .running || t.state == .draining then s.ageTask i t n else t) }

end Sys2Proof.Machine
end

