-- ==== Sys2Proof/Machine/Fabric.lean ====
section
/-!
DEFINITION. The fabric below its operations: tokens and beats (R137, R218, R219), the port table (R168), who reads an origin
(R169, R171), beats crossing routes (R172), which task a slot serves (R217), faults of a unit (R234), a task's registrations
(R235, R254), and how an element's meaning ends.
-/
namespace Sys2Proof.Machine

/-! ## Tokens and beats (R218, R219) -/

def kDone : Nat := 9
def kCommit : Nat := 10
def kDrain : Nat := 11
def kIdle : Nat := 12
def kHeader : Nat := 13

/-- The token in a lane (R218). -/
def Beat.tok (b : Beat) (j : Nat) : Tok :=
  ⟨BitVec.ofNat 32 (fld b.pay.toNat (64 * j) 32), BitVec.ofNat 32 (fld b.pay.toNat (64 * j + 32) 32), fld b.side.toNat (4 * j) 4⟩

def Beat.kinds (b : Beat) : List Nat := (List.range 8).map fun j => fld b.side.toNat (4 * j) 4

/-- A beat of up to eight tokens, the other lanes IDLE. -/
def packBeat (l : List Tok) : Beat :=
  let at_ (j : Nat) : Tok := l.getD j ⟨0, 0, kIdle⟩
  ⟨BitVec.ofNat 512 ((List.range 8).foldl (fun a j => a + ((at_ j).c.toNat + (at_ j).v.toNat * 2 ^ 32) * 2 ^ (64 * j)) 0),
   BitVec.ofNat 32 ((List.range 8).foldl (fun a j => a + (at_ j).k * 2 ^ (4 * j)) 0)⟩

/-- Tokens laid in beats, eight to a beat (R138: only their order matters). -/
def packBeats : Nat → List Tok → List Beat
  | 0, _ => []
  | _, [] => []
  | n + 1, l => packBeat (l.take 8) :: packBeats n (l.drop 8)

/-- The first lane that is not IDLE. -/
def Beat.first (b : Beat) : Option Nat := (List.range 8).find? fun j => fld b.side.toNat (4 * j) 4 != kIdle

/-- A beat whose lane has been taken. -/
def Beat.clearLane (b : Beat) (j : Nat) : Beat :=
  { b with side := (b.side ||| BitVec.ofNat 32 (15 * 2 ^ (4 * j))) &&& ~~~(BitVec.ofNat 32 (3 * 2 ^ (4 * j))) }

/-- A dense data beat: every lane DATA (R137). -/
def dataBeat (x : Nat) : Beat := ⟨BitVec.ofNat 512 x, 0⟩
/-- A control beat or a HEADER: lane 0 of that kind, the others IDLE (R137). -/
def ctlBeat (k : Nat) : Beat := ⟨0, BitVec.ofNat 32 (0xCCCCCCC0 + k)⟩
def headerBeat (x : Nat) : Beat := ⟨BitVec.ofNat 512 x, 0xCCCCCCCD#32⟩
/-- A token of a narrow plane. -/
def narrowBeat (v : Nat) : Beat := ⟨BitVec.ofNat 512 v, 0xCCCCCCC0#32⟩

/-- What a dense-form beat is (R137). -/
inductive BeatClass where
  | header | data | ctl (k : Nat) | bad
  deriving DecidableEq, Repr

def Beat.cls (b : Beat) : BeatClass :=
  let k := fld b.side.toNat 0 4
  if b.side == 0 then .data
  else if b.side.toNat / 16 == 0xCCCCCCC then
    (if k == kHeader then .header else if 1 ≤ k && k ≤ 11 then .ctl k else .bad)
  else .bad

/-! ## Ports of a word (R21, R25) -/

/-- The inputs a word reads: port, plane, origin code. `free` is FREE of an AGEN's descriptor (R193). -/
def elemReads (e : ElemWord) (free : Bool) : List (Nat × Nat × Nat) :=
  let a := (0, 0, e.a)
  let b := (1, 0, e.b)
  let bs := (1, 1, e.b)
  let c := (2, 0, e.c)
  let b' := if e.plane == 3 then bs else b
  match e.eop with
  | 0x01 | 0x02 | 0x03 | 0x05 | 0x06 | 0x0B | 0x15 | 0x16 | 0x17 => [a, b']
  | 0x04 => if e.modeBit 0 then [a, b'] else [a, b', c]
  | 0x07 | 0x0A | 0x0E | 0x12 | 0x13 | 0x14 => [a]
  | 0x08 => if e.modeBit 5 then [a] else [a, b]
  | 0x09 | 0x19 | 0x1E => [a, b, c]
  | 0x0D => if e.modeBit 0 then [a] else [a, b]
  | 0x0F => if e.modeBit 1 then [a] else [a, b]
  | 0x10 => if e.plane == 3 then [a, bs] else [a]
  | 0x11 => if e.modeBit 3 || e.mode % 8 == 6 then [a] else [a, b']
  | 0x0C | 0x18 | 0x1A | 0x1B | 0x1C | 0x1D | 0x1F | 0x26 | 0x27 | 0x28 | 0x2D | 0x35 => [a, b]
  | 0x20 | 0x21 | 0x22 => (if e.modeBit 4 then [] else [a]) ++ (if e.b == 0 then [] else [bs])
  | 0x23 | 0x24 | 0x25 | 0x29 | 0x2A | 0x32 | 0x34 => [a]
  | 0x2B | 0x31 => [a, bs]
  | 0x2C => if e.modeBit 0 then [a, bs] else [a]
  | 0x30 => if free then [] else [a]
  | 0x33 => if e.b == 0 then [a] else [a, bs]
  | 0x38 => [(0, e.plane, e.a), (1, 2, e.b)]
  | 0x39 => [(0, e.plane, e.a), (1, e.plane, e.b), (2, 2, e.c)]
  | 0x3A => [(0, 1, e.a), (1, 2, e.b)] ++ (if e.c == 0 then [] else [(2, 1, e.c)])
  | 0x3B => [(0, e.plane, e.a), (1, 2, e.b)]
  | 0x3C => [(0, 2, e.a), (1, 2, e.b)]
  | 0x3D => [(0, 2, e.a)]
  | _ => []

/-- The origins a slot's word drives: plane and code (R168). -/
def elemOuts (slot : Nat) (e : ElemWord) : List (Nat × Nat) :=
  match e.eop with
  | 0x08 => [(2, slot + 6)]
  | 0x26 | 0x27 | 0x2C | 0x2D =>
    [(0, slot + 4), (0, slot + 8)]
      ++ (if e.eop == 0x26 && e.modeBit 0 then [(1, 2 * slot + 1)] else []) ++ (if e.eop == 0x26 && e.modeBit 1 then [(1, 2 * slot + 2)] else [])
  | 0x2B | 0x35 => []
  | 0x38 | 0x39 | 0x3A | 0x3B | 0x3C | 0x3D => [(if e.plane == 1 then 1 else 2, slot - 9)]
  | _ => [(0, slot + 4)]

/-- A descriptor of the tile (R173). -/
def TileCtx.desc (c : TileCtx) (n : Nat) : Nat := ((Tbl.find? c.descs n).getD 0).toNat

/-- A field of a descriptor, by its byte offset. -/
def dfield (d off n : Nat) : Nat := fld d (8 * off) (8 * n)

def TileCtx.word (c : TileCtx) (slot : Nat) : Option ElemWord := (Tbl.find? c.ops slot).map fun w => ElemWord.ofNat w.toNat

/-- Whether a word is an AGEN that runs free (R193), and whether it is a root unit (R227). -/
def TileCtx.freeAgen (c : TileCtx) (e : ElemWord) : Bool := e.eop == 0x30 && (c.desc (e.mode % 16)).testBit 16
def TileCtx.isRoot (c : TileCtx) (e : ElemWord) : Bool := (0x20 ≤ e.eop && e.eop ≤ 0x22 && e.modeBit 4) || c.freeAgen e

def TileCtx.reads (c : TileCtx) (e : ElemWord) : List (Nat × Nat × Nat) := elemReads e (c.freeAgen e)

/-- The units of a tile's context: slot and word. -/
def TileCtx.slots (c : TileCtx) : List (Nat × ElemWord) := c.ops.map fun ((n, w) : Nat × BitVec 32) => (n, ElemWord.ofNat w.toNat)

/-! ## Switch words (R26, R171) -/

def swClass (w : BitVec 16) : Nat := fld w.toNat 13 3
def swDst (w : BitVec 16) : Nat := fld w.toNat 8 5
def swOrg (w : BitVec 16) : Nat := fld w.toNat 3 5
def swDepth (w : BitVec 16) : Nat := 2 ^ (1 + fld w.toNat 0 3)

/-- The key of an input buffer, of a hart port's buffer, and of an outgoing link among the readers of an origin. -/
def inKey (slot port : Nat) : Nat := slot * 4 + port
def hartKey (plane : Nat) : Nat := 64 + plane
def linkKey (plane dir : Nat) : Nat := 128 + plane * 4 + dir

/-- The key of an output, and of a port's own state among the units. -/
def outKey (plane code : Nat) : Nat := plane * 16 + code
def portKey (plane code : Nat) : Nat := 16 + plane * 16 + code

/-- Every reader of an origin of the tile (R169). -/
def TileCtx.readers (c : TileCtx) (plane code : Nat) : List Nat :=
  (c.slots.flatMap fun x => ((c.reads x.2).filter fun r => r.2.1 == plane && r.2.2 == code).map fun r => inKey x.1 r.1)
  ++ c.sws.filterMap fun w =>
    if swClass w == plane && swOrg w == code then
      (if swDst w < 4 then some (linkKey plane (swDst w)) else if swDst w == 15 && plane < 2 then some (hartKey plane) else none)
    else none

def TileCtx.buf (c : TileCtx) (r : Nat) : Buf := if r < 128 then Tbl.getD c.ins r {} else Tbl.getD c.links (r - 128) {}
def TileCtx.updBuf (c : TileCtx) (r : Nat) (f : Buf → Buf) : TileCtx :=
  if r < 128 then { c with ins := Tbl.upd c.ins r {} f } else { c with links := Tbl.upd c.links (r - 128) {} f }
def Buf.room (b : Buf) : Bool := b.q.length < b.depth

/-- The neighbour a port faces (R201), and the port by which a link enters it. -/
def neighbour (tile dir : Nat) : Nat := match dir with | 0 => tile - 24 | 1 => tile + 1 | 2 => tile + 24 | _ => tile - 1
def opposite (dir : Nat) : Nat := (dir + 2) % 4

/-! ## Tasks over tiles -/

/-- The task whose rectangle holds a tile in a context. -/
def State.ownerOf (s : State) (die tile ctx : Nat) : Option TaskId :=
  (List.find? (fun ((t, k) : Nat × Task) =>
    k.state != TaskState.empty && (taskDie t).val == die && (taskCtx t).val == ctx && (tilesOf t k.w1 k.h1).contains tile) s.tasks).map (·.1)

/-- Whether a task's units may act now: running or draining, current, its launch with tile budget left (R226, R217, R382). -/
def State.taskActs (s : State) (t : TaskId) : Bool :=
  ((s.task t).state == .running || (s.task t).state == .draining) && s.isCurrent t
    && !s.throttled ⟨taskAgent t, 0⟩ (s.task t).launch 1

/-- The tile's place in its task's rectangle, row-major. -/
def State.tileIdx (s : State) (t : TaskId) (tile : Nat) : Nat := (tilesOf t (s.task t).w1 (s.task t).h1).findIdx (· == tile)

/-- The outputs whose DONEs count passes: hart ports and level writers, and the sinks (R227). -/
def State.exits (s : State) (t : TaskId) : List Nat :=
  let k := s.task t
  (tilesOf t k.w1 k.h1).flatMap fun tile =>
    let c := s.tc (taskDie t).val tile (taskCtx t).val
    (c.slots.filterMap fun x => if [0x23, 0x24, 0x25, 0x2B, 0x35].contains x.2.eop then some (tile * 128 + x.1) else none)
    ++ (if c.sws.any fun w => swClass w == 0 && swDst w == 15 then [tile * 128 + 64] else [])

/-- DONE passes an exit: COUNT falls once it has passed every one (R227). -/
def State.exitDone (s : State) (t : TaskId) (key : Nat) : State :=
  let d := Tbl.upd (s.task t).dones key 0 (· + 1)
  if (s.exits t).all fun e => Tbl.getD d e 0 != 0 then
    s.updTask t fun k => { k with dones := d.map fun ((i, n) : Nat × Nat) => (i, n - 1), count := k.count - 1 }
  else s.updTask t fun k => { k with dones := d }

/-! ## Beats crossing routes (R169, R172) -/

/-- The buffer that holds an origin's beats: a unit's or port's output, or a neighbour's outgoing link. -/
def State.source (s : State) (die tile ctx plane code : Nat) : Buf :=
  if code < 4 then (s.tc die (neighbour tile code) ctx).buf (linkKey plane (opposite code))
  else Tbl.getD (s.tc die tile ctx).outs (outKey plane code) {}

def State.updSource (s : State) (die tile ctx plane code : Nat) (f : Buf → Buf) : State :=
  if code < 4 then s.updTc die (neighbour tile code) ctx fun c => c.updBuf (linkKey plane (opposite code)) f
  else s.updTc die tile ctx fun c => { c with outs := Tbl.upd c.outs (outKey plane code) {} f }

/-- The last bit that a task's phase condition origin sent (R231). -/
def State.notePhase (s : State) (die tile ctx plane code : Nat) (b : Beat) : State :=
  if plane != 2 then s
  else match s.ownerOf die tile ctx with
    | none => s
    | some t =>
      let k := s.task t
      if k.psrc != 0 && k.psrc / 16 == code && tileAt t k.w1 (k.psrc % 16) == tile then
        s.updTask t fun k => { k with phaseBit := some (b.pay.toNat.testBit 0) }
      else s

/-- The last beat of an EMITFREE has left a slot's output: the slot is FREE in the next cycle (R292). -/
def State.freeLeaving (s : State) (die tile ctx slot : Nat) : State :=
  s.updTc die tile ctx fun c =>
    if (Tbl.getD c.units slot {}).slots.any (·.leaving) then
      { c with units := Tbl.upd c.units slot {} fun u => { u with
        slots := u.slots.map fun x => if x.leaving then { freedAt := s.cycle + 1 } else x } }
    else c

/-- Units that some inputs have brought a beat lack it no more (R254). -/
def State.fed (s : State) (die tile ctx : Nat) (now : List Nat) : State :=
  match s.ownerOf die tile ctx with
  | none => s
  | some t => s.updTask t fun k => { k with wants := k.wants.filter fun x => !(x.1 / 16 == tile && now.contains (inKey (x.1 % 16) x.2)) }

/-- The head beat of an origin goes to every reader with room; it leaves when all have accepted it. -/
def State.hop (s : State) (die tile ctx plane code : Nat) : State :=
  let src := s.source die tile ctx plane code
  match src.q with
  | [] => s
  | b :: rest =>
    let c := s.tc die tile ctx
    let rs := c.readers plane code
    let now := rs.filter fun r => !src.got.contains r && (c.buf r).room
    let got := src.got ++ now
    if now == [] && rs != [] then s
    else
      let s := s.updTc die tile ctx fun c => now.foldl (fun c r => c.updBuf r fun x => { x with q := x.q ++ [b] }) c
      let s := s.fed die tile ctx now
      let s := s.updSource die tile ctx plane code fun x =>
        if rs.all got.contains then { x with q := rest, got := [] } else { x with got := got }
      let s := if plane == 0 && 7 ≤ code && code ≤ 9 && isMT tile && rest == [] && rs.all got.contains then s.freeLeaving die tile ctx (code - 4) else s
      let s := if code < 4 && rs.all got.contains then s.notePhase die tile ctx plane code b else s
      match s.ownerOf die tile ctx with
      | none => s
      | some t =>
        let s := s.updTask t fun k => { k with moved := s.cycle }
        let s := if now.contains (hartKey 0) && b.kinds.contains kDone && plane == 0 then s.exitDone t (tile * 128 + 64) else s
        let s := if rs.all got.contains && (code == 15 || 10 ≤ code && code ≤ 11 && isMT tile) && plane < 2 then
            s.updTask t fun k => { k with taken := Tbl.upd k.taken (tile * 64 + outKey plane code) 0 (· + (b.kinds.filter (· != kIdle)).length) }
          else s
        if code == 15 || now.any (fun r => 64 ≤ r && r < 66) then s.wakePorts t else s

/-! ## Registrations of a task (R235, R254, R361) -/

/-- Follow links back to the unit or port that feeds an origin code. -/
def State.feeder (s : State) (die ctx plane : Nat) : Nat → Nat → Nat → Option (Nat × Nat)
  | 0, _, _ => none
  | fuel + 1, tile, code =>
    if 4 ≤ code then some (tile, code)
    else
      let n := neighbour tile code
      match (s.tc die n ctx).sws.find? fun w => swClass w == plane && swDst w == opposite code with
      | some w => State.feeder s die ctx plane fuel n (swOrg w)
      | none => none

/-- Whether a beat stands on the way that leads back from a code to its feeder. -/
def State.enRoute (s : State) (die ctx plane : Nat) : Nat → Nat → Nat → Bool
  | 0, _, _ => false
  | fuel + 1, tile, code =>
    (s.source die tile ctx plane code).q != [] ||
      (if 4 ≤ code then false
       else
         let n := neighbour tile code
         match (s.tc die n ctx).sws.find? fun w => swClass w == plane && swDst w == opposite code with
         | some w => State.enRoute s die ctx plane fuel n (swOrg w)
         | none => false)

/-- The slot behind an origin code, when a unit drives it. -/
def originSlot (mt : Bool) (plane code : Nat) : Option Nat :=
  match plane with
  | 0 => if mt then (if 4 ≤ code && code ≤ 9 then some (code - 4) else none)
    else if 4 ≤ code && code ≤ 12 then some (code - 4) else if code == 13 || code == 14 then some (code - 8) else none
  | _ => if 4 ≤ code && code ≤ 6 then some (code + 9) else none

/-- Along each way from an origin to an input: the beats on it that the input's unit has not consumed, and the input's depth (R203). -/
def State.consumers (s : State) (die ctx plane : Nat) : Nat → Nat → Nat → Nat → List (Nat × Nat)
  | 0, _, _, _ => []
  | fuel + 1, tile, code, acc =>
    let c := s.tc die tile ctx
    let src := s.source die tile ctx plane code
    (c.readers plane code).flatMap fun r =>
      let n := acc + src.q.length - (src.got.contains r).toNat
      if r < 128 then [(n + (c.buf r).q.length, (c.buf r).depth)]
      else State.consumers s die ctx plane fuel (neighbour tile ((r - 128) % 4)) (opposite ((r - 128) % 4)) n

/-- A port's selection word (R106). -/
def portSel (idx port : Nat) (write : Bool) : Nat := idx + port * 16 + write.toNat * 512

/-- The ports for whose beats a unit cannot go on (R254): the input it found empty, with no beat on its way, leads back to a hart port, or to
a unit that itself cannot go on. A port about to emit DRAIN, as it is outside a pass while its task drains (R230), is none. -/
def State.lacks (s : State) (t : TaskId) : Nat → Nat → Nat → List (Nat × Nat)
  | 0, _, _ => []
  | fuel + 1, tile, slot =>
    let k := s.task t
    let die := (taskDie t).val
    let ctx := (taskCtx t).val
    let c := s.tc die tile ctx
    match Tbl.find? k.wants (tile * 16 + slot), c.word slot with
    | some p, some e =>
      if (c.buf (inKey slot p)).q != [] then []
      else match (c.reads e).find? (·.1 == p) with
        | none => []
        | some r =>
          if s.enRoute die ctx r.2.1 64 tile r.2.2 then []
          else match s.feeder die ctx r.2.1 64 tile r.2.2 with
            | none => []
            | some (o, code) =>
              if code == 15 then
                if k.state == .draining && r.2.1 == 0 && !(Tbl.getD (s.tc die o ctx).units (portKey 0 15) {}).flag then []
                else [(s.tileIdx t o, if r.2.1 == 1 then 31 else 15)]
              else match originSlot (isMT o) r.2.1 code with
                | some sl => State.lacks s t fuel o sl
                | none => []
    | _, _ => []

/-- Ports whose want of a beat holds back the task (R254): those for whose beats a unit that has a beat at another input cannot go on. -/
def State.starved (s : State) (t : TaskId) : List (Nat × Nat) :=
  let k := s.task t
  ((tilesOf t k.w1 k.h1).flatMap fun tile =>
    let c := s.tc (taskDie t).val tile (taskCtx t).val
    c.slots.flatMap fun x =>
      if (c.reads x.2).any fun r => (c.buf (inKey x.1 r.1)).q != [] then s.lacks t 64 tile x.1 else []).eraseDups

/-- The registrations a task should have: a queue wait for each starved port with the hart bound to it, and region waits on the
tasks current on tiles it needs, a parked task's included (R231, R235). -/
def State.wants (s : State) (t : TaskId) : List (ObjKey × Option Party) :=
  let k := s.task t
  if k.state == .running || k.state == .draining || k.state == .parked then
    (if s.isCurrent t then
      (if k.state == .parked then [] else s.starved t).filterMap fun p =>
        match s.boundTo t (portSel p.1 p.2 true) with
        | h :: _ => some (.port t p.1 p.2 true, some h)
        | [] => none
    else
      (((tilesOf t k.w1 k.h1).filterMap fun tile =>
        let cur := s.curCtx (taskDie t).val tile
        if cur == (taskCtx t).val then none else s.ownerOf (taskDie t).val tile cur).eraseDups).map fun u => (.task u, none))
  else []

/-- Make a registration of a task, or leave it unmade (R361). -/
def State.registerTask (s : State) (t : TaskId) (x : ObjKey × Option Party) : State :=
  let k := s.task t
  let kind := match x.1 with | .port _ _ _ _ => 1 | _ => 7
  let e : WEntry := { typ := .wait, kind := kind, pkg := Config.package, agent := taskAgent t, key := x.1, vaddr := s.keyWord x.1,
                      time := s.cycle, prio := k.eprio.toNat, bprio := k.bprio.toNat, asid := k.asid }
  let room := (s.getDie x.1.home).roomFor x.1 .wait (s.need x.1 + (if x.2.isSome then 1 else 0))
  if room then
    let s := (s.addObj x.1 kind).addEntry e
    let s := match x.2 with
      | some p => s.addEntry { e with typ := .hold, agent := p.agent, uid := p.uid }
      | none => s
    s.closeCycle e
  else s.updDie (taskDie t) fun d => { d with unmade := d.unmade ++ [e] }

/-- Whether an object is a port of a task. -/
def ObjKey.ofTask (k : ObjKey) (t : TaskId) : Bool := match k with
  | .port u _ _ _ => u == t
  | _ => false

/-- Bring a task's registrations up to date. -/
def State.syncTask (s : State) (t : TaskId) : State :=
  let have_ := (s.getDie (taskDie t)).wft.filter fun e =>
    (e.typ == .wait && e.agent == taskAgent t && (e.kind == 1 || e.kind == 7)) || (e.typ == .hold && e.kind == 1 && e.key.ofTask t)
  let want := s.wants t
  let gone := have_.filter fun e => !want.any fun w => w.1 == e.key
  let new := want.filter fun w => !have_.any fun e => e.key == w.1
  if gone == [] && new == [] && (s.getDie (taskDie t)).unmade == [] then s
  else
    let s := gone.foldl (fun s e => s.dropEntries e.key fun x => x.agent == taskAgent t || x.typ == .hold) s
    let s := s.updDie (taskDie t) fun d => { d with unmade := d.unmade.filter (·.agent != taskAgent t) }
    (new.foldl (fun s w => s.registerTask t w) s).reprio

/-! ## Write logs (R190, R196, R316) -/

/-- Entries of write logs in the order of their accesses, the earlier unit first where that says nothing (R196, R316). -/
def insertByTime {α : Type} (x : Nat × α) : List (Nat × α) → List (Nat × α)
  | [] => [x]
  | y :: l => if y.1 ≤ x.1 then y :: insertByTime x l else x :: y :: l

def orderByTime {α : Type} (l : List (Nat × α)) : List α := (l.foldl (fun a x => insertByTime x a) []).map (·.2)

/-- A unit's log with the time of each entry: a memory node's own, a level writer's 0. -/
def UnitSt.timed (u : UnitSt) : List (Nat × Nat × Nat × Nat) := u.wlog.zipIdx.map fun x => (u.wtimes.getD x.2 0, x.1)

/-! ## How an element's meaning ends -/

/-- Nothing to do; an input lacks a beat (R254); a fault with the cause FSTAT shows (R140, R191); or a step that stalls with what it has
done. -/
inductive UStop where
  | idle
  | want (port : Nat)
  | fault (c shown : Cause)
  | keep
  deriving DecidableEq, Repr

/-- A computation of a unit. -/
abbrev U := EStateM UStop State

def idleU {α : Type} : U α := throw .idle
def protoU {α : Type} : U α := throw (.fault .streamproto .streamproto)
def needU (b : Bool) : U Unit := if b then pure () else protoU

/-- Make a tile reference from numbers. -/
def tileRef (die tile : Nat) : TileRef := ⟨Fin.ofNat 6 die, Fin.ofNat 24 (tile % 24), Fin.ofNat 20 (tile / 24)⟩
def unitRef (die tile ctx slot : Nat) : UnitRef := ⟨tileRef die tile, Fin.ofNat 4 ctx, Fin.ofNat 16 slot⟩

/-- The cause word of a fault at run time, in the layout of R225: the tile, the slot, and the unit's entry in the operation
section (R234, R398). -/
def State.unitCause (s : State) (t : TaskId) (u : UnitRef) : Word :=
  let place := Tbl.getD (s.tc u.tile.die.val (TileNo u.tile) u.ctx.val).places u.slot.val 0
  word (s.tileIdx t (TileNo u.tile) * 2 ^ 56 + u.slot.val * 2 ^ 52 + place * 2 ^ 44 + 2 ^ 42)

/-- A unit's step moved a beat: the task's last movement is now, and the unit lacks nothing (R234, R254). -/
def State.unitMoved (s : State) (t : TaskId) (u : UnitRef) : State :=
  s.updTask t fun k => { k with moved := s.cycle, wants := Tbl.erase k.wants (TileNo u.tile * 16 + u.slot.val) }

/-- A unit's step found an input empty (R254). -/
def State.unitWants (s : State) (t : TaskId) (u : UnitRef) (port : Nat) : State :=
  s.updTask t fun k => { k with wants := Tbl.set k.wants (TileNo u.tile * 16 + u.slot.val) port }

/-- Run a unit's step: only in a task that acts, and only while nothing waits at its outputs (R178). What its task has published has landed
everywhere by then, and what any task has published into its tile's store (R249, R317). A fault leaves what the step's accesses did to the
lines they met (R351, R352) and the flags raised so far (R141). -/
def State.runUnit (s : State) (m : U Unit) : State :=
  let u := s.focus
  match s.ownerOf u.tile.die.val (TileNo u.tile) u.ctx.val with
  | none => s
  | some t =>
    let c := s.tc u.tile.die.val (TileNo u.tile) u.ctx.val
    let full := match c.word u.slot.val with
      | some e => (elemOuts u.slot.val e).any fun o => (o.1 != 1 || 0x38 ≤ e.eop) && (Tbl.getD c.outs (outKey o.1 o.2) {}).q != []
      | none => false
    if !s.taskActs t || full then s
    else match m ((s.landAgent (taskAgent t)).landTile u.tile.die (TileNo u.tile)) with
      | .ok _ x => (x.unitMoved t u).syncTask t
      | .error .keep x => x.syncTask t
      | .error .idle _ => s.syncTask t
      | .error (.want p) _ => (s.unitWants t u p).syncTask t
      | .error (.fault c k) x => (((x.faultTask t c (x.unitCause t u)).updTask t fun x => { x with cause := k.code })).syncTask t |>.settleLaunch (s.task t).launch

/-- The outcome of an element's step: always a next state (R7). -/
def unitEnds (s : State) (m : U Unit) : Ends := .next (s.runUnit m)

/-! ## What an element may do -/

def focusTc : U TileCtx := do
  let s ← get
  return s.tc s.focus.tile.die.val (TileNo s.focus.tile) s.focus.ctx.val

def updFocus (f : TileCtx → TileCtx) : U Unit := modify fun s => s.updTc s.focus.tile.die.val (TileNo s.focus.tile) s.focus.ctx.val f

/-- The task the slot serves. -/
def focusTask : U TaskId := do
  let s ← get
  return (s.ownerOf s.focus.tile.die.val (TileNo s.focus.tile) s.focus.ctx.val).getD 0

def unitSt : U UnitSt := do return Tbl.getD (← focusTc).units (← get).focus.slot.val {}
def updUnit (f : UnitSt → UnitSt) : U Unit := do
  let n := (← get).focus.slot.val
  updFocus fun c => { c with units := Tbl.upd c.units n {} f }

/-- The head beat of an input, and its removal. -/
def headBeat (port : Nat) : U Beat := do
  match ((← focusTc).buf (inKey (← get).focus.slot.val port)).q with
  | b :: _ => pure b
  | [] => throw (.want port)

def hasBeat (port : Nat) : U Bool := do return ((← focusTc).buf (inKey (← get).focus.slot.val port)).q != []

/-- Nothing to do, for want of a beat at the first of some inputs that is empty (R254). -/
def wantU {α : Type} (ports : List Nat) : U α := do
  match ← ports.filterM fun p => do return !(← hasBeat p) with
  | p :: _ => throw (.want p)
  | [] => idleU

def dropBeat (port : Nat) : U Unit := do
  let n := (← get).focus.slot.val
  updFocus fun c => c.updBuf (inKey n port) fun b => { b with q := b.q.drop 1 }

/-- Beats of IDLE lanes alone are skipped (R176). -/
def skipIdle (port : Nat) : U Unit := do
  let n := (← get).focus.slot.val
  updFocus fun c => c.updBuf (inKey n port) fun b => { b with q := b.q.dropWhile fun x => x.first.isNone }

/-- The next token of an input (R138). -/
def peekTok (port : Nat) : U Tok := do
  skipIdle port
  let b ← headBeat port
  pure (b.tok (b.first.getD 0))

def dropTok (port : Nat) : U Unit := do
  let b ← headBeat port
  let b' := b.clearLane (b.first.getD 0)
  if b'.first.isNone then dropBeat port
  else
    let n := (← get).focus.slot.val
    updFocus fun c => c.updBuf (inKey n port) fun x => { x with q := b' :: x.q.drop 1 }

def takeTok (port : Nat) : U Tok := do
  let t ← peekTok port
  dropTok port
  pure t

def hasTok (port : Nat) : U Bool := do
  skipIdle port
  hasBeat port

/-- The next token of a narrow plane. -/
def takeScalar (port : Nat) : U (BitVec 32) := do
  let b ← headBeat port
  dropBeat port
  pure (BitVec.ofNat 32 (b.pay.toNat % 2 ^ 32))

/-- Send beats from an output; an output that nothing reads sends nowhere. -/
def sendBeats (plane code : Nat) (l : List Beat) : U Unit := do
  modify fun s => l.foldl (fun s b => s.notePhase s.focus.tile.die.val (TileNo s.focus.tile) s.focus.ctx.val plane code b) s
  updFocus fun c =>
    if l == [] || c.readers plane code == [] then c
    else { c with outs := Tbl.upd c.outs (outKey plane code) {} fun b => { b with q := b.q ++ l } }

def sendToks (plane code : Nat) (l : List Tok) : U Unit := sendBeats plane code (packBeats l.length l)

/-- The slot's data-plane output. -/
def outCode : U Nat := do return (← get).focus.slot.val + 4
def emitToks (l : List Tok) : U Unit := do sendToks 0 (← outCode) l
def emitBeats (l : List Beat) : U Unit := do sendBeats 0 (← outCode) l
def emitNarrow (plane code v : Nat) : U Unit := sendBeats plane code [narrowBeat v]

/-- DRAIN has passed the unit (R230). -/
def markDrain (k : Nat) : U Unit := if k == kDrain then updUnit fun u => { u with drained := true } else pure ()

/-- Flags enter EFLAGS (R141); bit 6 is EIDX's DZ and bit 7 REG. -/
def raiseE (n : Nat) : U Unit := do
  let t ← focusTask
  if n == 0 then pure () else modify fun s => s.updTask t fun k => { k with eflags := k.eflags ||| BitVec.ofNat 16 n }

/-- The context's rounding mode and DENORM (R142, R215). -/
def taskRm : U RMode := do return roundMode ((← get).task (← focusTask)).round
def taskDn : U Bool := do return roundDenorm ((← get).task (← focusTask)).round

end Sys2Proof.Machine
end

