-- ==== Sys2Proof/Machine/VectorInt.lean ====
section
/-!
DEFINITION. Integer vector instructions: VINT, integer compares, permutation and reduction, moves, masks, binary dot, majors
0x20, 0x22, 0x25 to 0x27, 0x29 (R59, R60, R66, R68, R78, R80, R81, R85).
-/
namespace Sys2Proof.Machine

/-- The active elements of a register take new values; the others keep theirs (R59). -/
def State.mergeV (s : State) (d : Fin 32) (m : MReg) (w : Nat) (r : List Nat) : State :=
  let k := s.rdM m
  s.wrV d (ofLanes w ((lanes (s.rdV d) w).zipIdx.map fun x => if active k x.2 then r.getD x.2 0 else x.1))

/-- A mask register is written, and traced (R134). -/
def State.putMask (s : State) (d : MReg) (v : Word) : State := (s.wrM d v).traceEvent 2 d.val v.toNat

/-- An element-wise integer instruction. -/
def vintOp (d a : Fin 32) (b : VSrc) (m : MReg) (e : Fin 4) (f : Nat → Nat → Nat → Nat) (s : State) : Ends :=
  let w := ewBits e
  .next (s.mergeV d m w (List.zipWith (f w) (lanes (s.rdV a) w) (s.vsrcLanes b w))).complete

/-- The active results of a list. -/
def State.activeOf {α : Type} (s : State) (m : MReg) (l : List α) : List α :=
  let k := s.rdM m
  (l.zipIdx.filter fun x => active k x.2).map (·.1)

/-- A saturating integer instruction (R66). -/
def vsatOp (d a : Fin 32) (b : VSrc) (m : MReg) (e : Fin 4) (f : Int → Int → Int) (s : State) : Ends := ends s do
  let w := ewBits e
  let r := List.zipWith (fun x y => satSigned w (f (signed w x) (signed w y))) (lanes (s.rdV a) w) (s.vsrcLanes b w)
  raiseM (orFlags (s.activeOf m r))
  doS fun s => s.mergeV d m w (r.map (·.1))

/-- Bits of a mask register from test results: inactive bits below N keep their value, bits from N on are 0 (R68). -/
def State.compareMask (s : State) (d m : MReg) (r : List Bool) : State :=
  let k := s.rdM m
  let old := s.rdM d
  let v := r.zipIdx.foldr (fun x acc => acc + (if (if active k x.2 then x.1 else active old x.2) then 2 ^ x.2 else 0)) 0
  s.putMask d (word v)

/-- An integer compare (R68). -/
def vcmpOp (d : MReg) (a : Fin 32) (b : VSrc) (m : MReg) (e : Fin 4) (f : Nat → Nat → Nat → Bool) (s : State) : Ends :=
  let w := ewBits e
  .next (s.compareMask d m (List.zipWith (f w) (lanes (s.rdV a) w) (s.vsrcLanes b w))).complete

/-- VADD (R66). -/
def execVadd (d a : Fin 32) (b : VSrc) (m : MReg) (e : Fin 4) (s : State) : Ends :=
  vintOp d a b m e (fun _ x y => x + y) s

/-- VSUB (R66). -/
def execVsub (d a : Fin 32) (b : VSrc) (m : MReg) (e : Fin 4) (s : State) : Ends :=
  vintOp d a b m e (fun w x y => x + (2 ^ w - y)) s

/-- VMUL (R66). -/
def execVmul (d a : Fin 32) (b : VSrc) (m : MReg) (e : Fin 4) (s : State) : Ends :=
  vintOp d a b m e (fun _ x y => x * y) s

/-- VMULH (R66). -/
def execVmulh (d a : Fin 32) (b : VSrc) (m : MReg) (e : Fin 4) (s : State) : Ends :=
  vintOp d a b m e (fun w x y => toField w (signed w x * signed w y / (2 ^ w : Nat))) s

/-- VMIN (R66). -/
def execVmin (d a : Fin 32) (b : VSrc) (m : MReg) (e : Fin 4) (s : State) : Ends :=
  vintOp d a b m e (fun w x y => if signed w y < signed w x then y else x) s

/-- VMAX (R66). -/
def execVmax (d a : Fin 32) (b : VSrc) (m : MReg) (e : Fin 4) (s : State) : Ends :=
  vintOp d a b m e (fun w x y => if signed w x < signed w y then y else x) s

/-- VMINZ (R66). -/
def execVminz (d a : Fin 32) (b : VSrc) (m : MReg) (e : Fin 4) (s : State) : Ends :=
  vintOp d a b m e (fun _ x y => min x y) s

/-- VMAXZ (R66). -/
def execVmaxz (d a : Fin 32) (b : VSrc) (m : MReg) (e : Fin 4) (s : State) : Ends :=
  vintOp d a b m e (fun _ x y => max x y) s

/-- VAND (R66). -/
def execVand (d a : Fin 32) (b : VSrc) (m : MReg) (e : Fin 4) (s : State) : Ends :=
  vintOp d a b m e (fun _ x y => x &&& y) s

/-- VOR (R66). -/
def execVor (d a : Fin 32) (b : VSrc) (m : MReg) (e : Fin 4) (s : State) : Ends :=
  vintOp d a b m e (fun _ x y => x ||| y) s

/-- VXOR (R66). -/
def execVxor (d a : Fin 32) (b : VSrc) (m : MReg) (e : Fin 4) (s : State) : Ends :=
  vintOp d a b m e (fun _ x y => x ^^^ y) s

/-- VSHL (R66). -/
def execVshl (d a : Fin 32) (b : VSrc) (m : MReg) (e : Fin 4) (s : State) : Ends :=
  vintOp d a b m e (fun w x y => x * 2 ^ (y % w)) s

/-- VSHR (R66). -/
def execVshr (d a : Fin 32) (b : VSrc) (m : MReg) (e : Fin 4) (s : State) : Ends :=
  vintOp d a b m e (fun w x y => x / 2 ^ (y % w)) s

/-- VSRA (R66). -/
def execVsra (d a : Fin 32) (b : VSrc) (m : MReg) (e : Fin 4) (s : State) : Ends :=
  vintOp d a b m e (fun w x y => toField w (signed w x / (2 ^ (y % w) : Nat))) s

/-- VADDS (R66). -/
def execVadds (d a : Fin 32) (b : VSrc) (m : MReg) (e : Fin 4) (s : State) : Ends :=
  vsatOp d a b m e (fun x y => x + y) s

/-- VSUBS (R66). -/
def execVsubs (d a : Fin 32) (b : VSrc) (m : MReg) (e : Fin 4) (s : State) : Ends :=
  vsatOp d a b m e (fun x y => x - y) s

/-- VCEQ (R68). -/
def execVceq (d : MReg) (a : Fin 32) (b : VSrc) (m : MReg) (e : Fin 4) (s : State) : Ends :=
  vcmpOp d a b m e (fun _ x y => x == y) s

/-- VCLT (R68). -/
def execVclt (d : MReg) (a : Fin 32) (b : VSrc) (m : MReg) (e : Fin 4) (s : State) : Ends :=
  vcmpOp d a b m e (fun w x y => decide (signed w x < signed w y)) s

/-- VCLTZ (R68). -/
def execVcltz (d : MReg) (a : Fin 32) (b : VSrc) (m : MReg) (e : Fin 4) (s : State) : Ends :=
  vcmpOp d a b m e (fun _ x y => decide (x < y)) s

/-- VCLE (R68). -/
def execVcle (d : MReg) (a : Fin 32) (b : VSrc) (m : MReg) (e : Fin 4) (s : State) : Ends :=
  vcmpOp d a b m e (fun w x y => decide (signed w x ≤ signed w y)) s

/-- VPERM (R78). -/
def execVperm (d a b : Fin 32) (m : MReg) (e : Fin 4) (s : State) : Ends :=
  let w := ewBits e
  let x := lanes (s.rdV a) w
  .next (s.mergeV d m w ((lanes (s.rdV b) w).map fun i => x.getD (i % (512 / w)) 0)).complete

/-- VSLUP (R78). -/
def execVslup (d a b : Fin 32) (m : MReg) (e : Fin 4) (s : State) : Ends :=
  let w := ewBits e
  let k := (s.rd (s5 b)).toNat
  let x := lanes (s.rdV a) w
  .next (s.mergeV d m w ((List.range (512 / w)).map fun i => if k ≤ i then x.getD (i - k) 0 else 0)).complete

/-- VSLDN (R78). -/
def execVsldn (d a b : Fin 32) (m : MReg) (e : Fin 4) (s : State) : Ends :=
  let w := ewBits e
  let k := (s.rd (s5 b)).toNat
  let x := lanes (s.rdV a) w
  .next (s.mergeV d m w ((List.range (512 / w)).map fun i => if i + k < 512 / w then x.getD (i + k) 0 else 0)).complete

/-- Element 0 of a register is written; the others keep their value (R78). -/
def State.setLane (s : State) (d : Fin 32) (w i v : Nat) : State :=
  s.wrV d (ofLanes w ((lanes (s.rdV d) w).set i (v % 2 ^ w)))

/-- An integer reduction of the active elements (R78). -/
def vredOp (d a : Fin 32) (m : MReg) (e : Fin 4) (f : Nat → List Nat → Nat) (s : State) : Ends :=
  let w := ewBits e
  .next (s.setLane d w 0 (f w (s.activeOf m (lanes (s.rdV a) w)))).complete

/-- VREDA (R78). -/
def execVreda (d a : Fin 32) (m : MReg) (e : Fin 4) (s : State) : Ends := vredOp d a m e (fun _ l => l.foldl (· + ·) 0) s

/-- VREDX (R78): −2^(w−1) when no element is active. -/
def execVredx (d a : Fin 32) (m : MReg) (e : Fin 4) (s : State) : Ends :=
  vredOp d a m e (fun w l => l.foldl (fun x y => if signed w x < signed w y then y else x) (2 ^ (w - 1))) s

/-- VREDN (R78): 2^(w−1) − 1 when no element is active. -/
def execVredn (d a : Fin 32) (m : MReg) (e : Fin 4) (s : State) : Ends :=
  vredOp d a m e (fun w l => l.foldl (fun x y => if signed w y < signed w x then y else x) (2 ^ (w - 1) - 1)) s

/-- VCMPR (R78). -/
def execVcmpr (d a : Fin 32) (m : MReg) (e : Fin 4) (s : State) : Ends :=
  let w := ewBits e
  .next (s.wrV d (ofLanes w (s.activeOf m (lanes (s.rdV a) w)))).complete

/-- VEXPD (R78): the k-th active position takes va[k]. -/
def execVexpd (d a : Fin 32) (m : MReg) (e : Fin 4) (s : State) : Ends :=
  let w := ewBits e
  let x := lanes (s.rdV a) w
  let k := s.rdM m
  .next (s.mergeV d m w ((List.range (512 / w)).map fun i => x.getD (((List.range i).filter (active k)).length) 0)).complete

/-- VMRG (R78): the mask selects. -/
def execVmrg (d a : Fin 32) (b : VSrc) (m : MReg) (e : Fin 4) (s : State) : Ends :=
  let w := ewBits e
  let k := s.rdM m
  let y := s.vsrcLanes b w
  .next (s.wrV d (ofLanes w ((lanes (s.rdV a) w).zipIdx.map fun x => if active k x.2 then y.getD x.2 0 else x.1))).complete

/-- VSPLAT (R80). -/
def execVsplat (d b : Fin 32) (m : MReg) (e : Fin 4) (s : State) : Ends :=
  let w := ewBits e
  .next (s.mergeV d m w (List.replicate (512 / w) ((s.rd (s5 b)).toNat % 2 ^ w))).complete

/-- VINS (R80). -/
def execVins (d a b : Fin 32) (e : Fin 4) (s : State) : Ends :=
  let w := ewBits e
  .next (s.setLane d w ((s.rd (s5 a)).toNat % (512 / w)) (s.rd (s5 b)).toNat).complete

/-- VEXT (R80). -/
def execVext (d a b : Fin 32) (e : Fin 4) (s : State) : Ends :=
  let w := ewBits e
  .next (s.result (s5 d) (word (lane (s.rdV a) w ((s.rd (s5 b)).toNat % (512 / w)))))

/-- VIOTA (R80). -/
def execViota (d : Fin 32) (m : MReg) (e : Fin 4) (s : State) : Ends :=
  let w := ewBits e
  let k := s.rdM m
  .next (s.mergeV d m w ((List.range (512 / w)).map fun i => ((List.range i).filter (active k)).length)).complete

/-- MAND (R81). -/
def execMand (d a b : MReg) (s : State) : Ends := .next (s.putMask d (s.rdM a &&& s.rdM b)).complete
/-- MOR (R81). -/
def execMor (d a b : MReg) (s : State) : Ends := .next (s.putMask d (s.rdM a ||| s.rdM b)).complete
/-- MXOR (R81). -/
def execMxor (d a b : MReg) (s : State) : Ends := .next (s.putMask d (s.rdM a ^^^ s.rdM b)).complete
/-- MNOT (R81). -/
def execMnot (d a : MReg) (s : State) : Ends := .next (s.putMask d (~~~s.rdM a)).complete
/-- MPOPC (R81). -/
def execMpopc (d : Fin 32) (a : MReg) (s : State) : Ends := .next (s.result (s5 d) (word (onesUpTo (s.rdM a).toNat 64)))
/-- MMOV from a mask register (R81). -/
def execMmov (d a : MReg) (s : State) : Ends := .next (s.putMask d (s.rdM a)).complete
/-- MMOV from a scalar register (R81). -/
def execMmovScalar (d : MReg) (b : Fin 32) (s : State) : Ends := .next (s.putMask d (s.rd (s5 b))).complete

/-- VBDOT (R85): bipolar at 32 bits, AND at 64 bits. -/
def execVbdot (d a : Fin 32) (b : VSrc) (m : MReg) (e : Fin 2) (s : State) : Ends :=
  let w := if e = 0 then 32 else 64
  let z := lanes (s.rdV d) w
  let dot (x y : Nat) : Nat := if e = 0 then 2 ^ 32 + 32 - 2 * onesUpTo (x ^^^ y) 32 else onesUpTo (x &&& y) 64
  .next (s.mergeV d m w (List.zipWith (· + ·) z (List.zipWith dot (lanes (s.rdV a) w) (s.vsrcLanes b w)))).complete

end Sys2Proof.Machine
end

