-- ==== Sys2Proof/Machine/VectorFloat.lean ====
section
/-!
DEFINITION. Floating vector instructions: VFLT, floating compares, conversion, VFREDA, solver support, majors 0x21 to 0x23, 0x25
fn 6, 0x28 (R60 to R65, R67 to R71, R79, R82 to R84).
-/
namespace Sys2Proof.Machine

/-- ROUND.MODE and DENORM of the running hart (R61). -/
def State.rm (s : State) : RMode := roundMode s.ctx.round
def State.dn (s : State) : Bool := roundDenorm s.ctx.round

/-- Write the active results unless an enabled flag traps (R63). -/
def vfWrite (d : Fin 32) (m : MReg) (w : Nat) (r : List (Nat × Fl)) : M Unit := do
  let s ← get
  raiseM (orFlags (s.activeOf m r))
  doS fun s => s.mergeV d m w (r.map (·.1))

/-- A floating instruction of two operands. -/
def vfOp2 (d a : Fin 32) (b : VSrc) (m : MReg) (e : Fin 4) (f : Fmt → RMode → Bool → Nat → Nat → Nat × Fl) (s : State) : Ends :=
  let ft := fpFmt e
  ends s (vfWrite d m ft.width (List.zipWith (f ft s.rm s.dn) (lanes (s.rdV a) ft.width) (s.vsrcLanes b ft.width)))

/-- A floating instruction of one operand. -/
def vfOp1 (d a : Fin 32) (m : MReg) (e : Fin 4) (f : Fmt → RMode → Bool → Nat → Nat × Fl) (s : State) : Ends :=
  let ft := fpFmt e
  ends s (vfWrite d m ft.width ((lanes (s.rdV a) ft.width).map (f ft s.rm s.dn)))

/-- A fused instruction: the destination is the third operand. -/
def vfOp3 (d a : Fin 32) (b : VSrc) (m : MReg) (e : Fin 4) (f : RMode → ExNum → ExNum → ExNum → Ex) (s : State) : Ends :=
  let ft := fpFmt e
  let o := operand ft s.dn
  let z := lanes (s.rdV d) ft.width
  let r := List.zipWith (fun (xy : Nat × Nat) z => roundIeee ft s.rm s.dn (f s.rm (o xy.1) (o xy.2) (o z)))
    ((lanes (s.rdV a) ft.width).zip (s.vsrcLanes b ft.width)) z
  ends s (vfWrite d m ft.width r)

/-- A floating compare (R68): the flag and the test. -/
def vfcOp (d : MReg) (a : Fin 32) (b : VSrc) (m : MReg) (e : Fin 4) (f : ExNum → ExNum → Bool × Fl) (s : State) : Ends := ends s do
  let ft := fpFmt e
  let o := operand ft s.dn
  let r := List.zipWith (fun x y => f (o x) (o y)) (lanes (s.rdV a) ft.width) (s.vsrcLanes b ft.width)
  raiseM ((s.activeOf m r).foldl (fun acc x => acc ||| x.2) 0)
  doS fun s => s.compareMask d m (r.map (·.1))

/-- NV when either operand is a NaN. -/
def nanNv (x y : ExNum) : Fl := if x.isNan || y.isNan then Fl.nv else 0#6

/-- VFADD (R67). -/
def execVfadd (d a : Fin 32) (b : VSrc) (m : MReg) (e : Fin 4) (s : State) : Ends := vfOp2 d a b m e (fun ft rm dn => fp2 ft rm dn (ExNum.add rm)) s

/-- VFSUB (R67). -/
def execVfsub (d a : Fin 32) (b : VSrc) (m : MReg) (e : Fin 4) (s : State) : Ends := vfOp2 d a b m e (fun ft rm dn => fp2 ft rm dn (fun x y => x.add rm y.neg)) s

/-- VFMUL (R67). -/
def execVfmul (d a : Fin 32) (b : VSrc) (m : MReg) (e : Fin 4) (s : State) : Ends := vfOp2 d a b m e (fun ft rm dn => fp2 ft rm dn ExNum.mul) s

/-- VFDIV (R67). -/
def execVfdiv (d a : Fin 32) (b : VSrc) (m : MReg) (e : Fin 4) (s : State) : Ends := vfOp2 d a b m e (fun ft rm dn => fp2 ft rm dn ExNum.div) s

/-- VFMIN (R67). -/
def execVfmin (d a : Fin 32) (b : VSrc) (m : MReg) (e : Fin 4) (s : State) : Ends := vfOp2 d a b m e (fun ft _ dn x y => (fpPick false ft dn x y, 0)) s

/-- VFMAX (R67). -/
def execVfmax (d a : Fin 32) (b : VSrc) (m : MReg) (e : Fin 4) (s : State) : Ends := vfOp2 d a b m e (fun ft _ dn x y => (fpPick true ft dn x y, 0)) s

/-- VFMA (R67). -/
def execVfma (d a : Fin 32) (b : VSrc) (m : MReg) (e : Fin 4) (s : State) : Ends := vfOp3 d a b m e (fun rm x y z => ExNum.fma rm x y z) s

/-- VFNMA (R67): vd − x × y. -/
def execVfnma (d a : Fin 32) (b : VSrc) (m : MReg) (e : Fin 4) (s : State) : Ends := vfOp3 d a b m e (fun rm x y z => ExNum.fma rm x.neg y z) s

/-- VFMAN (R84): x × y − vd. -/
def execVfman (d a : Fin 32) (b : VSrc) (m : MReg) (e : Fin 4) (s : State) : Ends := vfOp3 d a b m e (fun rm x y z => ExNum.fma rm x y z.neg) s

/-- VFABS (R67): a bit operation. -/
def execVfabs (d a : Fin 32) (m : MReg) (e : Fin 4) (s : State) : Ends := vfOp1 d a m e (fun ft _ _ x => (ft.absCode x, 0)) s

/-- VFNEG (R67): a bit operation. -/
def execVfneg (d a : Fin 32) (m : MReg) (e : Fin 4) (s : State) : Ends :=
  vfOp1 d a m e (fun ft _ _ x => (x ^^^ 2 ^ (ft.width - 1), 0)) s

/-- VFSQRT (R67). -/
def execVfsqrt (d a : Fin 32) (m : MReg) (e : Fin 4) (s : State) : Ends := vfOp1 d a m e (fun ft rm dn => fp1 ft rm dn ExNum.sqrt) s

/-- VFRSQ (R67). -/
def execVfrsq (d a : Fin 32) (m : MReg) (e : Fin 4) (s : State) : Ends := vfOp1 d a m e (fun ft rm dn => fp1 ft rm dn ExNum.rsqrt) s

/-- VFEXP2 (R67). -/
def execVfexp2 (d a : Fin 32) (m : MReg) (e : Fin 4) (s : State) : Ends := vfOp1 d a m e (fun ft rm dn => fp1 ft rm dn ExNum.exp2) s

/-- VFLOG2 (R67). -/
def execVflog2 (d a : Fin 32) (m : MReg) (e : Fin 4) (s : State) : Ends := vfOp1 d a m e (fun ft rm dn => fp1 ft rm dn ExNum.log2) s

/-- VFCEQ (R68). -/
def execVfceq (d : MReg) (a : Fin 32) (b : VSrc) (m : MReg) (e : Fin 4) (s : State) : Ends := vfcOp d a b m e (fun x y => (x.cmp y == some .eq, 0)) s

/-- VFCLT (R68). -/
def execVfclt (d : MReg) (a : Fin 32) (b : VSrc) (m : MReg) (e : Fin 4) (s : State) : Ends := vfcOp d a b m e (fun x y => (x.cmp y == some .lt, nanNv x y)) s

/-- VFCLE (R68). -/
def execVfcle (d : MReg) (a : Fin 32) (b : VSrc) (m : MReg) (e : Fin 4) (s : State) : Ends := vfcOp d a b m e (fun x y => (x.cmp y == some .lt || x.cmp y == some .eq, nanNv x y)) s

/-- VFCUN (R68). -/
def execVfcun (d : MReg) (a : Fin 32) (b : VSrc) (m : MReg) (e : Fin 4) (s : State) : Ends := vfcOp d a b m e (fun x y => (x.isNan || y.isNan, 0)) s

/-- Convert the active elements in ascending order, drawing from the generator as they need it (R65, R69). -/
def convertLanes (row : ConvRow) (rm : RMode) (dn : Bool) (k : Word) : Nat → List Nat → Word → List (Nat × Fl) × Word
  | _, [], seed => ([], seed)
  | i, x :: t, seed =>
    if active k i then
      let r := convert row rm dn seed x
      let q := convertLanes row rm dn k (i + 1) t r.2.2
      ((r.1, r.2.1) :: q.1, q.2)
    else
      let q := convertLanes row rm dn k (i + 1) t seed
      ((0, 0) :: q.1, q.2)

/-- VCVT (R69 to R71): narrowing clears the upper part whatever the mask. -/
def execVcvt (d a c : Fin 32) (m : MReg) (s : State) : Ends := ends s do
  match convRow c.val with
  | none => trapM .illegal
  | some row =>
    let sb := row.src.width
    let db := row.dst.width
    let n := 512 / max sb db
    let k := s.rdM m
    let r := convertLanes row s.rm s.dn k 0 ((lanes (s.rdV a) sb).take n) s.ctx.stochseed
    raiseM (orFlags (s.activeOf m r.1))
    let old := lanes (s.rdV d) db
    let head := r.1.zipIdx.map fun x => if active k x.2 then x.1.1 else old.getD x.2 0
    doS fun s => (s.wrV d (ofLanes db (if db < sb then head else head ++ old.drop n))).updCtx fun x => { x with stochseed := r.2 }

/-- A sum of VFREDA (R79): an inactive element leaves it unchanged, whatever the mode. -/
def pairSum (ft : Fmt) (rm : RMode) (dn : Bool) : Option Nat → Option Nat → Option Nat × Fl
  | some x, some y => let r := fp2 ft rm dn (ExNum.add rm) x y; (some r.1, r.2)
  | some x, none => let r := roundIeee ft rm dn ⟨operand ft dn x, false, 0⟩; (some r.1, r.2)
  | none, some y => let r := roundIeee ft rm dn ⟨operand ft dn y, false, 0⟩; (some r.1, r.2)
  | none, none => (none, 0)

/-- One level of VFREDA's tree (R79). -/
def pairSums (ft : Fmt) (rm : RMode) (dn : Bool) : List (Option Nat) → List (Option Nat × Fl)
  | x :: y :: t => pairSum ft rm dn x y :: pairSums ft rm dn t
  | _ => []

/-- The fixed pairwise tree (R79): with no active element the sum is +0. -/
def treeSum (ft : Fmt) (rm : RMode) (dn : Bool) : Nat → List (Option Nat) → Fl → Nat × Fl
  | 0, l, fl => ((l.headD none).getD 0, fl)
  | n + 1, l, fl =>
    let r := pairSums ft rm dn l
    treeSum ft rm dn n (r.map (·.1)) (r.foldl (fun a x => a ||| x.2) fl)

/-- VFREDA (R79). -/
def execVfreda (d a : Fin 32) (m : MReg) (e : Fin 4) (s : State) : Ends := ends s do
  let ft := fpFmt e
  let w := ft.width
  let k := s.rdM m
  let t := (lanes (s.rdV a) w).zipIdx.map fun x => if active k x.2 then some x.1 else none
  let r := treeSum ft s.rm s.dn (if w = 32 then 4 else 5) t 0
  raiseM r.2
  doS fun s => s.setLane d w 0 r.1

/-! ## Solver support (R82 to R84) -/

/-- τ as f32 when it is positive, normal and finite (R83). -/
def pivTau (tau : Word) : Option ExNum :=
  let x := tau.toNat % 2 ^ 32
  if 0x800000 ≤ x ∧ x < 0x7F800000 then some (Fmt.f32.value x) else none

/-- One pivot (R83, R151): the replacement or the value, whether it was regularised, and its flags. -/
def pivot (dn : Bool) (tau : ExNum) (x : Nat) : ExNum × Bool × Fl :=
  match operand .f32 dn x with
  | .nan => (.nan, false, Fl.nv)
  | .inf n => (.inf n, false, 0)
  | .fin n mm ex =>
    let mag := ExNum.fin false mm ex
    let small := mag.cmp tau == some .lt
    let huge := ((mag.mul (Fmt.f32.value 0x7F7FFFFF)).num.cmp (.fin false 1 0)) == some .lt
    if small || huge then ((if n && mm != 0 then tau.neg else tau), true, 0) else (.fin n mm ex, false, 0)

/-- VPIV and VPRCP (R83). DESIGN CHOICE (assumption 86): an invalid τ raises NV only when some element is active, as R59 has an
instruction with no active element change nothing. -/
def pivOp (recip : Bool) (d a : Fin 32) (b m : MReg) (s : State) : Ends := ends s do
  match pivTau s.ctx.pivtau with
  | none => vfWrite d m 32 (List.replicate 16 (0x7FC00000, Fl.nv))
  | some tau =>
    let r := (lanes (s.rdV a) 32).map fun x =>
      let p := pivot s.dn tau x
      let q := if recip then ExNum.div (.fin false 1 0) p.1 else ⟨p.1, false, 0⟩
      let out := roundIeee .f32 s.rm s.dn q
      ((out.1, out.2 ||| p.2.2), p.2.1)
    vfWrite d m 32 (r.map (·.1))
    let k := s.rdM m
    let hit := (r.zipIdx.filter fun x => active k x.2 && x.1.2).map (·.2)
    doS fun s => s.updCtx fun c =>
      { c with pivstat := c.pivstat ||| word (hit.foldl (fun acc i => acc ||| 2 ^ i) (if hit == [] then 0 else 2 ^ 16)) }
    if b ≠ 0 then
      doS fun s => s.putMask b (word ((List.range 64).foldl (fun acc i =>
        acc + (if (if i < 16 && active k i then hit.contains i else active (s.rdM b) i) then 2 ^ i else 0)) 0))

/-- VPIV (R83). -/
def execVpiv (d a : Fin 32) (b m : MReg) (s : State) : Ends := pivOp false d a b m s

/-- VPRCP (R83). -/
def execVprcp (d a : Fin 32) (b m : MReg) (s : State) : Ends := pivOp true d a b m s

/-- VPSTAT (R84): read and clear in one step. -/
def execVpstat (d : Fin 32) (s : State) : Ends :=
  .next ((s.updCtx fun c => { c with pivstat := 0 }).result (s5 d) s.ctx.pivstat)

end Sys2Proof.Machine
end

