-- ==== Sys2Proof/Machine/ElemVector.lean ====
section
/-!
DEFINITION. The vector slot's element-wise operations (R136 to R151, R154, R158 to R160): pairing of tokens and of beats, HEADERs
(R237 to R239), the replicate plane, and one meaning for each operation.
-/
namespace Sys2Proof.Machine

/-! ## Bursts of tokens -/

/-- Try a step: none, with nothing changed, where it finds nothing to do. -/
def tryU {α : Type} (m : U α) : U (Option α) := fun s =>
  match m s with
  | .ok a t => .ok (some a) t
  | .error .idle _ => .ok none s
  | .error (.want _) _ => .ok none s
  | .error e t => .error e t

/-- Whether an output beat is sent after its last token (R138). -/
def closesBeat (l : List Tok) : Bool := 8 ≤ l.length || match l.getLast? with | some t => 9 ≤ t.k && t.k ≤ 11 | none => false

/-- Take one more token, unless it cannot be taken or faults: a fault is then the unit's next step, and what came before it stands (R140). -/
def nextU {α : Type} (m : U α) : U (Option α) := fun s =>
  match m s with
  | .ok a t => .ok (some a) t
  | .error _ _ => .ok none s

/-- Further token steps of one burst, until the beat is sent or no token can be taken. -/
def burstMore (body : U (List Tok)) : Nat → List Tok → U (List Tok)
  | 0, acc => pure acc
  | n + 1, acc =>
    if closesBeat acc then pure acc
    else do
      match ← nextU body with
      | none => pure acc
      | some l => burstMore body n (acc ++ l)

/-- A stream unit's step: tokens taken and made until a beat is sent or no token is left (R138). -/
def burst (body : U (List Tok)) : U Unit := do
  let l ← body
  emitToks (← burstMore body 7 l)

/-- A kind that a stream unit may read: not HEADER, not reserved (R138, R219). -/
def tokKindM (k : Nat) : U Unit := needU (k ≤ 11)

/-- The scalar a replicate element holds (R144), taken when first needed. -/
def heldScalar : U Nat := do
  match (← unitSt).tsA with
  | some v => pure v.toNat
  | none =>
    let v ← takeScalar 1
    updUnit fun u => { u with tsA := some v }
    pure v.toNat

/-- DONE passing a replicate element lets its scalar go (R144); DRAIN is noted (R230). -/
def passCtl (k : Nat) : U Unit := do
  if k == kDone then updUnit fun u => { u with tsA := none }
  markDrain k

/-- Operands with the replicated scalar in its place. -/
def withScalar (plane : Nat) (w : Nat) (l : List Nat) : U (List Nat) := do
  if plane == 3 then
    let y ← heldScalar
    pure (l.take 1 ++ [y % 2 ^ w] ++ l.drop 1)
  else pure l

/-- The data-plane inputs of an operation with n operands. -/
def dataPorts (plane n : Nat) : List Nat := if plane == 3 then (List.range n).filter (· != 1) else List.range n

/-- One pairing of tokens (R138): `f` computes the outputs from the tokens of the data inputs. -/
def pairToks (ports : List Nat) (f : List Tok → U (List Tok)) : U (List Tok) := do
  let ts ← ports.mapM peekTok
  ts.forM fun t => tokKindM t.k
  let k := (ts.map (·.k)).headD 0
  needU (ts.all (·.k == k))
  let out ← if k == 0 then f ts else do
    passCtl k
    pure (ts.take 1)
  ports.forM dropTok
  pure out

/-- An element's function: operand codes to a result code and flags, in a format under a mode and DENORM. -/
abbrev ElemFn := Fmt → RMode → Bool → List Nat → Nat × Fl

/-- Apply it with the context's mode, raising its flags (R141, R142). -/
def applyFn (g : ElemFn) (f : Fmt) (l : List Nat) : U Nat := do
  let r := g f (← taskRm) (← taskDn) l
  raiseE r.2.toNat
  pure r.1

def fmtOf (n : Nat) : Fmt := (Fmt.ofCode? n).getD .f32

/-- A stream-form step of an element-wise operation of n operands (R137, R138). -/
def streamForm (n plane fmt : Nat) (g : ElemFn) : U Unit :=
  burst (pairToks (dataPorts plane n) fun ts => do
    let f := fmtOf fmt
    let l ← withScalar plane f.width (ts.map fun t => t.v.toNat % 2 ^ f.width)
    let v ← applyFn g f l
    pure [⟨(ts.headD ⟨0, 0, 0⟩).c, BitVec.ofNat 32 v, 0⟩])

/-! ## HEADERs and packets (R237 to R239) -/

def hEfmt (h : Nat) : Nat := fld h 0 8
def hSfmt (h : Nat) : Nat := fld h 8 8
def hBs (h : Nat) : Nat := fld h 16 4
def hPk (h : Nat) : Nat := fld h 20 4
def hRows (h : Nat) : Nat := fld h 24 8
def hK (h : Nat) : Nat := fld h 32 16
def hEid (h : Nat) : Nat := fld h 48 16
def hTs (h : Nat) : Nat := fld h 96 32

/-- Block scales of a packet (R239). -/
def hScales (h : Nat) : Nat := if hBs h == 0 then 0 else hRows h * hK h / 2 ^ hBs h

/-- Replace a field of a payload. -/
def setFld (h lo n v : Nat) : Nat := h - fld h lo n * 2 ^ lo + v % 2 ^ n * 2 ^ lo

/-- Whether a unit accepts a HEADER (R238); it names an element format and a block-scale format (R237, R258). -/
def hdrOk (h : Nat) : Bool :=
  hEfmt h ≤ 13 && hEfmt h != 7 && (hEfmt h != 0 || hPk h == 3) && [0, 5, 7].contains (hSfmt h) && 1 ≤ hRows h && hRows h ≤ 32 && hK h != 0 && [0, 3, 4, 5].contains (hBs h) && ((hBs h == 0) == (hSfmt h == 0))
    && hK h % 2 ^ hBs h == 0 && hPk h ≤ 3 && (!(hPk h == 1 || hPk h == 3) || hK h % 16 == 0)
    && (hPk h != 3 || (hEfmt h == 0 && hSfmt h == 0)) && fld h 128 128 == 0
    && h / 2 ^ (256 + 8 * min (hScales h) 32) == 0

/-- The width of a packet's stored elements. -/
def hWidth (h : Nat) : Nat := if hPk h == 3 then 16 else (fmtOf (hEfmt h)).width

def ceilDiv (a b : Nat) : Nat := (a + b - 1) / b

/-- Scale beats after the HEADER (R239). -/
def hScaleBeats (h : Nat) : Nat := ceilDiv (hScales h - 32) 64

/-- Data beats of a row, but for bitmap packets (R239). -/
def hRowBeats (h : Nat) : Nat :=
  let kp := if hPk h == 1 then hK h / 4 else if hPk h == 3 then hK h / 16 else hK h
  ceilDiv (kp * hWidth h) 512

/-- The set bits of a number below 2^n. -/
def popCount (x n : Nat) : Nat := ((List.range n).filter fun i => x.testBit i).length

/-- The rows of a bitmap packet (R245): bitmap and value beats of each; none while beats are missing. -/
def bitmapRows (h : Nat) : Nat → List Nat → Option (List (Nat × List Nat))
  | 0, [] => some []
  | 0, _ => none
  | rows + 1, l =>
    let nb := ceilDiv (hK h) 512
    let bm := (l.take nb).zipIdx.foldl (fun a x => a + x.1 * 2 ^ (512 * x.2)) 0
    let nv := ceilDiv (popCount bm (512 * nb) * hWidth h) 512
    if l.length < nb + nv then none
    else (bitmapRows h rows (l.drop (nb + nv))).map fun r => (bm, (l.drop nb).take nv) :: r

/-- Whether the beats after a HEADER make its packet complete (R239, R245). -/
def packetDone (h : Nat) (l : List Nat) : Bool :=
  if hPk h == 2 then hScaleBeats h ≤ l.length && (bitmapRows h (hRows h) (l.drop (hScaleBeats h))).isSome
  else l.length == hScaleBeats h + hRows h * hRowBeats h

/-! ## Dense form (R137, R139) -/

def UnitSt.hdrOf (u : UnitSt) (p : Nat) : Option Beat := match p with | 0 => u.hdrA | 1 => u.hdrB | _ => u.hdrC
def UnitSt.pktOf (u : UnitSt) (p : Nat) : List Beat := match p with | 0 => u.pktA | 1 => u.pktB | _ => u.pktC
def UnitSt.setPkt (u : UnitSt) (p : Nat) (h : Option Beat) (l : List Beat) : UnitSt :=
  match p with
  | 0 => { u with hdrA := h, pktA := l }
  | 1 => { u with hdrB := h, pktB := l }
  | _ => { u with hdrC := h, pktC := l }

def pays (l : List Beat) : List Nat := l.map (·.pay.toNat)

/-- Whether a port's packet is complete. -/
def UnitSt.complete (u : UnitSt) (p : Nat) : Bool :=
  match u.hdrOf p with
  | some h => packetDone h.pay.toNat (pays (u.pktOf p))
  | none => false

/-- Whether the packets under way, if there are any, are complete. -/
def UnitSt.packetEnded (u : UnitSt) : Bool := !u.flag || [0, 1, 2].all fun p => (u.hdrOf p).isNone || u.complete p

/-- Take a HEADER of every input (R139): its format is the element's, checked against fmt and against what the operation takes. DESIGN CHOICE
(assumption 98): a HEADER before the packet under way is complete takes STREAMPROTO, which R239 states of control beats only. -/
def takeHeader (fmt : Nat) (ok : Fmt → Bool) (bs : List Beat) : U Unit := do
  let hs := bs.map (·.pay.toNat)
  let e := hEfmt (hs.headD 0)
  needU (hs.all hdrOk && hs.all (fun h => hEfmt h == e) && (fmt == 0 || e == fmt))
  needU (match Fmt.ofCode? e with | some f => ok f | none => false)
  needU (← unitSt).packetEnded
  updUnit fun u => { u with fmt := e, hdrA := bs[0]?, hdrB := bs[1]?, hdrC := bs[2]?, pktA := [], pktB := [], pktC := [], flag := true }

/-- A data beat of each packet under way; with no HEADER before it under fmt 0, STREAMPROTO (R24). -/
def takeData (fmt : Nat) (bs : List Beat) : U Fmt := do
  let u ← unitSt
  needU (fmt != 0 || u.fmt != 0)
  if u.flag then
    -- a complete packet's beats are no longer kept
    if u.packetEnded then updUnit fun u => { u with flag := false, pktA := [], pktB := [], pktC := [] }
    else updUnit fun u => bs.zipIdx.foldl (fun u x => if u.complete x.2 then u else u.setPkt x.2 (u.hdrOf x.2) (u.pktOf x.2 ++ [x.1])) u
  pure (fmtOf (if fmt == 0 then u.fmt else fmt))

/-- One step on beats of one kind from every data input: what a HEADER, a data beat and a control beat do (R139). -/
def denseStep (ports : List Nat) (hdr data : List Beat → U Unit) (ctl : Nat → Beat → U Unit) : U Unit := do
  let bs ← ports.mapM headBeat
  let cls := bs.map Beat.cls
  let c := cls.headD .bad
  needU (c != .bad && cls.all (· == c))
  match c with
  | .header => hdr bs
  | .data => data bs
  | .ctl k =>
    needU (← unitSt).packetEnded
    ctl k (bs.headD {})
    passCtl k
  | .bad => protoU
  ports.forM dropBeat

/-- Element codes of one data beat from each input's lanes. -/
def laneLists (w : Nat) (bs : List Beat) : List (List Nat) :=
  (List.range (512 / w)).map fun i => bs.map fun b => lane b.pay w i

/-- The dense form of an element-wise operation of n operands (R139). -/
def denseForm (n plane fmt : Nat) (ok : Fmt → Bool) (g : ElemFn) : U Unit :=
  denseStep (dataPorts plane n)
    (fun bs => do
      takeHeader fmt ok bs
      emitBeats (bs.take 1))
    (fun bs => do
      let f ← takeData fmt bs
      let r ← (laneLists f.width bs).mapM fun l => do applyFn g f (← withScalar plane f.width l)
      emitBeats [dataBeat (ofLanes f.width r).toNat])
    (fun _ b => emitBeats [b])

/-- An element-wise operation in the form its word selects. -/
def elemWise (n plane fmt form : Nat) (ok : Fmt → Bool) (g : ElemFn) : U Unit :=
  if form == 1 then denseForm n plane fmt ok g else streamForm n plane fmt g

/-! ## Formats and functions (R145) -/

def Fmt.isF (f : Fmt) : Bool := f == .f32 || f == .bf16 || f == .f16
def Fmt.isFI (f : Fmt) : Bool := f.isF || f == .s32
def Fmt.isB (f : Fmt) : Bool := f == .s32 || f == .b1

def arg (l : List Nat) (i : Nat) : Nat := l.getD i 0

/-- A floating function of two operands, or an integer one at 32 bits. -/
def fiFn (flt : RMode → ExNum → ExNum → Ex) (int : Nat → Nat → Nat) : ElemFn := fun f rm dn l =>
  if f == .s32 then (int (arg l 0) (arg l 1) % 2 ^ 32, 0) else fp2 f rm dn (flt rm) (arg l 0) (arg l 1)

def pickFn (larger : Bool) : ElemFn := fun f _ dn l =>
  let x := arg l 0
  let y := arg l 1
  if f == .s32 then ((if (signed 32 x < signed 32 y) == larger then y else x), 0) else (fpPick larger f dn x y, 0)

/-- EADD (R145). -/
def execEadd (p : Fin 4) (_a _b f : Fin 16) (m : Fin 4) (s : State) : Ends :=
  unitEnds s (elemWise 2 p f m Fmt.isFI (fiFn (fun rm x y => x.add rm y) (· + ·)))

/-- ESUB (R145). -/
def execEsub (p : Fin 4) (_a _b f : Fin 16) (m : Fin 4) (s : State) : Ends :=
  unitEnds s (elemWise 2 p f m Fmt.isFI (fiFn (fun rm x y => x.add rm y.neg) fun x y => x + 2 ^ 32 - y))

/-- EMUL (R145). -/
def execEmul (p : Fin 4) (_a _b f : Fin 16) (m : Fin 4) (s : State) : Ends :=
  unitEnds s (elemWise 2 p f m Fmt.isFI (fiFn (fun _ x y => x.mul y) (· * ·)))

/-- EMIN (R145): as VFMIN, or the signed minimum. -/
def execEmin (p : Fin 4) (_a _b f : Fin 16) (m : Fin 4) (s : State) : Ends := unitEnds s (elemWise 2 p f m Fmt.isFI (pickFn false))

/-- EMAX (R145). -/
def execEmax (p : Fin 4) (_a _b f : Fin 16) (m : Fin 4) (s : State) : Ends := unitEnds s (elemWise 2 p f m Fmt.isFI (pickFn true))

/-- EABS (R145): for integers −2^31 gives 2^31 − 1 and SAT. -/
def execEabs (_a f : Fin 16) (m : Fin 4) (s : State) : Ends :=
  unitEnds s (elemWise 1 0 f m Fmt.isFI fun f _ _ l =>
    if f == .s32 then satSigned 32 ((signed 32 (arg l 0)).natAbs : Int) else (f.absCode (arg l 0), 0))

/-- The bitwise operations act on the whole code (R145). -/
def bitFn (g : Nat → Nat → Nat) : ElemFn := fun _ _ _ l => (g (arg l 0) (arg l 1), 0)

/-- EAND (R145). -/
def execEand (p : Fin 4) (_a _b f : Fin 16) (m : Fin 4) (s : State) : Ends := unitEnds s (elemWise 2 p f m Fmt.isB (bitFn (· &&& ·)))

/-- EOR (R145). -/
def execEor (p : Fin 4) (_a _b f : Fin 16) (m : Fin 4) (s : State) : Ends := unitEnds s (elemWise 2 p f m Fmt.isB (bitFn (· ||| ·)))

/-- EXOR (R145). -/
def execExor (p : Fin 4) (_a _b f : Fin 16) (m : Fin 4) (s : State) : Ends := unitEnds s (elemWise 2 p f m Fmt.isB (bitFn (· ^^^ ·)))

/-- ESEL (R148): z ≠ 0 ? x : y, under the nonzero rule. -/
def execEsel (_a _b _c f : Fin 16) (m : Fin 4) (s : State) : Ends :=
  unitEnds s (elemWise 3 0 f m (fun f => f.isFI || f == .b1) fun f _ _ l => (if f.nonzero (arg l 2) then arg l 0 else arg l 1, 0))

/-- An e8m0 scale read as an operand (R263): 2^−127, a subnormal f32, flushes as an input. -/
def e8m0In (dn : Bool) (c : Nat) : ExNum := if !dn && c % 256 == 0 then .fin false 0 0 else Fmt.e8m0.value c

/-- ESCALE (R154): always to nearest-even; a NaN scale gives NaN and NV. -/
def execEscale (p : Fin 4) (_a _b f : Fin 16) (m : Fin 4) (x : Bool) (s : State) : Ends :=
  unitEnds s (elemWise 2 p f m (· == .f32) fun _ _ dn l =>
    let sc := if x then e8m0In dn (arg l 1) else operand .f32 dn (arg l 1)
    let r := roundIeee .f32 .rne dn ((operand .f32 dn (arg l 0)).mul sc)
    (r.1, r.2 ||| (if sc.isNan then Fl.nv else 0)))

/-! ## EFMA (R146) -/

def fmaFn : ElemFn := fun f rm dn l =>
  roundIeee f rm dn (ExNum.fma rm (operand f dn (arg l 0)) (operand f dn (arg l 1)) (operand f dn (arg l 2)))

/-- The accumulating form: acc ← Round(x × y + acc) for each data beat, sent at a control beat after a copy of the last HEADER. DESIGN
CHOICE (assumption 99): under a fmt other than 0 and with no HEADER received, the accumulator beat is sent alone. -/
def efmaAcc (plane fmt : Nat) : U Unit :=
  denseStep (dataPorts plane 2)
    (fun bs => takeHeader fmt Fmt.isF bs)
    (fun bs => do
      let f ← takeData fmt bs
      let acc := (← unitSt).acc.getD 0
      let r ← (laneLists f.width bs).zipIdx.mapM fun x => do
        let l ← withScalar plane f.width x.1
        applyFn fmaFn f (l ++ [lane acc f.width x.2])
      updUnit fun u => { u with acc := some (ofLanes f.width r) })
    (fun _ b => do
      let u ← unitSt
      match u.acc with
      | some x =>
        let h := match u.hdrA with
          | some h => [headerBeat (setFld h.pay.toNat 24 8 1)]
          | none => []
        emitBeats (h ++ [dataBeat x.toNat])
      | none => pure ()
      emitBeats [b]
      updUnit fun u => { u with acc := none })

/-- EFMA (R146). -/
def execEfma (p : Fin 4) (_a _b _c f : Fin 16) (m : Fin 4) (x : Bool) (s : State) : Ends :=
  unitEnds s (if x then efmaAcc p f else elemWise 3 p f m Fmt.isF fmaFn)

/-! ## Pivots (R158) -/

/-- EPIV's rule on one element: the pivot, whether it was regularised, its flags. -/
def pivotM (x : Nat) : U (ExNum × Fl) := do
  let t ← focusTask
  let k := (← get).task t
  match pivTau k.pivtau with
  | none => pure (.nan, Fl.nv)
  | some tau =>
    let r := pivot (← taskDn) tau x
    if r.2.1 then
      modify fun s => s.updTask t fun k => { k with eflags := k.eflags ||| 0x80, regCount := min (k.regCount + 1) 65535 }
    pure (r.1, r.2.2)

/-- A one-operand f32 operation whose element function may change the task. -/
def f32Wise (fmt form : Nat) (g : Nat → U Nat) : U Unit :=
  if form == 1 then
    denseStep [0]
      (fun bs => do
        takeHeader fmt (· == .f32) bs
        emitBeats (bs.take 1))
      (fun bs => do
        let _ ← takeData fmt bs
        let r ← (lanes ((bs.headD {}).pay) 32).mapM g
        emitBeats [dataBeat (ofLanes 32 r).toNat])
      (fun _ b => emitBeats [b])
  else burst (pairToks [0] fun ts => do
    let t := ts.headD ⟨0, 0, 0⟩
    pure [⟨t.c, BitVec.ofNat 32 (← g t.v.toNat), 0⟩])

/-- EPIV (R158). -/
def execEpiv (_a f : Fin 16) (m : Fin 4) (s : State) : Ends :=
  unitEnds s (f32Wise f m fun x => do
    let p ← pivotM x
    let r := roundIeee .f32 (← taskRm) (← taskDn) ⟨p.1, false, p.2⟩
    raiseE r.2.toNat
    pure r.1)

/-- ERCP (R158): 1 / x, of EPIV's pivot when PIV is set. -/
def execErcp (_a f : Fin 16) (m : Fin 4) (x : Bool) (s : State) : Ends :=
  unitEnds s (f32Wise f m fun v => do
    let p ← if x then pivotM v else do pure (operand .f32 (← taskDn) v, (0 : Fl))
    let r := roundIeee .f32 (← taskRm) (← taskDn) (ExNum.div (.fin false 1 0) p.1)
    raiseE (r.2 ||| p.2).toNat
    pure r.1)

/-! ## Comparison and winners (R147, R149) -/

/-- The test REL of ECMP (R147). -/
def relTest (f : Fmt) (dn : Bool) (rel x y : Nat) : Bool :=
  if rel == 7 then f.nonzero x
  else
    let c := if f == .s32 then some (compare (signed 32 x) (signed 32 y)) else (operand f dn x).cmp (operand f dn y)
    match c with
    | none => rel == 1 || rel == 6
    | some o => match rel with
      | 0 => o == .eq
      | 1 => o != .eq
      | 2 => o == .lt
      | 3 => o != .gt
      | 4 => o == .gt
      | 5 => o != .lt
      | _ => false

/-- ECMP (R147): bits on the condition plane. -/
def execEcmp (_a _b f : Fin 16) (z : Bool) (r : Fin 4) (l : Fin 8) (s : State) : Ends :=
  unitEnds s (burst (do
    let ft := fmtOf f
    let send (b : Bool) : U Unit := do emitNarrow 2 ((← get).focus.slot.val + 6) b.toNat
    let out ← pairToks (if z then [0] else [0, 1]) fun ts => do
      let x := (ts.getD 0 ⟨0, 0, 0⟩).v.toNat % 2 ^ ft.width
      let y := if z then 0 else (ts.getD 1 ⟨0, 0, 0⟩).v.toNat % 2 ^ ft.width
      let b := relTest ft (← taskDn) l x y
      if r = 0 then send b else updUnit fun u => { u with any := u.any || b, all := u.all && b }
      pure []
    if r ≠ 0 && (out.headD ⟨0, 0, 0⟩).k == kDone then
      let u ← unitSt
      send (if r = 1 then u.any else u.all)
      updUnit fun u => { u with any := false, all := true }
    pure []))

/-- Whether a later value wins over an earlier one (R149). -/
def beats (f : Fmt) (dn smaller : Bool) (new old : Nat) : Bool :=
  let better := if smaller then Ordering.lt else Ordering.gt
  if f == .s32 then compare (signed 32 new) (signed 32 old) == better
  else
    let x := operand f dn new
    let y := operand f dn old
    if x.isNan then false else if y.isNan then true else x.cmp y == some better

/-- The end of an innermost fibre for a reducer (R149, R160, R187): what it emits, then the stop one level lower. -/
def closeFibre (t : Tok) (l : List Tok) : List Tok := if 2 ≤ t.k then l ++ [{ t with k := t.k - 1 }] else l

/-- ECFWD (R149): RED keeps a winner of each innermost fibre, else the better of two paired tokens goes out, a bf16 value's upper
bits zero (R137). -/
def execEcfwd (_a _b f : Fin 16) (r x : Bool) (s : State) : Ends :=
  let ft := fmtOf f
  let v (t : Tok) : Nat := t.v.toNat % 2 ^ ft.width
  let sent (t : Tok) : Tok := { t with v := BitVec.ofNat 32 (v t) }
  unitEnds s (burst (
    if r then do
      let t ← peekTok 0
      tokKindM t.k
      let u ← unitSt
      let out ←
        if t.k == 0 then do
          let dn ← taskDn
          updUnit fun u => { u with win := match u.win with
            | some w => if beats ft dn x (v t) (v w) then some t else some w
            | none => some t }
          pure []
        else do
          updUnit fun u => { u with win := none }
          markDrain t.k
          pure (if t.k ≤ 8 then closeFibre t (u.win.toList.map sent) else [t])
      dropTok 0
      pure out
    else pairToks [0, 1] fun ts => do
      let ta := ts.getD 0 ⟨0, 0, 0⟩
      let tb := ts.getD 1 ⟨0, 0, 0⟩
      pure [sent (if beats ft (← taskDn) x (v tb) (v ta) then tb else ta)]))

/-! ## Constants, coordinates and counts (R151, R159, R160) -/

/-- The signed 8-bit constant of ECONST in a format (R151). -/
def smallConst (f : Fmt) (mode : Nat) : Nat :=
  if f == .s32 then toField 32 (signed 8 mode) else (roundIeee f .rne true ⟨.ofInt (signed 8 mode), false, 0⟩).1

/-- ECONST (R151): DATA values replaced, every other token unchanged. -/
def execEconst (p : Fin 4) (_a _b f : Fin 16) (m : Fin 256) (s : State) : Ends :=
  let ft := fmtOf f
  unitEnds s (burst (pairToks [0] fun ts => do
    let v ← if p = 3 then do pure ((← heldScalar) % 2 ^ ft.width) else pure (smallConst ft m)
    pure (ts.map fun t => { t with v := BitVec.ofNat 32 v })))

/-- EIDX (R159). -/
def execEidx (p : Fin 4) (_a _b _f : Fin 16) (k : Bool) (n : Fin 8) (s : State) : Ends :=
  let single := p = 3 || k || n = 6
  unitEnds s (burst (pairToks (if single then [0] else [0, 1]) fun ts => do
    let t := ts.headD ⟨0, 0, 0⟩
    let kv ← if k then pure t.v.toNat
      else if n = 6 then pure 0
      else if p = 3 then heldScalar
      else pure (ts.getD 1 ⟨0, 0, 0⟩).v.toNat
    let c := t.c.toNat
    if n = 7 && kv == 0 then raiseE 0x40
    let c' := match n.val with
      | 0 => c + kv
      | 1 => c + 2 ^ 32 - kv
      | 2 => c * kv
      | 3 => c / 2 ^ (kv % 32)
      | 4 => c * 2 ^ (kv % 32)
      | 5 => c &&& kv
      | 6 => t.v.toNat
      | _ => if kv == 0 then 0xFFFFFFFF else c / kv
    pure [⟨BitVec.ofNat 32 c', if n = 6 then t.c else t.v, 0⟩]))

/-- EPOP (R160): counts of each innermost fibre, coordinate the fibre's index within its parent. -/
def execEpop (_a f : Fin 16) (x : Bool) (s : State) : Ends :=
  let ft := fmtOf f
  unitEnds s (burst (do
    let t ← peekTok 0
    tokKindM t.k
    let u ← unitSt
    let out ←
      if t.k == 0 then do
        if x || ft.nonzero (t.v.toNat % 2 ^ ft.width) then updUnit fun u => { u with n := u.n + 1 }
        pure []
      else do
        updUnit fun u => { u with n := 0, f := if t.k == 1 then u.f + 1 else if t.k ≤ 9 then 0 else u.f }
        markDrain t.k
        pure (if t.k ≤ 8 then closeFibre t [⟨BitVec.ofNat 32 u.f, BitVec.ofNat 32 u.n, 0⟩] else [t])
    dropTok 0
    pure out))

end Sys2Proof.Machine
end

