-- ==== Sys2Proof/Machine/VectorMem.lean ====
section
/-!
DEFINITION. Vector memory accesses, major 0x24 (R72 to R74), and the emission of update pairs shared by UPDV and UPD (R76, R77,
R110).
-/
namespace Sys2Proof.Machine

/-- The active elements with their addresses (R72), in ascending order. -/
def State.elemAddrs (s : State) (m : MReg) (n : Nat) (f : Nat → Word) : List (Nat × Word) :=
  let k := s.rdM m
  ((List.range n).filter (active k)).map fun i => (i, f i)

/-- Check every active element of a load before any effect (R73). -/
def checkLoads (n : Nat) (l : List (Nat × Word)) : M (List (Nat × Word × Acc)) :=
  l.mapM fun x => do
    let a ← checkM .load x.2 n n (word x.1)
    if !(← get).hitsL1 a then
      heldM [a.pa]
      doS fun s => s.arrive a.pa n
      demand (!(← get).broken a.pa) .ecc 0 x.2 (word (eccCode a.pa))
    pure (x.1, x.2, a)

/-- The lines that stored elements of n bytes cover whole (R352). -/
def coveredLines (n : Nat) (pas : List Nat) : List Nat :=
  (pas.map (· / 64)).eraseDups.filter fun ln => (List.range (64 / n)).all fun i => pas.contains (ln * 64 + i * n)

/-- The lines that the elements of a store cover whole, where their addresses translate. -/
def State.covers (s : State) (n : Nat) (l : List (Nat × Word)) : List Nat :=
  coveredLines n (l.flatMap fun x => match s.peekVa s.die s.me.asid.toNat x.2.toNat with
    | .ok t => t.allAddrs x.2.toNat
    | .error _ => [])

/-- Check every active element of a store before any effect (R73, R115). -/
def checkStores (n : Nat) (l : List (Nat × Word)) : M (List (Nat × Word × Acc)) := do
  let whole := (← get).covers n l
  l.mapM fun x => do
    let a ← checkStoreM x.2 n (word x.1) whole
    pure (x.1, x.2, a)

/-- Read one checked element (R74). -/
def readElem (n : Nat) (x : Nat × Word × Acc) : M (Nat × Nat) := do
  let s ← get
  let r := s.readBytes x.2.2 n
  let t := if s.hitsL1 x.2.2 then r.2 else r.2.watch x.2.2.pa n x.2.1 2 .hart s.agent s.me.asid.toNat (some s.pc)
  set (t.traceEvent 3 n x.2.1.toNat)
  pure (x.1, leValue r.1)

/-- A vector load (R72, R73): the active elements take what memory gives. -/
def vloadOp (d : Fin 32) (m : MReg) (e : Fin 4) (f : Nat → Word) (s : State) : Ends := ends s do
  let w := ewBits e
  let l ← checkLoads (w / 8) (s.elemAddrs m (512 / w) f)
  let r ← l.mapM (readElem (w / 8))
  doS fun s => s.mergeV d m w ((List.range (512 / w)).map fun i => ((r.find? (·.1 == i)).map (·.2)).getD 0)

/-- A vector store (R72, R73): ascending order, so the highest active index lands last at equal addresses. -/
def vstoreOp (d : Fin 32) (m : MReg) (e : Fin 4) (f : Nat → Word) (s : State) : Ends := ends s do
  let w := ewBits e
  let l ← checkStores (w / 8) (s.elemAddrs m (512 / w) f)
  let x := lanes (s.rdV d) w
  let whole := coveredLines (w / 8) (l.flatMap (·.2.2.pas))
  l.forM fun q => doS fun s =>
    (s.storeFlight { pas := q.2.2.pas, bytes := leBytes (w / 8) (x.getD q.1 0), va := q.2.1
                     whole := whole.filter fun ln => q.2.2.pas.any (· / 64 == ln) }).traceEvent 4 (w / 8) q.2.1.toNat
  if !s.me.late then doS fun s => s.clearLines whole

/-- Element addresses of consecutive elements (R72). -/
def unitAddr (base : Word) (w i : Nat) : Word := base + word (i * (w / 8))

/-- VLD (R72). -/
def execVld (d a : Fin 32) (m : MReg) (e : Fin 4) (s : State) : Ends := vloadOp d m e (unitAddr (s.rd (s5 a)) (ewBits e)) s

/-- VST (R72). -/
def execVst (d a : Fin 32) (m : MReg) (e : Fin 4) (s : State) : Ends := vstoreOp d m e (unitAddr (s.rd (s5 a)) (ewBits e)) s

/-- VLDS (R72): a signed stride in bytes. -/
def execVlds (d a b : Fin 32) (m : MReg) (e : Fin 4) (s : State) : Ends :=
  vloadOp d m e (fun i => s.rd (s5 a) + word i * s.rd (s5 b)) s

/-- VSTS (R72). -/
def execVsts (d a b : Fin 32) (m : MReg) (e : Fin 4) (s : State) : Ends :=
  vstoreOp d m e (fun i => s.rd (s5 a) + word i * s.rd (s5 b)) s

/-- VGTH (R72): an unsigned index scaled by the element's bytes. -/
def execVgth (d a b : Fin 32) (m : MReg) (e : Fin 4) (s : State) : Ends :=
  vloadOp d m e (fun i => s.rd (s5 a) + word (lane (s.rdV b) (ewBits e) i * (ewBits e / 8))) s

/-- VSCT (R72). -/
def execVsct (d a b : Fin 32) (m : MReg) (e : Fin 4) (s : State) : Ends :=
  vstoreOp d m e (fun i => s.rd (s5 a) + word (lane (s.rdV b) (ewBits e) i * (ewBits e / 8))) s

/-- VLDB (R72): one access, written to every active element. -/
def execVldb (d a : Fin 32) (m : MReg) (e : Fin 4) (s : State) : Ends := ends s do
  let w := ewBits e
  let n := 512 / w
  match s.elemAddrs m n fun _ => 0 with
  | [] => pure ()
  | x :: _ =>
    let v ← loadM (s.rd (s5 a)) (w / 8) (word x.1)
    doS fun s => s.mergeV d m w (List.replicate n v)

/-! ## Update pairs (R76, R110) -/

/-- The live region of the hart's ASID that holds a virtual address (R76). -/
def State.regionOf (s : State) (asid : Nat) (va : Word) : Option (Nat × URegion) :=
  List.find? (fun r => r.2.asid == asid && decide (r.2.base.toNat ≤ va.toNat) && decide (va.toNat < r.2.base.toNat + r.2.size)) s.regions

/-- Whether a region's element type accepts a value width (R76). -/
def etypeTakes (etype bits : Nat) : Bool :=
  if bits == 16 then etype == 1 else if bits == 64 then etype == 3 || etype == 6 else etype == 0 || etype == 2 || etype == 4 || etype == 5

/-- Steps 2 to 5 of R41 as a write, then the region (R76): the element's address and region. -/
def checkUpdM (va : Word) (align : Nat) (bits : Option Nat) (aux : Word) : M (Nat × Nat × URegion) := do
  demand (va.toNat % align == 0) .misalign 0 va aux
  let s ← get
  let r := s.check s.die s.me.asid.toNat s.me.pl .store va align
  set r.1
  match r.2 with
  | .error (.link, _, _) => trapM .uregion 0 va aux
  | .error (c, k, _) => trapM c k va aux
  | .ok a =>
    match s.regionOf s.me.asid.toNat va with
    | none => trapM .uregion 0 va aux
    | some x =>
      demand (match bits with | some b => etypeTakes x.2.etype b | none => true) .uregion 0 va aux
      pure (a.pa, x.1, x.2)

/-- UPDV (R76): every check before any emission, then one pair for each active element in ascending order. -/
def execUpdv (d a b : Fin 32) (m : MReg) (e : Fin 4) (s : State) : Ends := ends s do
  let w := ewBits e
  let sc := if w = 64 then 8 else 4
  let addrs := s.elemAddrs m (512 / w) fun i => s.rd (s5 a) + word (lane (s.rdV b) w i * sc)
  let l ← addrs.mapM fun x => do
    let r ← checkUpdM x.2 sc (some w) (word x.1)
    pure (x.1, r)
  l.forM fun x => doS fun s => s.emitPair x.2.1 x.2.2.1 (pairValue x.2.2.2.etype (word (lane (s.rdV d) w x.1)))

end Sys2Proof.Machine
end

