-- ==== Sys2Proof/Machine/ElemStream.lean ====
section
/-!
DEFINITION. Stream units (R174 to R191): scanners with skips, joiners, the repeater, the reducer, the array reader, level
writers, the update sink.
-/
namespace Sys2Proof.Machine

/-! ## The tile's store (R173, R287) -/

/-- n bits of the unit's own store from a bit offset; outside the store, STREAMPROTO (R175). -/
def storeBits (off n : Nat) : U Nat := do
  let s ← get
  let lo := off / 8
  let len := (off % 8 + n + 7) / 8
  needU (lo + len ≤ 0x300000)
  let pa := storeAddr s.focus.tile.die (TileNo s.focus.tile) lo
  needU (!(linesOf pa len).any fun ln => s.broken (ln * 64))
  pure (s.valueAt pa len / 2 ^ (off % 8) % 2 ^ n)

def storeWord (off : Nat) : U Nat := storeBits (8 * off) 32

/-- A descriptor of the unit's tile. -/
def descU (n : Nat) : U Nat := do return (← focusTc).desc n

/-- The write-log entry of one write (R190). -/
def logBits (bitAddr n v : Nat) : List (Nat × Nat × Nat) := [(bitAddr, n, v % 2 ^ n)]

/-- Log a write of n bits at a bit offset of the unit's own store. -/
def logStore (off n v : Nat) : U Unit := do
  let s ← get
  needU (off + n ≤ 8 * 0x300000)
  let pa := storeAddr s.focus.tile.die (TileNo s.focus.tile) 0
  updUnit fun u => { u with wlog := u.wlog ++ logBits (8 * pa + off) n v }

/-! ## Token discipline (R176, R177) -/

def isStop (k : Nat) : Bool := 1 ≤ k && k ≤ 8

/-- A DONE that no stop directly precedes takes STREAMPROTO at a unit that examines stops (R176). -/
def seenTok (k : Nat) : U Unit := do
  needU (k != kDone || isStop (← unitSt).prev)
  if k != kCommit then updUnit fun u => { u with prev := k }

/-! ## Scanners (R179 to R181) -/

/-- What a root unit reads: DATA 0 and DONE at each firing, and COMMIT after it with CAUTO (R179, R229); a draining task
begins no firing (R230). -/
def rootPeek : U Tok := do
  let u ← unitSt
  match u.toks with
  | t :: _ => pure t
  | [] =>
    let k := (← get).task (← focusTask)
    if u.fires == 0 || k.state == .draining then idleU
    else
      updUnit fun u => { u with fires := u.fires - 1, emitted := u.emitted + 1, toks := [⟨0, 0, 0⟩, ⟨0, 0, kDone⟩] ++ (if k.cauto then [⟨0, 0, kCommit⟩] else []) }
      pure ⟨0, 0, 0⟩

def scanPeek (root : Bool) : U Tok := do
  let t ← if root then rootPeek else peekTok 0
  tokKindM t.k
  pure t

def scanDrop (root : Bool) : U Unit := if root then updUnit fun u => { u with toks := u.toks.drop 1 } else dropTok 0

/-- The bitmap of fibre p: every bit of its words (R174). -/
def fibreBits (d p : Nat) : U Nat := do
  let dim := dfield d 4 4
  let w := (dim + 31) / 32
  let words ← (List.range w).mapM fun i => storeWord (dfield d 8 4 + 4 * w * p + 4 * i)
  pure (words.zipIdx.foldl (fun a x => a + x.1 * 2 ^ (32 * x.2)) 0)

/-- Begin a fibre (R180): a parent beyond nfib or a fibre beyond maxfib takes STREAMPROTO. -/
def startScan (kind d p : Nat) : U Scan := do
  needU (p < dfield d 20 4)
  let dim := dfield d 4 4
  let maxfib := dfield d 24 4
  match kind with
  | 1 =>
    let lo ← storeWord (dfield d 8 4 + 4 * p)
    let hi ← storeWord (dfield d 8 4 + 4 * p + 4)
    needU (lo ≤ hi && hi - lo ≤ maxfib)
    pure { p := p, pos := lo, stop := hi }
  | 2 =>
    let bm ← fibreBits d p
    let most := (dim + 31) / 32 * 32
    needU (popCount bm most ≤ maxfib)
    pure { p := p, pos := 0, stop := most }
  | _ =>
    needU (dim ≤ maxfib)
    pure { p := p, pos := 0, stop := dim }

/-- The next entry of a fibre (R174): its coordinate, reference and the position after it. -/
def nextEntry (kind d : Nat) (f : Scan) : U (Option (Nat × Nat × Nat)) := do
  let ref (r : Nat) : Nat := (r + dfield d 28 4) % 2 ^ 32
  match kind with
  | 1 =>
    if f.pos < f.stop then
      let c ← storeWord (dfield d 12 4 + 4 * f.pos)
      needU (match f.lastC with | some x => decide (x < c) | none => true)
      pure (some (c, ref f.pos, f.pos + 1))
    else pure none
  | 2 =>
    let bm ← fibreBits d f.p
    match (List.range f.stop).find? fun j => f.pos ≤ j && bm.testBit j with
    | some j =>
      let rank ← storeWord (dfield d 12 4 + 4 * f.p)
      pure (some (j, ref (rank + popCount bm j), j + 1))
    | none => pure none
  | _ => pure (if f.pos < f.stop then some (f.pos, ref (f.p * dfield d 4 4 + f.pos), f.pos + 1) else none)

/-- The end-of-fibre coordinate of a skip token (R181). -/
def skipEnd : Nat := 0x3FFFFFFF

/-- The position of the first entry at or beyond a coordinate in a compressed fibre. -/
def gallop (d c stop : Nat) : Nat → Nat → U Nat
  | 0, pos => pure pos
  | fuel + 1, pos => do
    if stop ≤ pos then pure pos
    else
      let x ← storeWord (dfield d 12 4 + 4 * pos)
      if c ≤ x then pure pos else gallop d c stop fuel (pos + 1)

/-- Apply a skip token, or discard it (R181). -/
def applySkip (kind d : Nat) (v : Nat) : U Unit := do
  let u ← unitSt
  let c := v % 2 ^ 30
  match u.scan with
  | none => pure ()
  | some f =>
    if v / 2 ^ 30 % 4 != u.stops % 4 then pure ()
    else
      let pos ←
        if c == skipEnd then pure f.stop
        else if kind == 1 then gallop d c f.stop (f.stop - f.pos) f.pos
        else pure (max f.pos (min c f.stop))
      updUnit fun u => { u with scan := some { f with pos := pos } }

/-- Take one skip token, if there is one (R181). -/
def takeSkip (kind d : Nat) : U Bool := do
  match ← tryU (takeScalar 1) with
  | some v =>
    applySkip kind d v.toNat
    pure true
  | none => pure false

/-- A closing stop leaves the scanner: it counts (R181). -/
def closeStop (level : Nat) : U (List Tok) := do
  updUnit fun u => { u with scan := none, stops := u.stops + 1 }
  pure [⟨0, 0, level + 1⟩]

/-- A driven scanner's position is recorded as COMMIT passes it (R180). -/
def markScan : U Unit := do
  let t ← focusTask
  let u ← unitSt
  modify fun s => s.updTask t fun k => { k with marks := Tbl.set k.marks (TileNo s.focus.tile * 16 + s.focus.slot.val) u }

/-- One action of a scanner (R180). -/
def scanBody (kind d : Nat) (root : Bool) : U (List Tok) := do
  let u ← unitSt
  let next ← match u.scan with
    | some f => nextEntry kind d f
    | none => pure none
  match u.scan, next with
  | some f, some (c, r, pos) =>
    updUnit fun u => { u with scan := some { f with pos := pos, lastC := some c } }
    pure [⟨BitVec.ofNat 32 c, BitVec.ofNat 32 r, 0⟩]
  | _, _ =>
    let t ← scanPeek root
    if u.scan.isSome && (t.k == 0 || t.k == kDone) then closeStop 0
    else if t.k == 0 then
      let f ← startScan kind d t.v.toNat
      updUnit fun u => { u with scan := some f }
      scanDrop root
      pure []
    else if isStop t.k then
      needU (t.k < 8)
      scanDrop root
      closeStop t.k
    else
      if t.k == kDrain then updUnit fun u => { u with scan := none }
      if t.k == kCommit && !root then markScan
      markDrain t.k
      scanDrop root
      pure [⟨0, 0, t.k⟩]

/-- Whether every consumer of the output holds fewer of its beats than the depth that the route gives (R203). -/
def routeRoom : U Bool := do
  let s ← get
  pure ((s.consumers s.focus.tile.die.val s.focus.ctx.val 0 64 (TileNo s.focus.tile) (s.focus.slot.val + 4) 0).all fun x => decide (x.1 < x.2))

/-- A scanner's step (R179): with a skip input, one token in each beat, and none beyond what the route may hold (R203). -/
def scanStep (kind n : Nat) (skips root : Bool) : U Unit := do
  let d ← descU n
  if skips then
    let took ← takeSkip kind d
    let room ← routeRoom
    let emit : U Unit := do
      let l ← scanBody kind d root
      if l != [] && !room then idleU
      emitToks l
    if took then
      let _ ← tryU emit
    else emit
  else burst (scanBody kind d root)

/-- SCANC (R179, R180). -/
def execScanc (_a b : Fin 16) (r : Bool) (d : Fin 16) (s : State) : Ends := unitEnds s (scanStep 1 d (b ≠ 0) r)
/-- SCANB (R179, R180). -/
def execScanb (_a b : Fin 16) (r : Bool) (d : Fin 16) (s : State) : Ends := unitEnds s (scanStep 2 d (b ≠ 0) r)
/-- SCAND (R179, R180). -/
def execScand (_a b : Fin 16) (r : Bool) (d : Fin 16) (s : State) : Ends := unitEnds s (scanStep 3 d (b ≠ 0) r)

/-- SKIP_TOKEN (R181): the scanner in focus takes the skip token at its input. -/
def execSkipToken (s : State) : Ends :=
  unitEnds s (do
    match (← focusTc).word s.focus.slot.val with
    | some e =>
      if 0x20 ≤ e.eop && e.eop ≤ 0x22 && e.b != 0 then
        let took ← takeSkip (e.eop - 0x1F) (← descU (e.mode % 16))
        if !took then idleU
      else idleU
    | none => idleU)

/-! ## Joiners (R182, R183, R185) -/

/-- Send to the joiner's two outputs. -/
def emitBoth (a b : Tok) : U Unit := do
  let n := (← get).focus.slot.val
  sendToks 0 (n + 4) [a]
  sendToks 0 (n + 8) [b]

/-- Whether each reader of a narrow output can take one more token beside those on their way to it. -/
def linkRoom (code : Nat) : U Bool := do
  let c ← focusTc
  let q := (Tbl.getD c.outs (outKey 1 code) {}).q
  pure ((c.readers 1 code).all fun r => decide (q.length + (c.buf r).q.length < (c.buf r).depth))

/-- A skip request (R183): only when C exceeds the last one sent to that side in the fibre; a full link drops it. -/
def requestSkip (sideB on : Bool) (c : Nat) : U Unit := do
  let u ← unitSt
  let n := (← get).focus.slot.val
  let code := 2 * n + 1 + sideB.toNat
  let last := if sideB then u.lastSkipB else u.lastSkipA
  let room ← linkRoom code
  if on && room && (match last with | some x => decide (x < c) | none => true) then
    let gen := (if sideB then u.stopsB else u.stops) % 4
    emitNarrow 1 code (gen * 2 ^ 30 + c % 2 ^ 30)
    updUnit fun u => if sideB then { u with lastSkipB := some c } else { u with lastSkipA := some c }

def missing : BitVec 32 := 0xFFFFFFFF#32

/-- One decision of a joiner: `both` makes the pair for equal coordinates, `one` that for a coordinate on one side only. -/
def joinStep (ska skb : Bool) (both : Tok → Tok → U (Tok × Tok)) (one : Bool → Tok → Option (Tok × Tok)) : U Unit := do
  let a ← peekTok 0
  let b ← peekTok 1
  tokKindM a.k
  tokKindM b.k
  let send (p : Option (Tok × Tok)) : U Unit := match p with
    | some x => emitBoth x.1 x.2
    | none => pure ()
  if a.k == 0 && b.k == 0 && a.c == b.c then
    let r ← both a b
    dropTok 0
    dropTok 1
    updUnit fun u => { u with prev := 0 }
    send (some r)
  else if a.k == 0 && ((b.k == 0 && a.c.toNat < b.c.toNat) || isStop b.k) then
    dropTok 0
    updUnit fun u => { u with prev := 0 }
    requestSkip false ska (if b.k == 0 then b.c.toNat else skipEnd)
    send (one false a)
  else if b.k == 0 && (a.k == 0 || isStop a.k) then
    dropTok 1
    updUnit fun u => { u with prev := 0 }
    requestSkip true skb (if a.k == 0 then a.c.toNat else skipEnd)
    send (one true b)
  else
    needU (a.k == b.k)
    seenTok a.k
    dropTok 0
    dropTok 1
    if isStop a.k then
      updUnit fun u => { u with stops := u.stops + 1, stopsB := u.stopsB + 1, lastSkipA := none, lastSkipB := none }
    markDrain a.k
    send (some (⟨0, 0, a.k⟩, ⟨0, 0, a.k⟩))

/-- ISECT (R183). -/
def execIsect (_a _b : Fin 16) (y x : Bool) (s : State) : Ends :=
  unitEnds s (joinStep x y (fun a b => pure (a, { b with c := a.c })) fun _ _ => none)

/-- UNION (R183): a missing reference is 0xFFFF_FFFF. -/
def execUnion (_a _b : Fin 16) (s : State) : Ends :=
  unitEnds s (joinStep false false (fun a b => pure (a, { b with c := a.c })) fun side t =>
    some (if side then ({ t with v := missing }, t) else (t, { t with v := missing })))

/-- The combination of CMERGE (R185). -/
def mergeFn (o : Nat) : ElemFn :=
  match o with
  | 0 => fiFn (fun rm x y => x.add rm y) (· + ·)
  | 1 => pickFn true
  | 2 => pickFn false
  | _ => fun _ _ _ l => (arg l 0, 0)

/-- CMERGE (R185). -/
def execCmerge (_a _b f : Fin 16) (o : Fin 4) (s : State) : Ends :=
  unitEnds s (joinStep false false
    (fun a b => do
      let v ← applyFn (mergeFn o) (fmtOf f) [a.v.toNat, b.v.toNat]
      let t : Tok := ⟨a.c, BitVec.ofNat 32 v, 0⟩
      pure (t, t))
    fun _ t => some (t, t))

/-- CROP (R184). -/
def execCrop (_a _b f : Fin 16) (x : Bool) (s : State) : Ends :=
  unitEnds s (do
    let t ← peekTok 0
    tokKindM t.k
    let keep ←
      if t.k != 0 then pure true
      else if x then do
        let u ← unitSt
        if u.scal == [] then
          let lo ← takeScalar 1
          -- the second scalar may still be on its way: the first stays held
          updUnit fun u => { u with scal := [lo] }
        let u ← unitSt
        if u.scal.length == 1 then
          match ← tryU (takeScalar 1) with
          | some hi => updUnit fun u => { u with scal := u.scal ++ [hi] }
          | none => throw .keep
        let u ← unitSt
        pure (decide ((u.scal.getD 0 0).toNat ≤ t.c.toNat) && decide (t.c.toNat < (u.scal.getD 1 0).toNat))
      else pure ((fmtOf f).nonzero t.v.toNat)
    dropTok 0
    if t.k == kDone then updUnit fun u => { u with scal := [] }
    markDrain t.k
    if keep then emitBoth t t)

/-! ## Repeater and reducer (R186, R187) -/

/-- COMMIT and DRAIN on port b are consumed wherever they stand (R186). -/
def reptSkipB : U Bool := do
  if !(← hasTok 1) then pure false
  else
    let t ← peekTok 1
    if t.k == kCommit || t.k == kDrain then
      dropTok 1
      if t.k == kDrain then updUnit fun u => if u.flag then u else { u with toks := [] }
      pure true
    else pure false

/-- Take one token of the fibre that port b gives: `flag` marks a held fibre; 1,024 tokens with its stop (R186). -/
def reptTake : U (List Tok) := do
  let t ← peekTok 1
  tokKindM t.k
  needU (t.k ≤ 8)
  dropTok 1
  if t.k == 0 then
    needU ((← unitSt).toks.length + 1 < 1024)
    updUnit fun u => { u with toks := u.toks ++ [t] }
  else updUnit fun u => { u with flag := true }
  pure []

/-- One action of the repeater: `any` marks a replay that no stop has closed. -/
def reptBody : U (List Tok) := do
  if ← reptSkipB then pure []
  else
    let t ← peekTok 0
    tokKindM t.k
    let u ← unitSt
    if u.any && (t.k == 0 || t.k == kDone) then
      updUnit fun u => { u with any := false }
      pure [⟨0, 0, 1⟩]
    else if t.k ≤ 8 && !u.flag then reptTake
    else if t.k == 0 then
      match u.toks[u.n]? with
      | some x =>
        updUnit fun u => { u with n := u.n + 1 }
        pure [x]
      | none =>
        dropTok 0
        updUnit fun u => { u with n := 0, any := true }
        pure []
    else if t.k ≤ 8 then
      needU (t.k < 8)
      dropTok 0
      updUnit fun u => { u with any := false, flag := false, toks := [], n := 0 }
      pure [⟨0, 0, t.k + 1⟩]
    else if t.k == kDone then
      let b ← peekTok 1
      needU (b.k == kDone)
      dropTok 0
      dropTok 1
      updUnit fun u => { u with flag := false, toks := [], n := 0 }
      pure [⟨0, 0, kDone⟩]
    else
      dropTok 0
      if t.k == kDrain then updUnit fun u => { u with any := false, flag := false, toks := [], n := 0 }
      markDrain t.k
      pure [⟨0, 0, t.k⟩]

/-- REPT (R186). -/
def execRept (_a _b : Fin 16) (s : State) : Ends := unitEnds s (burst reptBody)

/-- The reduction of two values (R187): 0 ADD, 1 MAX, 2 MIN. -/
def reduceFn (o : Nat) : ElemFn := mergeFn o

/-- REDC (R187). -/
def execRedc (_a f : Fin 16) (o : Fin 4) (n : Bool) (s : State) : Ends :=
  let ft := fmtOf f
  unitEnds s (burst (do
    let t ← peekTok 0
    tokKindM t.k
    seenTok t.k
    let u ← unitSt
    dropTok 0
    if t.k == 0 then
      let v := if ft == .bf16 then t.v <<< 16 else t.v
      let acc ← match u.tsA with
        | some a => do pure (BitVec.ofNat 32 (← applyFn (reduceFn o) (if ft == .s32 then .s32 else .f32) [a.toNat, v.toNat]))
        | none => pure v
      updUnit fun u => { u with tsA := some acc }
      pure []
    else if t.k ≤ 8 then
      let i : BitVec 32 := BitVec.ofNat 32 u.n
      let head : List Tok := match u.tsA with
        | some a => [⟨i, a, 0⟩]
        | none => if n then [] else [⟨i, 0, 0⟩]
      updUnit fun u => { u with tsA := none, n := if 2 ≤ t.k then 0 else u.n + 1 }
      pure (closeFibre ⟨0, 0, t.k⟩ head)
    else
      updUnit fun u => { u with tsA := none, n := if t.k == kCommit then u.n else 0 }
      markDrain t.k
      pure [⟨0, 0, t.k⟩]))

/-! ## Array reader and level writers (R188 to R190) -/

/-- ARRD (R188). DESIGN CHOICE (assumption 103): an element narrower than 16 bits lies in the low bits of the value field, the others zero; and
the bound 0 to dim − 1 is on the reference less the base, modulo 2^32. -/
def execArrd (_a _f d : Fin 16) (s : State) : Ends :=
  unitEnds s (burst (do
    let t ← peekTok 0
    tokKindM t.k
    let de ← descU d
    let v ←
      if t.k != 0 then pure t.v
      else if t.v == missing then pure 0
      else do
        let i := (t.v.toNat + 2 ^ 32 - dfield de 28 4) % 2 ^ 32
        needU (i < dfield de 4 4)
        let w := (fmtOf (dfield de 1 1)).width
        let x ← storeBits (8 * dfield de 16 4 + i * w) w
        pure (BitVec.ofNat 32 x)
    dropTok 0
    markDrain t.k
    pure [{ t with v := v }]))

/-- A pass of a writer starts again at its first fibre (R189). -/
def UnitSt.newPass (u : UnitSt) : UnitSt := { u with f := 0, q := 0, lastSkipA := none, flag := false, any := false, pos := [] }

/-- What a writer does before the first token of a pass and of a fibre (R189): seg[0] or rank[0] and the bitmap words. -/
def writerOpen (kind d : Nat) : U Unit := do
  let u ← unitSt
  if !u.any && kind != 3 then logStore (8 * dfield d (if kind == 1 then 8 else 12) 4) 32 0
  if !u.flag && kind == 2 then
    let w := (dfield d 4 4 + 31) / 32
    (List.range w).forM fun i => logStore (8 * (dfield d 8 4 + 4 * (w * u.f + i))) 32 0
  updUnit fun u => { u with any := true, flag := true }

/-- A level writer's DATA (R189). -/
def writerData (kind d c v : Nat) : U Unit := do
  let u ← unitSt
  let dim := dfield d 4 4
  let w := (fmtOf (dfield d 1 1)).width
  needU (c < dim && (kind == 3 || match u.lastSkipA with | some x => decide (x < c) | none => true))
  match kind with
  | 1 =>
    needU (u.q < dfield d 24 4)
    logStore (8 * (dfield d 12 4 + 4 * u.q)) 32 c
    logStore (8 * dfield d 16 4 + u.q * w) w v
  | 2 =>
    needU (u.q < dfield d 24 4)
    logStore (8 * (dfield d 8 4 + 4 * ((dim + 31) / 32 * u.f)) + c) 1 1
    logStore (8 * dfield d 16 4 + u.q * w) w v
  | _ => logStore (8 * dfield d 16 4 + (u.f * dim + c) * w) w v
  updUnit fun u => { u with q := u.q + (if kind == 3 then 0 else 1), lastSkipA := some c, pos := if kind == 3 then c :: u.pos else [], n := u.n + 1 }

/-- A level writer's stop (R189): f reaching nfib takes STREAMPROTO. -/
def writerStop (kind d : Nat) (zf : Bool) : U Unit := do
  let u ← unitSt
  let dim := dfield d 4 4
  let w := (fmtOf (dfield d 1 1)).width
  match kind with
  | 1 => logStore (8 * (dfield d 8 4 + 4 * (u.f + 1))) 32 u.q
  | 2 => logStore (8 * (dfield d 12 4 + 4 * (u.f + 1))) 32 u.q
  | _ =>
    if zf then ((List.range dim).filter fun j => !u.pos.contains j).forM fun j => logStore (8 * dfield d 16 4 + (u.f * dim + j) * w) w 0
  needU (u.f + 1 < dfield d 20 4)
  updUnit fun u => { u with f := u.f + 1, lastSkipA := none, flag := false, pos := [] }

/-- DONE has passed an exit of the region (R227). -/
def exitU : U Unit := do
  let t ← focusTask
  modify fun s => s.exitDone t (TileNo s.focus.tile * 128 + s.focus.slot.val)

/-- One token of a level writer; COMMIT and DRAIN wait at its input for the region commit (R229). -/
def writerBody (kind n : Nat) (zf : Bool) : U (List Tok) := do
  let t ← peekTok 0
  tokKindM t.k
  if t.k == kCommit || t.k == kDrain then idleU
  else
    let d ← descU n
    seenTok t.k
    if t.k == kDone then
      let u ← unitSt
      dropTok 0
      updUnit fun u => { u.newPass with n := 0 }
      exitU
      pure [⟨0, BitVec.ofNat 32 u.n, 0⟩, ⟨0, 0, kDone⟩]
    else
      writerOpen kind d
      if t.k == 0 then writerData kind d t.c.toNat t.v.toNat else writerStop kind d zf
      dropTok 0
      pure []

/-- LWC (R189, R190). -/
def execLwc (_a _f d : Fin 16) (s : State) : Ends := unitEnds s (burst (writerBody 1 d false))
/-- LWB (R189, R190). -/
def execLwb (_a _f d : Fin 16) (s : State) : Ends := unitEnds s (burst (writerBody 2 d false))
/-- LWD (R189, R190). -/
def execLwd (_a _f : Fin 16) (z : Bool) (d : Fin 16) (s : State) : Ends := unitEnds s (burst (writerBody 3 d z))

/-! ## Translation of streams (R414, R415) -/

/-- A saved continuation takes a trap when it runs again. -/
def Rec.tell (r : Rec) (p : Party) (t : PendTrap) : Rec :=
  if (recParty r).same p then { r with saved := r.saved.map fun c => { c with pend := c.pend ++ [t] } } else r

/-- Give a trap to a continuation wherever it is: at its waiting instruction, or between its instructions (R101). -/
def State.tellCont (s : State) (p : Party) (t : PendTrap) : Option State :=
  match s.waitsOf p with
  | e :: _ => some (s.deliver e t)
  | [] =>
    match s.hartOfParty p with
    | some h => some (s.updHart h fun x => { x with ctx := { x.ctx with pend := x.ctx.pend ++ [t] } })
    | none =>
      if s.dies.toList.any fun d => d.pool.any fun r => (recParty r).same p && r.saved.isSome then
        some (s.mapDies fun d => { d with pool := d.pool.map fun r => r.tell p t })
      else none

/-- The continuation whose FARM last armed a task (R415). -/
def Task.armer (k : Task) : Party := ⟨match k.arming with | some h => hartAgent h | none => 0, k.armingCont⟩

/-- A translation fault of a stream (R415): the arming hart takes it, or the launch faults; one trap for each page. -/
def State.streamFault (s : State) (t : TaskId) (slot : Nat) (c : Cause) (detail : Nat) (va : Word) : State :=
  let k := s.task t
  let p : PendTrap := ⟨c, detail, va, word (taskAgent t + slot * 2 ^ 32), [], none⟩
  match s.tellCont k.armer p with
  | some s => s
  | none => if k.launch == 0 then s else s.faultLaunch k.launch c (taskAgent t)

/-- The page of an address, with its size: the leaf that maps it, or the smallest page where none does (R412, R415). -/
def State.pageOf (s : State) (d : Fin 6) (asid : Nat) (va : Word) : Nat × Nat :=
  match s.peekVa d asid va.toNat with
  | .ok t => (t.va, t.size)
  | .error _ => (va.toNat / 65536 * 65536, 65536)

/-- Whether another stream of the task holds a fault that was raised on the same page (R415). -/
def State.pageFaulted (s : State) (t : TaskId) (va : Word) : Bool :=
  let k := s.task t
  let page := s.pageOf (taskDie t) k.asid
  (tilesOf t k.w1 k.h1).any fun tile => (s.tc (taskDie t).val tile (taskCtx t).val).units.any fun ((_, u) : Nat × UnitSt) =>
    match u.stalled with
    | some (a, 1) => page a == page va
    | _ => false

/-- Stall the unit at an address, with a walk in flight or a fault raised. -/
def stallU {α : Type} (va : Word) (how : Nat) : U α := do
  updUnit fun u => { u with stalled := some (va, how) }
  throw .keep

/-- Raise a translation fault and stall. -/
def streamFaultU {α : Type} (c : Cause) (detail : Nat) (va : Word) : U α := do
  let t ← focusTask
  let s ← get
  if !s.pageFaulted t va then set (s.streamFault t s.focus.slot.val c detail va)
  stallU va 1

/-- The entry that serves a stream's access: from the tile's cache or its die's, else the stream waits for a walk (R414). -/
def translateU (va : Word) : U TlbEntry := do
  let s ← get
  let k := s.task (← focusTask)
  if (← unitSt).stalled.isSome then idleU
  if !canonical va then streamFaultU .access 0 va
  let d := s.focus.tile.die
  let hit (l : List TlbEntry) : Option TlbEntry := l.find? (·.covers k.asid va.toNat)
  match hit (Tbl.getD s.mtTlb (d.val * 480 + TileNo s.focus.tile) []) with
  | some e => pure e
  | none => match hit (s.getDie d).tlb with
    | some e => pure e
    | none => stallU va 0

/-- TRANSLATION_WALK_COMPLETE (R414, R415): a walk in flight for a stream ends with an entry or a fault. -/
def execTranslationWalkComplete (u : UnitRef) (s0 : State) : Ends :=
  let s := { s0 with focus := u }
  let st := Tbl.getD (s.tc u.tile.die.val (TileNo u.tile) u.ctx.val).units u.slot.val {}
  match st.stalled, s.ownerOf u.tile.die.val (TileNo u.tile) u.ctx.val with
  | some (va, 0), some t =>
    let free (s : State) : State := s.updTc u.tile.die.val (TileNo u.tile) u.ctx.val fun c =>
      { c with units := Tbl.upd c.units u.slot.val {} fun x => { x with stalled := none } }
    match s.translateMt u.tile.die (TileNo u.tile) (s.task t).asid va.toNat with
    | (s, .ok _) => .next (free s)
    | (s, .error (c, k)) =>
      let f := if s.pageFaulted t va then s else s.streamFault t u.slot.val c k va
      .next (f.updTc u.tile.die.val (TileNo u.tile) u.ctx.val fun x =>
        { x with units := Tbl.upd x.units u.slot.val {} fun x => { x with stalled := some (va, 1) } })
  | _, _ => .next s0

/-! ## Update sink (R191) -/

/-- The two scalar tokens of the virtual base, held until DONE. -/
def sinkBase : U Word := do
  if (← unitSt).scal == [] then
    let lo ← takeScalar 1
    updUnit fun u => { u with scal := [lo] }
  if (← unitSt).scal.length == 1 then
    match ← tryU (takeScalar 1) with
    | some hi => updUnit fun u => { u with scal := u.scal ++ [hi] }
    | none => throw .keep
  let u ← unitSt
  pure (word ((u.scal.getD 0 0).toNat + (u.scal.getD 1 0).toNat * 2 ^ 32))

/-- A failed check of a pair: STREAMPROTO, with UREGION in FSTAT.CAUSE (R191). -/
def sinkNeed (b : Bool) : U Unit := if b then pure () else throw (.fault .streamproto .uregion)

/-- One pair of the sink: the checks of UPDV, then the log (R76, R191); only a walk that fails stalls it (R415). -/
def sinkData (f : Fmt) (wide : Nat) (t : Tok) : U Unit := do
  let base ← sinkBase
  let size := if wide == 0 then 4 else 8
  let va := base + word (t.c.toNat * size)
  sinkNeed (va.toNat % size == 0 && canonical va)
  let e ← translateU va
  let s ← get
  let k := s.task (← focusTask)
  match s.judge s.focus.tile.die false .store va size e with
  | .error _ => sinkNeed false
  | .ok a =>
    match s.regionOf k.asid va with
    | none => sinkNeed false
    | some (id, r) =>
      sinkNeed (etypeTakes r.etype (if wide != 0 then 64 else if f == .bf16 then 16 else 32))
      let v : Word := match wide with
        | 0 => word t.v.toNat
        | 1 => t.v.signExtend 64
        | _ => t.v.zeroExtend 64
      let agent := taskAgent (← focusTask)
      let q := s.nextSeq agent
      set q.2
      updUnit fun u => { u with plog := u.plog ++ [{ pa := a.pa, val := pairValue r.etype v, rid := id, agent := agent, seq := q.1, launch := k.launch }] }

/-- UPSINK (R191): COMMIT and DRAIN wait at its input for the region commit. -/
def execUpsink (_a _b f : Fin 16) (w : Fin 4) (s : State) : Ends :=
  unitEnds s (do
    let t ← peekTok 0
    tokKindM t.k
    if t.k == kCommit || t.k == kDrain then idleU
    if t.k == 0 then sinkData (fmtOf f) w t
    dropTok 0
    if t.k == kDone then
      updUnit fun u => { u with scal := [] }
      exitU)

end Sys2Proof.Machine
end

