-- ==== Sys2Proof/Machine/Replay.lean ====
section
/-!
DEFINITION. The replay queue (R403, R404): late loads, their return, the re-injection of a frame's entries, and which registers
an instruction word names, so that an instruction waits for the results it needs.
-/
namespace Sys2Proof.Machine

/-- The bytes of a load size (R16, R40). -/
def LdBytes : LdSize → Nat
  | .s8 | .z8 => 1
  | .s16 | .z16 => 2
  | .s32 | .z32 => 4
  | .d64 => 8

/-- A loaded value extended as the size code says (R40). -/
def extendLoad (z : LdSize) (v : Nat) : Word :=
  match z with
  | .s8 => (BitVec.ofNat 8 v).signExtend 64
  | .s16 => (BitVec.ofNat 16 v).signExtend 64
  | .s32 => (BitVec.ofNat 32 v).signExtend 64
  | _ => word v

/-- Whether a word is of a kind the queue admits (R403): LD, LDX, and ALU fn 10 to 16. -/
def replayable (w : Nat) : Bool :=
  match decodeControl w with
  | .ok (.ld _ _ _ _) => true
  | .ok (.ldx _ _ _ _) => true
  | .ok (.mul _ _ _) | .ok (.mulh _ _ _) | .ok (.mulhz _ _ _) => true
  | .ok (.div _ _ _) | .ok (.divz _ _ _) | .ok (.rem _ _ _) | .ok (.remz _ _ _) => true
  | _ => false

/-- A load of the queue is performed: one that has committed where its checks left it, unless a link on the way has gone down since
(R403); one that a frame brought back translates afresh (R404). Its record was written when it issued. -/
def lateLoadM (r : Replay) (n : Nat) : M Nat := do
  match r.served with
  | some (pa, cached) =>
    demand ((← get).reaches (← get).die pa) .link 0 r.opa (word (pkgOf pa))
    performLoadM ⟨pa, [pa], cached, false⟩ r.opa n
  | none => performLoadM (← checkM .load r.opa n n) r.opa n

/-- Run one entry with its captured operands (R403, R404). -/
def replayM (r : Replay) : M Unit := do
  match decodeControl r.word.toNat with
  | .ok (.ld d _ z _) => wrM d (extendLoad z (← lateLoadM r (LdBytes z)))
  | .ok (.ldx d _ _ z) => wrM d (extendLoad z (← lateLoadM r (LdBytes z)))
  | .ok (.mul d _ _) => wrM d (r.opa * r.opb)
  | .ok (.mulh d _ _) => wrM d (BitVec.ofInt 64 (r.opa.toInt * r.opb.toInt / (2 ^ 64 : Nat)))
  | .ok (.mulhz d _ _) => wrM d (word (r.opa.toNat * r.opb.toNat / 2 ^ 64))
  | .ok (.div d _ _) => doS fun s => (if r.opb = 0 then s.setDz else s).wr d (divQuot r.opa r.opb)
  | .ok (.divz d _ _) => doS fun s => (if r.opb = 0 then s.setDz else s).wr d (divzQuot r.opa r.opb)
  | .ok (.rem d _ _) => doS fun s => (if r.opb = 0 then s.setDz else s).wr d (divRem r.opa r.opb)
  | .ok (.remz d _ _) => doS fun s => (if r.opb = 0 then s.setDz else s).wr d (divzRem r.opa r.opb)
  | _ => pure ()

/-- What became of outstanding results: all written; one trapped; one is held at a port, where it and those after it wait (R382). -/
inductive Drained where
  | all | trapped | held
  deriving DecidableEq, Repr

/-- An entry that a trap leaves in the queue (R403): ERR says that its data carried an uncorrectable error. -/
def Replay.failed (r : Replay) (p : PendTrap) : Replay := { r with err := p.cause == .ecc }

/-- Run the queue's entries in order; one that traps becomes the trapping instruction, and it and those after it stay (R404). -/
def drainReplays (s : State) : List Replay → State × Drained
  | [] => (s.updCtx fun c => { c with replay := [] }, .all)
  | r :: t =>
    match replayM r s with
    | .ok _ s => drainReplays s t
    | .error (.trap p) s => ((s.updCtx fun c => { c with replay := r.failed p :: t }).enter s.cur { p with at_ := some r.pc }, .trapped)
    | .error _ s => (s.updCtx fun c => { c with replay := r :: t }, .held)

/-- The oldest outstanding load returns (R403): its data, or an uncorrectable error, which raises ECC. -/
def State.returnLoad (s : State) (err : Bool) : State :=
  match s.ctx.replay with
  | [] => s
  | r :: t =>
    let trapped (s : State) (p : PendTrap) : State :=
      (s.updCtx fun c => { c with replay := r.failed p :: t }).enter s.cur { p with at_ := some r.pc }
    if err then trapped s ⟨.ecc, 0, r.opa, word (eccCode ((r.served.map (·.1)).getD 0)), [], none⟩
    else
      match replayM r s with
      | .ok _ s => s.updCtx fun c => { c with replay := t }
      | .error (.trap p) s => trapped s p
      | .error _ s => s

/-- The registers that a word's fields may name, in any format (R11), with the link register of calls and returns. -/
def wordRegs (w : Nat) : List Nat :=
  [bits w 20 6, bits w 14 6, bits w 8 6, bits w 19 6, 62]

/-- The bytes that an outstanding load reads: where its page offset begins, and how many (R403). No page is smaller than 64 KiB. -/
def Replay.span (r : Replay) : Nat × Nat :=
  (r.opa.toNat % 65536, match decodeControl r.word.toNat with
    | .ok (.ld _ _ z _) => LdBytes z
    | .ok (.ldx _ _ _ z) => LdBytes z
    | _ => 0)

/-- The bytes that a scalar access names, likewise (R40). -/
def State.accessSpan (s : State) (w : Nat) : Nat × Nat :=
  let at_ (a : SReg) (o : BitVec 11) (n : Nat) : Nat × Nat := ((s.rd a + o.signExtend 64 * word n).toNat % 65536, n)
  let idx (a b : SReg) (n : Nat) : Nat × Nat := ((s.rd a + s.rd b * word n).toNat % 65536, n)
  let st (z : StSize) : Nat := match z with | .b1 => 1 | .b2 => 2 | .b4 => 4 | .b8 => 8
  match decodeControl w with
  | .ok (.ld _ a z o) => at_ a o (LdBytes z)
  | .ok (.st _ a z o) => at_ a o (st z)
  | .ok (.ldx _ a b z) => idx a b (LdBytes z)
  | .ok (.stx _ a b z) => idx a b (st z)
  | _ => (0, 0)

/-- Whether an instruction must wait for outstanding results: it names one's register, may touch the bytes of one (R42), or is no scalar
instruction; else it may run before them, and an access to another location before an older load's (R310, assumption 11). -/
def State.needsReplay (s : State) (w : Nat) : Bool :=
  s.ctx.replay != [] && (0x19 < bits w 26 6 || s.ctx.replay.length ≥ 16
    || s.ctx.replay.any (fun r => (wordRegs w).contains (bits r.word.toNat 20 6))
    || s.ctx.replay.any fun r => meets r.span.1 r.span.2 (s.accessSpan w).1 (s.accessSpan w).2)

end Sys2Proof.Machine
end

