-- ==== Sys2Proof/Machine/ElemMemory.lean ====
section
/-!
DEFINITION. Memory nodes (R192 to R197): address generators, FIFOs, line buffers, operand stores with their tokens (R290, R292),
and the loads and stores of the fabric with their ordering chains.
-/
namespace Sys2Proof.Machine

/-! ## AGEN (R193) -/

/-- The counters after a step, and how many wrapped: the innermost is counter 0. -/
def agenAdvance (d : Nat) : Nat → List Nat → List Nat × Nat
  | _, [] => ([], 0)
  | k, c :: rest =>
    if c + 1 < dfield d (4 + 4 * k) 4 then ((c + 1) :: rest, 0)
    else
      let r := agenAdvance d (k + 1) rest
      (0 :: r.1, r.2 + 1)

/-- The address of a step, modulo 2^32. -/
def agenAddr (d start : Nat) (l : List Nat) : Nat :=
  (l.zipIdx.foldl (fun a x => a + x.1 * dfield d (16 + 4 * x.2) 4) (dfield d 28 4 + start)) % 2 ^ 32

/-- One step of a run: its DATA, then the stop of the highest counter that wrapped, then DONE after the last. -/
def agenRun (d : Nat) (free : Bool) : U (List Tok) := do
  let u ← unitSt
  let r := agenAdvance d 0 u.pos
  let last := r.2 == u.pos.length
  let cauto := ((← get).task (← focusTask)).cauto
  updUnit fun u => { u with pos := r.1, n := u.n + 1, flag := !last }
  pure ([⟨BitVec.ofNat 32 u.n, BitVec.ofNat 32 (agenAddr d u.f u.pos), 0⟩]
    ++ (if r.2 == 0 then [] else [⟨0, 0, r.2⟩])
    ++ (if last then [⟨0, 0, kDone⟩] else [])
    ++ (if last && free && cauto then [⟨0, 0, kCommit⟩] else []))

/-- A run begins: at a firing, or for a DATA token whose value is added to start. -/
def agenStart (d start : Nat) : U Unit :=
  updUnit fun u => { u with flag := true, pos := List.replicate (dfield d 1 1) 0, n := 0, f := start }

/-- One action of an address generator. -/
def agenBody (n : Nat) : U (List Tok) := do
  let d ← descU n
  let free := d.testBit 16
  let u ← unitSt
  if u.flag then agenRun d free
  else if free then
    let k := (← get).task (← focusTask)
    if u.fires == 0 || k.state == .draining then idleU
    updUnit fun u => { u with fires := u.fires - 1, emitted := u.emitted + 1 }
    agenStart d 0
    pure []
  else
    let t ← peekTok 0
    tokKindM t.k
    dropTok 0
    markDrain t.k
    if t.k == 0 then
      agenStart d t.v.toNat
      pure []
    else pure (if t.k == kCommit || t.k == kDrain then [t] else [])

/-- AGEN (R193). -/
def execAgen (_a d : Fin 16) (s : State) : Ends := unitEnds s (burst (agenBody d))

/-! ## FIFO and LBUF (R194, R250, R251) -/

/-- Write a line of a buffer area; it lands in the store (R289). -/
def putArea (off : Nat) (l : List Byte) : U Unit := modify fun s =>
  s.put (storeAddr s.focus.tile.die (TileNo s.focus.tile) off) l

/-- Accept a beat into a FIFO of some beats. -/
def fifoTake (d depth : Nat) : U Bool := do
  let u ← unitSt
  if !(← hasBeat 0) || depth ≤ u.outB.length then pure false
  else
    let b ← headBeat 0
    needU (b.kinds.all (· < 14))
    dropBeat 0
    putArea (dfield d 4 4 + 64 * ((u.q + u.outB.length) % depth)) (lineBytes b.pay)
    updUnit fun u => { u with outB := u.outB ++ [b] }
    pure true

/-- Send the oldest beat, its payload as it stands in the area. -/
def fifoSend (d depth : Nat) : U Bool := do
  let u ← unitSt
  match u.outB with
  | b0 :: rest =>
    let s ← get
    let b := { b0 with pay := lineOf (s.bytesAt (storeAddr s.focus.tile.die (TileNo s.focus.tile) (dfield d 4 4 + 64 * (u.q % depth))) 64) }
    updUnit fun u => { u with outB := rest, q := (u.q + 1) % depth, emitted := u.emitted + 1, drained := u.drained || b.kinds.contains kDrain }
    emitBeats [b]
    pure true
  | [] => pure false

/-- FIFO (R194): a preloaded one emits whole circulations before its DRAIN, then discards its input (R251). -/
def execFifo (_a d : Fin 16) (s : State) : Ends :=
  unitEnds s (do
    let de ← descU d
    let depth := dfield de 8 4 / 64
    let pre := dfield de 16 4 / 64
    let u ← unitSt
    let k := (← get).task (← focusTask)
    if pre != 0 && u.drained then
      let _ ← headBeat 0
      dropBeat 0
    else if pre != 0 && k.state == .draining && u.emitted % pre == 0 then
      emitBeats [ctlBeat kDrain]
      markDrain kDrain
    else
      let a ← fifoTake de depth
      let b ← fifoSend de depth
      if !(a || b) then idleU)

/-- The tokens of a line buffer that its area holds: a COMMIT keeps its place among them (R178). -/
def fibreToks (l : List Tok) : List Tok := l.filter (·.k != kCommit)

/-- One token into a line buffer (R194): a fibre with its stop, eight bytes a token, fits the area. A COMMIT inside a fibre is held in its
place; a DRAIN discards the part of a fibre taken (R220). -/
def lbufTake (d : Nat) : U (List Tok) := do
  let t ← peekTok 0
  tokKindM t.k
  seenTok t.k
  let u ← unitSt
  if t.k ≤ 8 then
    let n := (fibreToks u.toks).length
    needU (8 * (n + 1) ≤ dfield d 8 4)
    dropTok 0
    putArea (dfield d 4 4 + 8 * n) (leBytes 4 t.c.toNat ++ leBytes 4 t.v.toNat)
    updUnit fun u => { u with toks := u.toks ++ [t], flag := isStop t.k }
    pure []
  else if t.k == kCommit && u.toks != [] then
    dropTok 0
    updUnit fun u => { u with toks := u.toks ++ [t] }
    pure []
  else
    dropTok 0
    if t.k == kDrain then updUnit fun u => { u with toks := [] }
    markDrain t.k
    pure (u.toks.filter (·.k == kCommit) ++ [t])

/-- One action of a line buffer: `n` replays are done, `q` tokens of the one under way. A COMMIT it holds passes once. -/
def lbufBody (d : Nat) (counted : Bool) : U (List Tok) := do
  let u ← unitSt
  if !u.flag then lbufTake d
  else
    if u.scal == [] then
      let c ← if counted then takeScalar 1 else pure (BitVec.ofNat 32 (dfield d 12 4))
      updUnit fun u => { u with scal := [c] }
    let u ← unitSt
    if (u.scal.headD 0).toNat ≤ u.n then
      updUnit fun u => { u with toks := [], flag := false, scal := [], n := 0, q := 0 }
      pure (u.toks.filter (·.k == kCommit))
    else match u.toks[u.q]? with
      | some t =>
        updUnit fun u =>
          let toks := if t.k == kCommit then u.toks.eraseIdx u.q else u.toks
          let q := if t.k == kCommit then u.q else u.q + 1
          if q < toks.length then { u with toks := toks, q := q } else { u with toks := toks, q := 0, n := u.n + 1 }
        pure [t]
      | none => idleU

/-- LBUF (R194). -/
def execLbuf (_a b d : Fin 16) (s : State) : Ends := unitEnds s (do burst (lbufBody (← descU d) (b ≠ 0)))

/-! ## OPST (R194, R290, R292) -/

/-- The residency slots of an operand store, each FREE before its first use. -/
def UnitSt.opSlots (u : UnitSt) (d : Nat) : List OSlot :=
  u.slots ++ List.replicate (dfield d 12 4 - u.slots.length) ({} : OSlot)

/-- Change one slot. -/
def updSlot (d i : Nat) (f : OSlot → OSlot) : U Unit := updUnit fun u =>
  let l := u.opSlots d
  { u with slots := l.set i (f (l.getD i ({} : OSlot))) }

/-- Emit the packet of the RESIDENT slot that holds a tag, and free it if asked (R292). -/
def opstEmit (d tag : Nat) (free : Bool) : U Unit := do
  let u ← unitSt
  let l := u.opSlots d
  let i := l.findIdx fun x => x.st == .resident && x.tag.toNat == tag
  match l[i]? with
  | none => idleU
  | some x =>
    emitBeats x.beats
    let now := (← get).cycle
    let c ← focusTc
    if free then
      -- with no reader the packet leaves at once; else the slot is FREE after its last beat has left
      if c.readers 0 (← outCode) == [] then updSlot d i fun _ => { freedAt := now + 1 }
      else updSlot d i fun x => { x with leaving := true }

/-- A cancelled fill is issued again by its channel (R292), unless its copy issues no more rows and ends without it (R94). -/
def State.reissue (s : State) (id row : Nat) : State :=
  (s.updCopy id fun c =>
    { c with flying := c.flying.filter (·.row != row), again := if c.cancelled then c.again else row :: c.again.filter (· != row) }).settleCopy id

/-- The copy port that feeds the operand store (R194). -/
def opstPort : U Nat := do return (((← focusTc).word (← get).focus.slot.val).map (·.a)).getD 10

/-- EVICT of a slot (R292). -/
def opstEvict (d i : Nat) : U Unit := do
  let u ← unitSt
  let now := (← get).cycle
  match (u.opSlots d)[i]? with
  | none => pure ()
  | some x =>
    if x.st != .free then updSlot d i fun _ => { freedAt := now }
    match x.by_ with
    | some (id, row) =>
      if x.st == .claimed || x.st == .filling then
        modify fun s => s.reissue id row
        -- the fill that ends had its port inside a packet
        let p ← opstPort
        if x.st == .filling then updFocus fun c => { c with units := Tbl.upd c.units (portKey 0 p) {} fun u => { u with flag := false } }
    | none => pure ()

/-- Serve the scalar token at port b (R292). -/
def opstToken (d v : Nat) : U Unit := do
  let op := v / 2 ^ 30 % 4
  needU (op != 3 && v / 2 ^ 16 % 2 ^ 14 == 0 && (op != 2 || v % 2 ^ 16 / 16 == 0))
  match op with
  | 0 => opstEmit d (v % 2 ^ 16) false
  | 1 => opstEmit d (v % 2 ^ 16) true
  | _ => opstEvict d (v % 16)
  dropBeat 1

/-- The scalar token that waits at port b. -/
def opstHead : U Nat := do return (← headBeat 1).pay.toNat % 2 ^ 32

/-- OPST (R194): its scalar tokens in order; DRAIN of its copy port passes when no token can be served (R198, R230). The beats of a row that its
port hands to other readers too come after the row has entered its slot as a whole (R290), and leave the input. -/
def execOpst (_a _b d : Fin 16) (s : State) : Ends :=
  unitEnds s (do
    let de ← descU d
    match ← tryU (do opstToken de (← opstHead)) with
    | some _ => pure ()
    | none =>
      let b ← headBeat 0
      needU (b.kinds.all (· < 14))
      if b.kinds.contains kDrain then
        emitBeats [ctlBeat kDrain]
        markDrain kDrain
      dropBeat 0)

/-- A step of the operand store in focus on a token of one form (R292). -/
def opstEvent (v : Nat) : U Unit := do
  match (← focusTc).word (← get).focus.slot.val with
  | some e =>
    if e.eop == 0x31 && (← opstHead) == v then opstToken (← descU (e.mode % 16)) v else idleU
  | none => idleU

/-- EMIT (R292). -/
def execEmit (tag : BitVec 16) (s : State) : Ends := unitEnds s (opstEvent tag.toNat)
/-- EMITFREE (R292). -/
def execEmitfree (tag : BitVec 16) (s : State) : Ends := unitEnds s (opstEvent (2 ^ 30 + tag.toNat))
/-- EVICT (R292). -/
def execEvict (slot : Fin 16) (s : State) : Ends := unitEnds s (opstEvent (2 * 2 ^ 30 + slot.val))

/-! ## Ordering chains (R196, R197) -/

/-- A memory node of a task: its tile, slot and descriptor. -/
structure MemNode where
  tile : Nat
  slot : Nat
  store : Bool
  desc : Nat
  deriving DecidableEq, Repr

def MemNode.seq (n : MemNode) : Nat := dfield n.desc 4 2
def MemNode.pred (n : MemNode) : Nat := dfield n.desc 6 2
def MemNode.succ (n : MemNode) : Nat := dfield n.desc 8 2

/-- The MLD and MST nodes of a tile. -/
def TileCtx.memNodes (c : TileCtx) (tile : Nat) : List MemNode :=
  c.slots.filterMap fun x => if x.2.eop == 0x34 || x.2.eop == 0x35 then some ⟨tile, x.1, x.2.eop == 0x35, c.desc (x.2.mode % 16)⟩ else none

def State.memNodes (s : State) (t : TaskId) : List MemNode :=
  (tilesOf t (s.task t).w1 (s.task t).h1).flatMap fun tile => (s.tc (taskDie t).val tile (taskCtx t).val).memNodes tile

/-- A node's state. -/
def State.nodeSt (s : State) (t : TaskId) (n : MemNode) : UnitSt :=
  Tbl.getD (s.tc (taskDie t).val n.tile (taskCtx t).val).units n.slot {}

/-- The depth of an ordering arc into a destination code, along its links (R197). -/
def State.arcDepth (s : State) (die ctx : Nat) : Nat → Nat → Nat → Nat
  | 0, _, _ => 0
  | fuel + 1, tile, dst =>
    match (s.tc die tile ctx).sws.find? fun w => swClass w == 4 && swDst w == dst with
    | none => 0
    | some w =>
      swDepth w + (if swOrg w < 4 then State.arcDepth s die ctx fuel (neighbour tile (swOrg w)) (opposite (swOrg w)) else 0)

/-- Whether a node may issue its next access (R196): its predecessor is ahead, and its arc has room for a token. -/
def State.mayIssue (s : State) (t : TaskId) (n : MemNode) : Bool :=
  let l := s.memNodes t
  let mine := (s.nodeSt t n).q
  (match l.find? fun p => n.pred != 0xFFFF && p.seq == n.pred && p.succ == n.seq with
    | some p => decide (mine < (s.nodeSt t p).q)
    | none => true)
  && (match l.find? fun p => n.succ != 0xFFFF && p.seq == n.succ && p.pred == n.seq with
    | some p => p.tile == n.tile || decide (mine - (s.nodeSt t p).q < s.arcDepth (taskDie t).val (taskCtx t).val 64 p.tile (p.slot + 4))
    | none => true)

/-- The write logs a node sees (R195): those of the MST nodes before it in its chain, each entry with its time. -/
def State.chainLogs (s : State) (t : TaskId) : Nat → MemNode → List (Nat × Nat × Nat × Nat)
  | 0, _ => []
  | fuel + 1, n =>
    match (s.memNodes t).find? fun p => n.pred != 0xFFFF && p.seq == n.pred && p.succ == n.seq with
    | some p => State.chainLogs s t fuel p ++ (if p.store then (s.nodeSt t p).timed else [])
    | none => []

/-- Bytes with the writes of a log laid over them. -/
def underLog (log : List (Nat × Nat × Nat)) (pa : Nat) (l : List Byte) : List Byte :=
  log.foldl (fun l e => if e.1 % 8 == 0 then overlay pa l (e.1 / 8) (leBytes (e.2.1 / 8) e.2.2) else l) l

/-- The node in focus. -/
def focusNode (d : Nat) (store : Bool) : U MemNode := do
  let s ← get
  return ⟨TileNo s.focus.tile, s.focus.slot.val, store, d⟩

/-- The address of an access of a node (R195, R285): in its own store, or through translation. -/
def nodeAddr (d idx size : Nat) (use : Use) : U Nat := do
  let s ← get
  let off := dfield d 12 8 + idx * size
  if dfield d 11 1 == 0 then
    needU (off + size ≤ 0x300000)
    pure (storeAddr s.focus.tile.die (TileNo s.focus.tile) off)
  else
    let va := word off
    let e ← translateU va
    let s ← get
    let pa := e.addrFor s.focus.tile.die va.toNat
    let plain := match spaceOf pa with
      | .hbm _ => true
      | .store _ _ _ => true
      | _ => false
    match s.judge s.focus.tile.die false use va size e with
    | .ok a =>
      needU plain
      let t ← focusTask
      let me : Party := ⟨taskAgent t, 0⟩
      if s.portHeld me (s.task t).launch a.pa then idleU
      modify fun s => s.chargePort me (s.task t).launch a.pa size
      if use.writes && a.pas.any (fun q => s.protectedAt q size) then streamFaultU .access 0 va
      pure a.pa
    | .error (.access, k, _) =>
      needU (plain && !((if use.writes then e.allAddrs va.toNat else [pa]).any fun q => s.closedArea q size))
      streamFaultU .access k va
    | .error _ => protoU

/-- The addresses a store of a node writes: every replica's (R321). -/
def nodeTargets (d idx size : Nat) (pa : Nat) : U (List Nat) := do
  let s ← get
  if dfield d 11 1 == 0 then pure [pa]
  else
    let va := word (dfield d 12 8 + idx * size)
    let e ← translateU va
    match s.judge s.focus.tile.die false .store va size e with
    | .ok a => pure a.pas
    | .error _ => pure [pa]

/-- An access of a node has issued (R196). -/
def issuedU : U Unit := updUnit fun u => { u with q := u.q + 1 }

/-- Wait for the node's turn in its chain (R196). -/
def chainU (n : MemNode) : U Unit := do
  let s ← get
  if !s.mayIssue (← focusTask) n then idleU

/-- MLD (R195): one token in, one out. -/
def execMld (_a d : Fin 16) (s : State) : Ends :=
  unitEnds s (do
    let t ← peekTok 0
    tokKindM t.k
    let de ← descU d
    if t.k == 0 then
      let n ← focusNode de false
      chainU n
      let z := (LdSize.ofNat? (dfield de 10 1)).getD .s32
      let pa ← nodeAddr de t.v.toNat (LdBytes z) .load
      modify fun s => s.touch pa (LdBytes z)
      let s ← get
      needU (!(linesOf pa (LdBytes z)).any fun ln => s.broken (ln * 64))
      let l := underLog (orderByTime (s.chainLogs (← focusTask) 256 n)) pa (s.bytesAt pa (LdBytes z))
      let task ← focusTask
      modify fun s => s.watch pa (LdBytes z) (word (dfield de 12 8 + t.v.toNat * LdBytes z)) 2 .node (taskAgent task) (s.task task).asid
      issuedU
      dropTok 0
      emitToks [{ t with v := (extendLoad z (leValue l)).setWidth 32 }]
    else
      dropTok 0
      markDrain t.k
      emitToks [t])

/-- MST (R195): a and b in step under R177; COMMIT and DRAIN wait for the region commit (R229). -/
def execMst (_a _b d : Fin 16) (s : State) : Ends :=
  unitEnds s (do
    let a ← peekTok 0
    let b ← peekTok 1
    tokKindM a.k
    tokKindM b.k
    needU (a.k == b.k)
    if a.k == kCommit || a.k == kDrain then idleU
    seenTok a.k
    if a.k == 0 then
      let de ← descU d
      let n ← focusNode de true
      chainU n
      let size := LdBytes ((LdSize.ofNat? (dfield de 10 1)).getD .s32)
      let pa ← nodeAddr de a.v.toNat size .store
      let pas ← nodeTargets de a.v.toNat size pa
      let x ← get
      needU (!pas.any fun q => (linesOf q size).any fun ln => x.broken (ln * 64))
      let bits := pas.flatMap fun q => logBits (8 * q) (8 * size) b.v.toNat
      updUnit fun u => { u with wlog := u.wlog ++ bits, wtimes := u.wtimes ++ List.replicate bits.length x.cycle }
      issuedU
    dropTok 0
    dropTok 1
    if a.k == kDone then exitU)

end Sys2Proof.Machine
end

