-- ==== Sys2Proof/Machine/ElemRouter.lean ====
section
/-!
DEFINITION. Router operators (R198): scalar and condition streams steered, merged, carried and held.
-/
namespace Sys2Proof.Machine

/-- Send one narrow token from the slot: a scalar on plane 1, one bit on plane 2. -/
def emitRouter (plane : Nat) (v : BitVec 32) : U Unit := do
  let n := (← get).focus.slot.val
  emitNarrow plane (n - 9) (if plane == 2 then v.toNat % 2 else v.toNat)

/-- A condition token. -/
def takeCond (port : Nat) : U Bool := do return (← takeScalar port).getLsbD 0

/-- STEER (R198): emits a where b XOR INV is 1. -/
def execSteer (p : Fin 4) (_a _b : Fin 16) (i : Bool) (s : State) : Ends :=
  unitEnds s (do
    let v ← takeScalar 0
    let b ← takeCond 1
    if b != i then emitRouter p v)

/-- MERGE (R198): the side that c names; the other side stays. -/
def execMerge (p : Fin 4) (_a _b _c : Fin 16) (s : State) : Ends :=
  unitEnds s (do
    let c ← takeCond 2
    let v ← takeScalar (if c then 0 else 1)
    emitRouter p v)

/-- CARRY (R198): 32-bit sums; with pc = 0 the step is 1. -/
def execCarry (_a _b c : Fin 16) (s : State) : Ends :=
  unitEnds s (do
    match (← unitSt).tsA with
    | none =>
      let v ← takeScalar 0
      updUnit fun u => { u with tsA := some v }
      emitRouter 1 v
    | some v =>
      let b ← takeCond 1
      if b then
        let k ← if c = 0 then pure 1#32 else takeScalar 2
        updUnit fun u => { u with tsA := some (v + k) }
        emitRouter 1 (v + k)
      else updUnit fun u => { u with tsA := none })

/-- INVAR (R198). -/
def execInvar (p : Fin 4) (_a _b : Fin 16) (s : State) : Ends :=
  unitEnds s (do
    match (← unitSt).tsA with
    | none =>
      let v ← takeScalar 0
      updUnit fun u => { u with tsA := some v }
    | some v =>
      let b ← takeCond 1
      if b then emitRouter p v else updUnit fun u => { u with tsA := none })

/-- CAND (R198). -/
def execCand (_a _b : Fin 16) (s : State) : Ends :=
  unitEnds s (do
    let a ← takeScalar 0
    let b ← takeScalar 1
    emitRouter 2 (a &&& b))

/-- CNOT (R198). -/
def execCnot (_a : Fin 16) (s : State) : Ends :=
  unitEnds s (do
    let a ← takeScalar 0
    emitRouter 2 (~~~a))

end Sys2Proof.Machine
end

