-- ==== Sys2Proof/Machine/Handles.lean ====
section
/-!
DEFINITION. Stream handles: binding (R106, R170), hart ports as origins and destinations (R107, R254), the pending beat, and
QPUSH, QPOP, QSTOP, QDONE, FBIND, VLDQ, VSTQ (R75).
-/
namespace Sys2Proof.Machine

/-! ## Binding -/

/-- Where a handle's port is: the task, its tile, the plane, and the tile's place in the rectangle. -/
structure PortRef where
  task : TaskId
  tile : Nat
  plane : Nat
  idx : Nat
  write : Bool
  deriving DecidableEq, Repr

def Handle.port (q : Handle) : PortRef :=
  let t := taskOf (wfld q.region 29 3) (wfld q.region 24 5) (wfld q.region 19 5) (wfld q.region 9 2)
  let idx := q.sel.toNat % 16
  ⟨t, tileAt t (wfld q.region 15 4) idx, if q.sel.toNat.testBit 8 then 1 else 0, idx, q.sel.toNat.testBit 9⟩

/-- The port's object (R359): port code 15 or 31. -/
def PortRef.key (p : PortRef) : ObjKey := .port p.task p.idx (if p.plane == 1 then 31 else 15) p.write

/-- Whether a bind of a continuation is refused (R103, R106, R170), and the cause. -/
def State.bindCheck (s : State) (me : Party) (die asid : Nat) (region sel : Word) : Except Cause TaskId :=
  match regionRef die region with
  | none => .error .access
  | some r =>
    let port := wfld sel 4 5
    if !s.loadedFor r asid then .error .access
    else if sel.toNat / 2 ^ 10 != 0 || (port != 15 && port != 31) || (r.w1 + 1) * (r.h1 + 1) ≤ wfld sel 0 4 then .error .cfgrefuse
    else if (s.boundTo r.task (wfld sel 0 10)).any fun p => !p.same me then .error .cfgrefuse
    else .ok r.task

/-- Bind a handle: the same port's older handle is left unbound, a partly filled beat is discarded (R106, R170). -/
def Ctx.bindHandle (c : Ctx) (q : QReg) (region : Word) (sel : Nat) : Ctx :=
  let new : Handle := { bound := true, region := region, sel := BitVec.ofNat 10 sel }
  { c with q := (c.q.map fun x => if x.bound && x.port == new.port then {} else x).set q.val new }

def Ctx.unbind (c : Ctx) (q : QReg) : Ctx := { c with q := c.q.set q.val {} }

/-- The registrations of the tasks that a handle left or joined follow its binding (R254). -/
def State.syncBound (s : State) (q : Handle) : State := if q.bound then s.syncTask q.port.task else s

/-- FBIND (R106, R170). -/
def execFbind (d : QReg) (a b : SReg) (s : State) : Ends := ends s do
  let old := s.ctx.q[d.val]
  if s.rd a = 0 then
    doS fun t => (t.updCtx fun c => c.unbind d).syncBound old
  else
    match s.bindCheck s.myself s.die.val s.me.asid.toNat (s.rd a) (s.rd b) with
    | .error c => openTrapM c
    | .ok _ =>
      doS fun t => t.updCtx fun c => c.bindHandle d (resolveRegion s.die.val (s.rd a)) (wfld (s.rd b) 0 10)
      doS fun t => (t.syncBound old).syncBound t.ctx.q[d.val]

/-! ## A hart port as an origin (R230, R254) -/

/-- The beats that stand at a port because a reader has not taken them. -/
def State.standing (s : State) (p : PortRef) : Buf :=
  Tbl.getD (s.tc (taskDie p.task).val p.tile (taskCtx p.task).val).outs (outKey p.plane 15) {}

/-- The port's own state: `flag` inside a pass, `drained` once it has emitted DRAIN (R230). -/
def State.portSt (s : State) (p : PortRef) : UnitSt :=
  Tbl.getD (s.tc (taskDie p.task).val p.tile (taskCtx p.task).val).units (portKey p.plane 15) {}

def State.updPortSt (s : State) (p : PortRef) (f : UnitSt → UnitSt) : State :=
  s.updTc (taskDie p.task).val p.tile (taskCtx p.task).val fun c => { c with units := Tbl.upd c.units (portKey p.plane 15) {} f }

/-- Whether a pass is open after a token of a kind (R220). -/
def passAfter (k : Nat) (open_ : Bool) : Bool := if k ≤ 8 || k == kHeader then true else if k == kDone then false else open_

/-- Lay a beat at a port and let its readers take it. -/
def State.offer (s : State) (p : PortRef) (b : Beat) : State :=
  let die := (taskDie p.task).val
  let ctx := (taskCtx p.task).val
  ((s.updSource die p.tile ctx p.plane 15 fun x => { x with q := x.q ++ [b] }).hop die p.tile ctx p.plane 15).syncTask p.task

/-- A push after the drain of a data port closed its input takes STREAMPROTO (R230). -/
def drainingM (p : PortRef) : M Unit := do
  let s ← get
  if p.plane == 0 then demandOpen (!((s.task p.task).state == .draining && !(s.portSt p).flag)) .streamproto

/-- Wait at a full port (R107): the push has no effect where its edge closes a cycle (R254). -/
def portWaitM {α : Type} (p : PortRef) : M α := waitM .queue p.key 0

/-- Wait for a port whose beat the readers have not all taken: a trap is taken in the state before the push had any effect (R99, R254). -/
def standM (before : State) (p : PortRef) (go : M Unit) : M Unit := do
  let s ← get
  if (s.standing p).q != [] then
    let e := s.waitEntry .queue p.key 0 0
    if !(before.getDie p.key.home).roomFor p.key .wait (before.need p.key) then
      set before
      trapM .waitfull WaitKind.queue.code (s.vaddrOf e)
    match s.cycleOf e with
    | some path =>
      set before
      throw (.trap ⟨.deadlock, min path.length 4095, 0, 0, s.cycleRecord path 0, none⟩)
    | none =>
      go
      portWaitM p

/-- The end of a push whose beat has been laid at the port: it completes when every reader has the beat, else waits. The handle keeps what a
DEADLOCK that comes later takes back (R254): what `mid` holds, from which the push laid its beat. -/
def sendM (before mid : State) (q : QReg) (p : PortRef) (b : Beat) (first : Bool := false) : M Unit := do
  doS fun s => s.offer p b
  let old := mid.ctx.q[q.val]
  standM before p (doS fun s => s.updCtx fun c => { c with
    q := c.q.set q.val { c.q[q.val] with sending := some s.pc, first := first, before := (old.pend, old.pendN, old.closed, (mid.portSt p).flag) } })

/-- Whether a port takes nothing: its task is being or has been checkpointed (R226). -/
def State.frozen (s : State) (t : TaskId) : Bool := (s.task t).state == .checkpointing || (s.task t).state == .checkpointed

/-- Nothing of a handle's stands at its port any more. -/
def Ctx.sent (c : Ctx) (q : QReg) : Ctx := { c with q := c.q.set q.val { c.q[q.val] with sending := none, first := false } }

/-- A push that stands at the port from an earlier try of the same instruction (R254). -/
def resumeSendM (q : QReg) (p : PortRef) : M Unit := do
  if ((← get).standing p).q != [] then portWaitM p
  doS fun s => s.updCtx fun c => c.sent q

/-- A push that a DEADLOCK ends has no effect (R254): the beat that no reader has taken leaves the port, and the handle is as before it. -/
def State.takeBack (s : State) (h : HartId) (q : QReg) : State :=
  let x := (s.hart h).ctx.q[q.val]
  let p := x.port
  if x.sending.isSome && (s.standing p).got == [] && (s.standing p).q != [] then
    let s := s.updSource (taskDie p.task).val p.tile (taskCtx p.task).val p.plane 15 fun b => { b with q := b.q.dropLast }
    let s := s.updPortSt p fun u => { u with flag := x.before.2.2.2 }
    s.updHart h fun y => { y with ctx := { y.ctx with
      q := y.ctx.q.set q.val { x with sending := none, first := false, pend := x.before.1, pendN := x.before.2.1, closed := x.before.2.2.1 } } }
  else s

/-- Place a token in the next lane of a pending beat. -/
def Handle.place (q : Handle) (v : Word) (k now : Nat) : Handle :=
  let lane := 64 * q.pendN
  { q with
    pend := ⟨q.pend.pay ||| BitVec.ofNat 512 (v.toNat * 2 ^ lane),
      (q.pend.side &&& ~~~(BitVec.ofNat 32 (15 * 2 ^ (4 * q.pendN)))) ||| BitVec.ofNat 32 (k * 2 ^ (4 * q.pendN))⟩
    pendN := q.pendN + 1, pendAt := now, closed := q.closed || k == kDone }

/-- QPUSH, QSTOP and QDONE (R107): the stores before are released toward the region (R318). -/
def pushM (q : QReg) (v : Word) (k : Nat) (ok : Bool) : M Unit := do
  let s ← get
  let h := s.ctx.q[q.val]
  let p := h.port
  if h.sending == some s.pc then resumeSendM q p
  else
    demandOpen (ok && k != 12 && k < 14 && !h.closed && h.bound && p.write && (p.plane == 0 || k == 0)) .streamproto
    drainingM p
    doS fun t => (t.flushHart t.cur).escape 2
    if (s.standing p).q != [] || s.frozen p.task then portWaitM p
    if p.plane == 1 then sendM s s q p (narrowBeat (v.toNat % 2 ^ 32))
    else
      let h' := h.place v k s.cycle
      doS fun t => t.updPortSt p fun u => { u with flag := passAfter k u.flag }
      if h'.pendN == 8 || (9 ≤ k && k ≤ 11) then
        doS fun t => t.updCtx fun c => { c with q := c.q.set q.val { h' with pend := {}, pendN := 0 } }
        sendM s s q p h'.pend
      else doS fun t => t.updCtx fun c => { c with q := c.q.set q.val h' }

def execQpush (d : QReg) (a b : SReg) (s : State) : Ends := ends s (pushM d (s.rd a) (wfld (s.rd b) 0 4) (s.rd b < 16))

/-- QSTOP: kind s(a)[2:0] + 1, payload 0; on a scalar-plane handle STREAMPROTO (R107). -/
def execQstop (d : QReg) (a : SReg) (s : State) : Ends := ends s (pushM d 0 (wfld (s.rd a) 0 3 + 1) (s.rd a < 8))

/-- QDONE: kind 9, payload 0 (R107). -/
def execQdone (d : QReg) (s : State) : Ends := ends s (pushM d 0 kDone true)

/-! ## A hart port as a destination -/

/-- Change the buffer a hart pops from. -/
def State.updPop (s : State) (p : PortRef) (f : List Beat → List Beat) : State :=
  (s.updTc (taskDie p.task).val p.tile (taskCtx p.task).val fun c =>
    c.updBuf (hartKey p.plane) fun b => { b with q := f b.q }).updTask p.task fun k => { k with moved := s.cycle }

def State.popBuf (s : State) (p : PortRef) : List Beat :=
  ((s.tc (taskDie p.task).val p.tile (taskCtx p.task).val).buf (hartKey p.plane)).q

/-- A popped COMMIT, DONE or DRAIN is an acquire of the task's publications before it (R311, R317). -/
def acquirePopM (t : TaskId) (kinds : List Nat) : M Unit :=
  if kinds.any fun k => 9 ≤ k && k ≤ 11 then doS fun s => s.acquireTask t else pure ()

/-- QPOP (R107): the next lane that is not IDLE, or a scalar token. -/
def execQpop (d : SReg) (a : QReg) (b : SReg) (s : State) : Ends := ends s do
  let h := s.ctx.q[a.val]
  let p := h.port
  demandOpen (h.bound && !p.write) .streamproto
  if p.plane == 1 then
    match s.popBuf p with
    | [] => portWaitM p
    | x :: _ =>
      doS fun t => t.updPop p (·.drop 1)
      wrM d (word (x.pay.toNat % 2 ^ 32))
      wrM b 0
  else
    match (s.popBuf p).dropWhile fun x => x.first.isNone with
    | [] => portWaitM p
    | x :: rest =>
      let j := x.first.getD 0
      let t := x.tok j
      let x' := x.clearLane j
      doS fun s => s.updPop p fun _ => if x'.first.isNone then rest else x' :: rest
      acquirePopM p.task [t.k]
      wrM d (word (t.v.toNat * 2 ^ 32 + t.c.toNat))
      wrM b (word t.k)

/-- VLDQ (R75). -/
def execVldq (d : Fin 32) (a : QReg) (b : Fin 32) (s : State) : Ends := ends s do
  let h := s.ctx.q[a.val]
  let p := h.port
  demandOpen (h.bound && !p.write && p.plane == 0) .streamproto
  match s.popBuf p with
  | [] => portWaitM p
  | x :: _ =>
    doS fun t => (t.updPop p (·.drop 1)).wrV d x.pay
    acquirePopM p.task x.kinds
    wrM (s5 b) (x.side.zeroExtend 64)

/-- Whether a pushed beat is admitted: no reserved kind, and only IDLE lanes after a DONE lane (R75). -/
def Beat.pushable (b : Beat) : Bool :=
  b.kinds.all (· < 14) && ((b.kinds.dropWhile (· != kDone)).drop 1).all (· == kIdle)

/-- VSTQ (R75): the pending beat goes first (R107); a release (R318). -/
def execVstq (d : Fin 32) (a : QReg) (b : Fin 32) (s : State) : Ends := ends s do
  let h := s.ctx.q[a.val]
  let p := h.port
  if h.sending == some s.pc && !h.first then resumeSendM a p
  else
    let beat : Beat := ⟨s.rdV d, (s.rd (s5 b)).setWidth 32⟩
    demandOpen (h.bound && p.write && p.plane == 0 && !h.closed && beat.pushable) .streamproto
    drainingM p
    doS fun t => (t.flushHart t.cur).escape 2
    if (s.standing p).q != [] || s.frozen p.task then portWaitM p
    doS fun t => t.updCtx fun c => c.sent a
    let before ← get
    if 0 < h.pendN then
      doS fun t => t.updCtx fun c => { c with q := c.q.set a.val { c.q[a.val] with pend := {}, pendN := 0 } }
      sendM before before a p h.pend true
    let mid ← get
    doS fun t => t.updPortSt p fun u => { u with flag := beat.kinds.foldl (fun o k => passAfter k o) u.flag }
    doS fun t => t.updCtx fun c => { c with q := c.q.set a.val { c.q[a.val] with closed := beat.kinds.contains kDone } }
    sendM before mid a p beat

/-- PENDING_BEAT_TIMEOUT (R107): a partly filled beat is sent after 16 cycles without a push to its handle, wherever the continuation that
holds the handle is; `holder` is its agent and continuation. -/
def execPendingBeatTimeout (holder : Nat × Nat) (q : QReg) (s : State) : Ends :=
  match s.allCtx.find? fun x => x.1.same ⟨holder.1, holder.2⟩ with
  | none => .next s
  | some (_, c) =>
    let x := c.q[q.val]
    let p := x.port
    if x.bound && 0 < x.pendN && x.pendAt + 16 ≤ s.cycle && (s.standing p).q == [] && !s.frozen p.task then
      .next ((s.mapCtx ⟨holder.1, holder.2⟩ fun c => { c with q := c.q.set q.val { x with pend := {}, pendN := 0 } }).offer p x.pend)
    else .next s

end Sys2Proof.Machine
end

