-- ==== Sys2Proof/Machine/Sources.lean ====
section
/-!
DEFINITION. The registers that an instruction reads, for the parity of a hart's register files (R416): scalar n, 64 + vector, 96 + mask. An
element that a masked write leaves as it was is no read.
-/
namespace Sys2Proof.Machine

/-- The register of a second source (R12). -/
def vsrcReg : VSrc → Nat
  | .v r => 64 + r.val
  | .s r => r.val

/-- The registers that an instruction reads. -/
def sources (i : Instr) : List Nat :=
  match i with
  | .add _ a b | .sub _ a b | .and _ a b | .or _ a b | .xor _ a b | .andn _ a b | .shl _ a b | .shr _ a b | .sra _ a b | .ror _ a b
  | .mul _ a b | .mulh _ a b | .mulhz _ a b | .div _ a b | .divz _ a b | .rem _ a b | .remz _ a b | .min _ a b | .max _ a b | .minz _ a b
  | .maxz _ a b | .slt _ a b | .sltz _ a b | .seq _ a b | .bext _ a b | .selnz _ a b | .fload _ a b | .fbind _ a b | .qpush _ a b
  | .cpwait _ a b | .amove _ a b | .swap _ a b | .binit _ a b | .bwait _ a b | .badj _ a b | .wwait _ a b | .launch _ a b | .memb _ a b
  | .wpset _ a b | .ldx _ a b _ | .vins _ a b _ | .farm a b | .fsel a b | .fckpt a b | .cpcode a b | .upd a b | .uapply a b | .strl a b
  | .wobj a b | .estim a b | .xlinv a b => [a.val, b.val]
  | .clz _ a | .ctz _ a | .popc _ a | .rep _ a | .fstat _ a | .qstop _ a | .cpy _ a | .cpwp _ a | .gath _ a | .uregion _ a | .ustat _ a
  | .ldaq _ a | .barr _ a | .barw _ a | .lkacq _ a | .lktry _ a | .wquery _ a | .wcycle _ a | .join _ a | .prio _ a | .drainw _ a
  | .colls _ a | .collw _ a | .collst _ a | .addi _ a _ | .andi _ a _ | .ori _ a _ | .xori _ a _ | .shli _ a _ | .shri _ a _ | .srai _ a _
  | .rori _ a _ | .slti _ a _ | .sltzi _ a _ | .lea _ a _ | .loop _ a _ | .jtab _ a _ | .ld _ a _ _ | .pfch a _ | .br a _ _ | .jr a
  | .callr a | .fkill a | .fdrain a | .cpcan a | .ufence a | .ufree a | .babort a | .lkrel a | .whold a | .wdrop a | .collabt a | .wpclr a => [a.val]
  | .bins d a b | .cas d a b | .spawn d a b | .stx d a b _ => [d.val, a.val, b.val]
  | .st d a _ _ => [d.val, a.val]
  | .vadd _ a b m _ | .vsub _ a b m _ | .vmul _ a b m _ | .vmulh _ a b m _ | .vmin _ a b m _ | .vmax _ a b m _ | .vminz _ a b m _
  | .vmaxz _ a b m _ | .vand _ a b m _ | .vor _ a b m _ | .vxor _ a b m _ | .vshl _ a b m _ | .vshr _ a b m _ | .vsra _ a b m _
  | .vadds _ a b m _ | .vsubs _ a b m _ | .vfadd _ a b m _ | .vfsub _ a b m _ | .vfmul _ a b m _ | .vfmin _ a b m _ | .vfmax _ a b m _
  | .vfdiv _ a b m _ | .vceq _ a b m _ | .vclt _ a b m _ | .vcltz _ a b m _ | .vcle _ a b m _ | .vfceq _ a b m _ | .vfclt _ a b m _
  | .vfcle _ a b m _ | .vfcun _ a b m _ | .vmrg _ a b m _ => [64 + a.val, vsrcReg b, 96 + m.val]
  | .vfma d a b m _ | .vfnma d a b m _ | .vfman d a b m _ | .vbdot d a b m _ => [64 + d.val, 64 + a.val, vsrcReg b, 96 + m.val]
  | .vfabs _ a m _ | .vfneg _ a m _ | .vfsqrt _ a m _ | .vfrsq _ a m _ | .vfexp2 _ a m _ | .vflog2 _ a m _ | .vreda _ a m _
  | .vredx _ a m _ | .vredn _ a m _ | .vfreda _ a m _ | .vcmpr _ a m _ | .vexpd _ a m _ => [64 + a.val, 96 + m.val]
  | .vcvt _ a _ m => [64 + a.val, 96 + m.val]
  | .vld _ a m _ | .vldb _ a m _ => [a.val, 96 + m.val]
  | .vst d a m _ => [64 + d.val, a.val, 96 + m.val]
  | .vlds _ a b m _ => [a.val, b.val, 96 + m.val]
  | .vsts d a b m _ => [64 + d.val, a.val, b.val, 96 + m.val]
  | .vgth _ a b m _ => [a.val, 64 + b.val, 96 + m.val]
  | .vsct d a b m _ | .updv d a b m _ => [64 + d.val, a.val, 64 + b.val, 96 + m.val]
  | .vstq d _ b => [64 + d.val, b.val]
  | .vperm _ a b m _ => [64 + a.val, 64 + b.val, 96 + m.val]
  | .vslup _ a b m _ | .vsldn _ a b m _ => [64 + a.val, b.val, 96 + m.val]
  | .vsplat _ b m _ => [b.val, 96 + m.val]
  | .vext _ a b _ => [64 + a.val, b.val]
  | .viota _ m _ => [96 + m.val]
  | .mand _ a b | .mor _ a b | .mxor _ a b => [96 + a.val, 96 + b.val]
  | .mnot _ a | .mpopc _ a | .mmov _ a => [96 + a.val]
  | .mmovScalar _ b | .qpop _ _ b => [b.val]
  | .vpiv _ a b m | .vprcp _ a b m => [64 + a.val, 96 + b.val, 96 + m.val]
  | .dcas d a b => [d.val, a.val, b.val, (a + 1).val, (b + 1).val, (d + 1).val]
  | .sysw d _ | .sysset d _ | .sysclr d _ | .trcmark d _ => [d.val]
  | _ => []

/-- The registers that a word's instruction reads. -/
def sourcesOf (w : BitVec 32) : List Nat :=
  match decodeControl w.toNat with
  | .ok i => sources i
  | .error _ => []

end Sys2Proof.Machine
end

