-- ==== Sys2Proof/Machine/Fetch.lean ====
section
/-!
DEFINITION. What a turn does before an instruction's own meaning: the trap to take first, the word to run, the element of a
repeat (R52), outstanding results (R403); and which slot an element operation takes (R22).
-/
namespace Sys2Proof.Machine

/-- What a hart's turn finds. -/
inductive Ready where
  | idle (s : State)
  | trapped (s : State)
  | fault (c : Cause) (va : Word) (detail : Nat) (s : State)
  | word (w : BitVec 32) (s : State)
  deriving DecidableEq, Repr

/-- REPIDX and s(d) take the element's index before it runs (R52, R54). -/
def Ctx.startElement (c : Ctx) : Ctx :=
  if c.rep.active then ({ c with repidx := c.rep.next }).wr c.rep.d c.rep.next else c

/-- Outstanding results that a test asks for are written first (R403); a replay that traps or is held takes the turn. -/
def State.afterReplays (s : State) (needed : Bool) (k : State → Ready) : Ready :=
  if needed then
    match drainReplays s s.ctx.replay with
    | (s, .all) => k s
    | (s, _) => .trapped s
  else k s

/-- A word that reads a register whose parity fails takes ECC, structure code 1 (R398, R416). -/
def State.withParity (s : State) (w : BitVec 32) : Ready :=
  if s.ctx.bad.any (sourcesOf w).contains then .trapped (s.enter s.cur ⟨.ecc, 0, 0, 1, [], none⟩) else .word w s

/-- Outstanding results that the word needs are written first (R403). -/
def State.beforeWord (s : State) (w : BitVec 32) : Ready := s.afterReplays (s.needsReplay w.toNat) fun s => s.withParity w

/-- Whether an outstanding result goes to the index register of a repeat, which the next index then replaces (R53). -/
def Ctx.indexPending (c : Ctx) : Bool := c.rep.active && c.replay.any fun r => bits r.word.toNat 20 6 == c.rep.d.val

/-- A turn of the hart `h` (R34, R35, R54): a trap that waits between instructions comes first (R135, R406, R415); a hart that
does not run, or is throttled (R382), does nothing. DEADLOCK takes a standing push back (R254). -/
def State.hartTurn (s0 : State) (h : HartId) (late : Bool) : Ready :=
  let s := ({ s0 with cur := h }).updHart h fun x => { x with late := late }
  let x := s.me
  if x.run != .running || s.throttled s.myself x.ctx.cont.launch 0 then .idle s
  else match x.ctx.pend with
    | p :: rest =>
      let s := s.updCtx fun c => { c with pend := rest }
      .trapped ((if p.cause == .deadlock then (List.finRange 16).foldl (fun s q => s.takeBack h q) s else s).enter h p)
    | [] =>
      if x.ctx.rep.active then s.afterReplays x.ctx.indexPending fun s => (s.updCtx Ctx.startElement).beforeWord x.ctx.rep.word
      else match s.fetch h x.ctx.pc with
        | (s, .error (c, k)) => .fault c x.ctx.pc k s
        | (s, .ok w) => s.beforeWord w

/-- The first slot code, and the tile kind, of an operation's slot class (R22, R214): true for a memory tile. -/
def slotClass (eop : Nat) : Bool × List Nat :=
  if eop ≤ 0x17 then (false, [1, 2, 3, 4])
  else if eop ≤ 0x1F then (false, [0])
  else if eop ≤ 0x22 || eop == 0x2A then (true, [0, 1])
  else if eop ≤ 0x25 then (true, [2])
  else if eop ≤ 0x27 || eop == 0x2C || eop == 0x2D then (false, [5, 6])
  else if eop == 0x28 then (false, [7])
  else if eop == 0x29 || eop == 0x2B then (false, [8])
  else if eop ≤ 0x35 then (true, [3, 4, 5])
  else (false, [13, 14, 15])

/-- The word of a slot. -/
def State.slotWord (s : State) (u : UnitRef) : Option (BitVec 32) :=
  Tbl.find? (s.tc u.tile.die.val (TileNo u.tile) u.ctx.val).ops u.slot.val

/-- Instructions that are steps of the device and have no word. -/
def isEvent (i : Instr) : Bool :=
  match i with
  | .illegalInstruction _ => false
  | .instructionFetchFault _ _ _ => false
  | i => (encode i).isNone

/-- A one-page address space for the running hart at ASID 0 (assumption 10): tables at 0x10000, page 0 mapped to 0x100000. -/
def bootMem : List (Nat × Nat) :=
  [(0x10000, 0x20001), (0x20000, 0x21001), (0x21000, 0x22001), (0x22000, 0x23001), (0x23000, 0x24001), (0x24000, 0x10001F)]

/-- Write 8-byte words at physical addresses. -/
def State.putWords (s : State) (l : List (Nat × Nat)) : State := l.foldl (fun s x => s.put x.1 (leBytes 8 x.2)) s

/-- A hart that runs at system level with one mapped page, as a host's ASIDTAB, WRMEM and HARTRST would leave it. -/
def State.bootHart (s : State) : State :=
  let s := { s with asidTab := 0x10000 }
  (s.putWords bootMem).updMe fun h =>
    { h with run := .running, pl := true, asid := 0, ctx := { h.ctx with pc := 0, pend := [], rep := { h.ctx.rep with active := false } } }

/-- Put a control word where the running hart fetches next. -/
def State.placeControl (s : State) (w : Nat) : State :=
  let s := { s with turns := [] }
  match s.me.run == .running && s.ctx.pend == [] && !s.ctx.rep.active, s.fetch s.cur s.pc, s.check s.die s.me.asid.toNat s.me.pl .fetch s.pc 4 with
  | true, (_, .ok _), (_, .ok a) => s.put a.pa (leBytes 4 w)
  | _, _, _ => let s := s.bootHart; s.put 0x100000 (leBytes 4 w)

/-- Load an element word into a slot of its class of a running one-tile task, whose turn comes next. -/
def State.placeElement (s : State) (w : Nat) : State :=
  let cl := slotClass (ElemWord.ofNat w).eop
  let tile : Nat := if cl.1 then 1 else 0
  let slot : Fin 16 := Fin.ofNat 16 (cl.2.headD 0)
  let t := taskOf 0 tile 0 0
  let s := s.updTask t fun k => { k with state := .running, w1 := 0, h1 := 0 }
  let s := s.updTc 0 tile 0 fun c => { c with ops := Tbl.set c.ops slot.val (BitVec.ofNat 32 w) }
  { s with current := Tbl.set s.current tile 0, turns := [.unit ⟨⟨0, Fin.ofNat 24 tile, 0⟩, 0, slot⟩] }

end Sys2Proof.Machine
end

