-- ==== Sys2Proof/Machine/Loader.lean ====
section
/-!
DEFINITION. The loader: block images (R213, R214), every check that refuses one (R23, R27, R162, R167, R171, R172, R175, R181 to
R183, R196, R199, R216, R222 to R224, R250, R290) with its reason and cause word (R225), and the contexts it builds.
-/
namespace Sys2Proof.Machine

/-! ## Refusals (R225) -/

/-- A reason and a cause word. -/
structure Refused where
  reason : Nat
  cause : Word
  deriving DecidableEq, Repr

/-- A refusal that names an entry: its section, tile, slot and index. -/
def refuse (reason sect tile slot index : Nat) : Refused :=
  ⟨reason, word (tile % 16 * 2 ^ 56 + slot % 16 * 2 ^ 52 + index % 256 * 2 ^ 44 + sect * 2 ^ 42)⟩

/-- The first refusal of some. -/
def firstOf (l : List (Option Refused)) : Option Refused := l.findSome? id
def refuseIf (b : Bool) (r : Refused) : Option Refused := if b then some r else none

/-! ## The image (R213) -/

/-- An operation entry, a switch entry, a descriptor entry; `pad` is its pad bytes, zero in a good one. -/
structure OpEntry where
  word : Nat
  tile : Nat
  slot : Nat
  pad : Nat
  deriving DecidableEq, Repr
structure SwEntry where
  word : Nat
  tile : Nat
  pad : Nat
  deriving DecidableEq, Repr
structure DescEntry where
  tile : Nat
  index : Nat
  pad : Nat
  val : Nat
  deriving DecidableEq, Repr

/-- A block. -/
structure Block where
  hdr : List Byte
  ops : List OpEntry
  sws : List SwEntry
  descs : List DescEntry
  tail : Nat
  deriving DecidableEq, Repr

def hdrNop (h : List Byte) : Nat := fieldOf h 1 1
def hdrNsw (h : List Byte) : Nat := fieldOf h 2 2
def hdrNdesc (h : List Byte) : Nat := fieldOf h 4 2

/-- The bytes of the three sections. -/
def sectionBytes (h : List Byte) : Nat := 8 * hdrNop h + (4 * hdrNsw h + 7) / 8 * 8 + 40 * hdrNdesc h

/-- Read the sections that a header describes. -/
def parseBlock (h l : List Byte) : Block :=
  let sw0 := 8 * hdrNop h
  let d0 := sw0 + (4 * hdrNsw h + 7) / 8 * 8
  { hdr := h
    ops := (List.range (hdrNop h)).map fun k => ⟨fieldOf l (8 * k) 4, fieldOf l (8 * k + 4) 1, fieldOf l (8 * k + 5) 1, fieldOf l (8 * k + 6) 2⟩
    sws := (List.range (hdrNsw h)).map fun k => ⟨fieldOf l (sw0 + 4 * k) 2, fieldOf l (sw0 + 4 * k + 2) 1, fieldOf l (sw0 + 4 * k + 3) 1⟩
    descs := (List.range (hdrNdesc h)).map fun k =>
      ⟨fieldOf l (d0 + 40 * k) 1, fieldOf l (d0 + 40 * k + 1) 1, fieldOf l (d0 + 40 * k + 2) 6, fieldOf l (d0 + 40 * k + 8) 32⟩
    tail := fieldOf l (sw0 + 4 * hdrNsw h) (d0 - sw0 - 4 * hdrNsw h) }

/-- What a header must hold in either version (R213). -/
def hdrFields (h : List Byte) (r : RegionRef) : Bool :=
  1 ≤ hdrNop h && hdrNop h ≤ 128 && hdrNsw h ≤ 256 && hdrNdesc h ≤ 256
    && fieldOf h 6 1 == r.w1 + 16 * r.h1 && fieldOf h 7 1 / 8 == 0 && fieldOf h 13 3 == 0 && fieldOf h 16 1 / 64 == 0
    && (fieldOf h 17 1 == 0 || (fieldOf h 17 1 % 16 < (r.w1 + 1) * (r.h1 + 1) && fieldOf h 17 1 / 16 ≤ 10))

/-! ## Port tables (R168) -/

/-- Whether the word of a slot, if there is one, drives an output of a plane (R25). -/
def TileCtx.drives (c : TileCtx) (plane slot : Nat) : Bool :=
  match c.word slot with
  | none => true
  | some e => (elemOuts slot e).any (·.1 == plane)

/-- Whether a code is an origin of a plane: it stands in the tile's port table, and a vector slot or a router operator whose word
drives another plane is none (R25, R27, R168). A slot with no word is an origin that sends nothing. -/
def originCode (c : TileCtx) (mt : Bool) (plane code : Nat) : Bool :=
  let router := 4 ≤ code && code ≤ 6 && c.drives plane (code + 9)
  code < 4 || match plane with
    | 0 => code ≤ 15 && (!mt || code ≤ 11 || code == 15) && (mt || code < 5 || 8 < code || c.drives 0 (code - 4))
    | 1 => router || code == 15 || (!mt && 11 ≤ code && code ≤ 14)
    | 2 => router || (!mt && 7 ≤ code && code ≤ 10 && (c.word (code - 6)).isSome && c.drives 2 (code - 6))
    | _ => mt && 7 ≤ code && code ≤ 9

/-- Whether a code is a slot or port destination of a class. -/
def destCode (mt : Bool) (cls code : Nat) : Bool :=
  match cls with
  | 0 => code == 15 || (4 ≤ code && code ≤ (if mt then 9 else 12))
  | 1 => code == 15 || (4 ≤ code && code ≤ (if mt then 8 else 6))
  | 2 => 4 ≤ code && code ≤ (if mt then 6 else 10)
  | 3 => !mt && 4 ≤ code && code ≤ 12
  | _ => mt && 7 ≤ code && code ≤ 9

/-- The slot that a destination code of a class names. -/
def destSlot (cls code : Nat) : Nat :=
  match cls with
  | 1 => if code ≤ 6 then code + 9 else code - 7
  | 2 => if code ≤ 6 then code + 9 else code - 6
  | _ => code - 4

/-- The inputs of a slot that a switch word feeds: those that read its origin on its plane. -/
def TileCtx.fedBy (c : TileCtx) (w : BitVec 16) : List Nat :=
  let slot := destSlot (swClass w) (swDst w)
  match c.word slot with
  | none => []
  | some e =>
    let pl := if swClass w == 3 then 1 else swClass w
    ((c.reads e).filter fun r => r.2.1 == pl && r.2.2 == swOrg w && (swClass w != 3 || (e.plane == 3 && r.1 == 1))).map fun r => inKey slot r.1

/-! ## Links and the rectangle (R201, R216) -/

/-- Whether the neighbour by a port lies in the rectangle, for the tile of an index. -/
def insideRect (r : RegionRef) (idx dir : Nat) : Bool :=
  let x := idx % (r.w1 + 1)
  let y := idx / (r.w1 + 1)
  match dir with
  | 0 => 0 < y
  | 1 => x < r.w1
  | 2 => y < r.h1
  | _ => 0 < x

/-! ## Contexts -/

/-- A tile's words alone. -/
def Block.words (b : Block) (idx : Nat) : TileCtx :=
  { ops := (b.ops.filter (·.tile == idx)).foldl (fun t e => Tbl.set t e.slot (BitVec.ofNat 32 e.word)) []
    places := (b.ops.zipIdx.filter (·.1.tile == idx)).foldl (fun t e => Tbl.set t e.1.slot e.2) []
    sws := ((b.sws.filter (·.tile == idx)).map fun e => BitVec.ofNat 16 e.word)
    descs := (b.descs.filter (·.tile == idx)).foldl (fun t e => Tbl.set t e.index (BitVec.ofNat 256 e.val)) [] }

/-- Set the depths that switch words give (R172). DESIGN CHOICE (assumption 82): of two words with one class, destination and
origin and two depth classes the later gives the depth. -/
def TileCtx.setDepths (c : TileCtx) : TileCtx :=
  c.sws.foldl (fun c w =>
    if 4 ≤ swClass w then c
    else if swDst w < 4 then c.updBuf (linkKey (swClass w) (swDst w)) fun b => { b with depth := swDepth w }
    else if swDst w == 15 && swClass w < 2 then c.updBuf (hartKey (swClass w)) fun b => { b with depth := swDepth w }
    else (c.fedBy w).foldl (fun c k => c.updBuf k fun b => { b with depth := swDepth w }) c) c

def Block.context (b : Block) (idx : Nat) : TileCtx := (b.words idx).setDepths

/-! ## Operation entries (R22, R23, R162, R169, R214, R216) -/

/-- The slot codes of a tile kind (R214). -/
def slotCode (mt : Bool) (slot : Nat) : Bool := slot ≤ (if mt then 5 else 8) || (13 ≤ slot && slot ≤ 15)

/-- Whether PIVTAU is a positive normal f32 (R162). -/
def pivtauOk (p : Word) : Bool := 0x800000 ≤ wfld p 0 32 && wfld p 0 32 < 0x7F800000

def flawReason : ElemFlaw → Nat
  | .eop => 1
  | .planeOrFormat => 3
  | .port => 4
  | .mode => 5

def isMTat (t : TaskId) (w1 idx : Nat) : Bool := isMT (tileAt t w1 idx)

/-- An operation entry alone. -/
def Block.opFlaw (b : Block) (r : RegionRef) (piv : Word) (k : Nat) (e : OpEntry) : Option Refused :=
  let mk (n : Nat) := refuse n 1 e.tile e.slot k
  let w := ElemWord.ofNat e.word
  let mt := isMTat r.task r.w1 e.tile
  let c := b.words e.tile
  firstOf [
    refuseIf (e.pad != 0) (mk 12),
    refuseIf ((r.w1 + 1) * (r.h1 + 1) ≤ e.tile) (mk 2),
    refuseIf (!slotCode mt e.slot) (mk 2),
    refuseIf ((b.ops.take k).any fun x => x.tile == e.tile && x.slot == e.slot) (mk 2),
    refuseIf (w.flaw == some .eop) (mk 1),
    refuseIf (!((slotClass w.eop).2.contains e.slot && (w.eop ≥ 0x38 || (slotClass w.eop).1 == mt))) (mk 2),
    w.flaw.map fun f => mk (flawReason f),
    refuseIf ((w.eop == 0x12 || (w.eop == 0x13 && w.modeBit 0)) && !pivtauOk piv) (mk 3),
    refuseIf (c.freeAgen w && w.a != 0) (mk 4),
    refuseIf ((c.reads w).any fun x => !originCode c mt x.2.1 x.2.2) (mk 4),
    refuseIf ((c.reads w).any fun x => x.2.2 < 4 && !insideRect r e.tile x.2.2) (mk 13),
    refuseIf ([0x26, 0x27, 0x2C, 0x2D].contains w.eop && c.readers 0 (e.slot + 4) == [] && c.readers 0 (e.slot + 8) == []) (mk 6)]

/-! ## Switch entries (R27, R171, R172, R216) -/

/-- Two switch words that drive one link or hart port, or one ordering destination, from two origins. DESIGN CHOICE (assumption
81): a slot destination names the slot, whose inputs are ports of their own, so two words that name one slot do not clash. -/
def clash (x y : BitVec 16) : Bool :=
  swClass x == swClass y && swDst x == swDst y && swOrg x != swOrg y && (swDst x < 4 || swDst x == 15 || swClass x == 4)

def Block.swFlaw (b : Block) (r : RegionRef) (k : Nat) (e : SwEntry) : Option Refused :=
  let mk (n : Nat) := refuse n 2 e.tile 0 k
  let w : BitVec 16 := BitVec.ofNat 16 e.word
  let mt := isMTat r.task r.w1 e.tile
  let c := b.words e.tile
  let cls := swClass w
  firstOf [
    refuseIf (e.pad != 0) (mk 12),
    refuseIf ((r.w1 + 1) * (r.h1 + 1) ≤ e.tile) (mk 2),
    refuseIf (5 ≤ cls || 6 ≤ fld w.toNat 0 3) (mk 6),
    refuseIf (16 ≤ swDst w || 16 ≤ swOrg w) (mk 6),
    refuseIf (!originCode c mt (if cls == 3 then 1 else cls) (swOrg w)) (mk 6),
    refuseIf (swDst w < 4 && cls == 3) (mk 6),
    refuseIf (4 ≤ swDst w && !destCode mt cls (swDst w)) (mk 6),
    refuseIf (swOrg w < 4 && !insideRect r e.tile (swOrg w)) (mk 13),
    refuseIf (swDst w < 4 && !insideRect r e.tile (swDst w)) (mk 13),
    refuseIf ((b.sws.take k).any fun x => x.tile == e.tile && clash (BitVec.ofNat 16 x.word) w) (mk 6),
    refuseIf (4 ≤ swDst w && swDst w != 15 && cls < 4 && c.fedBy w == []) (mk 6)]

/-! ## Descriptors (R175, R192, R250, R290) -/

def storeSize : Nat := 0x300000

/-- An array at an offset of the store lies wholly inside it and is 4-byte aligned. -/
def arrayOk (off len : Nat) : Bool := off % 4 == 0 && off + len ≤ storeSize

/-- The bytes of some elements of a format. -/
def elemBytes (n fmt : Nat) : Nat := (n * (fmtOf fmt).width + 7) / 8

/-- A descriptor alone, and under the words of its tile that name it. DESIGN CHOICE (assumption 88): bytes 20 to 31 of a kind 6
entry, which its layout leaves out, may hold anything. DESIGN CHOICE (assumption 102): seg and crd of kinds 3 and 4, which the layout gives as
0 and does not call reserved, may hold anything. -/
def descOk (d : Nat) (users : List ElemWord) : Bool :=
  let kind := dfield d 0 1
  let vfmt := dfield d 1 1
  let dim := dfield d 4 4
  let seg := dfield d 8 4
  let crd := dfield d 12 4
  let val := dfield d 16 4
  let nfib := dfield d 20 4
  let maxfib := dfield d 24 4
  let writer := users.any fun e => 0x23 ≤ e.eop && e.eop ≤ 0x25
  let values := writer || users.any fun e => e.eop == 0x2A
  let skips := users.any fun e => 0x20 ≤ e.eop && e.eop ≤ 0x22 && e.b != 0
  let starts (off : Nat) : Bool := off % 4 == 0 && off < storeSize
  let plain := dfield d 2 2 == 0 && vfmt < 0x0E && !(values && vfmt == 0)
  let valOk (n : Nat) : Bool := if writer then arrayOk val (elemBytes n vfmt) else starts val
  match kind with
  | 0 => true
  | 1 => plain && arrayOk seg (4 * (nfib + 1)) && (if writer then arrayOk crd (4 * maxfib) else starts crd) && valOk maxfib && !(skips && 2 ^ 30 ≤ dim)
  | 2 => plain && arrayOk seg (4 * (nfib * ((dim + 31) / 32))) && arrayOk crd (4 * (nfib + 1)) && valOk maxfib && !(skips && 2 ^ 30 ≤ dim)
  | 3 => plain && valOk (nfib * dim) && !(skips && 2 ^ 30 ≤ dim)
  | 4 => plain && arrayOk val (elemBytes dim vfmt)
  | 5 => 1 ≤ vfmt && vfmt ≤ 3 && dfield d 2 1 / 2 == 0 && dfield d 3 1 == 0
      && (List.range vfmt).all fun k => dfield d (4 + 4 * k) 4 != 0
  | 6 =>
    vfmt == 0 && dfield d 2 2 == 0 && dfield d 4 4 % 64 == 0 && dfield d 8 4 % 64 == 0 && dfield d 4 4 + dfield d 8 4 ≤ storeSize
      && users.all fun e =>
        if e.eop == 0x31 then 1 ≤ dfield d 12 4 && dfield d 12 4 ≤ 16 && dfield d 16 4 % 64 == 0 && dfield d 12 4 * dfield d 16 4 ≤ dfield d 8 4
        else if e.eop == 0x32 then dfield d 12 4 == 0 && 0 < dfield d 8 4 && (dfield d 16 4 == 0 || dfield d 16 4 == dfield d 8 4)
        else e.b != 0 || (1 ≤ dfield d 12 4 && dfield d 12 4 ≤ 2 ^ 16)
  | 7 => dfield d 1 3 == 0 && dfield d 10 1 ≤ 5 && dfield d 11 1 ≤ 1 && dfield d 20 12 == 0
  | _ => false

/-- The kind that an element's entry must have (R175). -/
def kindFor (eop : Nat) : Option Nat :=
  match eop with
  | 0x20 | 0x23 => some 1
  | 0x21 | 0x24 => some 2
  | 0x22 | 0x25 => some 3
  | 0x2A => some 4
  | 0x30 => some 5
  | 0x31 | 0x32 | 0x33 => some 6
  | 0x34 | 0x35 => some 7
  | _ => none

def TileCtx.users (c : TileCtx) (n : Nat) : List ElemWord :=
  (c.slots.filter fun x => (kindFor x.2.eop).isSome && x.2.mode % 16 == n).map (·.2)

def Block.descFlaw (b : Block) (r : RegionRef) (k : Nat) (e : DescEntry) : Option Refused :=
  let mk (n : Nat) := refuse n 3 e.tile 0 k
  firstOf [
    refuseIf (e.pad != 0) (mk 12),
    refuseIf ((r.w1 + 1) * (r.h1 + 1) ≤ e.tile) (mk 2),
    refuseIf (!isMTat r.task r.w1 e.tile || 16 ≤ e.index) (mk 7),
    refuseIf ((b.descs.take k).any fun x => x.tile == e.tile && x.index == e.index) (mk 7),
    refuseIf (!descOk e.val ((b.words e.tile).users e.index)) (mk 7)]

/-- The entry that an operation names has the kind it needs; an entry not in the image is of kind 0. -/
def Block.kindFlaw (b : Block) (k : Nat) (e : OpEntry) : Option Refused :=
  let w := ElemWord.ofNat e.word
  match kindFor w.eop with
  | none => none
  | some n => refuseIf (dfield ((b.words e.tile).desc (w.mode % 16)) 0 1 != n) (refuse 7 1 e.tile e.slot k)

/-! ## Skip routes (R183) and ordering chains (R196) -/

/-- The skip output of a joiner's side. -/
def skipCode (slot side : Nat) : Nat := 11 + 2 * (slot - 5) + side

/-- Whether the skip output of a side reaches the scanner that produces that input, with no unit between. -/
def State.skipReaches (s : State) (die ctx tile slot side org : Nat) : Bool :=
  match s.feeder die ctx 0 64 tile org with
  | none => false
  | some (p, code) =>
    isMT p && (code == 4 || code == 5) && match (s.tc die p ctx).word (code - 4) with
      | none => false
      | some e =>
        0x20 ≤ e.eop && e.eop ≤ 0x22 && e.b != 0 && s.feeder die ctx 1 64 p e.b == some (tile, skipCode slot side)

def State.skipFlaw (s : State) (r : RegionRef) (k : Nat) (e : OpEntry) : Option Refused :=
  let w := ElemWord.ofNat e.word
  let die := (taskDie r.task).val
  let ctx := (taskCtx r.task).val
  let tile := tileAt r.task r.w1 e.tile
  refuseIf (w.eop == 0x26 && ((w.modeBit 0 && !s.skipReaches die ctx tile e.slot 0 w.a) || (w.modeBit 1 && !s.skipReaches die ctx tile e.slot 1 w.b)))
    (refuse 8 1 e.tile e.slot k)

/-- A node's links are mutual, and one to another tile has an ordering arc (R196, R197). -/
def State.chainFlaw (s : State) (r : RegionRef) (k : Nat) (e : OpEntry) : Option Refused :=
  let w := ElemWord.ofNat e.word
  let die := (taskDie r.task).val
  let ctx := (taskCtx r.task).val
  if w.eop != 0x34 && w.eop != 0x35 then none
  else
    let tile := tileAt r.task r.w1 e.tile
    let n : MemNode := ⟨tile, e.slot, w.eop == 0x35, (s.tc die tile ctx).desc (w.mode % 16)⟩
    let l := s.memNodes r.task
    let before := n.pred == 0xFFFF || match l.find? fun p => p.seq == n.pred && p.succ == n.seq with
      | none => false
      | some p => p.tile == tile || s.feeder die ctx 4 64 tile (match (s.tc die tile ctx).sws.find? fun w => swClass w == 4 && swDst w == e.slot + 4 with
          | some w => swOrg w
          | none => 31) == some (p.tile, p.slot + 4)
    let after := n.succ == 0xFFFF || l.any fun p => p.seq == n.succ && p.pred == n.seq
    refuseIf (!(before && after)) (refuse 11 1 e.tile e.slot k)

/-! ## The graph (R222) -/

/-- A unit of a block: tile and slot. -/
abbrev GNode := Nat × Nat

/-- An input of the graph: its port, the unit that feeds it, the links crossed and the depth of its route. -/
structure GEdge where
  port : Nat
  src : GNode
  links : Nat
  depth : Nat
  deriving DecidableEq, Repr

/-- Follow an input to its origin, adding up links and depths. -/
def State.trace (s : State) (die ctx plane : Nat) : Nat → Nat → Nat → Nat → Nat → Option (Nat × Nat × Nat × Nat)
  | 0, _, _, _, _ => none
  | fuel + 1, tile, code, links, depth =>
    if 4 ≤ code then some (tile, code, links, depth)
    else
      let n := neighbour tile code
      let c := s.tc die n ctx
      match c.sws.find? fun w => swClass w == plane && swDst w == opposite code with
      | some w => State.trace s die ctx plane fuel n (swOrg w) (links + 1) (depth + (c.buf (linkKey plane (opposite code))).depth)
      | none => none

/-- The inputs of a unit that the graph takes: on the data plane, and port b of a replicate element. -/
def State.gEdges (s : State) (die ctx : Nat) (n : GNode) : List GEdge :=
  let c := s.tc die n.1 ctx
  match c.word n.2 with
  | none => []
  | some e =>
    ((c.reads e).filter fun r => r.2.1 == 0 || (e.plane == 3 && r.1 == 1)).filterMap fun r =>
      match s.trace die ctx r.2.1 64 n.1 r.2.2 0 (c.buf (inKey n.2 r.1)).depth with
      | none => none
      | some (t, code, links, depth) => (originSlot (isMT t) r.2.1 code).map fun sl => ⟨r.1, (t, sl), links, depth⟩

def State.isBuffer (s : State) (die ctx : Nat) (n : GNode) : Bool :=
  match (s.tc die n.1 ctx).word n.2 with
  | some e => e.eop == 0x32 || e.eop == 0x33
  | none => false

/-- The edges into a unit once the inputs of FIFO and LBUF are removed. -/
def State.inEdges (s : State) (die ctx : Nat) (n : GNode) : List GNode :=
  if s.isBuffer die ctx n then [] else (s.gEdges die ctx n).map (·.src)

/-- Take away units with no edge in from, or none out to, the rest; what remains lies on cycles or between them. -/
def trimGraph (ins : GNode → List GNode) : Nat → List GNode → List GNode
  | 0, l => l
  | fuel + 1, l =>
    let l' := l.filter fun n => (ins n).any l.contains && l.any fun m => (ins m).contains n
    if l'.length == l.length then l else trimGraph ins fuel l'

/-- What leads to some units. -/
def reachBack (ins : GNode → List GNode) : Nat → List GNode → List GNode
  | 0, l => l
  | fuel + 1, l =>
    let l' := (l ++ l.flatMap ins).eraseDups
    if l'.length == l.length then l else reachBack ins fuel l'

/-- The first entry that lies on a cycle of the graph (R222, R225). -/
def State.cycleFlaw (s : State) (r : RegionRef) (ops : List OpEntry) : Option Refused :=
  let die := (taskDie r.task).val
  let ctx := (taskCtx r.task).val
  let node (e : OpEntry) : GNode := (tileAt r.task r.w1 e.tile, e.slot)
  let ins := s.inEdges die ctx
  let left := trimGraph ins (ops.length + 1) (ops.map node)
  ops.zipIdx.findSome? fun x => refuseIf (left.contains (node x.1) && (reachBack ins (ops.length + 1) (ins (node x.1))).contains (node x.1))
    (refuse 9 1 x.1.tile x.1.slot x.2)

/-! ## Rates and depths (R223, R224) -/

/-- The latency of an element (R145, R164, R188, R223). -/
def elemLatency (eop : Nat) : Nat :=
  match eop with
  | 0x03 | 0x0B | 0x12 => 3
  | 0x04 | 0x0E => 4
  | 0x0C | 0x13 | 0x2A => 6
  | 0x30 | 0x34 => 1
  | _ => if 0x01 ≤ eop && eop ≤ 0x17 then 2 else if 0x18 ≤ eop && eop ≤ 0x1F then 40 else 0

/-- The declared skew of a unit (R163, R164, R200); none is U. -/
def State.skew (s : State) (die ctx : Nat) : Nat → GNode → Option Nat
  | 0, _ => some 0
  | fuel + 1, n =>
    let c := s.tc die n.1 ctx
    match c.word n.2 with
    | none => some 0
    | some e =>
      let from_ (p : Nat) : Option Nat :=
        match (s.gEdges die ctx n).find? fun g => g.port == p with
        | some g => State.skew s die ctx fuel g.src
        | none => some 0
      match e.eop with
      | 0x0F => if e.modeBit 1 then some 2 else some 0
      | 0x14 => some 2
      | 0x08 => if e.mode / 8 % 4 == 0 then some 2 else none
      | 0x0E => some 4
      | 0x0A => if e.form == 1 then some 4 else some 0
      | 0x0C | 0x28 | 0x33 => none
      | 0x04 | 0x0D => if e.modeBit 0 then none else some 0
      | 0x20 | 0x21 | 0x22 => some ((dfield (c.desc (e.mode % 16)) 24 4 + 7) / 8 + 2)
      | 0x26 | 0x27 | 0x2D => do
        let a ← from_ 0
        let b ← from_ 1
        pure (a + b)
      | 0x2C | 0x29 => from_ 0
      | _ => if 0x18 ≤ e.eop && e.eop ≤ 0x1F then none else some 0

/-- A path that ends at an input: where it starts, its latency, depth and skew, whether a FIFO or LBUF lies on it, and the input
that its first edge leads to. -/
structure GPath where
  port : Nat
  start : GNode
  lat : Nat
  depth : Nat
  skew : Option Nat
  buffer : Bool
  first : GNode × Nat
  deriving DecidableEq, Repr

/-- Every path back from an input, none visiting a unit twice. -/
def State.pathsBack (s : State) (die ctx : Nat) : Nat → List GNode → GPath → List GPath
  | 0, _, _ => []
  | fuel + 1, seen, p =>
    let c := s.tc die p.start.1 ctx
    let e := (c.word p.start.2).getD ⟨0, 0, 0, 0, 0, 0, 0⟩
    p :: if seen.contains p.start then [] else (s.gEdges die ctx p.start).flatMap fun g =>
      State.pathsBack s die ctx fuel (p.start :: seen)
        { p with
          start := g.src, lat := p.lat + elemLatency e.eop + g.links, depth := p.depth + g.depth
          skew := do
            let x ← p.skew
            let y ← s.skew die ctx 128 p.start
            pure (x + y)
          buffer := p.buffer || s.isBuffer die ctx p.start
          first := (p.start, g.port) }

/-- Units that read their inputs in step (R138, R139, R165, R177). -/
def inStep (eop : Nat) : Bool := (0x01 ≤ eop && eop ≤ 0x1F) || [0x26, 0x27, 0x2D, 0x35].contains eop

/-- The rate of a divergence unit, in beats a cycle (R200, R223): eight tokens make one beat, and a unit that sends one token a
cycle sends it as one beat (R203). DESIGN CHOICE (assumption 83): REDC's one token a fibre counts as one beat a cycle, its
greatest rate. -/
def beatRate (_eop : Nat) : Nat := 1

/-- The check of two paths that part at D and meet again at M (R224): what the early one needs and has, if it fails. Two paths
that leave D by one edge part at a later unit, not at D. -/
def pairCheck (rate : Nat) (p q : GPath) : Option (Nat × Nat × Nat) :=
  if p.first == q.first || p.buffer || q.buffer then none
  else
    let early := if q.lat < p.lat then q else p
    let late := if q.lat < p.lat then p else q
    match early.skew, late.skew with
    | some x, some y =>
      let need := (late.lat - early.lat) * rate + x + y
      if need ≤ early.depth then none else some (early.port, need, early.depth)
    | _, _ => some (early.port, 0xFFFF, early.depth)

/-- Every reconvergence, in the order of D's entry and then M's. -/
def State.reconvergenceFlaw (s : State) (r : RegionRef) (ops : List OpEntry) : Option Refused :=
  let die := (taskDie r.task).val
  let ctx := (taskCtx r.task).val
  let node (e : OpEntry) : GNode := (tileAt r.task r.w1 e.tile, e.slot)
  let paths := ops.map fun m =>
    let n := node m
    (m, if inStep (ElemWord.ofNat m.word).eop then
        (s.gEdges die ctx n).flatMap fun g => s.pathsBack die ctx (ops.length + 1) [] ⟨g.port, g.src, g.links, g.depth, some 0, false, (n, g.port)⟩
      else [])
  ops.zipIdx.findSome? fun d => paths.findSome? fun x =>
    let l := x.2.filter fun p => p.start == node d.1
    (l.findSome? fun p => l.findSome? fun q => if p.port < q.port then pairCheck (beatRate (ElemWord.ofNat d.1.word).eop) p q else none).map fun f =>
      ⟨10, word (d.1.tile % 16 * 2 ^ 56 + d.1.slot * 2 ^ 52 + d.2 * 2 ^ 44 + 2 ^ 42 + x.1.tile % 16 * 2 ^ 38 + x.1.slot * 2 ^ 34
        + f.1 * 2 ^ 32 + min f.2.1 0xFFFF * 2 ^ 16 + min f.2.2 0xFFFF)⟩

/-! ## The whole check -/

/-- A block's contexts in place of what stood there. -/
def State.install (s : State) (r : RegionRef) (b : Block) : State :=
  (List.range ((r.w1 + 1) * (r.h1 + 1))).foldl (fun s idx =>
    s.updTc (taskDie r.task).val (tileAt r.task r.w1 idx) (taskCtx r.task).val fun _ => b.context idx)
    (s.updTask r.task fun k => { k with w1 := r.w1, h1 := r.h1 })

/-- The first refusal of a block whose header is good (assumption 15). -/
def State.blockFlaw (s : State) (r : RegionRef) (piv : Word) (b : Block) : Option Refused :=
  firstOf [
    b.ops.zipIdx.findSome? fun x => b.opFlaw r piv x.2 x.1,
    b.sws.zipIdx.findSome? fun x => b.swFlaw r x.2 x.1,
    refuseIf (b.tail != 0) (refuse 12 2 0 0 0),
    b.descs.zipIdx.findSome? fun x => b.descFlaw r x.2 x.1,
    b.ops.zipIdx.findSome? fun x => b.kindFlaw x.2 x.1]
  |>.orElse fun _ =>
    let t := s.install r b
    firstOf [
      b.ops.zipIdx.findSome? fun x => t.skipFlaw r x.2 x.1,
      b.ops.zipIdx.findSome? fun x => t.chainFlaw r x.2 x.1,
      t.cycleFlaw r b.ops,
      t.reconvergenceFlaw r b.ops]

end Sys2Proof.Machine
end

