-- ==== Sys2Proof/Machine/Checkpoint.lean ====
section
/-!
DEFINITION. Checkpoint images (R233, R408, R409): their records, their bytes, writing one and reading one back.
-/
namespace Sys2Proof

/-- FREE VALUE (assumption 5): what the device-only bodies of an image hold that this package has not written, none for an image of another
model (R408). -/
opaque Config.savedTask : List Byte → Option Machine.SavedTask

end Sys2Proof

namespace Sys2Proof.Machine

/-! ## CRC-32 (R408) -/

def crcByte (c : Nat) (b : Byte) : Nat :=
  (List.range 8).foldl (fun c _ => if c % 2 == 1 then (c / 2) ^^^ 0xEDB88320 else c / 2) (c ^^^ b.toNat)

/-- The register after some bytes; each byte's value is worked out before the next. -/
def crcFrom (c : Nat) : List Byte → Nat
  | [] => c
  | b :: l => match crcByte c b with
    | 0 => crcFrom 0 l
    | n + 1 => crcFrom (n + 1) l

/-- CRC-32 of bytes. -/
def crc32 (l : List Byte) : Nat := crcFrom 0xFFFFFFFF l ^^^ 0xFFFFFFFF

/-! ## Records -/

def padTo64 (n : Nat) : Nat := (n + 63) / 64 * 64

/-- Units of 64 bytes that the device fills of its own records (assumption 5). -/
def ownLen (serial k most : Nat) : Nat := 64 * (Config.imageBodyUnits (serial * 2 ^ 20 + k) % (most + 1))

/-- The records a task's image has: of each tile its buffers, its units, its areas and logs; then the restart point, and one for
each copy port that a unit reads (assumption 5). -/
def State.imageRecs (s : State) (t : TaskId) (serial : Nat) : List SavedRec :=
  let k := s.task t
  let die := (taskDie t).val
  let ctx := (taskCtx t).val
  let tiles := (tilesOf t k.w1 k.h1).zipIdx
  let own : List SavedRec := tiles.flatMap fun x =>
    let c := s.tc die x.1 ctx
    (⟨1, x.2, 0, 0, 0⟩ : SavedRec) :: c.slots.flatMap fun u =>
      let d := c.desc (u.2.mode % 16)
      let logs := (Tbl.getD c.units u.1 {}).wlog.length + (Tbl.getD c.units u.1 {}).plog.length
      (⟨2, x.2, u.1, 0, 0⟩ : SavedRec)
        :: (if 0x31 ≤ u.2.eop && u.2.eop ≤ 0x33 then [⟨3, x.2, u.1, dfield d 8 4, dfield d 4 4⟩] else [])
        ++ (if [0x23, 0x24, 0x25, 0x2B, 0x35].contains u.2.eop then [⟨4, x.2, u.1, logs, 0⟩] else [])
  let ports : List SavedRec := tiles.flatMap fun x =>
    let c := s.tc die x.1 ctx
    c.slots.flatMap fun u => (c.reads u.2).filterMap fun r =>
      if isMT x.1 && r.2.1 == 0 && (r.2.2 == 10 || r.2.2 == 11) then some ⟨6, x.2, u.1, 0, 0x300000 + (r.2.2 - 10) * 0x10000⟩ else none
  (own ++ [(⟨5, 0, 0, 0, 0⟩ : SavedRec)]).zipIdx.map (fun ((r, i) : SavedRec × Nat) =>
    if r.kind == 3 then r
    else { r with len := ownLen serial i (if r.kind == 4 then r.len / 2 else 3) }) ++ ports

/-- A record with its body (R408). -/
def SavedRec.bytes (r : SavedRec) (body : List Byte) : List Byte :=
  leBytes 1 r.tile ++ leBytes 1 r.kind ++ leBytes 1 r.slot ++ leBytes 1 0 ++ leBytes 4 body.length ++ leBytes 8 r.off
    ++ slice body 0 (padTo64 body.length)

/-- A body of the device's own (assumption 5). -/
def ownBody (serial k len : Nat) : List Byte := (List.range len).map fun i => Config.imageByte (serial * 2 ^ 20 + k) i

/-- Which record a kind-6 row belongs to. -/
def SavedRec.isRowOf (r : SavedRec) (tile port : Nat) : Bool := r.kind == 6 && r.tile == tile && r.off == 0x300000 + port * 0x10000

/-- The places of the bodies in an image: record, and the body's offset. -/
def bodyPlaces (head : Nat) (l : List SavedRec) : List (SavedRec × Nat) :=
  (l.foldl (fun x r => (x.1 ++ [(r, x.2 + 16)], x.2 + 16 + padTo64 r.len)) (([] : List (SavedRec × Nat)), head)).1

/-- The image's length. -/
def imageLen (head : Nat) (l : List SavedRec) : Nat := l.foldl (fun n r => n + 16 + padTo64 r.len) head

/-- The header over what follows it (R408). -/
def imageHeader (x : SavedTask) (after : List Byte) : List Byte :=
  slice (leBytes 1 2 ++ slice x.head 1 7 ++ leBytes 5 x.task.estim ++ leBytes 3 0 ++ slice x.head 16 2
    ++ leBytes 1 (if x.task.resume < 8 then x.task.resume else 0) ++ leBytes 1 0 ++ leBytes 4 x.task.count ++ leBytes 2 x.task.eflags.toNat ++ leBytes 2 0
    ++ leBytes 4 x.recs.length ++ leBytes 4 (64 + after.length) ++ leBytes 4 (crc32 after)) 0 64

/-- Everything after the header, from the bodies of kinds 3 and 6. -/
def imageAfter (serial : Nat) (x : SavedTask) (given : List (List Byte)) : List Byte :=
  slice x.head 64 (x.head.length - 64)
    ++ (x.recs.zipIdx.foldl (fun (a : List Byte × List (List Byte)) r =>
      if r.1.kind == 3 || r.1.kind == 6 then (a.1 ++ r.1.bytes (a.2.headD []), a.2.drop 1)
      else (a.1 ++ r.1.bytes (ownBody serial r.2 r.1.len), a.2)) (([] : List Byte), given)).1

/-- The bytes an image of a task would have (R385: B). -/
def State.imageSize (s : State) (t : TaskId) : Nat :=
  imageLen (max 64 (s.task t).block.length) (s.imageRecs t (s.images.length))

/-! ## Writing an image -/

/-- An area's bytes, as they stand in the store (R408). -/
def State.areaBytes (s : State) (t : TaskId) (w1 : Nat) (r : SavedRec) : List Byte :=
  s.bytesAt (storeAddr (taskDie t) (tileAt t w1 r.tile) r.off) r.len

/-- What a checkpoint of a task saves. -/
def State.imageNow (s : State) (t : TaskId) : SavedTask :=
  let k := s.task t
  let recs := s.imageRecs t s.images.length
  { task := k, tiles := (tilesOf t k.w1 k.h1).map fun tile => s.tc (taskDie t).val tile (taskCtx t).val
    head := if k.block == [] then leBytes 64 0 else k.block, recs := recs, areas := (recs.filter (·.kind == 3)).map (s.areaBytes t k.w1) }

/-- The bytes of the image (R408). -/
def State.imageBytes (s : State) (t : TaskId) : List Byte :=
  let x := s.imageNow t
  let after := imageAfter s.images.length x x.areas
  imageHeader x after ++ after

/-- Write an image (R233): state 7 with the task saved; a write that fails kills the task and marks the image (R408). An image
with no address goes to a save area of the extension, or fails where that has no room (R407). -/
def State.writeImage (s : State) (t : TaskId) : State :=
  let k := s.task t
  let serial := s.images.length
  let x := s.imageNow t
  let done (s : State) : State :=
    ({ s with images := Tbl.set s.images serial x }.updTask t fun k => { k with state := .checkpointed, saved := some serial }).wakeTask t
  let fail (s : State) : State := ((s.markInvalid t).killTask t).updTask t fun k => { k with state := .killed, cause := Cause.access.code }
  match k.image with
  | none =>
    let n := (s.imageSize t + 63) / 64
    match (s.getDie (taskDie t)).extFind n with
    | some a => done (s.updDie (taskDie t) fun d => { d with taskSaves := Tbl.set d.taskSaves t (a, n) })
    | none => fail s
  | some va =>
    match s.devStore (taskDie t) k.asid false .node (taskAgent t) va (s.imageBytes t) with
    | (s, none) => done s
    | (s, some _) => fail s

/-! ## Reading an image -/

/-- Whether the bytes after a header are those of a saved image, apart from its kinds 3 and 6 (R408). -/
def sameImage (serial : Nat) (x : SavedTask) (l : List Byte) : Bool :=
  let places := bodyPlaces (x.head.length - 64) x.recs
  let given := (places.filter fun p => p.1.kind == 3 || p.1.kind == 6).map fun p => slice l p.2 p.1.len
  imageAfter serial x given == slice l 0 (imageLen (x.head.length - 64) x.recs)

/-- The state records of an image's bytes from a position, n of them; none where the bytes end before they do (R225, R408). -/
def recordsAt (l : List Byte) : Nat → Nat → Nat → Option (List SavedRec)
  | _, 0, pos => if pos ≤ l.length then some [] else none
  | 0, _ + 1, _ => none
  | fuel + 1, n + 1, pos =>
    if pos + 16 ≤ l.length then
      (recordsAt l fuel n (pos + 16 + padTo64 (fieldOf l (pos + 4) 4))).map
        (⟨fieldOf l (pos + 1) 1, fieldOf l pos 1, fieldOf l (pos + 2) 1, fieldOf l (pos + 4) 4, fieldOf l (pos + 8) 8⟩ :: ·)
    else none

/-- The saved task that an image stands for: the latest whose bytes these are; else what its device-only bodies hold for a device of this model
(R408). `recs` are the records in its bytes, and `sections` how many bytes come before them. -/
def State.findImage (s : State) (l : List Byte) (recs : List SavedRec) (sections : Nat) : Option SavedTask :=
  match List.find? (fun ((n, x) : Nat × SavedTask) => sameImage n x l) s.images.reverse with
  | some x => some x.2
  | none => (Config.savedTask l).map fun x => { x with head := leBytes 64 0 ++ slice l 0 sections, recs := recs }

/-- The beats of a row: its first is a HEADER, the rest data (R290, R291). -/
def portRowBeats (l : List Byte) : List Beat :=
  (List.range (l.length / 64)).map fun i =>
    let b := (lineOf (slice l (64 * i) 64)).toNat
    if i == 0 then headerBeat b else dataBeat b

/-- Cut bytes into pieces of given lengths. -/
def cut : List Nat → List Byte → List (List Byte)
  | [], _ => []
  | n :: ns, l => slice l 0 n :: cut ns (l.drop n)

/-- The rows of an image's kind-6 records: tile, port, beats. -/
def imageRows (x : SavedTask) (l : List Byte) : List (Nat × Nat × List Beat) :=
  (bodyPlaces (x.head.length - 64) x.recs).flatMap fun p =>
    let lens := (x.rows.filter fun r => p.1.isRowOf r.1 r.2.1).map (·.2.2)
    (cut lens (slice l p.2 p.1.len)).map fun b => (p.1.tile, (p.1.off - 0x300000) / 0x10000, portRowBeats b)

/-- Put a saved task's contexts and areas back (R226: state 1 with the saved task); `l` is the image after its header. -/
def State.restoreImage (s : State) (r : RegionRef) (x : SavedTask) (l : List Byte) : State :=
  let s := x.tiles.zipIdx.foldl (fun s c => s.updTc (taskDie r.task).val (tileAt r.task r.w1 c.2) (taskCtx r.task).val fun b =>
    { c.1 with ops := b.ops, places := b.places, sws := b.sws, descs := b.descs }) s
  (bodyPlaces (x.head.length - 64) x.recs).foldl (fun s p =>
    if p.1.kind == 3 then s.put (storeAddr (taskDie r.task) (tileAt r.task r.w1 p.1.tile) p.1.off) (slice l p.2 p.1.len) else s) s

/-- Store an image whose areas or rows have changed (R409), with its lengths and CRC again right. -/
def State.rewriteImage (s : State) (t : TaskId) (serial : Nat) (x : SavedTask) (given : List (List Byte)) : State :=
  let s := { s with images := Tbl.set s.images serial { x with areas := given } }
  match (s.task t).image with
  | none => s
  | some va =>
    let after := imageAfter serial x given
    (s.devStore (taskDie t) (s.task t).asid false .node (taskAgent t) va (imageHeader x after ++ after)).1

/-- The bodies of kinds 3 and 6 as they stand: in memory, or in the save area. -/
def State.imageBodies (s : State) (t : TaskId) (x : SavedTask) : List (List Byte) :=
  let n := x.recs.filter fun r => r.kind == 3 || r.kind == 6
  match (s.task t).image with
  | none => (List.range n.length).map fun i => x.areas.getD i []
  | some va =>
    ((bodyPlaces x.head.length x.recs).filter fun p => p.1.kind == 3 || p.1.kind == 6).map fun p =>
      match (s.devLoad (taskDie t) (s.task t).asid false .node (taskAgent t) (va + word p.2) p.1.len).2 with
      | .ok l => l
      | .error _ => []

end Sys2Proof.Machine
end

