-- ==== Sys2Proof/Machine/FabricOps.lean ====
section
/-!
DEFINITION. Fabric instructions (R103, R104, R226): FLOAD, FARM, FSEL, FSTAT, FKILL, FCKPT, FDRAIN; and the steps of the Trellis
that belong to a task: hops, commit, park, drain, phase end, checkpoint, stall (R227 to R236).
-/
namespace Sys2Proof.Machine

/-! ## Tasks that share tiles -/

/-- Tasks with a tile in common with a rectangle, in its context. -/
def State.overlapping (s : State) (r : RegionRef) : List TaskId :=
  (s.tasks.filter fun ((t, k) : Nat × Task) =>
    k.state != TaskState.empty && taskDie t == taskDie r.task && taskCtx t == taskCtx r.task
      && (tilesOf t k.w1 k.h1).any (tilesOf r.task r.w1 r.h1).contains).map (·.1)

/-- Bring the registrations of every task of a die up to date. -/
def State.syncAll (s : State) (d : Fin 6) : State :=
  (s.tasks.filter fun ((t, _) : Nat × Task) => taskDie t == d).foldl (fun s x => s.syncTask x.1) s

/-- Make a context current on some tiles of a task's die (R217, R231). -/
def State.switchTiles (s : State) (t : TaskId) (tiles : List Nat) (ctx : Nat) : State :=
  ({ s with current := tiles.foldl (fun m tile => Tbl.set m ((taskDie t).val * 480 + tile) ctx) s.current }).syncAll (taskDie t)

/-- Make a context current on every tile of a task's rectangle (R217, R231). -/
def State.setCurrent (s : State) (t : TaskId) (ctx : Nat) : State :=
  s.switchTiles t (tilesOf t (s.task t).w1 (s.task t).h1) ctx

/-- The tiles of a victim go to the task it was pre-empted for (R387). -/
def State.handOver (s : State) (t : TaskId) : State :=
  let k := s.task t
  match k.handTo with
  | none => s
  | some u =>
    let theirs := tilesOf u (s.task u).w1 (s.task u).h1
    let ours := (tilesOf t k.w1 k.h1).filter theirs.contains
    (s.updTask t fun k => { k with handTo := none }).switchTiles t ours (taskCtx u).val

/-- After a change of a task's state: its waiters, its registrations, and its launch, which may be complete (R212). -/
def State.afterTask (s : State) (t : TaskId) : State := ((s.wakeTask t).wakePorts t |>.syncTask t).settleLaunch (s.task t).launch

/-! ## FLOAD (R104, R213 to R216) -/

/-- A refused block: CFGREFUSE with the reason and the cause word, in FSTAT too (R225). -/
def refuseM {α : Type} (r : Option RegionRef) (f : Refused) : M α := do
  doS fun s => match r with
    | some r => if s.loadedFor r s.me.asid.toNat then s.updTask r.task fun k => { k with cause := Cause.cfgrefuse.code } else s
    | none => s
  trapM .cfgrefuse f.reason f.cause

/-- Whether rows are on their way into the image of a checkpointed task: into a saved area or a copy port of it (R409). -/
def State.rowsInto (s : State) (t : TaskId) : Bool :=
  let k := s.task t
  let areas := ((k.saved.bind (Tbl.find? s.images)).map fun x => x.recs.filter (·.kind == 3)).getD []
  let into (pa n : Nat) : Bool := match spaceOf pa with
    | .store x tile off => x == taskDie t && areas.any fun r => tileAt t k.w1 r.tile == tile && meets r.off r.len off n
    | .portWin x tile _ _ => x == taskDie t && (tilesOf t k.w1 k.h1).contains tile
    | _ => false
  k.state == .checkpointed && allDies.any fun d => (s.copiesOf d).any fun c => c.flying.any fun row =>
    (lineSpans (c.blk.dest.toNat + row.row * c.blk.dstride) row.bytes.length).any fun sp => match s.peekVa d c.asid sp.1 with
      | .ok e => into (e.addrFor d sp.1) sp.2
      | .error _ => false

/-- Whether a load by the running hart keeps the fault that its region's task holds for the hart's launch (R234). -/
def State.keepsFault (s : State) (r : RegionRef) (t : TaskId) : Bool :=
  let k := s.task t
  t == r.task && k.w1 == r.w1 && k.h1 == r.h1 && k.launch == s.myLaunch

/-- A fault that a task holds stays unreported in its launch when the task is replaced (R212, R234). -/
def State.leaveFault (s : State) (r : RegionRef) (t : TaskId) : State :=
  match (s.task t).held with
  | some (c, _) => if s.keepsFault r t then s else s.updLaunch (s.task t).launch fun l =>
      { l with unreported := some (l.unreported.getD (c.code, taskAgent t)) }
  | none => s

/-- The fault that a load leaves held in its region (R234). -/
def State.heldOver (s : State) (r : RegionRef) : Option (Cause × Word) := if s.keepsFault r r.task then (s.task r.task).held else none

/-- What the tasks with a tile in a rectangle have published has landed everywhere, whatever their context (R317). -/
def State.landOver (s : State) (r : RegionRef) : State :=
  (s.tasks.filter fun ((t, k) : Nat × Task) =>
    taskDie t == taskDie r.task && (tilesOf t k.w1 k.h1).any (tilesOf r.task r.w1 r.h1).contains).foldl (fun s x => s.landAgent (taskAgent x.1)) s

/-- The tasks whose place a block takes become empty; what waited on them looks again (R226). -/
def State.evictTasks (s : State) (r : RegionRef) : State :=
  let old := s.overlapping r
  let s := old.foldl (fun s t => (s.giveFlags t).leaveFault r t) (s.landOver r)
  let s := old.foldl (fun s t => (s.eachTile t fun _ => {}).updDie (taskDie t) fun d => { d with taskSaves := Tbl.erase d.taskSaves t }) s
  let s := old.foldl (fun s t => s.updTask t fun _ => {}) s
  old.foldl (fun s t => (s.wakeTask t).wakePorts t) s

/-- What a fresh task takes from its header, the hart and its launch (R215). DESIGN CHOICE (assumption 101): its regularisation count (R158)
starts at 0 with the load, and FARM leaves it. -/
def State.freshTask (s : State) (r : RegionRef) (h block : List Byte) : Task :=
  let l := s.launch s.myLaunch
  let fl := fieldOf h 7 1
  { asid := s.me.asid.toNat, launch := s.myLaunch, w1 := r.w1, h1 := r.h1, state := .loaded, held := s.heldOver r
    ckpt := fl.testBit 0 && !l.nckpt, restartable := fl.testBit 1 && !l.nkill, cauto := fl.testBit 2
    next := fieldOf h 16 1, psrc := fieldOf h 17 1, estim := fieldOf h 8 5
    round := s.ctx.round, pivtau := s.ctx.pivtau, seed := s.ctx.stochseed, bprio := s.ctx.bprio, eprio := s.ctx.bprio, block := block }

/-- FLOAD of a block (R213). -/
def loadBlock (r : RegionRef) (va : Word) (h : List Byte) : M Unit := do
  let bad : Refused := ⟨12, 0⟩
  if !(hdrFields h r && zeroSpan h 18 46) then refuseM r bad
  let l ← readRecordM .read (va + 64) (sectionBytes h)
  let b := parseBlock h l
  let s ← get
  match s.blockFlaw r s.ctx.pivtau b with
  | some f => refuseM r f
  | none => doS fun s => ((s.evictTasks r).install r b).updTask r.task fun _ => s.freshTask r h (h ++ l)

/-- The task whose checkpoint image lies at an address and has rows in flight into it (R409). -/
def State.fillingImage (s : State) (va : Word) : Option TaskId :=
  let place (d : Fin 6) (asid : Nat) (a : Word) : Option Nat := match s.peekVa d asid a.toNat with
    | .ok e => some (e.addrFor d a.toNat)
    | .error _ => none
  (List.find? (fun ((t, k) : Nat × Task) => s.rowsInto t
    && (k.image.bind (place (taskDie t) k.asid)).any fun p => place s.die s.me.asid.toNat va == some p) s.tasks).map (·.1)

/-- FLOAD of a checkpoint image (R408): the saved task in state 1, once no row is in flight into the image (R409). -/
def loadImage (r : RegionRef) (va : Word) (h : List Byte) : M Unit := do
  let bad : Refused := ⟨12, 0⟩
  match (← get).fillingImage va with
  | some t => waitM .region (.task t) 0
  | none => pure ()
  let before := fieldOf h 18 1
  if !(hdrFields h r) || !([0, 2, 3, 4].contains before) || !zeroSpan h 19 1 || !zeroSpan h 26 2 || !zeroSpan h 40 24 then refuseM r bad
  let len := fieldOf h 32 4
  if len < 64 + sectionBytes h then refuseM r ⟨14, 0⟩
  let l ← readRecordM .read (va + 64) (len - 64)
  if crc32 l != fieldOf h 36 4 then refuseM r bad
  let b := parseBlock h l
  let s ← get
  match recordsAt l (len / 16) (fieldOf h 28 4) (sectionBytes h) with
  | none => refuseM r ⟨14, 0⟩
  | some recs =>
  match s.findImage l recs (sectionBytes h) with
  | none => refuseM r bad
  | some x =>
    if x.recs.length != recs.length then refuseM r bad
    match s.blockFlaw r x.task.pivtau b with
    | some f => refuseM r f
    | none =>
      doS fun s => (((s.evictTasks r).install r b).restoreImage r x l).updTask r.task fun _ =>
        let k := s.freshTask r h (h ++ slice l 0 (sectionBytes h))
        { x.task with
          asid := k.asid, launch := k.launch, w1 := r.w1, h1 := r.h1, state := .loaded, ckpt := k.ckpt, restartable := k.restartable
          cauto := k.cauto, next := k.next, psrc := k.psrc, estim := k.estim, bprio := k.bprio, eprio := k.eprio, block := k.block
          count := fieldOf h 20 4, eflags := BitVec.ofNat 16 (fieldOf h 24 2), held := k.held, cause := 0
          resume := if before != 0 then before else if x.task.resume == 8 then 8 else 0
          image := none, saved := none, armers := [], rows := imageRows x l, drainPending := false, endFlags := 0 }

/-- FLOAD (R104). -/
def execFload (d a b : SReg) (s : State) : Ends := ends s do
  let va := s.rd a
  demand (va.toNat % 64 == 0) .misalign 0 va
  match regionRef s.die.val (s.rd b) with
  | none => refuseM none ⟨12, 0⟩
  | some r =>
    match (s.overlapping r).find? fun t => (s.task t).state.busy with
    | some t => waitM .region (.task t) 0
    | none =>
      let h ← readRecordM .read va 64
      match fieldOf h 0 1 with
      | 1 => loadBlock r va h
      | 2 => loadImage r va h
      | _ => refuseM r ⟨12, 0⟩
      wrM d (resolveRegion s.die.val (s.rd b))

/-! ## FARM (R103, R226, R227, R232) -/

/-- What a unit's state is at FARM: its generator seeded (R142), a firing for a root (R227); from states 1, 5 and 8 fresh, with a
preloaded FIFO full (R250). -/
def armUnit (area : Nat → Nat → List Byte) (side : Nat → BitVec 32) (fresh : Bool) (seed : Word) (tile : Nat) (c : TileCtx)
    (slot : Nat) (e : ElemWord) (u : UnitSt) : UnitSt :=
  let u := if !isMT tile && slot ≤ 4 then { u with gen := seed ^^^ word (16 * tile + (if slot == 0 then 4 else slot - 1)) } else u
  let u := if c.isRoot e then { u with fires := u.fires + 1 } else u
  let d := c.desc (e.mode % 16)
  if fresh && e.eop == 0x32 && dfield d 16 4 != 0 then
    { u with outB := (List.range (dfield d 16 4 / 64)).map fun i => ⟨lineOf (area (dfield d 4 4 + 64 * i) 64), side i⟩ }
  else u

/-- A port's or unit's state before a phase. -/
def undrained (x : Nat × UnitSt) : Nat × UnitSt := (x.1, { x.2 with drained := false })

/-- Arm every unit of a task. -/
def State.armUnits (s : State) (t : TaskId) (fresh : Bool) (roots : List (Nat × UnitSt)) : State :=
  let k := s.task t
  let die := taskDie t
  (tilesOf t k.w1 k.h1).foldl (fun s tile =>
    let area (off n : Nat) : List Byte := s.bytesAt (storeAddr die tile off) n
    let side (i : Nat) : BitVec 32 := (Config.freeWord (s.free + i)).setWidth 32
    let s' := s.updTc die.val tile (taskCtx t).val fun c =>
      let old (n : Nat) : UnitSt := (roots.find? (·.1 == tile * 16 + n)).elim (if fresh then {} else Tbl.getD c.units n {}) (·.2)
      let base : Tbl UnitSt := if fresh then c.units.map undrained else c.units
      { c with units := c.slots.foldl (fun us x => Tbl.set us x.1 (armUnit area side fresh k.seed tile c x.1 x.2 (old x.1))) base }
    { s' with free := s'.free + 0xC000 }) s

/-- The state a FARM or a resumption gives a task (R226). -/
def State.rearm (s : State) (t : TaskId) (n : Nat) (fire : Bool) : State :=
  let k := s.task t
  let resumed := k.state == .loaded && k.resume != 0 && k.resume != 8
  let restart := k.state == .killed || (k.state == .loaded && k.resume == 8)
  let fresh := !resumed && (k.state == .loaded || k.state == .drained || restart)
  let base := if restart then k.restart.count else k.count
  let s := if fire || fresh then s.armUnits t fresh (if restart then k.restart.roots else []) else s
  s.updTask t fun k =>
    { k with
      state := if resumed && k.resume == 4 then .draining else .running
      count := base + n, positive := 0 < base + n, moved := s.cycle, resume := 0, armedAt := s.cycle, owed := 0, handTo := none
      restart := if fresh && !restart then {} else k.restart
      taken := if fresh then (if restart then k.restart.ports else []) else k.taken
      dones := if fresh then [] else k.dones
      marks := if restart then k.restart.roots else if fresh then [] else k.marks
      phaseBit := if fresh then none else k.phaseBit, gone := if fresh then [] else k.gone, wants := if fresh then [] else k.wants }

/-- The drain that COUNT owes a task since it reached 0 from a positive value (R227). -/
def State.dueDrain (s : State) (t : TaskId) : State :=
  let k := s.task t
  if k.positive && k.count == 0 && (k.state == .running || k.state == .parked || k.state == .checkpointing) then
    ((s.updTask t fun k => { k with positive := false }).drainTask t).syncTask t
  else s

/-- FARM (R103, R226, R227): a drain that COUNT owes comes before it (R236). -/
def execFarm (a b : SReg) (s : State) : Ends := ends s do
  let t ← taskM (s.rd a)
  heldFaultM t
  doS fun z => z.dueDrain t
  let x ← get
  demandOpen ([TaskState.loaded, .running, .parked, .drained, .killed].contains (x.task t).state) .access
  doS fun z => (z.rearm t (wfld (s.rd b) 0 32) true).updTask t fun k =>
    { k with eflags := 0, arming := some s.cur, armers := (s.cur :: k.armers).eraseDups, armingCont := s.ctx.cont.uid, bprio := s.ctx.bprio }
  doS fun z => ((z.wakePorts t).syncTask t).reprio

/-! ## FSEL, FSTAT, FKILL, FCKPT, FDRAIN -/

/-- FSEL (R103, R231): at once on a parked region. -/
def execFsel (a b : SReg) (s : State) : Ends := ends s do
  let t ← taskM (s.rd a)
  let c := wfld (s.rd b) 0 2
  doS fun z => if (z.task t).state == .parked then z.setCurrent t c else z.updTask t fun k => { k with fsel := some c }

/-- FSTAT (R103, R105, R234). -/
def execFstat (d a : SReg) (s : State) : Ends := ends s do
  let t ← taskM (s.rd a)
  heldFaultM t
  wrM d ((← get).fstatWord t)

/-- Every skip route of a task is emptied (R221): the joiners' skip outputs, the links they lead over, the scanners' skip inputs. -/
def State.emptySkips (s : State) (t : TaskId) : State :=
  let die := (taskDie t).val
  let ctx := (taskCtx t).val
  let none_ (b : Buf) : Buf := { b with q := [], got := [] }
  let skipFrom (o code : Nat) : Bool := !isMT o && 11 ≤ code && code ≤ 14
  (tilesOf t (s.task t).w1 (s.task t).h1).foldl (fun s tile =>
    let feeds (org : Nat) : Bool := match s.feeder die ctx 1 64 tile org with
      | some (o, code) => skipFrom o code
      | none => false
    s.updTc die tile ctx fun c =>
      let skipIn (k : Nat) : Bool := k < 64 && k % 4 == 1 && match c.word (k / 4) with
        | some e => 0x20 ≤ e.eop && e.eop ≤ 0x22
        | none => false
      let skipLink (k : Nat) : Bool := c.sws.any fun w => swClass w == 1 && swDst w < 4 && linkKey 1 (swDst w) == 128 + k && feeds (swOrg w)
      { c with
        ins := c.ins.map fun ((k, b) : Nat × Buf) => (k, if skipIn k then none_ b else b)
        links := c.links.map fun ((k, b) : Nat × Buf) => (k, if skipLink k then none_ b else b)
        outs := c.outs.map fun ((k, b) : Nat × Buf) => (k, if k / 16 == 1 && skipFrom tile (k % 16) then none_ b else b) }) s

/-- The states that a kill reaches (R226). -/
def Task.killable (k : Task) : Bool := [TaskState.running, .parked, .draining, .checkpointing].contains k.state

/-- FKILL (R103, R232). -/
def execFkill (a : SReg) (s : State) : Ends := ends s do
  let t ← taskM (s.rd a)
  doS fun z => if (z.task t).killable then (z.killTask t).afterTask t else z

/-- Begin a checkpoint (R221, R226, R233): a task that was armed goes through state 6, another is saved as it stands. -/
def State.checkpointTask (s : State) (t : TaskId) (va : Option Word) : State :=
  let k := s.task t
  let begin_ (n : Nat) (st : TaskState) : State := (s.emptySkips t).updTask t fun k => { k with image := va, resume := n, state := st }
  match k.state with
  | .running => begin_ 2 .checkpointing
  | .parked => begin_ 3 .checkpointing
  | .draining => begin_ 4 .checkpointing
  | .loaded => ((begin_ k.resume .loaded).writeImage t).afterTask t
  | .drained => ((begin_ 0 .drained).writeImage t).afterTask t
  | .killed => ((begin_ 8 .killed).writeImage t).afterTask t
  | _ => s

/-- FCKPT (R103, R233, R408). The region word is tested before the image address, and an address that is not 4 KiB-aligned takes MISALIGN
(assumption 79). -/
def execFckpt (a b : SReg) (s : State) : Ends := ends s do
  let t ← taskM (s.rd a)
  let va := s.rd b
  demand (va.toNat % 4096 == 0) .misalign 0 va
  doS fun z => (z.checkpointTask t (some va)).syncTask t

/-- FDRAIN (R103, R230). A context in state 0, which nobody has loaded, takes ACCESS and stays as it is (R226; assumption 93). -/
def execFdrain (a : SReg) (s : State) : Ends := ends s do
  let t ← taskM (s.rd a)
  doS fun z => (z.drainTask t).syncTask t

/-! ## Copy ports (R291, R409) -/

/-- The readers of a copy port; the unit that is its only reader; the operand stores among its readers. -/
def State.portReaders (s : State) (die tile ctx port : Nat) : List Nat := (s.tc die tile ctx).readers 0 (10 + port)
def State.portUnits (s : State) (die tile ctx port : Nat) : List (Nat × ElemWord) :=
  (s.portReaders die tile ctx port).filterMap fun r => if r < 64 then ((s.tc die tile ctx).word (r / 4)).map fun e => (r / 4, e) else none
def State.soleUnit (s : State) (die tile ctx port : Nat) : Option (Nat × ElemWord) :=
  if (s.portReaders die tile ctx port).length == 1 then (s.portUnits die tile ctx port).head? else none
def State.portStores (s : State) (die tile ctx port : Nat) : List (Nat × ElemWord) := (s.portUnits die tile ctx port).filter (·.2.eop == 0x31)

/-- Whether an operand store takes a packet whole (R290): HEADER first, exactly its beats, no longer than a slot, a tag of its own. -/
def opstTakes (u : UnitSt) (d : Nat) (l : List Beat) : Bool :=
  match l with
  | [] => false
  | h :: rest =>
    let n := h.pay.toNat
    hdrOk n && packetDone n (rest.map (·.pay.toNat)) && 64 * l.length ≤ dfield d 16 4
      && !(u.opSlots d).any fun x => (x.st == .filling || x.st == .resident) && x.tag.toNat == fld n 64 16

/-- The tokens of a row that a line buffer can take whole now (R291): what its fibre lacks, up to at most one stop, which comes last. -/
def lbufRow (u : UnitSt) (d : Nat) (l : List Beat) : Option (List Tok) :=
  let ts := l.flatMap fun b => ((List.range 8).map b.tok).filter (·.k != kIdle)
  if !u.flag && !u.drained && ts != [] && ts.dropLast.all (·.k == 0) && ts.all (·.k ≤ 8)
      && 8 * ((fibreToks u.toks).length + ts.length) ≤ dfield d 8 4 then some ts else none

/-- The operand store of a slot with what a row meets there: its descriptor and the residency slot the row has claimed, or the lowest FREE. -/
def State.residency (s : State) (c : TileCtx) (claims : List (Nat × Nat)) (x : Nat × ElemWord) : UnitSt × Nat × Nat :=
  let u := Tbl.getD c.units x.1 {}
  let d := c.desc (x.2.mode % 16)
  (u, d, ((claims.find? (·.1 == x.1)).map (·.2)).getD ((u.opSlots d).findIdx fun y => y.st == .free && y.freedAt < s.cycle))

/-- Deliver a row to the operand stores that its port feeds (R290): with the state, whether the whole row has entered. Its HEADER comes first, and
its slots are FILLING until the rest has come. -/
def State.fillStores (s : State) (t : TaskId) (tile port : Nat) (claims : List (Nat × Nat)) (stores : List (Nat × ElemWord)) (l : List Beat) :
    Option (State × Bool) :=
  let die := (taskDie t).val
  let ctx := (taskCtx t).val
  let c := s.tc die tile ctx
  let at_ := stores.map fun x => (x, s.residency c claims x)
  let tag : BitVec 16 := BitVec.ofNat 16 (fld (l.headD {}).pay.toNat 64 16)
  let state (y : (Nat × ElemWord) × UnitSt × Nat × Nat) : Option OSlot := (y.2.1.opSlots y.2.2.1)[y.2.2.2]?
  let began := at_.all fun y => (state y).any (·.st == .filling)
  let put (whole : Bool) : State :=
    at_.foldl (fun s y =>
      let d := y.2.2.1
      let i := y.2.2.2
      let f (x : OSlot) : OSlot := if whole then { st := .resident, tag := tag, beats := l } else { x with st := .filling, tag := tag, beats := l.take 1 }
      (s.updTc die tile ctx fun c =>
        { c with units := Tbl.upd c.units y.1.1 {} fun u => { u with slots := (u.opSlots d).set i (f ((u.opSlots d).getD i {})) } }).put
          (storeAddr (taskDie t) tile (dfield d 4 4 + i * dfield d 16 4)) ((if whole then l else l.take 1).flatMap fun b => lineBytes b.pay))
      (s.updTc die tile ctx fun c => { c with units := Tbl.upd c.units (portKey 0 (10 + port)) {} fun u => { u with flag := !whole } })
  if at_.any fun y => (state y).isNone then none
  else match (if began then none else at_.find? fun y => !opstTakes y.2.1 y.2.2.1 l) with
    | some y => some (s.faultTask t .streamproto (s.unitCause t (unitRef die tile ctx y.1.1)), true)
    | none => if began || claims == [] then some (put true, true) else some (put false, false)

/-- Deliver a row to a copy port (R291): none while a unit it feeds does not accept it. With the state, whether the whole row has entered. A unit
that reads tokens takes the row's beats as DATA, no HEADER among them (assumption 96). -/
def State.deliverRow (s : State) (t : TaskId) (tile port : Nat) (claims : List (Nat × Nat)) (row : List Beat) : Option (State × Bool) :=
  let die := (taskDie t).val
  let ctx := (taskCtx t).val
  let c := s.tc die tile ctx
  let l := if (s.soleUnit die tile ctx port).any (·.2.eop == 0x33) then row.map fun b => { b with side := 0 } else row
  let out := Tbl.getD c.outs (outKey 0 (10 + port)) {}
  let put (f : TileCtx → TileCtx) (s : State) : State := (s.updTc die tile ctx f).updTask t fun k => { k with moved := s.cycle }
  -- a row that enters its unit has passed the port (R229)
  let lanes := (l.map fun b => (b.kinds.filter (· != kIdle)).length).foldl (· + ·) 0
  let passed (s : State) : State := s.updTask t fun k =>
    { k with taken := Tbl.upd k.taken (tile * 64 + outKey 0 (10 + port)) 0 (· + lanes), moved := s.cycle }
  let queue (s : State) : State := put (fun c => { c with outs := Tbl.upd c.outs (outKey 0 (10 + port)) {} fun b => { b with q := l } }) s
  let stores := s.portStores die tile ctx port
  if s.portReaders die tile ctx port == [] || out.q != [] then none
  else if stores != [] then
    (s.fillStores t tile port claims stores l).map fun x =>
      (if !x.2 then x.1 else if stores.length == (s.portReaders die tile ctx port).length then passed x.1 else queue x.1, x.2)
  else match s.soleUnit die tile ctx port with
    | some (slot, e) =>
      let u := Tbl.getD c.units slot {}
      let d := c.desc (e.mode % 16)
      if e.eop == 0x32 && (dfield d 16 4 == 0 || !u.drained) then
        let depth := dfield d 8 4 / 64
        if u.outB.length + l.length ≤ depth && (c.buf (inKey slot 0)).q == [] then
          let s := passed (put (fun c => { c with units := Tbl.upd c.units slot {} fun u => { u with outB := u.outB ++ l } }) s)
          some (l.zipIdx.foldl (fun s x =>
            s.put (storeAddr (taskDie t) tile (dfield d 4 4 + 64 * ((u.q + u.outB.length + x.2) % depth))) (lineBytes x.1.pay)) s, true)
        else none
      else if e.eop == 0x33 then
        match (if (c.buf (inKey slot 0)).q == [] then lbufRow u d l else none) with
        | some ts =>
          let n := (fibreToks u.toks).length
          some ((passed (put (fun c => { c with units := Tbl.upd c.units slot {} fun u =>
              { u with toks := u.toks ++ ts, flag := ts.any fun x => isStop x.k, prev := (ts.getLast?.map (·.k)).getD u.prev } }) s)).put
            (storeAddr (taskDie t) tile (dfield d 4 4 + 8 * n)) (ts.flatMap fun x => leBytes 4 x.c.toNat ++ leBytes 4 x.v.toNat), true)
        | none => if u.flag then none else some (queue s, true)
      else some (queue s, true)
    | none => some (queue s, true)

/-- Whether a copy port takes rows (R226, R230): its task is armed; one that drains takes the rest of a packet under way. -/
def State.portOpen (s : State) (t : TaskId) (tile port : Nat) : Bool :=
  let k := s.task t
  let u := Tbl.getD (s.tc (taskDie t).val tile (taskCtx t).val).units (portKey 0 (10 + port)) {}
  !u.drained && (k.state == .running || k.state == .parked || (k.state == .draining && u.flag))

/-- Rows that an image kept for a port go first (R409). -/
def State.deliverKept (s : State) (t : TaskId) : State :=
  match (s.task t).rows with
  | [] => s
  | (idx, port, l) :: rest =>
    match s.deliverRow t (tileAt t (s.task t).w1 idx) port [] l with
    | some (s, _) => s.updTask t fun k => { k with rows := rest }
    | none => s

/-! ## Hops, park and unpark (R169, R172, R228) -/

/-- Codes that no unit drives: hart and copy ports. -/
def isPort (tile plane code : Nat) : Bool := code == 15 || (isMT tile && plane == 0 && (code == 10 || code == 11))

/-- BEAT_HOP (R172): from a port whatever the task does but being saved; inside a region while the task acts. -/
def execBeatHop (o : OriginRef) (s : State) : Ends :=
  let die := o.tile.die.val
  let tile := TileNo o.tile
  .next (match s.ownerOf die tile o.ctx.val with
    | none => s
    | some t =>
      let port := isPort tile o.plane.val o.code.val
      let s := if port && o.code.val != 15 && s.portOpen t tile (o.code.val - 10) then s.deliverKept t else s
      if (if port then !s.frozen t else s.taskActs t) then (s.hop die tile o.ctx.val o.plane.val o.code.val).syncTask t else s)

/-- Every buffer of a task's tile: inputs, links, outputs. -/
def TileCtx.buffers (c : TileCtx) : List Buf := c.ins.map (·.2) ++ c.links.map (·.2) ++ c.outs.map (·.2)

/-- Whether a token lies in a unit: tokens to emit or replay, a scan, a firing or a run under way; what a unit holds back for
later tokens does not count (R228). -/
def UnitSt.busy (u : UnitSt) (e : ElemWord) : Bool :=
  u.out != [] || u.scan.isSome || u.fires != 0 || u.stalled.isSome
    || (e.eop == 0x32 && u.outB != []) || (e.eop == 0x33 && u.toks != []) || (0x20 ≤ e.eop && e.eop ≤ 0x22 && u.toks != [])
    || (e.eop == 0x30 && u.flag)

/-- Whether a token lies anywhere in a task. -/
def State.holdsToken (s : State) (t : TaskId) : Bool :=
  let k := s.task t
  (tilesOf t k.w1 k.h1).any fun tile =>
    let c := s.tc (taskDie t).val tile (taskCtx t).val
    c.buffers.any (·.q != []) || c.slots.any fun x => (Tbl.getD c.units x.1 {}).busy x.2

/-- REGION_PARK (R228). -/
def execRegionPark (t : TaskId) (s : State) : Ends :=
  .next (if (s.task t).state == .running && s.isCurrent t && (s.task t).rows == [] && !s.holdsToken t then
    (s.updTask t fun k => { k with state := .parked }).syncTask t else s)

/-- REGION_UNPARK (R228). -/
def execRegionUnpark (t : TaskId) (s : State) : Ends :=
  .next (if (s.task t).state == .parked && s.holdsToken t then
    (s.updTask t fun k => { k with state := .running, moved := s.cycle }).syncTask t else s)

/-! ## Count and drain (R227, R230) -/

/-- COUNT_EXHAUSTED (R227): COUNT reached 0 from a positive value. -/
def execCountExhausted (t : TaskId) (s : State) : Ends := .next (s.dueDrain t)

/-- Do something as a slot, if it can be done. -/
def State.asUnit {α : Type} (s : State) (u : UnitRef) (m : U α) : Option (α × State) :=
  match m { s with focus := u } with
  | .ok a x => some (a, { x with focus := s.focus })
  | .error _ _ => none

/-- Whether an input may emit DRAIN now (R230): a root outside a firing, a port outside a pass, and nothing waiting there. -/
def State.mayDrain (s : State) (t : TaskId) (tile plane code : Nat) : Bool :=
  let c := s.tc (taskDie t).val tile (taskCtx t).val
  let quiet := (Tbl.getD c.outs (outKey plane code) {}).q == []
  plane == 0 && quiet &&
    (if isPort tile plane code then
      let u := Tbl.getD c.units (portKey plane code) {}
      !u.drained && !u.flag
    else match c.word (code - 4) with
      | some e =>
        let u := Tbl.getD c.units (code - 4) {}
        4 ≤ code && code ≤ 9 && c.isRoot e && !u.drained && u.toks == [] && u.scan.isNone && u.out == [] && !(e.eop == 0x30 && u.flag)
      | none => false)

/-- DRAIN_EMIT (R230): an input of a draining task emits its DRAIN. -/
def execDrainEmit (o : OriginRef) (s : State) : Ends :=
  let die := o.tile.die.val
  let tile := TileNo o.tile
  let code := o.code.val
  .next (match s.ownerOf die tile o.ctx.val with
    | none => s
    | some t =>
      if (s.task t).state == .draining && s.taskActs t && s.mayDrain t tile o.plane.val code then
        let key := if isPort tile 0 code then portKey 0 code else code - 4
        match s.asUnit (unitRef die tile o.ctx.val 0) (sendBeats 0 code [ctlBeat kDrain]) with
        | some (_, s) => ((s.updTc die tile o.ctx.val fun c => { c with units := Tbl.upd c.units key {} fun u => { u with drained := true } }).updTask t
            fun k => { k with moved := s.cycle }).syncTask t
        | none => s
      else s)

/-! ## Region commit (R190, R191, R229) -/

/-- A task's write-log units, as slots with their words. -/
def State.logUnits (s : State) (t : TaskId) : List (UnitRef × ElemWord) :=
  let k := s.task t
  (tilesOf t k.w1 k.h1).flatMap fun tile =>
    ((s.tc (taskDie t).val tile (taskCtx t).val).slots.filter fun x => [0x23, 0x24, 0x25, 0x2B, 0x35].contains x.2.eop).map fun x =>
      (unitRef (taskDie t).val tile (taskCtx t).val x.1, x.2)

/-- The control token that a write-log unit holds at its input, or at both inputs of an MST, with its output free. -/
def State.heldCtl (s : State) (x : UnitRef × ElemWord) : Option Nat :=
  let at_ (p : Nat) : Option Nat := (s.asUnit x.1 (peekTok p)).map (·.1.k)
  let free := (Tbl.getD (s.tc x.1.tile.die.val (TileNo x.1.tile) x.1.ctx.val).outs (outKey 0 (x.1.slot.val + 4)) {}).q == []
  match at_ 0 with
  | none => none
  | some k => if free && (x.2.eop != 0x35 || at_ 1 == some k) then some k else none

/-- Store one entry of a write log: whole bytes as one write, or some bits of one byte (R190). A step that leaves its writes on their way
leaves a write so, to land whole (R287, R317). -/
def State.storeEntry (s : State) (t : TaskId) (u : UnitRef) (e : Nat × Nat × Nat) : State :=
  let pa := e.1 / 8
  let whole := e.1 % 8 == 0 && e.2.1 % 8 == 0
  if s.slow && whole then
    { s with casts := s.casts ++ [{ pas := [pa], bytes := leBytes (e.2.1 / 8) e.2.2, agent := taskAgent t, asid := (s.task t).asid
                                    cls := WClass.node.code, unit := s.unitCause t u }] }
  else
    let s := s.landMeeting [pa] (e.2.1 / 8 + 1)
    let l := if whole then leBytes (e.2.1 / 8) e.2.2 else leBytes 1 (setFld (s.valueAt pa 1) (e.1 % 8) e.2.1 e.2.2)
    s.landAt .node (taskAgent t) (s.task t).asid 0 l none pa

/-- The unit of a slot. -/
def State.unitAt (s : State) (u : UnitRef) : UnitSt := Tbl.getD (s.tc u.tile.die.val (TileNo u.tile) u.ctx.val).units u.slot.val {}

/-- A task's pairs in the order in which they were made, whichever sinks made them (R337, R338). -/
def State.bySeq (s : State) (t : TaskId) (l : List Pair) : List Pair :=
  let age (p : Pair) : Nat := (p.seq + 2 ^ 48 - Tbl.getD s.seqs (taskAgent t) 0) % 2 ^ 48
  Tbl.sortBy (fun p q => decide (age p ≤ age q)) l

/-- The logs of some units publish in one step: stores, then emissions (R190, R191, R229). -/
def State.publish (s : State) (t : TaskId) (l : List (UnitRef × ElemWord)) : State :=
  let s := (orderByTime (l.flatMap fun x => (s.unitAt x.1).timed.map fun e => (e.1, x.1, e.2))).foldl (fun s e => s.storeEntry t e.1 e.2) s
  s.updPar (taskDie t) fun p => { p with ingress := p.ingress ++ s.bySeq t (l.flatMap fun x => (s.unitAt x.1).plog) }

/-- The unit of a write of the logs to a stack that has stopped (R304), or over a link that is down (R427). -/
def State.logStopped (s : State) (l : List (UnitRef × ElemWord)) : Option UnitRef :=
  (l.find? fun x => (s.unitAt x.1).wlog.any fun e => s.stopped (e.1 / 8) || !s.reaches x.1.tile.die (e.1 / 8)).map (·.1)

/-- A write-log unit takes its control token, its log published (R189 to R191, R229). -/
def State.takeCtl (s : State) (ctl : Nat) (x : UnitRef × ElemWord) : State :=
  let m : U Unit := do
    let u ← unitSt
    let _ ← takeTok 0
    if x.2.eop == 0x35 then
      let _ ← takeTok 1
    if 0x23 ≤ x.2.eop && x.2.eop ≤ 0x25 then
      emitToks [⟨0, BitVec.ofNat 32 u.n, 0⟩, ⟨0, 0, ctl⟩]
      updUnit fun u => if ctl == kDrain then { u.newPass with n := 0 } else { u with n := 0 }
    updUnit fun u => { u with
      wlog := [], wtimes := [], plog := [], drained := u.drained || ctl == kDrain, scal := if ctl == kDrain then [] else u.scal }
  match s.asUnit x.1 m with
  | some (_, s) => s
  | none => s

/-- The emissions of the continuation that armed a task are released when the task commits (R77; assumption 80). -/
def State.releaseFor (s : State) (q : Party) : State :=
  let l := (s.allCtx.filter fun x => x.1.same q).flatMap (·.2.log)
  if l == [] then s
  else
    let s := match (s.allCtx.find? fun x => x.1.same q).bind fun x => hartOf x.1.agent with
      | some h => s.updPar (hartDie h) fun x => { x with ingress := x.ingress ++ l }
      | none => s.updPar ⟨agentDie q.agent % 6, by omega⟩ fun x => { x with ingress := x.ingress ++ l }
    s.mapCtx q fun c => { c with log := [] }

/-- A root unit's position as a restart point (R180, R229): with CAUTO, just after the pass whose COMMIT has come. -/
def restartOf (cauto : Bool) (u : UnitSt) : UnitSt :=
  if cauto then { ({} : UnitSt) with fires := u.fires + (u.emitted - 1), gen := u.gen, emitted := 0 } else u

/-- The restart point (R229): roots, driven scanners as COMMIT passed them (R180), tokens taken, COUNT. -/
def State.markRestart (s : State) (t : TaskId) : State :=
  let k := s.task t
  let roots := (tilesOf t k.w1 k.h1).flatMap fun tile =>
    let c := s.tc (taskDie t).val tile (taskCtx t).val
    c.slots.filterMap fun x =>
      if c.isRoot x.2 then some (tile * 16 + x.1, restartOf k.cauto (Tbl.getD c.units x.1 {}))
      else (Tbl.find? k.marks (tile * 16 + x.1)).map fun u => (tile * 16 + x.1, u)
  let s := s.updTask t fun k => { k with restart := { roots := roots, ports := k.taken, count := k.count } }
  s.eachTile t fun c => { c with units := c.slots.foldl (fun us x =>
    if c.isRoot x.2 then Tbl.upd us x.1 {} fun u => { u with emitted := u.emitted - 1 } else us) c.units }

/-- Whether a sink among the write-log units could not release its emissions now (R349). -/
def State.commitHeld (s : State) (l : List (UnitRef × ElemWord)) : Bool := l.any fun x => (s.unitAt x.1).plog.any s.heldBack

/-- REGION_COMMIT (R229): every write-log unit holds COMMIT, or every one holds DRAIN, and all publish in one step; a throttled ingress
holds the commit (R349). -/
def execRegionCommit (t : TaskId) (s : State) : Ends :=
  let l := s.logUnits t
  let held := l.map s.heldCtl
  let go (k : Nat) : Bool := l != [] && held.all (· == some k)
  .next (if !s.taskActs t || s.commitHeld l then s
    else match (if go kCommit || go kDrain then s.logStopped l else none) with
    | some u => ((s.faultTask t .streamproto (s.unitCause t u)).syncTask t).settleLaunch (s.task t).launch
    | none =>
    if go kCommit then
      let s := (s.publish t l).releaseFor (s.task t).armer
      let s := l.foldl (fun s x => s.takeCtl kCommit x) s
      ((s.markRestart t).updTask t fun k => { k with moved := s.cycle }).syncTask t
    else if go kDrain then
      ((l.foldl (fun s x => s.takeCtl kDrain x) (s.publish t l)).updTask t fun k => { k with moved := s.cycle }).syncTask t
    else s)

/-! ## Phase end (R230, R231) -/

/-- Whether DRAIN has passed a tile: its root units and ports with readers, its fed units, its data buffers. -/
def State.tileDrained (s : State) (t : TaskId) (tile : Nat) : Bool :=
  let die := (taskDie t).val
  let ctx := (taskCtx t).val
  let c := s.tc die tile ctx
  (s.task t).gone.contains tile ||
  let fed (e : ElemWord) : Bool := (c.reads e).any fun r => r.2.1 == 0 && match s.feeder die ctx 0 64 tile r.2.2 with
    | some (o, code) => isPort o 0 code || match originSlot (isMT o) 0 code with
      | some sl => ((s.tc die o ctx).word sl).isSome
      | none => false
    | none => false
  (c.slots.all fun x => !(c.isRoot x.2 || fed x.2) || (Tbl.getD c.units x.1 {}).drained)
    && ([10, 11, 15].all fun code => !isPort tile 0 code || c.readers 0 code == [] || (Tbl.getD c.units (portKey 0 code) {}).drained)
    && (c.ins.all fun ((k, b) : Nat × Buf) => b.q == [] || 64 ≤ k || !(match c.word (k / 4) with
      | some e => (c.reads e).any fun r => r.1 == k % 4 && r.2.1 == 0
      | none => false))
    && (c.links.all fun ((k, b) : Nat × Buf) => b.q == [] || 4 ≤ k)
    && (c.outs.all fun ((k, b) : Nat × Buf) => b.q == [] || 16 ≤ k)

/-- A tile once DRAIN has passed it (R230): its narrow queues, skip routes and router operators are emptied; what a hart has yet
to pop stays. -/
def TileCtx.quiet (c : TileCtx) : TileCtx :=
  { c with
    ins := c.ins.map fun ((k, b) : Nat × Buf) => (k, if 64 ≤ k then b else { b with q := [], got := [] })
    links := c.links.map fun (k, b) => (k, { b with q := [], got := [] })
    outs := c.outs.map fun (k, b) => (k, { b with q := [], got := [] })
    units := c.units.map fun ((k, u) : Nat × UnitSt) =>
      (k, if 13 ≤ k && k < 16 then {} else if 16 ≤ k then { u with drained := false, flag := false } else { u with fires := 0 }) }

/-- The context selected at a phase end (R231): FSEL, else the phase condition's bit, else NEXT0. -/
def Task.selected (k : Task) (own : Nat) : Nat :=
  let pick (f : Nat) : Nat := if f.testBit 2 then f % 4 else own
  match k.fsel with
  | some c => c
  | none => if k.psrc != 0 && k.phaseBit == some true then pick (k.next / 8 % 8) else pick (k.next % 8)

/-- A tile that DRAIN has passed is emptied and takes the selected context (R230, R231); with a phase condition, not before the tile that
makes it is done. -/
def State.leaveTile (s : State) (t : TaskId) (tile : Nat) : State :=
  let k := s.task t
  let judge := tileAt t k.w1 (k.psrc % 16)
  if k.gone.contains tile || !s.tileDrained t tile || (k.psrc != 0 && !s.tileDrained t judge) then s
  else
    let s := s.updTc (taskDie t).val tile (taskCtx t).val TileCtx.quiet
    (s.updTask t fun k => { k with gone := k.gone ++ [tile] }).switchTiles t [tile] (k.selected (taskCtx t).val)

/-- PHASE_END (R230, R231): each tile that DRAIN has passed goes over to the next context; the phase ends with the last. -/
def execPhaseEnd (t : TaskId) (s : State) : Ends :=
  let k := s.task t
  let tiles := tilesOf t k.w1 k.h1
  .next (if k.state == .draining && s.taskActs t then
    let s := tiles.foldl (fun s tile => s.leaveTile t tile) s
    if tiles.all (s.task t).gone.contains then
      let s := s.eachTile t TileCtx.quiet
      let s := s.updTask t fun k => { k with state := .drained, fsel := none, phaseBit := none, positive := false, gone := [], wants := [], endFlags := k.eflags }
      (s.handOver t).afterTask t
    else s.afterTask t
  else s)

/-! ## Checkpoint and stall (R233, R234) -/

/-- CHECKPOINT_COMPLETE (R233): the image is written; a drain that came in between, or that COUNT owes, is recorded in it (R226, R236). -/
def execCheckpointComplete (t : TaskId) (s : State) : Ends :=
  .next (if (s.task t).state == .checkpointing then
    (((s.dueDrain t).updTask t fun k => { k with resume := if k.drainPending then 4 else k.resume, drainPending := false }).writeImage t).handOver t |>.afterTask t
  else s)

/-- Whether an input or output of a task waits on a hart, a copy channel or a memory access (R234). -/
def State.waitsOutside (s : State) (t : TaskId) : Bool :=
  let k := s.task t
  let die := (taskDie t).val
  (tilesOf t k.w1 k.h1).any fun tile =>
    let c := s.tc die tile (taskCtx t).val
    let idx := s.tileIdx t tile
    let drained (p code : Nat) : Bool := (Tbl.getD c.units (portKey p code) {}).drained
    ([0, 1].any fun p => c.readers p 15 != [] && !drained p 15 && s.boundTo t (portSel idx (if p == 1 then 31 else 15) true) != [])
      || ([0, 1].any fun p => (c.buf (hartKey p)).q != [] && s.boundTo t (portSel idx (if p == 1 then 31 else 15) false) != [])
      || (isMT tile && [10, 11].any fun code => c.readers 0 code != [] && !drained 0 code
          && allDies.any fun d => (s.copiesOf d).any fun y => y.state < 2 && match s.peekVa d y.asid y.blk.dest.toNat with
            | .ok e => (match spaceOf (e.addrFor d y.blk.dest.toNat) with
              | .portWin x w p _ => x.val == die && w == tile && p + 10 == code
              | _ => false)
            | .error _ => false)
      || (c.units.any fun ((_, u) : Nat × UnitSt) => u.stalled.isSome)
      || s.commitHeld (s.logUnits t)

/-- The cause word of a stall: the first stalled write-log unit, or tile 0 (R234). -/
def State.stallWord (s : State) (t : TaskId) : Word :=
  match (s.logUnits t).find? fun x => (s.asUnit x.1 (peekTok 0)).isSome with
  | some x => s.unitCause t x.1
  | none => 0

/-- REGION_STALL (R234): 2^22 cycles in which the task holds a token and no beat moves. -/
def execRegionStall (t : TaskId) (s : State) : Ends :=
  let k := s.task t
  .next (if (k.state == .running || k.state == .draining) && s.taskActs t && k.moved + 2 ^ 22 ≤ s.cycle && s.holdsToken t && !s.waitsOutside t then
    (s.faultTask t .streamproto (s.stallWord t)).afterTask t
  else s)

end Sys2Proof.Machine
end

