-- ==== Sys2Proof/Machine/CopyOps.lean ====
section
/-!
DEFINITION. Copy channels, major 0x31 (R86 to R95): CPY, CPWP, CPWAIT, CPCAN, GATH, CPCODE, and the steps of a channel: issuing and
landing rows, tokens, held rows (R280 to R282, R290 to R298, R306, R307, R409, R429).
-/
namespace Sys2Proof.Machine

/-! ## Blocks (R88, R89) -/

/-- The block of 64 bytes. -/
def copyBlk (l : List Byte) : CopyBlk :=
  { kind := fieldOf l 0 1, flags := fieldOf l 1 1, sfmt := fieldOf l 2 1, dfmt := fieldOf l 3 1, ctab := fieldOf l 4 1, chan := fieldOf l 5 1
    source := word (fieldOf l 8 8), dest := word (fieldOf l 16 8), rows := fieldOf l 24 4, cols := fieldOf l 28 4
    sstride := fieldOf l 32 4, dstride := fieldOf l 36 4, vrows := fieldOf l 40 4, vcols := fieldOf l 44 4
    scale := BitVec.ofNat 32 (fieldOf l 48 4), dtok := fieldOf l 52 2, aux := word (fieldOf l 56 8) }

def CopyBlk.trans (b : CopyBlk) : Bool := b.flags.testBit 0
def CopyBlk.conv (b : CopyBlk) : Bool := b.flags.testBit 1
def CopyBlk.decode (b : CopyBlk) : Bool := b.flags.testBit 2
def CopyBlk.pred (b : CopyBlk) : Bool := b.flags.testBit 3
def CopyBlk.zfill (b : CopyBlk) : Bool := b.flags.testBit 4
def CopyBlk.sw (b : CopyBlk) : Nat := (fmtOf b.sfmt).width
def CopyBlk.dw (b : CopyBlk) : Nat := (fmtOf b.dfmt).width
/-- Destination rows, and the elements in each. -/
def CopyBlk.drows (b : CopyBlk) : Nat := if b.trans then b.cols else b.rows
def CopyBlk.dcols (b : CopyBlk) : Nat := if b.trans then b.rows else b.cols
def CopyBlk.rowBytes (b : CopyBlk) : Nat := b.dcols * b.dw / 8

/-- The pairs of R70 with saturating or exact handling. -/
def convPair (s d : Nat) : Bool :=
  (List.range 31).any fun k => match convRow k with
    | some r => Fmt.ofCode? s == some r.src && Fmt.ofCode? d == some r.dst && r.rnd != .floor && (r.rnd == .exact || r.ov == .saturate)
    | none => false

/-- A scale that is neither zero nor infinite nor a NaN. -/
def scaleOk (x : BitVec 32) : Bool := match f32Spec.decode x.toNat with
  | .fin _ m _ => m != 0
  | _ => false

/-- Whether a block is malformed (R89, R296, R297, R306); `l` holds its bytes. -/
def malformed (l : List Byte) (gather : Bool) : Bool :=
  let b := copyBlk l
  let eff := (fmtOf b.sfmt).width
  b.kind != (if gather then 2 else 1) || 32 ≤ b.flags || 16 ≤ b.ctab || !zeroSpan l 6 2 || !zeroSpan l 54 2
    || (64 ≤ b.chan && b.chan < 255) || (Fmt.ofCode? b.sfmt).isNone || (Fmt.ofCode? b.dfmt).isNone
    || b.rows == 0 || b.cols == 0 || b.rows < b.vrows || b.cols < b.vcols
    || b.cols * b.sw % 8 != 0 || b.dcols * b.dw % 8 != 0
    || b.dstride < b.rowBytes || b.dstride % (max b.dw 8 / 8) != 0
    || (b.conv && !(convPair b.sfmt b.dfmt && scaleOk b.scale)) || (!b.conv && b.sfmt != b.dfmt) || (b.pred && b.trans)
    || (gather && (b.trans || b.pred || b.decode))
    || (b.decode && (b.kind != 1 || b.sfmt != b.dfmt || b.trans || b.conv || b.pred || (eff == 4 && b.vcols % 2 == 1)))
    || b.dtok / 2 ^ 12 % 8 != 0 || b.dtok == 2 ^ 15

/-- The die's least-occupied channel, lowest number first (R87). -/
def State.freeChan (s : State) (d : Fin 6) : Nat :=
  (List.range 64).foldl (fun b n => if (s.chan d n).cmds.length < (s.chan d b).cmds.length then n else b) 0

/-- Waiters on a copy whose byte target its WP has reached (R93). -/
def State.wakeCopy (s : State) (id : CopyId) (wp : Nat) : State :=
  (((s.waiters (.copy id)).filter fun e => e.vaddr.toNat ≤ wp).foldl (fun s e => s.wake e none) s).reprio

/-! ## CPY and GATH (R87) -/

/-- Whether a destination breaks the rules of a copy-port alias (R291); one that does not translate now is no alias. -/
def State.aliasBad (s : State) (d : Fin 6) (asid : Nat) (b : CopyBlk) : Bool :=
  match s.peekVa d asid b.dest.toNat with
  | .ok e => (match spaceOf (e.addrFor d b.dest.toNat) with
    | .portWin _ _ _ off => off != 0 || b.rowBytes % 64 != 0 || b.dstride != b.rowBytes
    | _ => false)
  | .error _ => false

/-- A copy that waits on a token registers (R298); with no room the registration is left unmade (R361). -/
def State.registerTok (s : State) (c : Copy) : State :=
  match c.blk.waitsTok with
  | none => s
  | some t =>
    let d := copyDie c.id
    let key : ObjKey := .token d.val t
    let e : WEntry := { typ := .wait, kind := 2, pkg := Config.package, agent := copyAgent c.id, uid := (copyParty c.id).uid, key := key,
                        vaddr := s.keyWord key, time := s.cycle, prio := 0, bprio := 0, asid := c.asid }
    if (s.getDie d).roomFor key .wait (s.need key) then (((s.addObj key 2).addEntry e).reprio).closeCycle e
    else s.updDie d fun x => { x with unmade := x.unmade ++ [e] }

/-- CPY and GATH: the block, the release, the mask, then the queue, in which the command that is running takes one of the 16 places
(assumption 78). -/
def copyM (d a : SReg) (gather : Bool) : M Unit := do
  let s ← get
  let va := s.rd a
  demand (va.toNat % 64 == 0) .misalign 0 va
  let l ← readRecordM .read va 64
  releaseM
  let s ← get
  let b := copyBlk l
  let ch := if b.chan < 64 then b.chan else s.freeChan s.die
  let tab := (Tbl.find? (s.getDie s.die).codes (s.me.asid.toNat * 16 + b.ctab % 16)).join
  let ticket := (s.chan s.die ch).ticket
  let c : Copy := { id := copyIdOf s.die.val ch ticket, asid := s.me.asid.toNat, owner := s.agent, launch := s.ctx.cont.launch, sys := s.me.pl, blk := b }
  let numbered (t : State) : State := t.updChan s.die ch fun x => { x with ticket := x.ticket + 1, issued := (c.asid, ticket) :: x.issued }
  let bad := malformed l gather || s.aliasBad s.die c.asid b
    || (b.decode && match tab with | some t => t.efmt != b.sfmt | none => false)
  if bad then
    doS fun t => (numbered t).retire c 4 1
  else
    let mask ← if b.pred then readRecordM .read b.aux ((b.rows + 7) / 8) else pure []
    if 16 ≤ (s.chan s.die ch).cmds.length then waitM .copy (.channel s.die.val ch) 0
    let c := { c with mask := mask, tab := tab }
    doS fun t => ((numbered t).updChan s.die ch fun x => { x with cmds := x.cmds ++ [c] }).registerTok c
    if b.decode && tab.isNone then doS fun t => t.failCopy c.id 1
  wrM d (word c.id)

/-- CPY (R86, R87). -/
def execCpy (d a : SReg) (s : State) : Ends := ends s (copyM d a false)
/-- GATH (R86, R306). -/
def execGath (d a : SReg) (s : State) : Ends := ends s (copyM d a true)

/-! ## CPWP, CPWAIT, CPCAN (R93, R94) -/

/-- A copy id that was issued in the ASID, or ACCESS (R87). -/
def copyIdM (w : Word) : M CopyId := do
  let s ← get
  let id := w.toNat
  demandOpen (id / 2 ^ 41 == 0 && decide (id / 2 ^ 38 < 6)
    && ((s.chan (copyDie id) (copyChan id)).issued).contains (s.me.asid.toNat, id % 2 ^ 32)) .access
  pure id

/-- The status word of an issued copy: live, kept, or expired (R93). -/
def State.statusOf (s : State) (id : CopyId) : Word :=
  match s.copy id with
  | some c => c.word
  | none =>
    match (s.chan (copyDie id) (copyChan id)).kept.find? (·.id == id) with
    | some r => r.status
    | none => Machine.word (5 * 2 ^ 60 + (2 ^ 48 - 1))

/-- CPWP (R93): an acquire. -/
def execCpwp (d a : SReg) (s : State) : Ends := ends s do
  let id ← copyIdM (s.rd a)
  doS State.acquire
  wrM d ((← get).statusOf id)

/-- CPWAIT (R93): until WP reaches the target or the copy has ended. -/
def execCpwait (d a b : SReg) (s : State) : Ends := ends s do
  let id ← copyIdM (s.rd a)
  let w := s.statusOf id
  if wfld w 60 4 < 2 && wfld w 0 48 < (s.rd b).toNat then waitM .copy (.copy id) (s.rd b)
  doS State.acquire
  wrM d w

/-- CPCAN (R94). -/
def execCpcan (a : SReg) (s : State) : Ends := ends s do
  let id ← copyIdM (s.rd a)
  doS fun t => (t.updCopy id fun c => { c with cancelled := true, again := [] }).settleCopy id

/-! ## CPCODE (R95, R294, R295) -/

/-- Whether a table is valid, and what it holds. -/
def codeTab (l : List Byte) : Option CodeTab :=
  let count := (List.range 16).map fun i => fieldOf l (4 + 2 * i) 2
  let n := count.foldl (· + ·) 0
  let t : CodeTab := { efmt := fieldOf l 1 1, maxlen := fieldOf l 2 1, count := count, sym := (List.range 256).map fun i => fieldOf l (36 + i) 1 }
  let kraft := count.zipIdx.foldl (fun a x => a + x.1 * 2 ^ (15 - x.2)) 0
  if fieldOf l 0 1 == 1 && [4, 5, 6, 8, 9, 10, 13].contains t.efmt && 1 ≤ t.maxlen && t.maxlen ≤ 16
      && ((count.drop t.maxlen).all (· == 0)) && 1 ≤ n && n ≤ 256 && kraft ≤ 2 ^ 16
      && zeroSpan l 3 1 && zeroSpan l (36 + n) (256 - n) && zeroSpan l 292 3804 then some t else none

/-- CPCODE (R86, R95, R295). -/
def execCpcode (a b : SReg) (s : State) : Ends := ends s do
  let va := s.rd a
  demand ((s.rd b).toNat < 16) .illegal
  demand (va.toNat % 4096 == 0) .misalign 0 va
  let l ← readRecordM .read va 4096
  doS fun t => t.updDie t.die fun x => { x with codes := Tbl.set x.codes (s.me.asid.toNat * 16 + (s.rd b).toNat) (codeTab l) }

/-! ## The bytes of a row (R90, R91, R296, R306) -/

/-- A conversion of one element, and whether it was clamped (R90). -/
def copyConv (b : CopyBlk) (x : Nat) : Nat × Bool :=
  let sf := fmtOf b.sfmt
  let df := fmtOf b.dfmt
  let p := ExNum.mul (sf.value x) (f32Spec.decode b.scale.toNat)
  match df.intRange? with
  | some (lo, hi) =>
    let r := toInteger lo hi .rne p
    (toField df.width r.1, r.2 &&& Fl.sat != 0 || p.num.isNan)
  | none =>
    if p.num.isNan then ((convNan sf df x).1, false)
    else match df.fp? with
      | some sp => let r := roundFp sp .rne false .saturate p; (r.1, r.2 &&& Fl.of_ != 0)
      | none => (0, false)

/-- The zero of a destination format (R91). -/
def zeroCode (f : Nat) : Nat := if f == 8 then 0x77 else 0

/-- A source access that failed: the FAIL code (R293). -/
def failCode (c : Cause) : Nat := match c with | .ecc => 3 | .link => 4 | _ => 2

/-- What a copy moves at an address of its own, charged to its launch (R381). -/
def State.copyCharge (s : State) (c : Copy) (va : Word) (n : Nat) : State :=
  match s.peekVa (copyDie c.id) c.asid va.toNat with
  | .ok e => s.chargePort (copyParty c.id) c.launch (e.addrFor (copyDie c.id) va.toNat) n
  | .error _ => s

/-- Read n bytes of a copy's source. -/
def State.copyRead (s : State) (c : Copy) (va : Word) (n : Nat) : State × Except Nat (List Byte) :=
  match s.devLoad (copyDie c.id) c.asid c.sys .copy (copyAgent c.id) va n with
  | (s, .ok l) => (s.copyCharge c va n, .ok l)
  | (s, .error e) => (s, .error (failCode e.1))

/-- The bits of one element among bytes read from the byte that holds its first bit. -/
def elemAt (l : List Byte) (bit w : Nat) : Nat := leValue l / 2 ^ (bit % 8) % 2 ^ w

/-- Read the elements of one row of a copy without DECODE: in order of destination element, none where R91 reads nothing. -/
def State.readElems (s : State) (c : Copy) (row : Nat) (base : Word) : State × Except Nat (List (Option Nat)) :=
  let b := c.blk
  let live (r : Nat) : Bool := r < b.vrows && (!b.pred || (c.mask.getD (r / 8) 0).toNat.testBit (r % 8))
  if b.trans then
    (List.range b.rows).foldl (fun x r => match x with
      | (s, .error e) => (s, .error e)
      | (s, .ok l) =>
        if live r && row < b.vcols then
          let bit := row * b.sw
          match s.copyRead c (base + word (r * b.sstride + bit / 8)) ((bit % 8 + b.sw + 7) / 8) with
          | (s, .ok y) => (s, .ok (l ++ [some (elemAt y bit b.sw)]))
          | (s, .error e) => (s, .error e)
        else (s, .ok (l ++ [none]))) (s, .ok [])
  else if !live row || b.vcols == 0 then (s, .ok (List.replicate b.cols none))
  else
    match s.copyRead c base ((b.vcols * b.sw + 7) / 8) with
    | (s, .error e) => (s, .error e)
    | (s, .ok y) => (s, .ok ((List.range b.cols).map fun k => if k < b.vcols then some (leValue y / 2 ^ (k * b.sw) % 2 ^ b.sw) else none))

/-- One symbol of a code (R296): from the bits that remain, the symbol and the bits taken. -/
def decodeSym (t : CodeTab) (bits : Nat → Option Bool) : Nat → Nat → Nat → Nat → Nat → Nat → Option (Nat × Nat)
  | 0, _, _, _, _, _ => none
  | fuel + 1, l, pos, code, first, index =>
    match bits pos with
    | none => none
    | some x =>
      let code := code + x.toNat
      let n := t.count.getD (l - 1) 0
      if first ≤ code && code - first < n then some (t.sym.getD (index + code - first) 0, pos + 1)
      else decodeSym t bits fuel (l + 1) (pos + 1) (code * 2) ((first + n) * 2) (index + n)

/-- The first symbols of a stream, as many of them as it yields, and the bit after the last. -/
def decodeSyms (t : CodeTab) (bits : Nat → Option Bool) : Nat → Nat → List Nat × Nat
  | 0, pos => ([], pos)
  | n + 1, pos => match decodeSym t bits t.maxlen 1 pos 0 0 0 with
    | some (x, p) => let r := decodeSyms t bits n p; (x :: r.1, r.2)
    | none => ([], pos)

/-- The source bytes of a stream that can be read, and why no more can. -/
def State.readStream (s : State) (c : Copy) : State × List Byte × Option Nat :=
  (lineSpans c.blk.source.toNat c.blk.sstride).foldl (fun x sp => match x with
    | (s, l, some e) => (s, l, some e)
    | (s, l, none) => match s.devLoad (copyDie c.id) c.asid c.sys .copy (copyAgent c.id) (word sp.1) sp.2 with
      | (s, .ok y) => (s, l ++ y, none)
      | (s, .error e) => (s, l, some (failCode e.1))) (s, [], none)

/-- The elements of one row of a DECODE copy (R296): FAIL 1 where no code matches or the stream ends, else what kept a byte of the failing
symbol from being read. -/
def State.decodeRow (s : State) (c : Copy) (row : Nat) : State × Except Nat (List (Option Nat)) :=
  let b := c.blk
  match c.tab with
  | none => (s, .error 1)
  | some t =>
    if b.vrows ≤ row then (s, .ok (List.replicate b.cols none))
    else
      let r := s.readStream c
      let bits (p : Nat) : Option Bool := r.2.1[p / 8]?.map fun x => x.toNat.testBit (p % 8)
      let per := if b.sw == 4 then b.vcols / 2 else b.vcols
      let before := decodeSyms t bits (row * per) 0
      let mine := decodeSyms t bits per before.2
      if before.1.length < row * per || mine.1.length < per then
        let at_ := if before.1.length < row * per then before.2 else mine.2
        (r.1, .error (if (List.range t.maxlen).all fun i => (bits (at_ + i)).isSome then 1 else r.2.2.getD 1))
      else
        let l := if b.sw == 4 then mine.1.flatMap fun x => [some (x % 16), some (x / 16)] else mine.1.map some
        (r.1.copyCharge c (b.source + word (before.2 / 8)) ((mine.2 + 7) / 8 - before.2 / 8), .ok (l ++ List.replicate (b.cols - l.length) none))

/-- A destination row from its elements: bytes with the bits written, and whether an element was clamped (R90, R91). -/
def packRow (b : CopyBlk) (l : List (Option Nat)) : List (Byte × Byte) × Bool :=
  let one (x : Option Nat) : Nat × Nat × Bool := match x with
    | some v => if b.conv then let r := copyConv b v; (r.1, 2 ^ b.dw - 1, r.2) else (v, 2 ^ b.dw - 1, false)
    | none => if b.zfill then (zeroCode b.dfmt, 2 ^ b.dw - 1, false) else (0, 0, false)
  let es := l.map one
  let v := es.foldr (fun e acc => e.1 % 2 ^ b.dw + 2 ^ b.dw * acc) 0
  let m := es.foldr (fun e acc => e.2.1 + 2 ^ b.dw * acc) 0
  ((leBytes b.rowBytes v).zip (leBytes b.rowBytes m), es.any (·.2.2))

/-! ## Where rows go -/

/-- The copy-port window that a copy's destination is, if it is one: its package, die, tile and port (R285, R291). -/
def State.portWindow (s : State) (c : Copy) : Option (Nat × Fin 6 × Nat × Nat) :=
  match s.peekVa (copyDie c.id) c.asid c.blk.dest.toNat with
  | .ok e =>
    let pa := e.addrFor (copyDie c.id) c.blk.dest.toNat
    (match spaceOf pa with
    | .portWin d tile p _ => some (pkgOf pa, d, tile, p)
    | _ => none)
  | .error _ => none

/-- The port of this package that a copy feeds, if it feeds one. -/
def State.copyPort (s : State) (c : Copy) : Option (Fin 6 × Nat × Nat) :=
  match s.portWindow c with
  | some (pkg, x) => if pkg == Config.package then some x else none
  | none => none

/-- Whether the page of a copy's destination denies it the write (R293). -/
def State.destDenied (s : State) (c : Copy) : Bool :=
  match s.peekVa (copyDie c.id) c.asid c.blk.dest.toNat with
  | .ok e => !(e.w && (c.sys || e.prog))
  | .error _ => true

/-- The task whose current context a tile runs. -/
def State.portTask (s : State) (d : Fin 6) (tile : Nat) : Option TaskId := s.ownerOf d.val tile (s.curCtx d.val tile)

/-- Claim the lowest FREE slot of each operand store that a port feeds (R290); a store with none free holds the channel back. A row issued
again keeps the slots it has in the other stores (R292). -/
def State.claimSlots (s : State) (d : Fin 6) (tile port : Nat) (by_ : Nat × Nat) : Option (List (Nat × Nat) × State) :=
  match s.portTask d tile with
  | none => some ([], s)
  | some t =>
    (s.portStores d.val tile (taskCtx t).val port).foldl (fun x (slot, e) => x.bind fun (l, s) =>
      let c := s.tc d.val tile (taskCtx t).val
      let de := c.desc (e.mode % 16)
      let slots := (Tbl.getD c.units slot {}).opSlots de
      let own := slots.findIdx fun y => y.by_ == some by_
      let i := if own < slots.length then own else slots.findIdx fun y => y.st == .free && y.freedAt < s.cycle
      if i < slots.length then
        some (l ++ [(slot, i)], s.updTc d.val tile (taskCtx t).val fun c => { c with units := Tbl.upd c.units slot {} fun u =>
          { u with slots := (u.opSlots de).set i { st := .claimed, by_ := some by_ } } })
      else none) (some ([], s))

/-- A row that will not land gives up the slots it has claimed (R290, R293). -/
def State.unclaim (s : State) (d : Fin 6) (tile port : Nat) (by_ : Nat × Nat) : State :=
  match s.portTask d tile with
  | none => s
  | some t => (s.portStores d.val tile (taskCtx t).val port).foldl (fun s (slot, _) => s.updTc d.val tile (taskCtx t).val fun c =>
      { c with units := Tbl.upd c.units slot {} fun u => { u with
        slots := u.slots.map fun x => if x.by_ == some by_ then { freedAt := s.cycle } else x } }) s

/-! ## Issue (R92, R293, R297) -/

/-- The next row to issue. -/
def Copy.next (c : Copy) : Option Nat :=
  match c.again with
  | r :: _ => some r
  | [] => if c.nextRow < c.blk.drows then some c.nextRow else none

/-- A row has been issued. -/
def Copy.launched (c : Copy) (r : CopyRow) : Copy :=
  { c with
    state := 1, flying := c.flying ++ [r]
    again := c.again.filter (· != r.row), nextRow := if c.again == [] then c.nextRow + 1 else c.nextRow }

/-- The base address of a row's source: of a gather, from its index (R91, R306). -/
def State.rowBase (s : State) (c : Copy) (row : Nat) : State × Except Nat Word :=
  let b := c.blk
  if b.kind == 2 then
    if b.vrows ≤ row then (s, .ok b.source)
    else match s.copyRead c (b.aux + word (4 * row)) 4 with
      | (s, .ok l) => (s, .ok (b.source + word (leValue l * b.sstride)))
      | (s, .error e) => (s, .error e)
  else (s, .ok (b.source + (if b.trans then 0 else word (row * b.sstride))))

/-- Whether a destination row has an element that the channel reads (R91, R280). -/
def Copy.reads (c : Copy) (row : Nat) : Bool :=
  let b := c.blk
  let live (r : Nat) : Bool := r < b.vrows && (!b.pred || (c.mask.getD (r / 8) 0).toNat.testBit (r % 8))
  if b.trans then row < b.vcols && (List.range b.rows).any live else live row && b.vcols != 0

/-- A row's source, if it is read at all, or its destination is held at its port (R280, R382). -/
def State.copyHeld (s : State) (c : Copy) (row : Nat) : Bool :=
  let me := copyParty c.id
  ((if c.reads row then [c.blk.source] else []) ++ [c.blk.dest]).any fun va => match s.peekVa (copyDie c.id) c.asid va.toNat with
    | .ok e => s.portHeld me c.launch (e.addrFor (copyDie c.id) va.toNat)
    | .error _ => false

/-- COPY_ROW_ISSUE (R92): the channel's first command issues its next row, claiming a slot if it feeds an operand store. -/
def execCopyRowIssue (c : CopyId) (s : State) : Ends :=
  .next (match (s.chan (copyDie c) (copyChan c)).cmds with
    | [] => s
    | x :: _ =>
      if x.id != c || x.cancelled || (x.blk.waitsTok.isSome && !x.tokenTaken) then s
      else match x.next with
        | none => s
        | some row =>
          if s.copyHeld x row then s else
          let claim (s : State) : Option (List (Nat × Nat) × State) := match s.copyPort x with
            | some (d, tile, p) => s.claimSlots d tile p (c, row)
            | none => some ([], s)
          if (claim s).isNone then s
          else match s.rowBase x row with
            | (s, .error e) => s.failCopy c e
            | (s, .ok base) =>
              match if x.blk.decode then s.decodeRow x row else s.readElems x row base with
              | (s, .error e) => s.failCopy c e
              | (s, .ok l) => match claim s with
                | none => s
                | some (claims, s) =>
                  let p := packRow x.blk l
                  s.updCopy c fun y => y.launched ⟨row, p.1, p.2, claims, []⟩)

/-! ## Landing (R92, R281, R291, R409) -/

/-- Rows below the first that has not landed. -/
def landedUpTo (l : List Nat) : Nat → Nat → Nat
  | 0, n => n
  | fuel + 1, n => if l.contains n then landedUpTo l fuel (n + 1) else n

/-- A row is in flight no more: a FLOAD that waits until none is into a saved image looks again (R409). -/
def State.wakeLoads (s : State) : State :=
  s.tasks.foldl (fun z ((t, k) : Nat × Task) =>
    if k.state == .checkpointed && z.waiters (.task t) != [] && !z.rowsInto t then z.wakeTask t else z) s

/-- A row has landed (R92): WP, SAT, waiters, and the end of the copy with its last row; a cancelled one ends cancelled (R94). -/
def State.landed (s : State) (id : CopyId) (r : CopyRow) : State :=
  let s := s.updCopy id fun c =>
    let l := r.row :: c.landed
    let n := landedUpTo l l.length c.done
    { c with flying := c.flying.filter (·.row != r.row), held := c.held.filter (·.row != r.row), landed := l.filter (n ≤ ·), done := n, sat := c.sat || r.sat }
  match s.copy id with
  | none => s
  | some c =>
    (if c.cancelled then (s.wakeCopy id c.wp).settleCopy id
    else if c.done == c.blk.drows then s.retire c 2 0
    else s.wakeCopy id c.wp).wakeLoads

/-- The saved area of a checkpointed task that some bytes of a tile's store lie in: the task, the image and which body (R409). -/
def State.savedArea (s : State) (pa n : Nat) : Option (TaskId × Nat × SavedTask × Nat × Nat) :=
  match spaceOf pa with
  | .store d tile off =>
    s.tasks.findSome? fun ((t, k) : Nat × Task) =>
      if k.state != TaskState.checkpointed || taskDie t != d then none
      else match k.saved.bind fun i => (Tbl.find? s.images i).map fun x => (i, x) with
        | none => none
        | some (i, x) =>
          let bodies := x.recs.filter fun r => r.kind == 3 || r.kind == 6
          (bodies.findIdx? fun r => r.kind == 3 && tileAt t k.w1 r.tile == tile && r.off ≤ off && off + n ≤ r.off + r.len).map fun j =>
            (t, i, x, j, off - (bodies.getD j ⟨0, 0, 0, 0, 0⟩).off)
  | _ => none

/-- Write one span of a row: every byte's value and written bits, and whether it has left for memory before. -/
def State.putSpan (s : State) (c : Copy) (va : Word) (pas : List Nat) (l : List ((Byte × Byte) × Bool)) : State :=
  let l' := l.map fun x => if x.2 then (x.1.1, 0#8) else x.1
  pas.foldl (fun s q =>
    match s.savedArea q l.length with
    | some (t, i, x, j, off) =>
      let bodies := s.imageBodies t x
      let old := bodies.getD j []
      s.rewriteImage t i x (bodies.set j (old.take off ++ mixBytes (slice old off l.length) l' ++ old.drop (off + l.length)))
    | none =>
      let s := ((s.chargePort (copyParty c.id) c.launch q l.length).landMeeting [q] l.length).touch q l.length
      if l.all fun x => x.1.2 == 0 then s
      else s.devPut .copy (copyAgent c.id) c.asid va [q] (mixBytes (s.bytesAt q l.length) l') (l.any fun x => x.1.2 != 0xFF#8)) s

/-- The spans of a row that it writes, each checked: where each lies, and the addresses it writes; or the FAIL code of one refused (R293). Lines
it meets have had their bins applied, and one that it covers in part must carry no poison (R351, R352). -/
def State.rowSpans (s : State) (c : Copy) (r : CopyRow) : State × Except Nat (List (Nat × Nat × List Nat)) :=
  let va := c.blk.dest + word (r.row * c.blk.dstride)
  (lineSpans va.toNat r.bytes.length).foldl (fun x sp => match x with
    | (s, .error e) => (s, .error e)
    | (s, .ok done) =>
      let l := (r.bytes.drop (sp.1 - va.toNat)).take sp.2
      if l.all fun y => y.2 == 0 then (s, .ok done)
      else match s.check (copyDie c.id) c.asid c.sys .store (word sp.1) sp.2 with
        | (s, .error e) => (s, .error (failCode e.1))
        | (s, .ok a) =>
          if a.pas.any fun q => s.protectedAt q sp.2 then (s, .error 2)
          else
            let s := a.pas.foldl (fun s q => s.touch q sp.2) s
            let part := sp.2 != 64 || l.any fun y => y.2 != 0xFF#8
            if a.pas.any fun q => s.stopped q || (part && s.poison.contains (q / 64)) then (s, .error 3)
            else (s, .ok (done ++ [(sp.1, sp.2, a.pas)]))) (s, .ok [])

/-- Land a row in memory: with the state, the FAIL code where a span is refused, and then no byte of it is written. -/
def State.landRow (s : State) (c : Copy) (r : CopyRow) : State × Option Nat :=
  let va := c.blk.dest + word (r.row * c.blk.dstride)
  match (s.landAgent (copyAgent c.id)).rowSpans c r with
  | (s, .error e) => (s, some e)
  | (s, .ok l) => (l.foldl (fun s sp =>
      s.putSpan c (word sp.1) sp.2.2
        (((r.bytes.zipIdx.map fun x => (x.1, r.out.contains x.2)).drop (sp.1 - va.toNat)).take sp.2.1)) s, none)

/-- Whether a byte of a row can leave for memory by itself: its place is open to the copy, and is no saved area of a task, which takes the row as
a whole (R282, R409). -/
def State.byteOpen (s : State) (pas : List Nat) : Bool :=
  !pas.any fun q => s.protectedAt q 1 || s.stopped q || s.poison.contains (q / 64) || (s.savedArea q 1).isSome

/-- The bytes of a row leave for memory one by one, each to land by itself before the row as a whole has landed (R282). -/
def State.scatterRow (s : State) (c : Copy) (r : CopyRow) : State :=
  let va := c.blk.dest + word (r.row * c.blk.dstride)
  let x := r.bytes.zipIdx.foldl (fun (x : State × List Nat) (b : (Byte × Byte) × Nat) =>
    if b.1.2 == 0#8 || r.out.contains b.2 then x
    else match x.1.check (copyDie c.id) c.asid c.sys .store (va + word b.2) 1 with
      | (s, .error _) => (s, x.2)
      | (s, .ok a) =>
        if !s.byteOpen a.pas then (s, x.2)
        else ({ s with casts := s.casts ++ [{ pas := a.pas, bytes := [b.1.1], mask := [b.1.2], agent := copyAgent c.id, asid := c.asid
                                              va := va + word b.2, cls := WClass.copy.code }] }, x.2 ++ [b.2])) (s, [])
  x.1.updCopy c.id fun y => { y with flying := y.flying.map fun z => if z.row == r.row then { z with out := z.out ++ x.2 } else z }

/-- Bytes that rows for a port may still add to an image (R409): the free slots or the free beats of the unit it feeds. -/
def State.portRoom (s : State) (t : TaskId) (tile port : Nat) : Nat :=
  let c := s.tc (taskDie t).val tile (taskCtx t).val
  let fed := s.portUnits (taskDie t).val tile (taskCtx t).val port
  match (fed.find? (·.2.eop == 0x31)).or (s.soleUnit (taskDie t).val tile (taskCtx t).val port) with
  | some (slot, e) =>
    let d := c.desc (e.mode % 16)
    let u := Tbl.getD c.units slot {}
    if e.eop == 0x31 then ((u.opSlots d).filter fun x => x.st != .filling && x.st != .resident).length * dfield d 16 4
    else if e.eop == 0x32 then dfield d 8 4 - 64 * u.outB.length
    else if e.eop == 0x33 then dfield d 8 4 - 8 * (fibreToks u.toks).length else 0
  | none => 0

/-- Append a row to an image's kind-6 record (R409), if there is room. -/
def State.keepRow (s : State) (t : TaskId) (tile port : Nat) (l : List Byte) : Option State :=
  match (s.task t).saved.bind fun i => (Tbl.find? s.images i).map fun x => (i, x) with
  | none => none
  | some (i, x) =>
    let idx := s.tileIdx t tile
    let used := ((x.rows.filter fun r => r.1 == idx && r.2.1 == port).map (·.2.2)).foldl (· + ·) 0
    if s.portRoom t tile port < used + l.length then none
    else
      let bodies := s.imageBodies t x
      let kept := x.recs.filter fun r => r.kind == 3 || r.kind == 6
      let j := kept.findIdx fun r => r.isRowOf idx port
      let x' := { x with
        recs := x.recs.map fun r => if r.isRowOf idx port then { r with len := r.len + l.length } else r
        rows := x.rows ++ [(idx, port, l.length)] }
      some (s.rewriteImage t i x' (bodies.set j (bodies.getD j [] ++ l)))

/-- Land a row at a copy port: none while it is not accepted (R291, R409); with it, whether the whole row is in its unit (R290). -/
def State.landPort (s : State) (d : Fin 6) (tile port : Nat) (r : CopyRow) : Option (State × Bool) :=
  match s.portTask d tile with
  | none => none
  | some t =>
    let bytes := r.bytes.map (·.1)
    if (s.task t).state == .checkpointed then (s.keepRow t tile port bytes).map (·, true)
    else if s.portOpen t tile port && (s.task t).rows == [] then
      (s.deliverRow t tile port r.claims (portRowBeats bytes)).map fun x =>
        ((x.1.updTask t fun k => if k.state == .parked then { k with state := .running, moved := s.cycle } else k).syncTask t, x.2)
    else none

/-- A row in flight of a copy fails it (R293). -/
def State.failRow (s : State) (c : CopyId) (row code : Nat) : State :=
  ((s.updCopy c fun y => { y with flying := y.flying.filter (·.row != row) }).failCopy c code).wakeLoads

/-- COPY_ROW_LAND (R92): a row in flight lands, WP advances, and the copy retires with its last row. At an operand store the row's HEADER
comes first (R290); a port of another package takes the row there (R285). -/
def execCopyRowLand (c : CopyId) (row : Nat) (s : State) : Ends :=
  .next (match s.copy c with
    | none => s
    | some x => match x.flying.find? (·.row == row) with
      | none => s
      | some r => match s.portWindow x with
        | some (pkg, d, tile, p) =>
          if 2304 ≤ pkg || s.destDenied x then (s.unclaim d tile p (c, row)).failRow c row 2
          else if pkg == Config.package && !s.edgesUp (copyDie c) d then (s.unclaim d tile p (c, row)).failRow c row 4
          else if pkg == Config.package then
            match s.landPort d tile p r with
            | some (s, true) => s.landed c r
            | some (s, false) => s
            | none => s
          else if s.reaches (copyDie c) (pkg * 2 ^ 46) then s.landed c r else s.failRow c row 4
        | none =>
          if s.slow then s.scatterRow x r
          else match s.landRow x r with
          | (s, none) => s.landed c r
          | (s, some e) => s.failRow c row e)

/-! ## Tokens and held rows (R297, R298, R429) -/

/-- TOKEN_CONSUME (R297): the channel's first command takes one arrival of its token. -/
def execTokenConsume (c : CopyId) (s : State) : Ends :=
  .next (match (s.chan (copyDie c) (copyChan c)).cmds with
    | [] => s
    | x :: _ => match x.blk.waitsTok with
      | none => s
      | some t =>
        let d := copyDie c
        let n := Tbl.getD (s.getDie d).tokens t 0
        if x.id != c || x.tokenTaken || x.cancelled || n == 0 then s
        else
          let s := s.updDie d fun y => { y with tokens := Tbl.set y.tokens t (n - 1), unmade := y.unmade.filter fun e => !(e.party == copyParty c) }
          ((s.dropEntries (.token d.val t) fun e => e.party == copyParty c).reprio).updCopy c fun y => { y with tokenTaken := true })

/-- The package a row of a copy goes to, where it translates. -/
def State.rowPkg (s : State) (c : Copy) (row : Nat) : Option Nat :=
  let va := c.blk.dest.toNat + row * c.blk.dstride
  match s.peekVa (copyDie c.id) c.asid va with
  | .ok e => some (pkgOf (e.addrFor (copyDie c.id) va))
  | .error _ => none

/-- A row of a copy comes back from the package that it went to (R429): the copy is HELD at it, or fails with FAIL 2. -/
def State.rowRefused (s : State) (c : CopyId) (row : Nat) (denied : Bool) : State :=
  match s.copy c with
  | none => s
  | some x => match x.flying.find? (·.row == row), s.rowPkg x row with
    | some r, some p =>
      if p == Config.package then s
      else if denied then s.failRow c row 2
      else (s.updCopy c fun y => { y with flying := y.flying.filter (·.row != row), held := y.held ++ [r] }).settleCopy c |>.wakeLoads
    | _, _ => s

/-- REMOTE_ROW_FAULT (R429): at the sender, the receiving package has refused a row; at the receiver, a row from another package finds no
valid translation, which the host is told with the ASID and the address. `row` is its number in its copy, which the sender alone uses. -/
def execRemoteRowFault (f : RowFault) (row : Nat) (s : State) : Ends :=
  .next (match f with
    | .sent c denied => s.rowRefused c row denied
    | .received asid va => match s.walk asid.toNat va.toNat with
      | .error (.pagefault, _) => s.postStatus asid.toNat 0 2 va
      | _ => s)

/-- HELD_ROW_RETRY (R429): the channel sends its held rows again. -/
def execHeldRowRetry (c : CopyId) (s : State) : Ends :=
  .next (s.updCopy c fun y => if y.cancelled then y else { y with flying := y.flying ++ y.held, held := [] })

end Sys2Proof.Machine
end

