-- ==== Sys2Proof/Machine/CollOps.lean ====
section
/-!
DEFINITION. Collectives, major 0x38: COLLS, COLLW, COLLST, COLLABT (R125, R126), MEMB (R127, R394), and the messages of the collective
engines: the ring (R390, R430), the tree (R391), time-outs and probes (R392), stale messages (R393).
-/
namespace Sys2Proof.Machine

/-! ## Descriptors (R125, R390) -/

def CollDesc.trapFail (d : CollDesc) : Bool := d.flags.testBit 0
def CollDesc.tree (d : CollDesc) : Bool := d.flags.testBit 1
/-- Bytes of an element. -/
def CollDesc.size (d : CollDesc) : Nat := if d.fmt == 2 then 2 else 4
/-- Elements of the send buffer and of the receive buffer (R430). -/
def CollDesc.sends (d : CollDesc) : Nat := if d.op == 1 then d.n * d.count else if d.op == 4 then 0 else d.count
def CollDesc.receives (d : CollDesc) : Nat := if d.op == 2 then d.n * d.count else if d.op == 4 then 0 else d.count
/-- This package's place in the list. -/
def CollDesc.me (d : CollDesc) : Nat := d.list.idxOf Config.package

/-- The descriptor, its list still to be read. -/
def collDesc (l : List Byte) : CollDesc :=
  { op := fieldOf l 0 1, fmt := fieldOf l 1 1, rop := fieldOf l 2 1, flags := fieldOf l 3 1, count := fieldOf l 4 4
    epoch := fieldOf l 12 4, n := fieldOf l 8 4, list := [], sbuf := word (fieldOf l 24 8), rbuf := word (fieldOf l 32 8)
    tmo := fieldOf l 40 4, round := fieldOf l 44 4, root := fieldOf l 48 2 }

/-- Whether two ranges overlap without beginning at one address. -/
def skewed (a m b n : Nat) : Bool := a != b && decide (a < b + n) && decide (b < a + m)

/-- Whether a descriptor is malformed (R126, R390); `l` holds its bytes. -/
def CollDesc.bad (d : CollDesc) (l : List Byte) : Bool :=
  4 < d.op || !([1, 2, 0x0B].contains d.fmt) || 2 < d.rop || (2 ≤ d.op && d.rop != 0) || 4 ≤ d.flags
    || d.count == 0 || 2 ^ 28 < d.count || d.n < 2 || 2304 < d.n || d.tmo == 0 || 1000000 < d.tmo
    || !zeroSpan l 50 14 || (d.tree && 1 ≤ d.op && d.op ≤ 3) || !d.list.contains Config.package
    || (d.op == 3 && d.n ≤ d.root)
    || skewed d.sbuf.toNat (d.sends * d.size) d.rbuf.toNat (d.receives * d.size)

/-- Read a descriptor and its whole list, both checked as objects (R98, R125). -/
def collDescM (va : Word) : M (CollDesc × Bool) := do
  demand (va.toNat % 64 == 0) .misalign 0 va
  let l ← readRecordM (.object false) va 64
  let d := collDesc l
  if d.n < 2 || 2304 < d.n then pure (d, true)
  else
    let a := word (fieldOf l 16 8)
    demand (a.toNat % 2 == 0) .misalign 0 a
    let x ← readRecordM (.object false) a (2 * d.n)
    let d := { d with list := (List.range d.n).map fun i => fieldOf x (2 * i) 2 }
    pure (d, d.bad l)

/-! ## Rounds -/

def engineOf (handle : Nat) : Nat := handle / 2 ^ 32
def engineDie (handle : Nat) : Fin 6 := ⟨engineOf handle / 4 % 6, by omega⟩
/-- A collective engine's agent id (R101). -/
def collAgent (handle : Nat) : Nat := 4 * 2 ^ 29 + (engineDie handle).val * 2 ^ 26 + engineOf handle % 4

def State.roundOf (s : State) (handle : Nat) : Option Round := s.rounds.find? (·.handle == handle)
def State.updRound (s : State) (handle : Nat) (f : Round → Round) : State :=
  { s with rounds := s.rounds.map fun r => if r.handle == handle then f r else r }

def Round.live (r : Round) : Bool := r.state < 2

/-- The status word (R126). -/
def Round.word (r : Round) : Word := Machine.word (r.state * 2 ^ 60 + r.why * 2 ^ 56 + r.pkg % 4096 * 2 ^ 44 + r.desc.round % 2 ^ 32)

/-- A member takes a state; one that has a state keeps it (R390). -/
def State.endRound (s : State) (handle state why pkg : Nat) : State :=
  match s.roundOf handle with
  | some r =>
    if r.live then (s.updRound handle fun r => { r with state := state, why := why, pkg := pkg, probing := none }).wakeAll (.round handle) none else s
  | none => s

/-- The handle of a new round: the lowest engine of the die on which that round id is not live, and else the first. -/
def State.newHandle (s : State) (d : Fin 6) (round : Nat) : Nat :=
  let h (e : Nat) : Nat := (d.val * 4 + e) * 2 ^ 32 + round
  match (List.range 4).find? fun e => !(s.rounds.any fun r => r.handle == h e && r.live) with
  | some e => h e
  | none => h 0

/-- Send a message of a round: toward a package that no up link reaches it is dropped (R392). Its payload counts as link use (R381). -/
def State.sendColl (s : State) (launch : Nat) (kind : CollOut) (dest : Nat) (m : CollMsg) : State :=
  if dest == Config.package || !s.linked dest then s
  else
    let s := if launch == 0 then s else s.updLaunch launch fun l => l.charge 3 (4 * m.data.length)
    { s with sent := s.sent ++ [(kind, dest, m)] }

def Round.msg (r : Round) (data : List (BitVec 32)) : CollMsg :=
  { src := Config.package, epoch := r.desc.epoch, round := r.desc.round, why := 0, pkg := 0, level := 0, data := data, members := [] }

/-- Send one message of a round to every other member. -/
def State.sendAll (s : State) (r : Round) (kind : CollOut) (m : CollMsg) : State :=
  r.desc.list.foldl (fun s p => s.sendColl r.launch kind p m) s

/-! ## Values (R126, R269, R430) -/

/-- x ∘ y of one element: rounded to nearest-even and never flushed (R126, R269). -/
def collElem (d : CollDesc) (x y : BitVec 32) : BitVec 32 :=
  let a := x.toNat
  let b := y.toNat
  let f : Fmt := if d.fmt == 2 then .bf16 else .f32
  let v := if d.fmt == 0x0B then
      match d.rop with
      | 0 => a + b
      | 1 => if signed 32 a < signed 32 b then b else a
      | _ => if signed 32 b < signed 32 a then b else a
    else match d.rop with
      | 0 => (fp2 f .rne true (ExNum.add .rne) a b).1
      | 1 => fpPick true f true a b
      | _ => fpPick false f true a b
  BitVec.ofNat 32 v

def collCombine (d : CollDesc) (x y : List (BitVec 32)) : List (BitVec 32) := x.zipWith (collElem d) y

/-- The running partial at a member, from the one before it (R390, R430). -/
def Round.partialOf (r : Round) (k : Nat) (before : List (BitVec 32)) : List (BitVec 32) :=
  match r.desc.op with
  | 2 => before ++ r.mine
  | 3 => if k == r.desc.root then r.mine else before
  | 4 => []
  | _ => if k == 0 then r.mine else collCombine r.desc before r.mine

/-- What of the total a member receives (R430). -/
def Round.share (r : Round) (total : List (BitVec 32)) : List (BitVec 32) :=
  if r.desc.op == 1 then (total.drop (r.desc.me * r.desc.count)).take r.desc.count else total

/-- Write elements into rbuf; a line that fails its check ends the writing. -/
def State.writeRbuf (s : State) (r : Round) (l : List (BitVec 32)) : State :=
  let d := engineDie r.handle
  let bytes := l.flatMap fun x => leBytes r.desc.size x.toNat
  (lineSpans r.desc.rbuf.toNat bytes.length).foldl (fun s sp => match s.peekVa d r.asid sp.1 with
    | .ok e => s.chargePort ⟨collAgent r.handle, 0⟩ r.launch (e.addrFor d sp.1) sp.2
    | .error _ => s) (s.devStore d r.asid r.sys .remote (collAgent r.handle) r.desc.rbuf bytes).1

/-! ## The ring (R390) -/

/-- A member has formed its partial: it writes it where the round is an all-reduce, and forwards it; the last has the total. -/
def State.ringForward (s : State) (r : Round) (k : Nat) (p : List (BitVec 32)) : State :=
  let s := s.updRound r.handle fun r => { r with sent := true }
  if k + 1 == r.desc.n then
    (s.writeRbuf r (r.share p)).sendColl r.launch .total (r.desc.list.getD 0 0) (r.msg p)
  else
    let s := if r.desc.op == 0 then s.writeRbuf r p else s
    s.sendColl r.launch .partial_ (r.desc.list.getD (k + 1) 0) (r.msg p)

/-- A member has received the total: it writes its share, and forwards it or sends DONE to every member. -/
def State.ringResult (s : State) (r : Round) (k : Nat) (p : List (BitVec 32)) : State :=
  let s := (s.updRound r.handle fun r => { r with passed := true }).writeRbuf r (r.share p)
  if k + 2 == r.desc.n then (s.sendAll r .done (r.msg [])).endRound r.handle 2 0 0
  else s.sendColl r.launch .total (r.desc.list.getD (k + 1) 0) (r.msg p)

/-! ## The tree (R391) -/

/-- Members at a level. -/
def treeCount (n level : Nat) : Nat := (n + 8 ^ level - 1) / 8 ^ level

/-- How far a member's up pass has come. -/
inductive TreeStep where
  | wait
  | send (leader level : Nat) (value : List (BitVec 32))
  | root (value : List (BitVec 32))
  deriving DecidableEq, Repr

/-- The up pass at member k from a level with its value there. -/
def treeUp (r : Round) (k : Nat) : Nat → Nat → List (BitVec 32) → TreeStep
  | 0, _, _ => .wait
  | fuel + 1, level, v =>
    let c := treeCount r.desc.n level
    let i := k / 8 ^ level
    if c ≤ 1 then .root v
    else if i % 8 != 0 then .send (i / 8 * 8 * 8 ^ level) level v
    else
      let others := ((List.range 7).map fun j => i + 1 + j).filter (· < c)
      let vals := others.map fun j => (r.got.find? fun g => g.1 == level && g.2.1 == j * 8 ^ level).map (·.2.2)
      if vals.all (·.isSome) then treeUp r k fuel (level + 1) (vals.foldl (fun a x => collCombine r.desc a (x.getD [])) v)
      else .wait

/-- A member goes as far as it can: a value goes to its leader, and the root multicasts the total with DONE. -/
def State.treeAdvance (s : State) (handle : Nat) : State :=
  match s.roundOf handle with
  | none => s
  | some r =>
    if !r.live || r.sent then s
    else match treeUp r r.desc.me 6 0 r.mine with
      | .wait => s
      | .send q level v =>
        (s.updRound handle fun r => { r with sent := true }).sendColl r.launch .value (r.desc.list.getD q 0) { r.msg v with level := level }
      | .root v =>
        let s := (s.updRound handle fun r => { r with sent := true }).writeRbuf r v
        (s.sendAll r .done (r.msg v)).endRound handle 2 0 0

/-! ## Messages and the rounds they go to (R390 to R393) -/

/-- This package's round of a message's epoch and round id: a live one first, and none that was malformed. -/
def State.roundFor (s : State) (m : CollMsg) : Option Round :=
  let l := s.rounds.filter fun r => r.desc.epoch == m.epoch && r.desc.round == m.round && r.why != 5
  match l.find? (·.live) with
  | some r => some r
  | none => l.head?

/-- The live round of a message's epoch and round id. -/
def State.liveFor (s : State) (m : CollMsg) : Option Round := (s.roundFor m).filter (·.live)

/-- A package has been heard from in a round (R100). -/
def State.hear (s : State) (handle p : Nat) : State := s.updRound handle fun r => { r with heard := r.heard ++ [p] }

/-- Answer a message with ABORT (R393). -/
def State.refuseColl (s : State) (m : CollMsg) (why : Nat) : State :=
  s.sendColl 0 .abort m.src { m with src := Config.package, why := why, pkg := Config.package, data := [] }

/-- A message with no live round of its epoch and round id is answered with ABORT (R393). A partial or a value that comes before this
member's own COLLS waits for it (R390; assumption 53). -/
def State.noRound (s : State) (kind : CollOut) (m : CollMsg) : State :=
  if m.epoch < s.epoch then s.refuseColl m 4
  else if (s.rounds.any fun r => r.desc.epoch == m.epoch && r.desc.round == m.round) || (kind != .partial_ && kind != .value) then s.refuseColl m 2
  else { s with early := s.early ++ [(kind, m)] }

/-- A member receives the running partial (R390). -/
def State.takePartial (s : State) (m : CollMsg) : State :=
  match s.liveFor m with
  | none => s.noRound .partial_ m
  | some r =>
    let k := r.desc.me
    if r.desc.tree || r.sent || k == 0 || r.desc.list.getD (k - 1) 0 != m.src then s
    else (s.hear r.handle m.src).ringForward r k (r.partialOf k m.data)

/-- A leader receives a value of its group (R391). -/
def State.takeValue (s : State) (m : CollMsg) : State :=
  match s.liveFor m with
  | none => s.noRound .value m
  | some r =>
    let j := r.desc.list.idxOf m.src
    if !r.desc.tree || r.sent || r.desc.n ≤ j || r.got.any (fun g => g.1 == m.level && g.2.1 == j) then s
    else ((s.hear r.handle m.src).updRound r.handle fun r => { r with got := r.got ++ [(m.level, j, m.data)] }).treeAdvance r.handle

/-- A member receives ABORT (R392); one that comes before this member's own COLLS waits for it (assumption 53). -/
def State.takeAbort (s : State) (m : CollMsg) : State :=
  match s.liveFor m with
  | some r => s.endRound r.handle 3 m.why m.pkg
  | none =>
    if m.epoch < s.epoch || (s.rounds.any fun r => r.desc.epoch == m.epoch && r.desc.round == m.round) then s
    else { s with early := s.early ++ [(.abort, m)] }

/-- The messages that came before a member's own COLLS reach its round. -/
def State.takeEarly (s : State) (d : CollDesc) : State :=
  let mine (x : CollOut × CollMsg) : Bool := x.2.epoch == d.epoch && x.2.round == d.round
  (s.early.filter mine).foldl (fun s x => match x.1 with
    | .value => s.takeValue x.2
    | .abort => s.takeAbort x.2
    | _ => s.takePartial x.2) { s with early := s.early.filter fun x => !mine x }

/-- This package's epoch rises (R393, R394): what waited for a round of an older one is answered. -/
def State.raiseEpoch (s : State) (e : Nat) : State :=
  let old (x : CollOut × CollMsg) : Bool := decide (x.2.epoch < max s.epoch e)
  (s.early.filter old).foldl (fun s x => if x.1 == .abort then s else s.refuseColl x.2 4)
    { s with epoch := max s.epoch e, early := s.early.filter fun x => !old x }

/-! ## COLLS to COLLABT (R126) -/

/-- COLLS (R126). -/
def execColls (d a : SReg) (s : State) : Ends := ends s do
  let (x, bad) ← collDescM (s.rd a)
  releaseM
  let mine ← if bad || x.op == 4 || (x.op == 3 && x.me != x.root) then pure []
    else do
      let l ← readRecordM .read x.sbuf (x.sends * x.size)
      pure ((List.range x.sends).map fun i => BitVec.ofNat 32 (fieldOf l (i * x.size) x.size))
  let s ← get
  let h := s.newHandle s.die x.round
  let r : Round := { handle := h, asid := s.me.asid.toNat, sys := s.me.pl, launch := s.ctx.cont.launch, desc := x, mine := mine, start := s.cycle }
  let add (s : State) (r : Round) : State := { s with rounds := s.rounds.filter (·.handle != h) ++ [r] }
  if bad then doS fun s => add s { r with state := 3, why := 5 }
  else
    let r := { r with state := 1 }
    doS fun s =>
      let s := add (s.raiseEpoch x.epoch) r
      (if x.tree then s.treeAdvance h else if x.me == 0 then s.ringForward r 0 (r.partialOf 0 []) else s).takeEarly x
  wrM d (word h)

/-- The round a handle names: one that no COLLS of this ASID gave is refused. -/
def roundM (w : Word) : M Round := do
  let s ← get
  match s.roundOf w.toNat with
  | some r => do
    demandOpen (r.asid == s.me.asid.toNat) .access
    pure r
  | none => openTrapM .access

/-- COLLW (R126). -/
def execCollw (d a : SReg) (s : State) : Ends := ends s do
  let r ← roundM (s.rd a)
  if r.live then waitM .collective (.round r.handle) 0
  doS State.acquire
  demand (!(r.state == 3 && r.desc.trapFail)) .coll 0 0 r.word
  wrM d r.word

/-- COLLST (R126). -/
def execCollst (d a : SReg) (s : State) : Ends := ends s do
  let r ← roundM (s.rd a)
  wrM d r.word

/-- COLLABT (R126): a live round ends at every reachable member. -/
def execCollabt (a : SReg) (s : State) : Ends := ends s do
  let r ← roundM (s.rd a)
  if r.live then
    doS fun s => (s.endRound r.handle 3 2 Config.package).sendAll r .abort { r.msg [] with why := 2, pkg := Config.package }

/-! ## Messages (R390 to R393) -/

/-- RING_PARTIAL (R390): a member receives the running partial, combines and forwards it. -/
def execRingPartial (msg : CollMsg) (s : State) : Ends := .next (s.takePartial msg)

/-- RING_TOTAL (R390): a member receives the total, writes it and forwards it; member n − 2 sends DONE. -/
def execRingTotal (msg : CollMsg) (s : State) : Ends :=
  .next (match s.liveFor msg with
    | none => s.noRound .total msg
    | some r =>
      let k := r.desc.me
      let from_ := if k == 0 then r.desc.n - 1 else k - 1
      if r.desc.tree || !r.sent || r.passed || r.desc.n ≤ k + 1 || r.desc.list.getD from_ 0 != msg.src then s
      else (s.hear r.handle msg.src).ringResult r k msg.data)

/-- TREE_VALUE (R391): a leader receives a value of its group. -/
def execTreeValue (msg : CollMsg) (s : State) : Ends := .next (s.takeValue msg)

/-- COLLECTIVE_DONE (R390, R391): a member takes state 2; under TREE it first writes the total. -/
def execCollectiveDone (msg : CollMsg) (s : State) : Ends :=
  .next (match s.roundFor msg with
    | none => s.noRound .done msg
    | some r =>
      if !r.live then s
      else (if r.desc.tree then s.writeRbuf r msg.data else s).endRound r.handle 2 0 0)

/-- ABORT (R392): a member takes state 3 with the WHY and PKG the message carries. -/
def execAbort (msg : CollMsg) (s : State) : Ends := .next (s.takeAbort msg)

/-! ## Time-outs and probes (R392) -/

/-- Packages of a list whose link has been declared down (R427). -/
def State.downPkgs (s : State) (l : List Nat) : List Nat :=
  l.filter fun p => p != Config.package && match Tbl.find? s.reach p with
    | some port => (Tbl.getD s.links port {}).down
    | none => false

/-- COLLECTIVE_TIMEOUT (R392): tmo elapses and the member probes every other member. -/
def execCollectiveTimeout (r : Nat) (s : State) : Ends :=
  .next (match s.roundOf r with
    | none => s
    | some x =>
      if !x.live || x.probing.isSome || s.cycle < x.start + x.desc.tmo * 2500 then s
      else
        let cut := x.desc.list.filter fun p => p != Config.package && !s.linked p
        (s.updRound r fun x => { x with probing := some ⟨s.cycle, s.downPkgs x.desc.list, cut⟩ }).sendAll x .probe (x.msg []))

/-- PROBE (R392): a member answers whether it has a live round of that epoch and round id. -/
def execProbe (msg : CollMsg) (s : State) : Ends :=
  .next (s.sendColl 0 .answer msg.src { msg with src := Config.package, level := (s.liveFor msg).isSome.toNat })

/-- PROBE_WINDOW_END (R392): after 1 µs the silent members are known, and every member that answered is sent ABORT; `answered` lists who
answered, with whether it reported a live round. -/
def execProbeWindowEnd (r : Nat) (answered : List (Nat × Bool)) (s : State) : Ends :=
  .next (match s.roundOf r with
    | none => s
    | some x => match x.probing with
      | none => s
      | some z =>
        if !x.live || s.cycle < z.at_ + 2500 then s
        else
          let heard := answered.filter fun a => !z.silent.contains a.1
          let ok (p : Nat) : Bool := p == Config.package || heard.contains (p, true)
          let first := x.desc.list.find? fun p => !ok p
          let f := s.fresh
          let pkg := first.getD ((Config.freeWord f.1).toNat % 4096)
          let s := if first.isSome then s else f.2
          let why := if z.down.contains pkg && first.isSome then 3 else 1
          let s := s.endRound r 3 why pkg
          (x.desc.list.filter fun p => heard.any (·.1 == p)).foldl (fun s p => s.sendColl x.launch .abort p { x.msg [] with why := why, pkg := pkg }) s)

/-! ## MEMB (R127, R394) -/

/-- The message of a MEMB, whose `members` are the old list and `level` its tmo. -/
def membMsg (epoch round tmo : Nat) (l : List Nat) : CollMsg :=
  { src := Config.package, epoch := epoch, round := round, why := 0, pkg := 0, level := tmo, data := [], members := l }

/-- This package has the list of an old epoch; the first one stands. Its own MEMBs complete with it, and each member that it has collected
as a coordinator gets that list and no other. -/
def State.accept (s : State) (epoch : Nat) (l : List Nat) : State :=
  let l := Tbl.getD s.published epoch l
  let others := (s.collections.filter (·.epoch == epoch)).flatMap (·.collected)
  let mine := s.membs.filter fun m => m.epoch == epoch && m.result.isNone
  let s := if (Tbl.find? s.published epoch).isSome then s else { s with published := Tbl.set s.published epoch l }.raiseEpoch (epoch + 1)
  let s := { s with
    collections := s.collections.filter (·.epoch != epoch)
    membs := s.membs.map fun m => if m.epoch == epoch && m.result.isNone then { m with result := some l } else m }
  let s := others.foldl (fun s p => s.sendColl 0 .publish p (membMsg epoch 0 0 l)) s
  mine.foldl (fun s m => s.wakeAll (.round m.handle) none) s

/-- The coordinator publishes the survivors, in old list order, to each member it collected. -/
def State.publishRing (s : State) (c : Collection) : State := s.accept c.epoch (c.list.filter (c.collected.contains ·))

/-- The coordinator takes one member's MEMB; after publication the member is sent what was published. -/
def State.collectMemb (s : State) (src epoch tmo : Nat) (l : List Nat) : State :=
  match Tbl.find? s.published epoch with
  | some x => if src == Config.package then s.accept epoch x else s.sendColl 0 .publish src (membMsg epoch 0 0 x)
  | none =>
    let c : Collection := (s.collections.find? (·.epoch == epoch)).getD { epoch := epoch, list := l, tmo := tmo, since := s.cycle }
    if !c.list.contains src then s
    else
      let c := { c with collected := if c.collected.contains src then c.collected else c.collected ++ [src] }
      let s := { s with collections := s.collections.filter (·.epoch != epoch) ++ [c] }
      if c.list.all (c.collected.contains ·) then s.publishRing c else s

/-- A MEMB probes every other package of the old list (R127, R394). -/
def State.probeRing (s : State) (m : Memb) (round : Nat) : State :=
  m.list.foldl (fun s p => s.sendColl 0 .probe p (membMsg m.epoch round m.tmo m.list)) s

/-- Who answers first in old list order (R394): this package answers its own probe; which of the members before it, that a link reaches,
answers is no matter of this package (assumption 54). -/
def State.firstAnswer (s : State) (l : List Nat) : State × Nat :=
  let near := (l.take (l.idxOf Config.package)).filter s.linked
  let f := s.fresh
  if near == [] then (s, Config.package) else (f.2, near.getD (Config.freeChoice f.1 % (near.length + 1)) Config.package)

/-- A MEMB goes to its coordinator. -/
def State.joinRing (s : State) (m : Memb) (round : Nat) : State :=
  if m.coordinator == Config.package then s.collectMemb Config.package m.epoch m.tmo m.list
  else s.sendColl 0 .memb m.coordinator (membMsg m.epoch round m.tmo m.list)

/-- Write the survivors at s(b), 16 bits each (R394). -/
def storeHalves (va : Word) (l : List Nat) : M Unit :=
  l.zipIdx.forM fun (p, i) => storeM (va + word (2 * i)) 2 p

/-- MEMB (R127, R394): a MEMB already issued by this instruction goes on with what it read. -/
def execMemb (d a b : SReg) (s : State) : Ends := ends s do
  let mine (m : Memb) : Bool := (Party.mk m.agent m.uid).same s.myself && m.pc == s.pc
  let va := s.rd b
  match s.membs.find? mine with
  | none =>
    let (x, bad) ← collDescM (s.rd a)
    demand (!bad) .coll 0 0 (word (3 * 2 ^ 60 + 5 * 2 ^ 56 + x.round))
    demand (va.toNat % 2 == 0) .misalign 0 va
    for sp in lineSpans va.toNat (2 * x.n) do
      let _ ← checkM (.object true) (word sp.1) sp.2 1
    let s ← get
    let h := match s.rounds.find? fun r => r.desc.epoch == x.epoch && r.desc.round == x.round && r.asid == s.me.asid.toNat with
      | some r => r.handle
      | none => s.die.val * 4 * 2 ^ 32 + x.round
    doS fun s =>
      let f := s.firstAnswer x.list
      let m : Memb := { agent := s.agent, uid := s.ctx.cont.uid, pc := s.pc, handle := h, epoch := x.epoch, list := x.list, tmo := x.tmo
                        coordinator := f.2, since := s.cycle }
      let s := f.1.probeRing m x.round
      { s with membs := s.membs ++ [m] }.joinRing m x.round
  | some _ => pure ()
  match (← get).membs.find? mine with
  | some m => match m.result with
    | none => waitM .collective (.round m.handle) 0
    | some l => do
      storeHalves va l
      doS fun s => { s with membs := s.membs.filter fun m => !mine m }
      wrM d (word ((m.epoch + 1) * 2 ^ 32 + l.length))
  | none => pure ()

/-- MEMB_COLLECT (R394): the coordinator receives a member's MEMB. -/
def execMembCollect (msg : CollMsg) (s : State) : Ends := .next (s.collectMemb msg.src msg.epoch msg.level msg.members)

/-- MEMB_PUBLISH (R394): every member is collected, or tmo has elapsed since this package became coordinator of old epoch r. -/
def execMembPublish (r : Nat) (s : State) : Ends :=
  .next (match s.collections.find? (·.epoch == r) with
    | some c => if s.cycle < c.since + c.tmo * 2500 && !c.list.all (c.collected.contains ·) then s else s.publishRing c
    | none => s)

/-- MEMB_PUBLICATION (R394): a member receives the list, and its MEMB writes it and completes. -/
def execMembPublication (msg : CollMsg) (s : State) : Ends := .next (s.accept msg.epoch msg.members)

/-- MEMB_REPROBE (R394): no publication within tmo + 4 µs for old epoch r; `first` is the first old member that answers now. -/
def execMembReprobe (r first : Nat) (s : State) : Ends :=
  .next (match s.membs.find? fun m => m.epoch == r && m.result.isNone && m.since + m.tmo * 2500 + 10000 ≤ s.cycle && m.list.contains first with
    | none => s
    | some m =>
      let n := { m with coordinator := first, since := s.cycle }
      let s := s.probeRing m (m.handle % 2 ^ 32)
      { s with membs := s.membs.map fun x => if x == m then n else x }.joinRing n (m.handle % 2 ^ 32))

end Sys2Proof.Machine
end

