-- ==== Sys2Proof/Machine/ElemDot.lean ====
section
/-!
DEFINITION. Conversion in the fabric (R150), carry-save beats and their arithmetic (R153, R155 to R157, R271 to R274), and the
block dot (R152, R255).
-/
namespace Sys2Proof.Machine

/-! ## ECVT (R150) -/

/-- Convert codes in order, with the slot's generator (R142). -/
def convertAll (row : ConvRow) (l : List Nat) : U (List Nat) := do
  let rm ← taskRm
  let dn ← taskDn
  l.mapM fun x => do
    let u ← unitSt
    let r := convert row rm dn u.gen x
    raiseE r.2.1.toNat
    updUnit fun u => { u with gen := r.2.2 }
    pure r.1

/-- Codes of width w packed into beats, the last filled with zeros. -/
def packCodes (w : Nat) : Nat → List Nat → List Beat
  | 0, _ => []
  | _, [] => []
  | n + 1, l => dataBeat (ofLanes w (l.take (512 / w))).toNat :: packCodes w n (l.drop (512 / w))

/-- Send every full beat of converted codes, and the rest too at the end of a packet. -/
def sendCodes (w : Nat) (l : List Nat) (final : Bool) : U Unit := do
  let all := (← unitSt).pos ++ l
  let full := if final then all.length else all.length / (512 / w) * (512 / w)
  updUnit fun u => { u with pos := all.drop full }
  emitBeats (packCodes w all.length (all.take full))

/-- ECVT in dense form (R150): scale beats pass as they stand, data beats are converted and packed again. -/
def ecvtDense (row : ConvRow) (src dst : Nat) : U Unit :=
  denseStep [0]
    (fun bs => do
      takeHeader src (· == row.src) bs
      sendCodes row.dst.width [] true
      emitBeats (bs.map fun b => { b with pay := BitVec.ofNat 512 (setFld b.pay.toNat 0 8 dst) }))
    (fun bs => do
      let before ← unitSt
      let b := bs.headD {}
      let _ ← takeData src bs
      let isScale := match before.hdrA with
        | some h => before.flag && before.pktA.length < hScaleBeats h.pay.toNat
        | none => false
      if isScale then emitBeats [b]
      else
        let r ← convertAll row (lanes b.pay row.src.width)
        sendCodes row.dst.width r ((← unitSt).flag && (← unitSt).packetEnded))
    (fun _ b => do
      sendCodes row.dst.width [] true
      emitBeats [b])

/-- The format code of a format (R258). -/
def Fmt.code (f : Fmt) : Nat :=
  match f with
  | .f32 => 1 | .bf16 => 2 | .f16 => 3 | .e4m3 => 4 | .e5m2 => 5 | .e2m1 => 6 | .e8m0 => 7 | .pp8 => 8 | .s8 => 9
  | .s4 => 10 | .s32 => 11 | .b1 => 12 | .z8 => 13

/-- ECVT (R150). -/
def execEcvt (_a _f : Fin 16) (m : Fin 4) (k : Fin 32) (s : State) : Ends :=
  unitEnds s (match convRow k with
    | none => idleU
    | some row =>
      if m = 1 then ecvtDense row row.src.code row.dst.code
      else burst (pairToks [0] fun ts => do
        let t := ts.headD ⟨0, 0, 0⟩
        let r ← convertAll row [t.v.toNat % 2 ^ row.src.width]
        pure [{ t with v := BitVec.ofNat 32 (r.headD 0) }]))

/-! ## Carry-save beats (R155, R156) -/

def bit4 (x : BitVec 4) (j : Nat) : Bool := x.getLsbD j
def setBit4 (x : BitVec 4) (j : Nat) : BitVec 4 := x ||| BitVec.ofNat 4 (2 ^ j)
def putBit4 (x : BitVec 4) (j : Nat) (b : Bool) : BitVec 4 := if b then setBit4 x j else x &&& ~~~(BitVec.ofNat 4 (2 ^ j))

/-- The sum of a lane. -/
def CsBeat.at (b : CsBeat) (j : Fin 4) : Int := b.sum[j.val]

/-- Whether a lane is neither NaN nor infinite. -/
def CsBeat.finite (b : CsBeat) (j : Fin 4) : Bool := !(bit4 b.nan j.val || bit4 b.ovf j.val)

/-- floor(t × 2^q / 2^(x − 330)), and whether bits are discarded. -/
def csFloor (t : Int) (q : Int) (x : Nat) : Int × Bool :=
  let sh := (x : Int) - 330 - q
  if 0 ≤ sh then (t / (2 ^ sh.toNat : Nat), t % (2 ^ sh.toNat : Nat) != 0) else (t * (2 ^ (-sh).toNat : Nat), false)

/-- The least exponent, from E up to 511, at which a value fits 56 bits (R156): value = t × 2^q. -/
def csExp (e : Nat) (t : Int) (q : Int) : Option Nat :=
  List.find? (fun x =>
    let v := (csFloor t q x).1
    decide (-36028797018963968 ≤ v) && decide (v < 36028797018963968)) ((List.range (512 - e)).map (e + ·))

/-- Raise the shared exponent: every lane with NAN and OVF clear moves to it (R156). -/
def CsBeat.raise (b : CsBeat) (x : Nat) : CsBeat :=
  let unit : Int := (2 ^ (x - b.e) : Nat)
  let sums := Vector.ofFn fun j : Fin 4 => if b.finite j then b.at j / unit else b.at j
  let stk := (List.finRange 4).foldl (fun k j => if b.finite j && b.at j % unit != 0 then setBit4 k j.val else k) b.stk
  { b with e := x, sum := sums, stk := stk }

/-- CSAdd (R156). -/
def CsBeat.add (b0 : CsBeat) (j : Fin 4) (x : ExNum) : CsBeat :=
  let b := { b0 with valid := setBit4 b0.valid j.val }
  let laneNeg := decide (b.at j < 0)
  match x with
  | .nan => { b with nan := setBit4 b.nan j.val }
  | .inf neg =>
    if bit4 b.nan j.val || (bit4 b.ovf j.val && laneNeg != neg) then { b with nan := setBit4 b.nan j.val }
    else { b with ovf := setBit4 b.ovf j.val, sum := b.sum.set j.val (if neg then -1 else 1) }
  | .fin neg m ex =>
    if bit4 b.nan j.val then b
    else if bit4 b.ovf j.val then { b with sum := b.sum.set j.val (if laneNeg then -1 else 1) }
    else
      let q := min ((b.e : Int) - 330) ex
      let v : Int := b.at j * (2 ^ ((b.e : Int) - 330 - q).toNat : Nat)
      let y : Int := (m * 2 ^ (ex - q).toNat : Nat)
      let t := v + (if neg then -y else y)
      match csExp b.e t q with
      | some x =>
        let f := csFloor t q x
        let r := b.raise x
        { r with sum := r.sum.set j.val f.1, stk := putBit4 r.stk j.val (bit4 b.stk j.val || f.2) }
      | none =>
        ({ b with ovf := setBit4 b.ovf j.val, sum := b.sum.set j.val (if t < 0 then -1 else 1) } : CsBeat).raise 511

/-- Read a carry-save beat's fields (R155): SUM + CAR of each lane; a sum outside 56 bits is brought back in range. An infinite lane has the sign of
SUM, whatever CAR holds (assumption 97). -/
def readCs (p : Line) : CsBeat :=
  let x := p.toNat
  let b : CsBeat :=
    { sum := Vector.ofFn fun j => signed 56 (fld x (112 * j.val) 56) + (if x.testBit (461 + j.val) then 0 else signed 56 (fld x (112 * j.val + 56) 56))
      e := fld x 448 9
      stk := BitVec.ofNat 4 (fld x 457 4), ovf := BitVec.ofNat 4 (fld x 461 4)
      nan := BitVec.ofNat 4 (fld x 465 4), valid := BitVec.ofNat 4 (fld x 469 4) }
  (List.finRange 4).foldl (fun c j =>
    if decide (-36028797018963968 ≤ c.at j) && decide (c.at j < 36028797018963968) then c
    else { c.add j (.fin false 0 0) with valid := c.valid }) b

/-- Write one: the sum in SUM, zero in CAR (R155). -/
def CsBeat.pay (b : CsBeat) : Nat :=
  (List.finRange 4).foldl (fun a j => a + toField 56 (b.at j) * 2 ^ (112 * j.val)) 0
    + b.e * 2 ^ 448 + b.stk.toNat * 2 ^ 457 + b.ovf.toNat * 2 ^ 461 + b.nan.toNat * 2 ^ 465 + b.valid.toNat * 2 ^ 469

/-- The value of a lane as CSAdd takes it. -/
def CsBeat.lane (b : CsBeat) (j : Fin 4) : ExNum :=
  if bit4 b.nan j.val then .nan
  else if bit4 b.ovf j.val then .inf (b.at j < 0)
  else .fin (b.at j < 0) (b.at j).natAbs ((b.e : Int) - 330)

/-- Add one beat into another, lane by lane (R156): VALID, NAN and OVF are ORed, and infinite lanes of opposite signs make a NaN. DESIGN CHOICE
(assumption 97): the discarded bits of b's lane are discarded bits of a finite sum, whose STK they set. -/
def CsBeat.addBeat (a b : CsBeat) : CsBeat :=
  let r := (List.finRange 4).foldl (fun c j =>
    let r := c.add j (b.lane j)
    { r with stk := if bit4 b.stk j.val && r.finite j then setBit4 r.stk j.val else r.stk }) a
  { r with valid := a.valid ||| b.valid, nan := r.nan ||| a.nan ||| b.nan, ovf := r.ovf ||| a.ovf ||| b.ovf }

/-- The class of a carry-save beat (R155). DESIGN CHOICE (assumption 100): non-zero bits of a scale header beyond [63:0] are ignored, since the
rule refuses only lane codes and the zero bits of data beats. -/
def csClass (b : Beat) : BeatClass :=
  match b.cls with
  | .data => if b.pay.toNat / 2 ^ 473 == 0 then .data else .bad
  | c => c

/-- ECSADD (R156). -/
def execEcsadd (_a _b k : Fin 16) (x : Bool) (s : State) : Ends :=
  let ports := if x then [0] else [0, 1]
  unitEnds s (do
    let bs ← ports.mapM headBeat
    let cls := bs.map csClass
    let c := cls.headD .bad
    needU (c != .bad && cls.all (· == c))
    let b := bs.headD {}
    match c with
    | .header => emitBeats [b]
    | .data =>
      if x then
        updUnit fun u =>
          let i := u.n % (k.val + 1)
          let accs := u.accs ++ List.replicate (k.val + 1 - u.accs.length) ({} : CsBeat)
          { u with n := u.n + 1, accs := accs.set i ((accs.getD i ({} : CsBeat)).addBeat (readCs b.pay)) }
      else emitBeats [dataBeat ((readCs b.pay).addBeat (readCs (bs.getD 1 {}).pay)).pay]
    | .ctl n =>
      emitBeats (((← unitSt).accs.filter (·.valid != 0)).map fun a => dataBeat a.pay)
      emitBeats [b]
      updUnit fun u => { u with accs := [], n := 0 }
      markDrain n
    | .bad => protoU
    ports.forM dropBeat)

/-! ## ENORM (R157, R273) -/

/-- Round(V + δ): δ is an infinitesimal far below every result's last place. -/
def resolveLane (rm : RMode) (dn : Bool) (b : CsBeat) (j : Fin 4) : Nat × Fl :=
  if bit4 b.nan j.val then (0x7FC00000, Fl.nv)
  else if bit4 b.ovf j.val then ((if b.at j < 0 then 0x80000000 else 0) + 0x7F800000, Fl.of_)
  else
    let v : Int := b.at j
    if bit4 b.stk j.val then
      let w := v * (2 ^ 600 : Nat) + 1
      roundIeee .f32 rm dn ⟨.fin (w < 0) w.natAbs ((b.e : Int) - 930), false, 0⟩
    else if v == 0 then roundIeee .f32 rm dn ⟨.fin (rm == .rd) 0 0, false, 0⟩
    else roundIeee .f32 rm dn ⟨.fin (v < 0) v.natAbs ((b.e : Int) - 330), false, 0⟩

/-- One tensor scale, rounded to nearest-even; a NaN scale gives NaN and NV (R157). -/
def tensorScale (dn : Bool) (ts : BitVec 32) (r : Nat × Fl) : Nat × Fl :=
  let p := fp2 .f32 .rne dn ExNum.mul r.1 ts.toNat
  (p.1, p.2 ||| r.2 ||| (if Fmt.f32.isNanCode ts.toNat then Fl.nv else 0))

/-- ENORM (R157). -/
def execEnorm (_a _f : Fin 16) (x : Bool) (s : State) : Ends :=
  unitEnds s (do
    let b ← headBeat 0
    match csClass b with
    | .header =>
      updUnit fun u => { u with n := 0, tsA := some (BitVec.ofNat 32 (fld b.pay.toNat 0 32)), tsB := some (BitVec.ofNat 32 (fld b.pay.toNat 32 32)) }
    | .data =>
      let u ← unitSt
      needU (!x || u.tsA.isSome)
      let rm ← taskRm
      let dn ← taskDn
      let cs := readCs b.pay
      let r := ((List.finRange 4).filter fun j => bit4 cs.valid j.val).map fun j =>
        let r := resolveLane rm dn cs j
        if x then tensorScale dn (u.tsB.getD 0) (tensorScale dn (u.tsA.getD 0) r) else r
      raiseE (orFlags r).toNat
      updUnit fun u => { u with n := u.n + r.length }
      emitToks (r.zipIdx.map fun y => ⟨BitVec.ofNat 32 (u.n + y.2), BitVec.ofNat 32 y.1.1, 0⟩)
    | .ctl k =>
      updUnit fun u => { u with n := 0 }
      markDrain k
      emitToks [⟨0, 0, k⟩]
    | .bad => protoU
    dropBeat 0)

/-! ## EBDOT (R152, R255, R271) -/

/-- Block scale n of a packet (R237, R239). -/
def scaleCode (h : Nat) (l : List Nat) (n : Nat) : Nat :=
  if n < 32 then fld h (256 + 8 * n) 8 else fld (l.getD ((n - 32) / 64) 0) (8 * ((n - 32) % 64)) 8

/-- The decoded scale of block j of row i: 1 with no block scales (R271). -/
def scaleOf (h : Nat) (l : List Nat) (i j : Nat) : ExNum :=
  if hBs h == 0 then .fin false 1 0
  else (fmtOf (hSfmt h)).value (scaleCode h l (i * (hK h / 2 ^ hBs h) + j))

/-- Stored element e of row i of a packet that is no bitmap packet (R239). -/
def storedCode (h : Nat) (l : List Nat) (i e : Nat) : Nat :=
  let w := hWidth h
  fld (l.getD (hScaleBeats h + i * hRowBeats h + e / (512 / w)) 0) (w * (e % (512 / w))) w

/-- The exact sum of products of pairs of values (R271, R272). -/
def exactDot (l : List (ExNum × ExNum)) : ExNum := l.foldl (fun a x => (a.add .rne (x.1.mul x.2).num).num) (.fin false 0 0)

/-- s × ScaleA × ScaleB (R271, R272). -/
def scaleProduct (s a b : ExNum) : ExNum := ((s.mul a).num.mul b).num

/-- The blocks of a row pair: the exact scaled sum of each (R152). -/
def rowBlocks (dn : Bool) (ha hb : Nat) (la lb : List Nat) (i : Nat) : List ExNum :=
  let n := 2 ^ hBs ha
  (List.range (hK ha / n)).map fun j =>
    let s := exactDot ((List.range n).map fun k =>
      (operand (fmtOf (hEfmt ha)) dn (storedCode ha la i (j * n + k)), operand (fmtOf (hEfmt hb)) dn (storedCode hb lb i (j * n + k))))
    scaleProduct s (scaleOf ha la i j) (scaleOf hb lb i j)

/-- Entries grouped four lanes to a beat: each lane takes its entries in order (R255). -/
def csBeats : Nat → List (List ExNum) → List CsBeat
  | 0, _ => []
  | _, [] => []
  | n + 1, l =>
    (l.take 4).zipIdx.foldl (fun b x => x.1.foldl (fun b v => b.add (Fin.ofNat 4 x.2) v) b) ({} : CsBeat) :: csBeats n (l.drop 4)

/-- A scale header (R155). -/
def scaleHeader (ha hb : Nat) : Beat := headerBeat (hTs ha + hTs hb * 2 ^ 32)

/-- Whether two HEADERs may be dotted (R152). -/
def bdotOk (ha hb : Nat) : Bool :=
  let fmtOk (h : Nat) : Bool := [4, 5, 6, 9].contains (hEfmt h) && (hSfmt h == 7 || hSfmt h == 5) && hPk h == 0
  hdrOk ha && hdrOk hb && fmtOk ha && fmtOk hb && hRows ha == hRows hb && hK ha == hK hb && hBs ha == hBs hb

/-- The result beats of a pair of packets. -/
def bdotResult (dn part : Bool) (ha hb : Nat) (la lb : List Nat) : List Beat :=
  let rows := (List.range (hRows ha)).map fun i => rowBlocks dn ha hb la lb i
  let entries := if part then (rows.flatMap id).map fun p => [p] else rows
  scaleHeader ha hb :: (csBeats entries.length entries).map fun b => dataBeat b.pay

/-- Take a scale or data beat of one port's own packet, if it is not complete and a beat is there (R139). -/
def bdotTake (port : Nat) (h : Nat) (l : List Beat) : U (List Beat) := do
  if packetDone h (l.map (·.pay.toNat)) || !(← hasBeat port) then pure l
  else
    let b ← headBeat port
    needU (b.cls == .data)
    dropBeat port
    pure (l ++ [b])

/-- EBDOT (R152). -/
def execEbdot (_a _b : Fin 16) (x : Bool) (s : State) : Ends :=
  unitEnds s (do
    let u ← unitSt
    match u.hdrA, u.hdrB with
    | some ha, some hb =>
      let a ← bdotTake 0 ha.pay.toNat u.pktA
      let b ← bdotTake 1 hb.pay.toNat u.pktB
      let la := a.map (·.pay.toNat)
      let lb := b.map (·.pay.toNat)
      if packetDone ha.pay.toNat la && packetDone hb.pay.toNat lb then
        emitBeats (bdotResult (← taskDn) x ha.pay.toNat hb.pay.toNat la lb)
        updUnit fun u => { u with hdrA := none, hdrB := none, pktA := [], pktB := [] }
      else if a == u.pktA && b == u.pktB then wantU ([0, 1].filter fun p => !u.complete p)
      else updUnit fun u => { u with pktA := a, pktB := b }
    | _, _ =>
      let a ← headBeat 0
      let b ← headBeat 1
      needU (a.cls == b.cls)
      match a.cls with
      | .header =>
        needU (bdotOk a.pay.toNat b.pay.toNat)
        updUnit fun u => { u with hdrA := some a, hdrB := some b, pktA := [], pktB := [] }
      | .ctl k =>
        emitBeats [a]
        markDrain k
      | _ => protoU
      dropBeat 0
      dropBeat 1)

end Sys2Proof.Machine
end

