-- ==== Sys2Proof/Machine/ElemMatrix.lean ====
section
/-!
DEFINITION. The matrix slot (R164 to R167, R240 to R247, R252): packets of three ports, the cells of an output-stationary array,
and one meaning for each operation. Four cells of a row share one carry-save exponent (assumption 31).
-/
namespace Sys2Proof.Machine

/-- The operations of the matrix slot (R166). -/
inductive MatOp where
  | dense | nm2 | match_ | bxor | band | pp8 | expert | pred (orrows : Bool)
  deriving DecidableEq, Repr

/-- What a matrix word sets (R164). -/
structure MatCfg where
  op : MatOp
  fmt : Nat
  bhold : Bool
  out : Nat
  deriving DecidableEq, Repr

def floatCodes : List Nat := [2, 3, 4, 5, 6]
def intCodes : List Nat := [9, 10]

/-- The element formats and the packet kind a port takes (R166, R243). -/
def MatOp.portFmts (o : MatOp) (port : Nat) : List Nat :=
  match o, port with
  | .bxor, _ => [12]
  | .band, _ => [12]
  | .pp8, 0 => [2, 3, 4, 5, 9]
  | .pp8, _ => [8]
  | .nm2, 2 => [0]
  | _, _ => floatCodes ++ intCodes

def MatOp.portKind (o : MatOp) (port : Nat) : Nat :=
  match o, port with
  | .nm2, 1 => 1
  | .nm2, 2 => 3
  | .match_, _ => 2
  | _, _ => 0

/-- A HEADER at a port (R166, R238, R239, R243). -/
def MatOp.hdrAccept (o : MatOp) (port h : Nat) : Bool :=
  hdrOk h && (o.portFmts port).contains (hEfmt h) && hPk h == o.portKind port
    && (hPk h == 2 || hScaleBeats h + hRows h * hRowBeats h ≤ 1024)

/-- Whether a pair multiplies integers (R165). -/
def MatOp.isInt (o : MatOp) (ha : Nat) : Bool :=
  match o with
  | .pp8 => false
  | .bxor => true
  | .band => true
  | _ => intCodes.contains (hEfmt ha)

/-- Whether two HEADERs may be multiplied (R165, R166). -/
def MatCfg.pairOk (m : MatCfg) (ha hb : Nat) : Bool :=
  let float := floatCodes.contains (hEfmt ha) && floatCodes.contains (hEfmt hb)
  let int := intCodes.contains (hEfmt ha) && intCodes.contains (hEfmt hb)
  hK ha == hK hb &&
    (match m.op with
     | .bxor => true
     | .band => true
     | .pp8 => true
     | .expert => (float || int) && hEid ha == hEid hb
     | .pred _ => float || int
     | _ => (float && m.fmt == 1) || (int && m.fmt == 11))

/-! ## Rows of packets -/

/-- A row of codes by position, none where the packet stores nothing there. -/
abbrev MatRow := List (Option Nat)

/-- A row of a dense packet. -/
def denseRow (h : Nat) (l : List Nat) (i : Nat) : MatRow := (List.range (hK h)).map fun k => some (storedCode h l i k)

/-- A row of a bitmap packet: its bitmap and its values in rising position (R245). -/
def bitmapRow (h : Nat) (r : Nat × List Nat) : MatRow :=
  let w := hWidth h
  ((List.range (hK h)).foldl (fun (a : MatRow × Nat) k =>
    if r.1.testBit k then (a.1 ++ [some (fld (r.2.getD (a.2 / (512 / w)) 0) (w * (a.2 % (512 / w))) w)], a.2 + 1)
    else (a.1 ++ [none], a.2)) ([], 0)).1

/-- The positions that metadata word m of group g keeps (R244). -/
def keptPositions (g m : Nat) : List Nat :=
  let sb (n : Nat) : Nat := fld m (2 * n) 2
  let e (n : Nat) : Nat := fld m (4 + 2 * n) 2
  [16 * g + 4 * sb 0 + e 0, 16 * g + 4 * sb 0 + e 1, 16 * g + 4 * sb 1 + e 2, 16 * g + 4 * sb 1 + e 3]

/-- A metadata word is ascending with its reserved bits zero (R244). -/
def metaOk (m : Nat) : Bool :=
  m / 4096 == 0 && decide (fld m 0 2 < fld m 2 2) && decide (fld m 4 2 < fld m 6 2) && decide (fld m 8 2 < fld m 10 2)

def metaWord (hc : Nat) (lc : List Nat) (j g : Nat) : Nat := storedCode hc lc j g

/-- A row of an N:M packet under its metadata row (R244). -/
def nmRow (hb : Nat) (lb : List Nat) (hc : Nat) (lc : List Nat) (j : Nat) : MatRow :=
  let kept := (List.range (hK hb / 16)).flatMap fun g =>
    (keptPositions g (metaWord hc lc j g)).zipIdx.map fun x => (x.1, storedCode hb lb j (4 * g + x.2))
  (List.range (hK hb)).map fun k => (List.find? (fun (x : Nat × Nat) => x.1 == k) kept).map (·.2)

/-- The rows of the packet of a port. -/
def packetRows (o : MatOp) (port h : Nat) (l : List Nat) (hc : Nat) (lc : List Nat) : List MatRow :=
  match o.portKind port with
  | 1 => (List.range (hRows h)).map fun j => nmRow h l hc lc j
  | 2 => ((bitmapRows h (hRows h) (l.drop (hScaleBeats h))).getD []).map (bitmapRow h)
  | _ => (List.range (hRows h)).map fun i => denseRow h l i

/-- Bits beyond K in a bitmap, and metadata that is not ascending, take STREAMPROTO (R245, R166). -/
def bodyOk (o : MatOp) (port h : Nat) (l : List Nat) : Bool :=
  match o.portKind port with
  | 2 => ((bitmapRows h (hRows h) (l.drop (hScaleBeats h))).getD []).all fun r => r.1 / 2 ^ hK h == 0
  | 3 => (List.range (hRows h)).all fun j => (List.range (hK h / 16)).all fun g => metaOk (metaWord h l j g)
  | _ => true

/-! ## Cells (R164, R271, R272) -/

/-- The positions matched by two rows. -/
def matched (a b : MatRow) : List (Nat × Nat) :=
  (a.zip b).filterMap fun x => match x.1, x.2 with
    | some p, some q => some (p, q)
    | _, _ => none

/-- The block size of a pair: the finer of the two; the whole row without block scales. -/
def pairBlock (ha hb : Nat) : Nat :=
  let n (h : Nat) : Nat := if hBs h == 0 then hK h else 2 ^ hBs h
  min (n ha) (n hb)

/-- The scale of row i at a position. -/
def scaleAt (h : Nat) (l : List Nat) (i k : Nat) : ExNum := scaleOf h l i (if hBs h == 0 then 0 else k / 2 ^ hBs h)

/-- The entries of a floating cell, one for each block (R271). -/
def cellTerms (dn : Bool) (ha hb : Nat) (la lb : List Nat) (i j : Nat) (a b : MatRow) : List ExNum :=
  let n := pairBlock ha hb
  (List.range (ceilDiv (hK ha) n)).map fun blk =>
    let s := exactDot ((matched ((a.drop (blk * n)).take n) ((b.drop (blk * n)).take n)).map fun x =>
      (operand (fmtOf (hEfmt ha)) dn x.1, operand (fmtOf (hEfmt hb)) dn x.2))
    scaleProduct s (scaleAt ha la i (blk * n)) (scaleAt hb lb j (blk * n))

/-- The exact dot of an integer or binary cell (R166). -/
def intDot (o : MatOp) (ha hb : Nat) (a b : MatRow) : Int :=
  (matched a b).foldl (fun t x =>
    t + (match o with
         | .bxor => if x.1 == x.2 then 1 else -1
         | .band => ((x.1 &&& x.2 : Nat) : Int)
         | _ => sint (fmtOf (hEfmt ha)).width x.1 * sint (fmtOf (hEfmt hb)).width x.2)) 0

/-- The 256 accumulator beats, beat 8i + g for row i, columns 4g to 4g + 3. -/
def freshCells : List CsBeat := List.replicate 256 ({} : CsBeat)
def freshInts : List (BitVec 32) := List.replicate 1024 0#32

/-- Accumulate a pair of packets into floating cells, for the rows to compute. -/
def addFloat (dn : Bool) (ha hb : Nat) (la lb : List Nat) (ra rb : List MatRow) (rows : List Nat) (acc : List CsBeat) : List CsBeat :=
  acc.zipIdx.map fun x =>
    let i := x.2 / 8
    if !rows.contains i then x.1
    else match ra[i]? with
      | none => x.1
      | some a => (List.finRange 4).foldl (fun c l =>
          let j := 4 * (x.2 % 8) + l.val
          match rb[j]? with
          | none => c
          | some b => (cellTerms dn ha hb la lb i j a b).foldl (fun c v => c.add l v) c) x.1

/-- Accumulate a pair into integer cells: they wrap modulo 2^32 (R166). -/
def addInt (o : MatOp) (ha hb : Nat) (ra rb : List MatRow) (rows : List Nat) (acc : List (BitVec 32)) : List (BitVec 32) :=
  acc.zipIdx.map fun x =>
    match ra[x.2 / 32]?, rb[x.2 % 32]? with
    | some a, some b => if rows.contains (x.2 / 32) then x.1 + BitVec.ofInt 32 (intDot o ha hb a b) else x.1
    | _, _ => x.1

/-- A cell's f32 value and flags (R273), or its s32 value. -/
def cellOut (rm : RMode) (dn int : Bool) (u : UnitSt) (i j : Nat) : Nat × Fl :=
  if int then (((u.ints.getD (32 * i + j) 0#32).toNat), 0)
  else resolveLane rm dn (u.accs.getD (8 * i + j / 4) ({} : CsBeat)) (Fin.ofNat 4 j)

/-- MEXPERT's gate: one multiplication, to nearest-even (R166). -/
def gateCell (dn int : Bool) (g : BitVec 32) (c : Nat × Fl) : Nat × Fl :=
  let v := if int then ExNum.ofInt (signed 32 c.1) else operand .f32 dn c.1
  let r := roundIeee .f32 .rne dn (v.mul (operand .f32 dn g.toNat))
  (r.1, r.2 ||| c.2)

/-- Whether a resolved cell is above zero (R166): NaN is not. -/
def cellPositive (int : Bool) (c : Nat) : Bool :=
  if int then decide (0 < signed 32 c) else (Fmt.f32.value c).cmp (.fin false 0 0) == some .gt

/-! ## What the slot sends (R164, R241) -/

/-- The HEADER a pair's result carries (R241). -/
def outHeader (efmt rows ha hb : Nat) : Beat :=
  headerBeat (efmt + rows * 2 ^ 24 + 32 * 2 ^ 32 + hEid ha * 2 ^ 48 + fld ha 64 32 * 2 ^ 64 + hTs ha * 2 ^ 96 + hTs hb * 2 ^ 128)

/-- A row of 32 values as two data beats. -/
def rowBeats (l : List Nat) : List Beat := packCodes 32 l.length l

/-- A value entered in a carry-save lane as an exact number. -/
def codeNum (int : Bool) (v : Nat) : ExNum := if int then ExNum.ofInt (signed 32 v) else Fmt.f32.value v

/-- Rows of values as carry-save beats, every lane VALID (R164). -/
def csRows (int : Bool) (rows : List (List Nat)) : List Beat :=
  (csBeats 256 ((rows.flatMap id).map fun v => [codeNum int v])).map fun b => dataBeat b.pay

/-- The rows an emission lists with their gates: every row, or the fibre's (R166). -/
def MatCfg.listed (m : MatCfg) (u : UnitSt) : List (Nat × Option (BitVec 32)) :=
  match m.op with
  | .expert => u.out.map fun t => (t.c.toNat, some t.v)
  | _ => (List.range 32).map fun i => (i, none)

/-- The beats of a result, and the flags its resolution raises (R141, R164). -/
def MatCfg.result (m : MatCfg) (rm : RMode) (dn : Bool) (u : UnitSt) (ha hb : Nat) : List Beat × List Fl :=
  let int := m.op.isInt ha
  let rows := (m.listed u).map fun x => (List.range 32).map fun j =>
    let c := cellOut rm dn int u x.1 j
    match x.2 with
    | some g => gateCell dn int g c
    | none => c
  let vals := rows.map fun r => r.map (·.1)
  let fl := rows.flatMap fun r => r.map (·.2)
  match m.op with
  | .pred orr =>
    let bits := vals.map fun r => ofLanes 1 (r.map fun v => (cellPositive int v).toNat) |>.toNat
    (if orr then [dataBeat (bits.foldl (· ||| ·) 0)] else outHeader 12 32 ha hb :: rowBeats bits, fl)
  | .expert =>
    if rows == [] then ([], [])
    else if m.out == 1 then (scaleHeader ha hb :: csRows false vals, fl)
    else (outHeader m.fmt rows.length ha hb :: vals.flatMap rowBeats, fl)
  | _ =>
    if m.out == 1 then
      (scaleHeader ha hb :: (if int then csRows true vals else u.accs.map fun b => dataBeat { b with valid := 15 }.pay), [])
    else (outHeader m.fmt 32 ha hb :: vals.flatMap rowBeats, fl)

/-! ## The slot's step -/

/-- The ports whose packets a pair needs. -/
def MatOp.packetPorts (o : MatOp) : List Nat := if o == .nm2 then [0, 1, 2] else [0, 1]

/-- Take a port's packet out of the slot: the one buffered behind it, if there is one, stands in its place (R241). -/
def UnitSt.advance (u : UnitSt) (p : Nat) : UnitSt :=
  match Tbl.find? u.behind p with
  | some (h, l) => { u with behind := Tbl.erase u.behind p }.setPkt p (some h) l
  | none => u.setPkt p none []

/-- The kind of the control beat at the head of a port, if it is one. -/
def headCtl (p : Nat) : U (Option Nat) := do
  match ← tryU (headBeat p) with
  | some b => match b.cls with
    | .ctl k => pure (some k)
    | _ => pure none
  | none => pure none

/-- Take a port's next beat into a packet that `at` holds and `put` changes: its HEADER, or its next beat; a control beat stays
where no packet is under way. Whether anything was taken. -/
def takePacket (o : MatOp) (p : Nat) (held : Option (Beat × List Beat)) (put : Beat → List Beat → UnitSt → UnitSt) : U Bool := do
  if (match held with | some x => packetDone x.1.pay.toNat (pays x.2) | none => false) || !(← hasBeat p) then pure false
  else
    let b ← headBeat p
    match held, b.cls with
    | _, .bad => protoU
    | none, .header =>
      needU (o.hdrAccept p b.pay.toNat)
      dropBeat p
      updUnit (put b [])
      pure true
    | none, .data => protoU
    | none, .ctl _ => pure false
    | some x, .data =>
      needU (x.2.length < 1024)
      dropBeat p
      updUnit (put x.1 (x.2 ++ [b]))
      pure true
    | some _, _ => protoU

/-- Take what a port offers of its packet, and, once that is complete, of the one behind it (R241). -/
def matTake (o : MatOp) (p : Nat) : U Bool := do
  let u ← unitSt
  if u.complete p then takePacket o p (Tbl.find? u.behind p) fun h l u => { u with behind := Tbl.set u.behind p (h, l) }
  else takePacket o p ((u.hdrOf p).map fun h => (h, u.pktOf p)) fun h l u => u.setPkt p (some h) l

/-- Take the next token of MEXPERT's fibre (R166): `flag` marks a complete one. -/
def fibreTake : U Bool := do
  let u ← unitSt
  if !(← hasTok 2) then pure false
  else
    let t ← peekTok 2
    if 9 ≤ t.k && t.k ≤ 11 then
      needU (u.toks == [] || u.flag || t.k != kDone)
      dropTok 2
      if t.k == kDrain && !u.flag then updUnit fun u => { u with toks := [] }
      pure true
    else if u.flag then pure false
    else
      needU (t.k ≤ 1 && (t.k == 1 || (t.c.toNat < 32 && (match u.toks.getLast? with
        | some p => decide (p.c.toNat < t.c.toNat)
        | none => true))))
      dropTok 2
      updUnit fun u => if t.k == 1 then { u with flag := true } else { u with toks := u.toks ++ [t] }
      pure true

/-- Compute a complete pair and send its result, or keep it under OUT 2 (R164). -/
def MatCfg.compute (m : MatCfg) : U Unit := do
  let u0 ← unitSt
  let ha := ((u0.hdrA.map fun b => b.pay.toNat)).getD 0
  let hb := ((u0.hdrB.map fun b => b.pay.toNat)).getD 0
  let hc := ((u0.hdrC.map fun b => b.pay.toNat)).getD 0
  let la := pays u0.pktA
  let lb := pays u0.pktB
  let lc := pays u0.pktC
  needU (m.pairOk ha hb && bodyOk m.op 0 ha la && bodyOk m.op 1 hb lb)
  needU (m.op != .nm2 || (hRows hc == hRows hb && hK hc == hK hb && bodyOk m.op 2 hc lc))
  let dn ← taskDn
  let rm ← taskRm
  let fresh := m.out != 2 || !u0.any
  let u := { u0 with
    accs := if fresh then freshCells else u0.accs
    ints := if fresh then freshInts else u0.ints
    out := u0.toks, toks := [], flag := false, any := true }
  let rows := (m.listed u).map (·.1)
  let ra := packetRows m.op 0 ha la 0 []
  let rb := packetRows m.op 1 hb lb hc lc
  let u := if m.op.isInt ha then { u with ints := addInt m.op ha hb ra rb rows u.ints }
           else { u with accs := addFloat dn ha hb la lb ra rb rows u.accs }
  let u := { u with outB := [headerBeat ha, headerBeat hb] }.advance 0
  let u := if m.bhold then u else (u.advance 1).advance 2
  updUnit fun _ => u
  if m.out != 2 then
    let r := m.result rm dn u ha hb
    raiseE (r.2.foldl (· ||| ·) 0#6).toNat
    emitBeats r.1

/-- A control beat passes (R165, R242): under OUT 2 it resolves what has accumulated since the last one. -/
def MatCfg.pass (m : MatCfg) (k : Nat) : U Unit := do
  let u ← unitSt
  if m.out == 2 && u.any then
    let h (i : Nat) : Nat := ((u.outB[i]?).map fun b => b.pay.toNat).getD 0
    let r := m.result (← taskRm) (← taskDn) u (h 0) (h 1)
    raiseE (r.2.foldl (· ||| ·) 0#6).toNat
    emitBeats r.1
  updUnit fun u => { u with any := false, accs := [], ints := [], outB := [], hdrB := none, pktB := [], hdrC := none, pktC := [] }
  m.op.packetPorts.forM dropBeat
  emitBeats [ctlBeat k]
  markDrain k

/-- The inputs that a pair still needs beats of. -/
def MatCfg.lacking (m : MatCfg) (u : UnitSt) : List Nat :=
  m.op.packetPorts.filter (fun p => !u.complete p) ++ (if m.op == .expert && !u.flag then [2] else [])

/-- One step of the matrix slot. -/
def MatCfg.step (m : MatCfg) : U Unit := do
  let ports := m.op.packetPorts
  let fib ← if m.op == .expert then fibreTake else pure false
  let took ← ports.mapM fun p => matTake m.op p
  let u ← unitSt
  if ports.all u.complete && (m.op != .expert || u.flag) then m.compute
  else if fib || took.any id then pure ()
  else
    let ctl ← ports.mapM headCtl
    match ctl.headD none with
    | some k =>
      let others := (ports.zip ctl).drop 1
      -- behind a packet that waits for its pair the control beat waits too; a control beat in the pair's place breaks the pairing
      needU (u.hdrA.isNone || others.all fun x => x.2.isNone || (u.hdrOf x.1).isSome)
      if u.hdrA.isSome then wantU (m.lacking u)
      -- the other ports: a packet held or absent, and then the same control beat
      let held (p : Nat) : Bool := if m.bhold then (u.hdrOf p).isNone || u.complete p else (u.hdrOf p).isNone
      needU (others.all fun x => x.2 == none || x.2 == some k)
      needU (m.bhold || others.all fun x => held x.1)
      let waits ← others.mapM fun x => do return !(← hasBeat x.1)
      if waits.any id then wantU (others.map (·.1))
      needU (others.all fun x => held x.1 && x.2 == some k && (Tbl.find? u.behind x.1).isNone)
      m.pass k
    | none =>
      -- a control beat comes where the pair's packet must be (R165)
      needU (u.hdrA.isNone || ((ports.zip ctl).drop 1).all fun x => x.2.isNone || (u.hdrOf x.1).isSome)
      wantU (m.lacking u)

/-! ## The meanings (R166) -/

/-- MDENSE (R166). -/
def execMdense (_a _b f : Fin 16) (h : Bool) (o : Fin 4) (s : State) : Ends := unitEnds s (MatCfg.step ⟨.dense, f, h, o⟩)
/-- MNM2 (R166, R244). -/
def execMnm2 (_a _b _c f : Fin 16) (h : Bool) (o : Fin 4) (s : State) : Ends := unitEnds s (MatCfg.step ⟨.nm2, f, h, o⟩)
/-- MMATCH (R166, R246). -/
def execMmatch (_a _b f : Fin 16) (h : Bool) (o : Fin 4) (s : State) : Ends := unitEnds s (MatCfg.step ⟨.match_, f, h, o⟩)
/-- MBXOR (R166). -/
def execMbxor (_a _b f : Fin 16) (h : Bool) (o : Fin 4) (s : State) : Ends := unitEnds s (MatCfg.step ⟨.bxor, f, h, o⟩)
/-- MBAND (R166). -/
def execMband (_a _b f : Fin 16) (h : Bool) (o : Fin 4) (s : State) : Ends := unitEnds s (MatCfg.step ⟨.band, f, h, o⟩)
/-- MPP8 (R166). -/
def execMpp8 (_a _b f : Fin 16) (h : Bool) (o : Fin 4) (s : State) : Ends := unitEnds s (MatCfg.step ⟨.pp8, f, h, o⟩)
/-- MEXPERT (R166, R252). -/
def execMexpert (_a _b _c f : Fin 16) (h : Bool) (o : Fin 4) (s : State) : Ends := unitEnds s (MatCfg.step ⟨.expert, f, h, o⟩)
/-- MPRED (R166, R247). -/
def execMpred (_a _b f : Fin 16) (x h : Bool) (s : State) : Ends := unitEnds s (MatCfg.step ⟨.pred x, f, h, 0⟩)

end Sys2Proof.Machine
end

