-- ==== Sys2Proof/Machine/Arbour.lean ====
section
/-!
DEFINITION. The Arbour's records: which hart may run which (R373, R437), room for them (R377), dispatch by deficit round-robin
(R330, R375), and saving a continuation (R376, R407).
-/
namespace Sys2Proof.Machine

/-! ## Room (R377) -/

/-- The 64 bytes of a memory-queue record's slot (R377): type 4, the launch's seq, the time, and the record of R120. -/
def State.recBytes (s : State) (r : Rec) : List Byte :=
  leBytes 8 4 ++ leBytes 8 (s.launch r.launch).seq.toNat ++ leBytes 8 0 ++ leBytes 8 r.time ++ leBytes 8 r.code.toNat ++ leBytes 8 r.frame.toNat
    ++ leBytes 8 r.join.toNat ++ leBytes 8 r.prio.toNat

/-- Put a new record where R377 says. -/
def State.enterRecord (s : State) (d : Fin 6) (r : Rec) : State :=
  if 256 < (s.getDie d).poolFree then s.updDie d fun x => { x with pool := x.pool ++ [r] }
  else
    let k := (s.getDie d).extFind 1
    let s := s.updDie d fun x => { x with memq := x.memq ++ [{ r with slot := k }] }
    match k with
    | some n => s.put ((s.getDie d).slotAddr n) (s.recBytes r)
    | none => s

/-! ## Which hart, which record -/

/-- The queue word of a launch: one that was never taken from a queue may run anywhere. -/
def State.queueWord (s : State) (q : Nat) : Word := (Tbl.getD s.queues q {}).word

/-- Whether a queue's word lets a hart run its continuations (R373). -/
def queueAllows (w : Word) (h : HartId) : Bool :=
  w.toNat.testBit (hartDie h).val && w.toNat.testBit (8 + h.val % 128 / 4)

/-- Whether a hart may run a launch's continuations now: its queue's word, and no throttle on hart-cycles (R373, R382). -/
def State.mayRun (s : State) (h : HartId) (r : Rec) : Bool :=
  queueAllows (s.queueWord (s.launch r.launch).queue) h && !s.throttled (recParty r) r.launch 0

/-- Ready records with the die that holds each, in order of die and position. -/
def State.readyRecs (s : State) : List (Fin 6 × Rec) := allDies.flatMap fun d => (s.getDie d).pool.map fun r => (d, r)

/-- Effective priority of a record (R370). -/
def State.recPrio (s : State) (r : Rec) : Nat := prioOf s.effPrio (recParty r)

/-- Round-robin quantum of a launch (R375). -/
def Launch.quantum (l : Launch) : Int := l.ptok * 2500

/-- How many visits a launch needs before its deficit is positive (R375). -/
def Launch.visits (l : Launch) : Nat := if 0 < l.deficit then 1 else ((-l.deficit) / l.quantum).toNat + 1

/-- The launches that the pointer meets after the one it stands at, that one last. -/
def ringFrom (p : Nat) (l : List Nat) : List Nat := l.filter (p < ·) ++ l.filter (· ≤ p)

/-- The launch served next at a priority, and the deficits after the pointer's visits (R375). -/
def State.serve (s : State) (prio : Nat) (ready : List Nat) : Option (Nat × State) :=
  let p := Tbl.getD s.rr prio 0
  if ready.contains p && 0 < (s.launch p).deficit then some (p, s)
  else
    let ring := ringFrom p ready
    match (ring.map fun l => (s.launch l).visits).foldl (fun b n => match b with
        | none => some n
        | some m => some (min m n)) (none : Option Nat) with
    | none => none
    | some k =>
      match ring.find? fun l => (s.launch l).visits == k with
      | none => none
      | some l =>
        let s := ring.zipIdx.foldl (fun s x =>
          let n := if x.2 ≤ ring.findIdx (· == l) then k else k - 1
          s.updLaunch x.1 fun y => { y with deficit := y.deficit + n * y.quantum }) s
        let all := s.readyRecs.map (·.2.launch)
        let s := { s with launches := s.launches.map fun ((i, y) : Nat × Launch) => (i, if y.live && !all.contains i then { y with deficit := 0 } else y) }
        some (l, { s with rr := Tbl.set s.rr prio l })

/-- The oldest of some ready records. -/
def oldest (l : List (Fin 6 × Rec)) : Option (Fin 6 × Rec) :=
  l.foldl (fun b x => match b with
    | none => some x
    | some y => if x.2.time < y.2.time then some x else b) none

/-- The record an idle hart takes next, and the state after the round-robin's visits (R375, R437). -/
def State.pick (s : State) (h : HartId) : Option ((Fin 6 × Rec) × State) :=
  let l := s.readyRecs.filter fun x => s.mayRun h x.2
  let best := (l.map fun x => s.recPrio x.2).foldl max 0
  let l := l.filter fun x => s.recPrio x.2 == best
  match s.serve best (Tbl.sortBy (fun a b => decide (a ≤ b)) (l.map (·.2.launch)).eraseDups) with
  | none => none
  | some (n, t) => (oldest (l.filter (·.2.launch == n))).map fun x => (x, t)

/-- The ready record that an idle hart was drained for, while it may run it (R387). -/
def State.newcomer (s : State) (h : HartId) : Option (Fin 6 × Rec) :=
  match (s.hart h).drainFor with
  | some u => s.readyRecs.find? fun x => x.2.uid == u && s.mayRun h x.2
  | none => none

/-- Idle harts, and the one of them that takes a record of a die (R437); one that was drained for another record takes that. -/
def State.taker (s : State) (d : Fin 6) (r : Rec) : Option HartId :=
  let idle := allHarts.filter fun h => (s.hart h).run == .idle && s.mayRun h r && (s.newcomer h).isNone
  match idle.find? fun h => hartDie h == d with
  | some h => some h
  | none => idle.head?

/-! ## Starting and saving -/

/-- What a fresh continuation starts with (R330). -/
def Rec.start (r : Rec) : Ctx :=
  let c : Ctx := { pc := r.code, bprio := r.prio, stochseed := r.seed, cont := ⟨r.uid, r.launch, r.join, r.node, r.joinPa, r.time⟩ }
  { c with s := (c.s.set 1 r.frame).set 2 r.join }

/-- The start of a continuation acquires (R311): its core's L1 lines go. -/
def State.acquireAt (s : State) (h : HartId) : State := { ({ s with cur := h }.acquire) with cur := s.cur }

/-- A record runs on a hart (R330, R376): fresh, or with every saved field restored (R407). -/
def State.dispatch (s : State) (h : HartId) (d : Fin 6) (r : Rec) : State :=
  let s := s.acquireAt h
  let s := s.updDie d fun x => { x with pool := x.pool.filter (·.uid != r.uid) }
  let s := s.updHart h fun x =>
    { x with
      run := .running
      ctx := match r.saved with | some c => { c with cont := { c.cont with time := r.time } } | none => r.start
      pl := r.pl, hm := r.hm, mact := r.mact, drainFor := none, dispatchedAt := s.cycle
      asid := if r.launch == 0 then x.asid else BitVec.ofNat 10 (s.launch r.launch).asid }
  s.reprio.wakeSpawners d

/-- The record a continuation on a hart becomes: its state, and its old place in its launch's order (R375, R376). -/
def State.recOf (s : State) (h : HartId) (area : Option Nat) : Rec :=
  let x := s.hart h
  let c := x.ctx
  { uid := c.cont.uid, launch := c.cont.launch, code := c.pc, frame := 0, join := c.cont.join, joinPa := c.cont.joinPa, prio := c.bprio
    seed := c.stochseed, node := c.cont.node, time := c.cont.time, saved := some { c with stores := [] }, pl := x.pl, hm := x.hm, mact := x.mact, area := area }

/-- The bytes of a save area (R401, R407): a frame with the registers of 0x348 to 0x37F, then the logged pairs that have no room on chip. -/
def Hart.saveBytes (h : Hart) : List Byte :=
  let c := h.ctx
  let f := h.frame ⟨.preempt, 0, 0, 0, [], none⟩ false
  let regs := leBytes 8 c.fpstat.toNat ++ leBytes 8 c.round.toNat ++ leBytes 8 c.stochseed.toNat ++ leBytes 8 c.pivtau.toNat
    ++ leBytes 8 c.pivstat.toNat ++ leBytes 8 c.bprio.toNat ++ leBytes 8 c.estim
  slice f 0 0x348 ++ regs ++ slice f 0x380 (4096 - 0x380)
    ++ (c.log.drop 512).flatMap fun p => leBytes 8 p.pa ++ leBytes 8 p.val.toNat ++ leBytes 4 p.agent ++ leBytes 4 (p.rid % 4096) ++ leBytes 8 p.seq

/-- The Arbour writes a hart's continuation into a save area of its die's extension (R360, R407). -/
def State.writeSave (s : State) (h : HartId) (area : Option Nat) : State :=
  match area with
  | some n => s.put ((s.getDie (hartDie h)).slotAddr n) (s.hart h).saveBytes
  | none => s

/-- A continuation leaves its hart and is ready at the tail of its die's pool (R120, R387). -/
def State.shelve (s : State) (h : HartId) (area : Option Nat) : State :=
  let s := (s.flushHart h).writeSave h area
  let r := s.recOf h area
  (s.updDie (hartDie h) fun x => { x with pool := x.pool ++ [r] }).updHart h Hart.free

end Sys2Proof.Machine
end

