-- ==== Sys2Proof/Machine/SchedEvents.lean ====
section
/-!
DEFINITION. What the Belvedere and the Arbour do of their own accord: sweeps (R362, R367), inheritance (R370), launches taken and checked
(R207 to R211, R374), dispatch, switching out, the memory queue (R375 to R377, R437), pre-emption (R385 to R387, R406), budget periods
(R381, R382).
-/
namespace Sys2Proof.Machine

/-! ## The sweep (R362) -/

/-- Move one object's extension entries on chip, if they fit. -/
def State.moveOnChip (s : State) (d : Fin 6) (k : ObjKey) : State :=
  let x := s.getDie d
  let mine := x.wft.filter fun e => e.key == k && e.slot.isSome
  if mine.length ≤ x.chipFree then
    let s := mine.foldl (fun s e => s.put (x.slotAddr (e.slot.getD 0)) (leBytes 64 0)) s
    s.updDie d fun x => { x with wft := x.wft.map fun e => if e.key == k then { e with slot := none } else e }
  else s

/-- Insert by time, the oldest first. -/
def byTime (l : List WEntry) : List WEntry := Tbl.sortBy (fun a b => decide (a.time ≤ b.time)) l

/-- The hart waiter of a cycle that registered last, ties going to the lower agent id (R367). -/
def newestHart (path : List WEntry) : Option Nat :=
  (path.zipIdx.foldl (fun b x =>
    if !x.1.ofHart then b
    else match b with
      | none => some x
      | some (y : WEntry × Nat) => if y.1.time < x.1.time || (y.1.time == x.1.time && x.1.agent < y.1.agent) then some x else b)
    (none : Option (WEntry × Nat))).map (·.2)

/-- A sweep's search from one wait, as long as the table is (R362, R367). -/
def State.sweepWait (s : State) (e : WEntry) : State :=
  if !(s.waiters e.key).contains e then s
  else match s.findCycle e.party (s.allEntries.length + 1) e [] with
    | none => s
    | some path => match newestHart path with
      | some i => s.reportCycle path i 1
      | none => s.endCycle (path.foldl (fun b x => if b.time < x.time then x else b) e)

/-- Retry a registration that was left unmade (R361): a region task's, or a copy's. -/
def State.retry (s : State) (d : Fin 6) (e : WEntry) : State :=
  if e.agent / 2 ^ 29 == 1 then s.syncTask (e.agent % 2 ^ 29 / 2 ^ 26 * 2048 + e.agent % 2 ^ 26)
  else match (s.copiesOf d).find? fun c => copyParty c.id == e.party with
    | some c => (s.updDie d fun x => { x with unmade := x.unmade.filter fun y => !(y.party == e.party) }).registerTok c
    | none => s.updDie d fun x => { x with unmade := x.unmade.filter fun y => !(y.party == e.party) }

/-- BELVEDERE_SWEEP (R362). A barrier that lost a participant has been evaluated at the departure (R368). -/
def execBelvedereSweep (die : Fin 6) (s : State) : Ends :=
  let keys := ((byTime ((s.getDie die).wft.filter (·.slot.isSome))).map (·.key)).eraseDups
  let s := keys.foldl (fun s k => s.moveOnChip die k) s
  let s := ((s.getDie die).wft.filter (·.typ == .wait)).foldl State.sweepWait s
  .next ((((s.getDie die).unmade.foldl (fun s e => s.retry die e) s).reprio).roomFreed)

/-- INHERITANCE_UPDATE (R370). -/
def execInheritanceUpdate (s : State) : Ends := .next s.reprio

/-! ## Launch records (R206 to R211) -/

/-- A level entry: domain, scope, w, h, extent (R207). -/
abbrev Level := Nat × Nat × Nat × Nat × Nat

def levelsOf (r : List Byte) : List Level :=
  (List.range (fieldOf r 6 1)).map fun i =>
    (fieldOf r (64 + 8 * i) 1, fieldOf r (65 + 8 * i) 1, fieldOf r (66 + 8 * i) 1, fieldOf r (67 + 8 * i) 1, fieldOf r (68 + 8 * i) 4)

/-- How wide a domain is, the widest first, and its extent in those units (R208): six dies are one package. -/
def Level.rank (l : Level) : Nat × Nat :=
  match l.1 with
  | 7 => (5, 2304)
  | 6 => (5, l.2.2.2.2)
  | 5 => (5, l.2.2.2.2)
  | 4 => if l.2.2.2.2 == 6 then (5, 1) else (4, l.2.2.2.2)
  | 3 => (3, 0)
  | 2 => (2, 1)
  | _ => (1, 1)

/-- Whether an entry keeps R207 and R208 for itself. -/
def Level.ok (l : Level) : Bool :=
  let (d, sc, w, h, e) := l
  8 ≤ sc && sc ≤ 15 && (d == 3 || (w == 0 && h == 0)) && match d with
    | 1 => decide (1 ≤ e) && decide (e ≤ 64)
    | 2 => e == 1
    | 3 => decide (1 ≤ e) && decide (e ≤ 16)
    | 4 => decide (1 ≤ e) && decide (e ≤ 6)
    | 5 => decide (1 ≤ e) && decide (e ≤ 2304)
    | 6 => decide (1 ≤ e) && decide (e ≤ 2304)
    | 7 => e == 2304
    | _ => false

/-- Whether blocks of `e` units tile the blocks of `f` units over n units. -/
def tiles (n f e : Nat) : Bool := (List.range n).all fun p => p % f != 0 || p % e == 0

/-- Whether every instance of an entry lies inside one instance of the entry before it (R209). -/
def nested (a b : Level) : Bool :=
  let x := a.rank
  let y := b.rank
  let divides (m n : Nat) : Bool := m == 0 || (n != 0 && m % n == 0)
  if y.1 < x.1 then true
  else if x.1 < y.1 then false
  else match x.1 with
    | 5 => tiles 2304 x.2 y.2
    | 4 => tiles 6 x.2 y.2
    | 3 => divides a.2.2.1 b.2.2.1 && divides a.2.2.2.1 b.2.2.2.1
    | _ => true

def levelsOk (l : List Level) : Bool :=
  l.all Level.ok && (l.zip (l.drop 1)).all (fun x => nested x.1 x.2) && (l.map (·.2.1)).eraseDups.length == l.length

/-- The die a launch's root enters (R437). -/
def rootDie (w : Word) : Fin 6 := (allDies.find? fun d => w.toNat.testBit d.val).getD 0

/-- Whether the code pointer is executable in the ASID (R210). -/
def State.executable (s : State) (d : Fin 6) (asid : Nat) (va : Word) : Bool :=
  match (s.check d asid false .fetch va 4).2 with
  | .ok _ => true
  | .error _ => false

/-- The reason a record fails its checks (R210), 0 for none. -/
def State.recordFlaw (s : State) (d : Fin 6) (r : List Byte) : Nat :=
  let f := fieldOf r 1 1
  let asid := fieldOf r 2 2 % 1024
  let graph := word (fieldOf r 8 8)
  if fieldOf r 0 1 != 1 || 16 ≤ f || 1024 ≤ fieldOf r 2 2 || 16 ≤ fieldOf r 4 1 || !zeroSpan r 7 1 || !zeroSpan r 60 4 then 1
  else if !(s.valueAt (s.asidTab + asid * 16) 8).testBit 0 then 2
  else if fieldOf r 5 1 == 0 || 8 < fieldOf r 6 1 then 3
  else if !levelsOk (levelsOf r) || !zeroSpan r (64 + 8 * fieldOf r 6 1) (64 - 8 * fieldOf r 6 1) then 4
  else if fieldOf r 16 8 % 64 != 0 || (if f.testBit 0 then graph.toNat % 64 != 0 else graph.toNat % 4 != 0 || !s.executable d asid graph) then 5
  else if fieldOf r 32 8 % 64 != 0 then 6
  else 0

/-- The launch that a record makes (R206, R210). -/
def LReq.launch (q : LReq) (queue : Nat) : Launch :=
  let r := q.rec_
  let f := fieldOf r 1 1
  let p := fieldOf r 4 1 % 16
  { seq := word (fieldOf r 24 8), asid := fieldOf r 2 2 % 1024, prio := BitVec.ofNat 4 (min p q.prioCap), ptok := fieldOf r 5 1
    levels := levelsOf r, stat := word (fieldOf r 32 8), notify := f.testBit 1, host := q.host, nckpt := f.testBit 2, nkill := f.testBit 3
    clamp := decide (q.prioCap < p), queue := queue, budget := (List.range 5).map fun i => fieldOf r (40 + 4 * i) 4 }

/-- STOCHSEED of a root (R211). -/
def Launch.rootSeed (l : Launch) : Word := l.seq ^^^ word (l.asid * 2 ^ 48)

/-- Priority of a waiting record: lowered as it will be (R210). -/
def LReq.prio (q : LReq) : Nat := min (fieldOf q.rec_ 4 1 % 16) q.prioCap

/-- The queue whose head is taken next (R374): the highest priority, ties to the lower number. -/
def State.nextQueue (s : State) : Option (Nat × LReq) :=
  s.queues.foldl (fun b ((n, q) : Nat × LQueue) => match q.recs with
    | [] => b
    | r :: _ => match b with
      | none => some (n, r)
      | some (m, x) => if x.prio < r.prio then some (n, r) else some (m, x)) none

/-- LAUNCH_DEQUEUE (R374, R210, R211, R437): the root enters the pool, and never a memory queue. -/
def execLaunchDequeue (s : State) : Ends :=
  .next (match s.nextQueue with
    | none => s
    | some (q, r) =>
      let d := rootDie (s.queueWord q)
      if 1024 ≤ (s.launches.filter fun x => x.2.live).length then s
      else
        let s := { s with queues := Tbl.upd s.queues q {} fun x => { x with recs := x.recs.drop 1 } }
        let s := s.wakeAll (.queue q) none
        let n := s.nextLaunch
        let l := r.launch q
        let flaw := s.recordFlaw d r.rec_
        let add (s : State) (l : Launch) : State := { s with launches := Tbl.set s.launches n l, nextLaunch := n + 1 }
        if flaw != 0 then (add s l).completeLaunch n 1 flaw 0
        else if (fieldOf r.rec_ 1 1).testBit 0 then add s { l with walk := some { table := word (fieldOf r.rec_ 8 8) } }
        else
          let root : Rec := { uid := s.nextCont, launch := n, code := word (fieldOf r.rec_ 8 8), frame := word (fieldOf r.rec_ 16 8), join := 0
                              prio := l.prio, seed := l.rootSeed, node := false, time := s.cycle, saved := none }
          { (add s { l with conts := 1 }).updDie d fun x => { x with pool := x.pool ++ [root] } with nextCont := s.nextCont + 1 })

/-! ## Dispatch and switching out (R375 to R377) -/

/-- HART_DISPATCH (R375, R387, R437): an idle hart takes the newcomer that it was drained for, or the record that falls to it. -/
def execHartDispatch (h : HartId) (s : State) : Ends :=
  .next (if (s.hart h).run != .idle then s
    else match s.newcomer h with
      | some (d, r) => s.dispatch h d r
      | none => match s.pick h with
        | some ((d, r), t) => if s.taker d r == some h then t.dispatch h d r else s
        | none => s)

/-- Since when a hart's continuation has slept, if one sleeps there that may be switched out (R376, R407). -/
def State.asleep (s : State) (h : HartId) : Option Nat :=
  let x := s.hart h
  match x.run with
  | .waiting w =>
    if !x.hm && x.ctx.cont.launch != 0 && ((s.getDie (hartDie h)).extFind (saveSlots x.ctx)).isSome then some w.since else none
  | _ => none

/-- The sleeping hart a record takes (R376): asleep for 10 µs, of lowest priority, asleep longest, of the higher agent id. -/
def State.sleeperFor (s : State) (r : Rec) : Option HartId :=
  (allHarts.foldl (fun b h =>
    match s.asleep h with
    | none => b
    | some t =>
      if s.cycle < t + 25000 || !s.mayRun h r then b
      else
        let p := (s.hart h).eprio.toNat
        match b with
        | none => some (h, p, t)
        | some ((_, q, u) : HartId × Nat × Nat) => if p < q || (p == q && t ≤ u) then some (h, p, t) else b) none).map (·.1)

/-- A sleeping continuation leaves its hart (R376, R407): its entries say so, and its state lies in its save area. -/
def State.putToSleep (s : State) (h : HartId) : State :=
  let s := s.flushHart h
  let x := s.hart h
  let area := (s.getDie (hartDie h)).extFind (saveSlots x.ctx)
  let s := s.writeSave h area
  match x.run with
  | .waiting w =>
    let p : Party := ⟨hartAgent h, x.ctx.cont.uid⟩
    let keys := ((s.waitsOf p).map (·.key)).eraseDups
    let s := keys.foldl (fun s k => s.mapEntries k fun e => if e.typ == .wait && e.party.same p then { e with swout := true } else e) s
    let z : Sleeper := { ctx := { x.ctx with stores := [] }, wait := w, agent := hartAgent h, asid := x.asid.toNat, area := area.getD 0, pl := x.pl }
    ((s.updDie (hartDie h) fun d => { d with sleepers := d.sleepers ++ [z] }).updHart h Hart.free)
  | _ => s

/-- SWITCH_OUT (R376, R387): a victim of a drain that sleeps at once; another for a ready record that finds no idle hart. -/
def execSwitchOut (h : HartId) (s : State) : Ends :=
  .next (if (s.asleep h).isNone then s
    else if (s.hart h).drainFor.isSome then s.putToSleep h
    else match s.pick h with
      | some ((d, r), t) => if (s.taker d r).isNone && s.sleeperFor r == some h then (t.putToSleep h).dispatch h d r else s
      | none => s)

/-- MEMORY_QUEUE_PROMOTE (R377): the oldest record of a memory queue, into the reserve only when no record of the pool is ready. -/
def execMemoryQueuePromote (die : Fin 6) (s : State) : Ends :=
  let d := s.getDie die
  .next (match d.memq with
    | [] => s.wakeSpawners die
    | r :: rest =>
      if 256 < d.poolFree || (d.pool == [] && 0 < d.poolFree) then
        let s := match r.slot with
          | some n => s.put (d.slotAddr n) (leBytes 64 0)
          | none => s
        (s.updDie die fun x => { x with memq := rest, pool := x.pool ++ [{ r with slot := none }] }).wakeSpawners die
      else s)

/-! ## Pre-emption (R385 to R387, R406) -/

/-- The policies of R386. -/
inductive Policy where
  | none | drain | checkpoint | kill
  deriving DecidableEq, Repr

/-- The policy for a victim (R386): P, V, E, D, C; its marks; whether its save area can be had. -/
def policyOf (p v e d c : Nat) (ckpt restart room : Bool) : Policy :=
  if p ≤ v then .none
  else if e < d then .drain
  else if ckpt && c < e then (if room then .checkpoint else .none)
  else if restart then .kill
  else .none

/-- The least of candidates by effective priority, ties to the latest, then to the higher agent id (R385). -/
def leastOf {α : Type} (key : α → Nat × Nat × Nat) (l : List α) : Option α :=
  l.foldl (fun b x => match b with
    | .none => some x
    | some y =>
      let (p, t, a) := key x
      let (q, u, c) := key y
      if p < q || (p == q && (u < t || (u == t && c < a))) then some x else b) Option.none

/-- Pre-emption for a ready record (R385, R387). A checkpointed victim enters the pool beyond its reserve, or takes the newcomer's place
in it (R377). -/
def State.preemptFor (s : State) (d : Fin 6) (r : Rec) : State :=
  let p := s.recPrio r
  let allowed := allHarts.filter fun h => s.mayRun h r
  if (s.taker d r).isSome || (s.sleeperFor r).isSome || allowed.any (fun h => (s.hart h).drainFor == some r.uid) then s
  else
    let cands := allowed.filter fun h =>
      let x := s.hart h
      x.run == .running && !x.hm && x.ctx.cont.launch != 0 && x.drainFor.isNone && decide (x.eprio.toNat < p)
    match leastOf (fun h => ((s.hart h).eprio.toNat, (s.hart h).dispatchedAt, hartAgent h)) cands with
    | none => s
    | some h =>
      let x := s.hart h
      let die := s.getDie (hartDie h)
      match policyOf p x.eprio.toNat x.ctx.estim die.pdrain.toNat (512 + 2 * x.ctx.log.length) true true
          ((die.extFind (saveSlots x.ctx)).isSome && (256 < die.poolFree || d == hartDie h)) with
      | .none => s
      | .drain => s.updHart h fun y =>
          { y with drainFor := some r.uid, ctx := { y.ctx with pend := y.ctx.pend ++ [⟨.preempt, 0, 0, word p, [], none⟩] } }
      | .checkpoint => (s.shelve h (die.extFind (saveSlots x.ctx))).dispatch h d r
      | .kill =>
        let l := x.ctx.cont.launch
        ((s.killOn h).settleLaunch l).dispatch h d r

/-- The tasks current on tiles that an armed task waits for (R217, R385). -/
def State.inTheWay (s : State) (t : TaskId) : List TaskId :=
  let k := s.task t
  (((tilesOf t k.w1 k.h1).filterMap fun tile =>
    let cur := s.curCtx (taskDie t).val tile
    if cur == (taskCtx t).val then none else s.ownerOf (taskDie t).val tile cur).eraseDups).filter fun u =>
      [TaskState.running, .parked, .checkpointing].contains (s.task u).state

/-- Pre-emption for an armed task (R385, R387): a victim that parks is checkpointed as it stands, and one that is being checkpointed only
gives up its tiles. -/
def State.preemptTask (s : State) (t : TaskId) : State :=
  let k := s.task t
  let p := k.eprio.toNat
  let way := s.inTheWay t
  if k.state != .running || s.isCurrent t || way.any (fun u => (s.task u).handTo == some t) then s
  else
    match leastOf (fun u => ((s.task u).eprio.toNat, (s.task u).armedAt, taskAgent u))
        (way.filter fun u => decide ((s.task u).eprio.toNat < p) && (s.task u).handTo.isNone) with
    | none => s
    | some u =>
      let v := s.task u
      let die := s.getDie (taskDie u)
      let slots := (s.imageSize u + 63) / 64
      let owe (n : Nat) : State := s.updTask u fun v => { v with owed := n, handTo := some t }
      let room := (die.extFind slots).isSome
      if v.state == .checkpointing then s.updTask u fun v => { v with handTo := some t }
      else match policyOf p v.eprio.toNat v.estim die.pdrain.toNat (2048 + slots) v.ckpt v.restartable room with
      | .none => s
      | .drain => if v.state == .parked && room then ((owe 2).checkpointTask u none).syncTask u else ((owe 1).drainTask u).syncTask u
      | .checkpoint => ((owe 2).checkpointTask u none).syncTask u
      | .kill => ((owe 3).killTask u).handOver u |>.afterTask u

/-- PREEMPTION_EVALUATION (R385, R386). -/
def execPreemptionEvaluation (n : Newcomer) (s : State) : Ends :=
  .next (match n with
    | .record d i => match (s.getDie d).pool[i]? with
      | some r => s.preemptFor d r
      | none => s
    | .task t => s.preemptTask t)

/-- Bring a task back from its save area (R387, R407, R408). -/
def State.recall (s : State) (t : TaskId) : State :=
  let k := s.task t
  match k.saved.bind fun i => (Tbl.find? s.images i).map fun x => (i, x) with
  | none => s
  | some (i, x) =>
    let l := imageAfter i x (s.imageBodies t x)
    let s := (s.restoreImage ⟨t, k.w1, k.h1⟩ x l).updDie (taskDie t) fun d => { d with taskSaves := Tbl.erase d.taskSaves t }
    ({ s with images := Tbl.erase s.images i }.updTask t fun k => { k with state := .loaded, saved := none, rows := imageRows x l }).wakeSpawners
      (taskDie t)

/-- TASK_REARM (R387): the Arbour gives a pre-empted task its tiles again. -/
def execTaskRearm (t : TaskId) (s : State) : Ends :=
  let k := s.task t
  let ready := (k.owed == 1 && k.state == .drained) || (k.owed == 2 && k.state == .checkpointed) || (k.owed == 3 && k.state == .killed)
  let free := (tilesOf t k.w1 k.h1).all fun tile => match s.ownerOf (taskDie t).val tile (s.curCtx (taskDie t).val tile) with
    | some u => u == t || !([TaskState.running, .parked, .draining, .checkpointing].contains (s.task u).state)
    | none => true
  .next (if ready && free && (k.launch == 0 || (s.launch k.launch).live) then
      let s := if k.owed == 2 then s.recall t else s
      let s := (s.rearm t 0 (k.owed == 1)).setCurrent t (taskCtx t).val
      ((s.wakePorts t).syncTask t).reprio
    else s)

/-! ## Periods (R381, R382) -/

/-- What a new period begins with (R382): the excess over the budget, up to one budget. -/
def Launch.renew (l : Launch) : Launch :=
  { l with period := (List.range 5).map fun k =>
      let b := l.budget.getD k 0 * budgetUnit k
      if b == 0 then 0 else min b (l.period.getD k 0 - b) }

/-- PERIOD_START (R381): the next period that the cycle count has reached begins, and what a throttle of applies held goes on. -/
def execPeriodStart (s : State) : Ends :=
  .next (if s.period < s.cycle / 25000 then
    let s := { s with period := s.period + 1, launches := s.launches.map fun ((n, l) : Nat × Launch) => (n, l.renew) }
    allDies.foldl (fun s d => s.wakeAll (.parterre d.val) none) s
  else s)

end Sys2Proof.Machine
end

