-- ==== Sys2Proof/Machine/GraphEvents.lean ====
section
/-!
DEFINITION. The walk of a task graph (R378 to R380): each node type is one step of the Arbour.
-/
namespace Sys2Proof.Machine

/-- A node's bytes, read as a load of the launch's ASID. -/
def State.readNode (s : State) (l : Nat) (w : Walk) : State × Except DevFault (List Byte) :=
  s.devLoad (rootDie (s.queueWord (s.launch l).queue)) (s.launch l).asid false .remote 0 (w.table + word (32 * w.node)) 32

/-- Whether a node breaks its layout (R378, R380). -/
def nodeBad (b : List Byte) : Bool :=
  let t := fieldOf b 0 1
  let n := fieldOf b 1 1
  4 < t || !zeroSpan b 6 2 || !zeroSpan b 24 8 || (if t == 4 then n == 0 || 8 < n else n != 0) || (t == 1 && fieldOf b 16 8 % 64 != 0)

/-- The walk faults (R380): the launch completes with state 2 and agent 0. -/
def State.walkFault (s : State) (l : Nat) (c : Cause) : State := s.faultLaunch l c 0

def State.updWalk (s : State) (l : Nat) (f : Walk → Walk) : State := s.updLaunch l fun x => { x with walk := x.walk.map f }

/-- Go to a node, through a next field or otherwise. -/
def State.goNode (s : State) (l node : Nat) (next : Bool) : State :=
  s.updWalk l fun w => { w with node := node, viaNext := next, ran := false, out := false }

/-- A step at the walk's current node, if it has the type: its bytes are read and checked first. -/
def State.atNode (s : State) (l typ : Nat) (f : State → Walk → List Byte → State) : State :=
  match (s.launch l).walk with
  | none => s
  | some w =>
    if w.ran || !(s.launch l).live then (if typ == 1 && w.ran && !w.out then f s w [] else s)
    else match s.readNode l w with
      | (t, .error e) => t.walkFault l e.1
      | (t, .ok b) => if nodeBad b then t.walkFault l .illegal else if fieldOf b 0 1 == typ then f t w b else s

/-- LoadAcquire of the word at addr (R379), or the fault of the walk. -/
def State.nodeWord (s : State) (l : Nat) (b : List Byte) (f : State → Nat → State) : State :=
  let va := word (fieldOf b 8 8)
  if va.toNat % 8 != 0 then s.walkFault l .misalign
  else match s.devLoad (rootDie (s.queueWord (s.launch l).queue)) (s.launch l).asid false .remote 0 va 8 with
    | (t, .error e) => t.walkFault l e.1
    | (t, .ok x) => f t (leValue x)

def nextOf (b : List Byte) : Nat := fieldOf b 2 2
def altOf (b : List Byte) : Nat := fieldOf b 4 2

/-- GRAPH_END (R379). -/
def execGraphEnd (l : Nat) (s : State) : Ends :=
  .next (s.atNode l 0 fun s _ _ => (s.updLaunch l fun x => { x with walk := none }).settleLaunch l)

/-- GRAPH_RUN (R379): the code is spawned; when it has joined, the walk goes to next. -/
def execGraphRun (l : Nat) (s : State) : Ends :=
  .next (s.atNode l 1 fun s w b =>
    let x := s.launch l
    if w.ran then s.goNode l w.after true
    else
      let code := word (fieldOf b 8 8)
      let d := rootDie (s.queueWord x.queue)
      if code.toNat % 4 != 0 then s.walkFault l .misalign
      else if !(s.getDie d).spawnRoom then s
      else
        let r : Rec := { uid := s.nextCont, launch := l, code := code, frame := word (fieldOf b 16 8), join := 0, prio := x.prio
                         seed := x.rootSeed, node := true, time := s.cycle, saved := none }
        let s := { s.enterRecord d r with nextCont := s.nextCont + 1 }
        s.updLaunch l fun x => { x with conts := x.conts + 1, walk := x.walk.map fun w => { w with ran := true, out := true, after := nextOf b } })

/-- GRAPH_IF (R379). -/
def execGraphIf (l : Nat) (s : State) : Ends :=
  .next (s.atNode l 2 fun s _ b => s.nodeWord l b fun s v => if v != 0 then s.goNode l (nextOf b) true else s.goNode l (altOf b) false)

/-- GRAPH_LOOP (R379): entered through a next field while its counter is held, it counts on; otherwise it loads the counter. -/
def execGraphLoop (l : Nat) (s : State) : Ends :=
  .next (s.atNode l 3 fun s w b =>
    let held := w.counters.find? (·.1 == w.node)
    let others := w.counters.filter (·.1 != w.node)
    let go (s : State) (c : Nat) : State :=
      if 0 < c then
        if 8 ≤ others.length then s.walkFault l .illegal
        else (s.updWalk l fun w => { w with counters := others ++ [(w.node, c - 1)] }).goNode l (altOf b) false
      else (s.updWalk l fun w => { w with counters := others }).goNode l (nextOf b) true
    match held with
    | some (_, c) => if w.viaNext then go s c else s.nodeWord l b go
    | none => s.nodeWord l b go)

/-- GRAPH_SWITCH (R379). -/
def execGraphSwitch (l : Nat) (s : State) : Ends :=
  .next (s.atNode l 4 fun s _ b => s.nodeWord l b fun s v =>
    if v < fieldOf b 1 1 then s.goNode l (fieldOf b (16 + 2 * v) 2) false else s.goNode l (nextOf b) true)

end Sys2Proof.Machine
end

