-- ==== Sys2Proof/Machine/LinkEvents.lean ====
section
/-!
DEFINITION. Links (R424 to R428): flits, what an end sends and does with each flit it receives, audits, retraining, and a link that goes
down. Ports 0 to 23 are Pergola ports; 24 to 30 are the package's seven die-to-die edges (R2), and no other number names a link.
-/
namespace Sys2Proof.Machine

/-! ## Flits (R424) -/

/-- The first 252 bytes of a flit. -/
def Flit.head (f : Flit) : List Byte :=
  leBytes 2 f.seq.toNat ++ leBytes 2 f.ack.toNat ++ leBytes 4 f.free.toNat ++ leBytes 1 f.kind.toNat ++ leBytes 3 0 ++ slice f.payload 0 240

/-- The 256 bytes of a flit, its CRC last. -/
def Flit.bits (f : Flit) : FlitBits := BitVec.ofNat 2048 (leValue (f.head ++ leBytes 4 (crc32 f.head)))

/-- The fields of the bytes that arrive. -/
def flitOf (b : FlitBits) : Flit :=
  { seq := b.extractLsb' 0 16, ack := b.extractLsb' 16 16, free := b.extractLsb' 32 32, kind := b.extractLsb' 64 8
    payload := leBytes 240 (b.extractLsb' 96 1920).toNat }

/-- Whether the CRC of the bytes that arrive holds. -/
def flitOk (b : FlitBits) : Bool := crc32 (leBytes 252 b.toNat) == (b.extractLsb' 2016 32).toNat

/-! ## An end of a link -/

def State.link (s : State) (p : Nat) : Link := Tbl.getD s.links p {}
def State.updLink (s : State) (p : Nat) (f : Link → Link) : State := { s with links := Tbl.upd s.links p {} f }

/-- A flit of this end, with its ACK and FREE. -/
def Link.flit (l : Link) (kind : Nat) (seq : BitVec 16) (payload : List Byte := []) : Flit :=
  { seq := seq, ack := l.rxSeq - 1, free := l.freed, kind := BitVec.ofNat 8 kind, payload := payload }

/-- Send a flit outside the sequence, or in it, held until an ACK covers it (R424). -/
def Link.send (l : Link) (f : Flit) : Link := { l with wire := l.wire ++ [f] }
def Link.sendHeld (l : Link) (kind : Nat) (payload : List Byte) : Link :=
  let f := l.flit kind l.txSeq payload
  { l.send f with txSeq := l.txSeq + 1, replay := l.replay ++ [f] }

/-- 256 + F − S, compared modulo 2^32 (R425). -/
def Link.credit (l : Link) : Int := (256#32 + l.freeSeen - l.sent).toInt

/-- A sequence number at or before another, modulo 2^16. -/
def seqLe (a b : BitVec 16) : Bool := (b - a).toNat < 2 ^ 15

/-- FREE only rises, compared modulo 2^32 (R425). -/
def Link.freeTo (l : Link) (free : BitVec 32) : Link := { l with freeSeen := if (free - l.freeSeen).toNat < 2 ^ 31 then free else l.freeSeen }

/-- With every flit acknowledged a quiesced end goes on, F at the freed count that a report gave (R426). -/
def Link.settled (l : Link) : Link :=
  if l.replay == [] then { l with quiesced := false, freeSeen := l.report.getD l.freeSeen, report := none } else l

/-- ACK covers flits up to its number (R424). -/
def Link.heed (l : Link) (f : Flit) : Link := ({ l with replay := l.replay.filter fun x => !seqLe x.seq f.ack }.freeTo f.free).settled

/-- Discard a flit, and ask for the expected one (R424). -/
def Link.refuse (l : Link) : Link := l.send { l.flit 3 0 with ack := l.rxSeq }

/-- Whether an end takes flits at all. -/
def Link.up (l : Link) : Bool := !l.down && l.retraining.isNone

/-- Whether a number names a link of the package that takes flits (R2). -/
def State.linkUp (s : State) (p : Nat) : Bool := decide (p < 31) && (s.link p).up

/-- Send again every held flit from a number on (R424, R427). -/
def Link.replayFrom (l : Link) (seq : BitVec 16) : Link :=
  let held := l.replay.filter fun x => seqLe seq x.seq
  { l with replay := held, wire := l.wire ++ held }

/-- Take a sequenced flit in order, or discard it (R424). -/
def Link.sequenced (l : Link) (b : FlitBits) (take : Link → Link) : Link :=
  if !flitOk b || (flitOf b).seq != l.rxSeq then l.refuse
  else take ({ l with rxSeq := l.rxSeq + 1, naks := 0 }.heed (flitOf b))

/-- An end sends a data flit, while its credit is positive and its replay buffer of 512 has room, or only acknowledges; one that is quiesced
sends no data (R424 to R426). -/
def State.transmit (s : State) (port : Nat) (payload : Option (List Byte)) : State :=
  if !s.linkUp port then s
  else s.updLink port fun l => match payload with
    | none => l.send (l.flit 1 0)
    | some d => if l.quiesced || 512 ≤ l.replay.length || l.credit ≤ 0 then l else { l.sendHeld 0 d with sent := l.sent + 1 }

/-! ## Flits that arrive -/

/-- DATA_FLIT (R424, R425): accepted into one of 256 slots; how many slots the receiver has freed by then is left open. -/
def execDataFlit (port : Nat) (f : FlitBits) (s : State) : Ends :=
  let l := s.link port
  .next (if !s.linkUp port || (flitOf f).kind != 0 then s
    else if 256 ≤ l.occupancy then s.updLink port Link.refuse
    else
      let x := s.fresh
      let l := l.sequenced f fun l =>
        let k := Config.freeChoice x.1 % (l.occupancy + 2)
        { l with received := l.received + 1, occupancy := l.occupancy + 1 - k, freed := l.freed + BitVec.ofNat 32 k }
      x.2.updLink port fun _ => l)

/-- ACKNOWLEDGE_FLIT (R424, R425). -/
def execAcknowledgeFlit (port : Nat) (f : FlitBits) (s : State) : Ends :=
  .next (if !s.linkUp port || (flitOf f).kind != 1 then s
    else s.updLink port fun l => if flitOk f then { l with naks := 0 }.heed (flitOf f) else l.refuse)

/-- NEGATIVE_ACKNOWLEDGE (R424, R427): the sender replays from the expected SEQ; the eighth in a row starts a retrain. -/
def execNegativeAcknowledge (port : Nat) (f : FlitBits) (s : State) : Ends :=
  .next (if !s.linkUp port || (flitOf f).kind != 3 then s
    else s.updLink port fun l =>
      if !flitOk f then l.refuse
      else
        let l := { l with naks := l.naks + 1 }.freeTo (flitOf f).free
        if 8 ≤ l.naks then { l with retraining := some s.cycle } else (l.replayFrom (flitOf f).ack).settled)

/-- AUDIT_TIMER (R426): every 250,000 cycles a sender sends S, in the sequenced order. -/
def execAuditTimer (port : Nat) (s : State) : Ends :=
  .next (let l := s.link port
    if !s.linkUp port || 512 ≤ l.replay.length || s.cycle < l.audited + 250000 then s
    else s.updLink port fun l => { l.sendHeld 2 (leBytes 4 l.sent.toNat) with audited := s.cycle })

/-- The counts of an end against an audit (R426): where they differ it quiesces, and reports its occupancy and its freed count. -/
def Link.audit (l : Link) (sent : BitVec 32) : Link :=
  if sent != l.received || l.received - l.freed != BitVec.ofNat 32 l.occupancy then
    { l with quiesced := l.replay != [] }.send (l.flit 1 0 (leBytes 4 l.occupancy ++ leBytes 4 l.freed.toNat))
  else l

/-- AUDIT_FLIT (R426). -/
def execAuditFlit (port : Nat) (f : FlitBits) (s : State) : Ends :=
  .next (if !s.linkUp port || (flitOf f).kind != 2 then s
    else s.updLink port fun l => l.sequenced f fun l => l.audit (BitVec.ofNat 32 (fieldOf (flitOf f).payload 0 4)))

/-- OCCUPANCY_REPORT (R426): the sender stops, and sets F to the reported freed count once every flit is acknowledged. -/
def execOccupancyReport (port occ freed : Nat) (s : State) : Ends :=
  .next (if !s.linkUp port || 256 < occ then s
    else s.updLink port fun l => { l with quiesced := true, report := some (BitVec.ofNat 32 freed) }.settled)

/-! ## Retraining -/

/-- LINK_RETRAIN (R427): the link begins to retrain; every count is kept. -/
def execLinkRetrain (port : Nat) (s : State) : Ends :=
  .next (if s.linkUp port then s.updLink port fun l => { l with retraining := some s.cycle } else s)

/-- LINK_RETRAIN_COMPLETE (R427): within 2 ms; this end sends its next expected SEQ and its FREE. -/
def execLinkRetrainComplete (port : Nat) (s : State) : Ends :=
  .next (match (s.link port).retraining with
    | some t =>
      if (s.link port).down || t + 5000000 < s.cycle then s
      else s.updLink port fun l => { l with retraining := none, naks := 0 }.send { l.flit 4 0 with ack := l.rxSeq }
    | none => s)

/-- RESYNC_FLIT (R427): the sender replays from the SEQ that the other end expects. -/
def execResyncFlit (port : Nat) (f : FlitBits) (s : State) : Ends :=
  .next (if !s.linkUp port || (flitOf f).kind != 4 then s
    else s.updLink port fun l => if flitOk f then ((l.replayFrom (flitOf f).ack).freeTo (flitOf f).free).settled else l.refuse)

/-- The copies with an access that a link carries. -/
def State.copiesThrough (s : State) (port : Nat) : List CopyId :=
  (allDies.flatMap s.copiesOf).filterMap fun c =>
    let d := copyDie c.id
    if [c.blk.source, c.blk.dest].any fun va => match s.peekVa d c.asid va.toNat with
      | .ok e => s.carries port d (e.addrFor d va.toNat)
      | .error _ => false
    then some c.id else none

/-- What was on its way to addresses that nothing reaches any more is lost (R304, R427): a hart's stores, each of which then raises a trap,
and the writes of a commit, whose memory node takes STREAMPROTO. The rows of a copy fail as they land. -/
def State.loseWrites (s : State) (lost : Fin 6 → Nat → Bool) (trap : Word → Nat → PendTrap) : State :=
  let hits (h : HartId) := (s.hart h).ctx.stores.filter fun f => f.pas.any (lost (hartDie h))
  let castsOf (h : HartId) := s.casts.filter fun c => c.agent == hartAgent h && c.pas.any (lost (hartDie h))
  let s := (allHarts.filter fun h => !(hits h).isEmpty || !(castsOf h).isEmpty).foldl (fun s h =>
    let gone (q : Nat) : Bool := lost (hartDie h) q
    s.updHart h fun x => { x with ctx := { x.ctx with
      stores := x.ctx.stores.filterMap fun f =>
        if f.pas.any gone then (if f.pas.all gone then none else some { f with pas := f.pas.filter fun q => !gone q }) else some f
      pend := x.ctx.pend ++ ((castsOf h).map fun c => trap c.va (c.pas.headD 0)) ++ (hits h).map fun f => trap f.va (f.pas.headD 0) } }) s
  let gone (c : Cast) (q : Nat) : Bool := lost ⟨agentDie c.agent % 6, by omega⟩ q
  let nodes := s.casts.filter fun c => c.cls == WClass.node.code && c.pas.any (gone c)
  let s := { s with casts := s.casts.filterMap fun c =>
    let left := c.pas.filter fun q => !gone c q
    if left == [] then none else some { c with pas := left } }
  nodes.foldl (fun s c =>
    let t : TaskId := agentDie c.agent * 2048 + c.agent % 2 ^ 26
    if (s.task t).killable then ((s.faultTask t .streamproto c.unit).syncTask t).settleLaunch (s.task t).launch else s) s

/-- LINK_DOWN (R427, R428, R429): a retrain of more than 2 ms. The held flits are discarded, and copies through the link fail with FAIL 4;
a die-to-die edge ends every active launch. -/
def execLinkDown (port : Nat) (s : State) : Ends :=
  .next (match (s.link port).retraining with
    | some t =>
      if (s.link port).down || s.cycle ≤ t + 5000000 then s
      else
        let s := s.updLink port fun l => { l with down := true, retraining := none, replay := [], wire := [], report := none, near := false, far := false }
        let s := s.loseWrites (fun d q => s.carries port d q) fun va q => ⟨.link, 0, va, word (pkgOf q), [], none⟩
        let s := (s.copiesThrough port).foldl (fun s c => s.failCopy c 4) s
        if port < 24 then s else (s.launches.filter fun x => x.2.live).foldl (fun s x => s.endLaunch x.1 2 Cause.link.code 0) s
    | none => s)

end Sys2Proof.Machine
end

