-- ==== Sys2Proof/Machine/Scalar.lean ====
section
/-!
DEFINITION. Scalar loads and stores, majors 0x0B to 0x10 (R40 to R45), transfers, hardware loops, repeats and the jump table,
majors 0x11 to 0x18 (R46 to R56).
-/
namespace Sys2Proof.Machine

/-- The bytes of a store size (R16, R40). -/
def StBytes : StSize → Nat
  | .b1 => 1
  | .b2 => 2
  | .b4 => 4
  | .b8 => 8

/-- The address of LD and ST: base plus the offset times the size (R40). -/
def offsetAddr (base : Word) (o : BitVec 11) (n : Nat) : Word := base + o.signExtend 64 * word n

/-- The address of LDX and STX: base plus the index times the size (R40). -/
def indexAddr (base idx : Word) (n : Nat) : Word := base + idx * word n

/-- A load into s(d) (R41): its value now, or later when the turn lets loads return late (R403). -/
def loadInto (w : BitVec 32) (d : SReg) (z : LdSize) (va : Word) : M Unit := do
  if (← get).me.late then
    let a ← checkM .load va (LdBytes z) (LdBytes z)
    doS fun s => (s.updCtx fun c => { c with replay := c.replay ++ [⟨c.pc, w, false, va, 0, some (a.pa, a.cached)⟩] }).traceEvent 3 (LdBytes z) va.toNat
  else
    wrM d (extendLoad z (← loadM va (LdBytes z)))

/-- The word of an instruction. -/
def wordOf (i : Instr) : BitVec 32 := BitVec.ofNat 32 ((encode i).getD 0)

/-- LD (R40, R41). -/
def execLd (d a : SReg) (z : LdSize) (o : BitVec 11) (s : State) : Ends :=
  ends s (loadInto (wordOf (.ld d a z o)) d z (offsetAddr (s.rd a) o (LdBytes z)))

/-- ST (R40, R41). -/
def execSt (d a : SReg) (z : StSize) (o : BitVec 11) (s : State) : Ends :=
  ends s (storeM (offsetAddr (s.rd a) o (StBytes z)) (StBytes z) (s.rd d).toNat)

/-- LDX (R40, R41). -/
def execLdx (d a b : SReg) (z : LdSize) (s : State) : Ends :=
  ends s (loadInto (wordOf (.ldx d a b z)) d z (indexAddr (s.rd a) (s.rd b) (LdBytes z)))

/-- STX (R40, R41). -/
def execStx (d a b : SReg) (z : StSize) (s : State) : Ends :=
  ends s (storeM (indexAddr (s.rd a) (s.rd b) (StBytes z)) (StBytes z) (s.rd d).toNat)

/-- PFCH (R45): no effect a program can see, and no trap; the line enters L1 when nothing stands against it. -/
def execPfch (a : SReg) (i : BitVec 14) (s : State) : Ends :=
  let va := s.rd a + sx14 i
  .next (match s.check s.die s.me.asid.toNat s.me.pl .load va 1 with
    | (t, .ok x) =>
      if x.cached && !t.broken x.pa then (t.fillL1 (hartCore t.cur) (x.pa / 64) (lineOf (t.bytesAt (x.pa / 64 * 64) 64))).complete
      else s.complete
    | _ => s.complete)

/-! ## Branches, jumps and calls -/

/-- The tests of BR (R13). -/
def Cond.holds (c : Cond) (x : Word) : Bool :=
  match c with
  | .eqz => x == 0
  | .nez => x != 0
  | .ltz => x.msb
  | .gez => !x.msb
  | .gtz => !x.msb && x != 0
  | .lez => x.msb || x == 0
  | .bit0 => x.toNat.testBit 0

/-- A transfer by a signed number of words (R12, R46). -/
def State.jumpBy (s : State) (words : Word) : State := (s.jump (s.pc + 4#64 * words)).updCtx fun c => { c with grant := none }

/-- BR (R13, R46). -/
def execBr (a : SReg) (c : Cond) (o : BitVec 17) (s : State) : Ends :=
  .next (if Cond.holds c (s.rd a) then s.jumpBy (o.signExtend 64) else s.complete)

/-- JMP (R46). -/
def execJmp (o : BitVec 26) (s : State) : Ends := .next (s.jumpBy (o.signExtend 64))

/-- CALL (R46): the link is s62. -/
def execCall (o : BitVec 26) (s : State) : Ends := .next ((s.wr 62 (s.pc + 4)).jumpBy (o.signExtend 64))

/-- JR (R47). -/
def execJr (a : SReg) (s : State) : Ends := ends s do
  let t := s.rd a
  alignedTarget t
  jumpM t

/-- CALLR (R47): the target is read before the link is written. -/
def execCallr (a : SReg) (s : State) : Ends := ends s do
  let t := s.rd a
  alignedTarget t
  wrM 62 (s.pc + 4)
  jumpM t

/-- RET (R47). -/
def execRet (s : State) : Ends := ends s do
  let t := s.rd 62
  alignedTarget t
  jumpM t

/-! ## Hardware loops -/

/-- Arm loop c with n trips over len words, or skip the body when n is 0 (R48). -/
def Ctx.armLoop (x : Ctx) (c : Fin 2) (n : Word) (len : Nat) : Ctx :=
  let body : HwLoop := ⟨x.pc + 4, x.pc + word (4 * len), true⟩
  if n = 0 then
    let x := { x with pc := x.pc + 4 + word (4 * len), grant := none }
    if c = 0 then { x with lc0 := 0, loop0 := { x.loop0 with active := false } }
    else { x with lc1 := 0, loop1 := { x.loop1 with active := false } }
  else if c = 0 then { x with lc0 := n, loop0 := body, last1 := false, pc := x.pc + 4, grant := none }
  else { x with lc1 := n, loop1 := body, last1 := true, pc := x.pc + 4, grant := none }

/-- LOOP and LOOPI: ILLEGAL at the end address of an active loop (R51). -/
def armM (c : Fin 2) (n : Word) (len : Nat) : M Unit := do
  demand (!(← get).ctx.atLoopEnd) .illegal
  doS fun s => s.updCtx fun x => x.armLoop c n len
  throw .done

/-- LOOP (R48). -/
def execLoop (c : Fin 2) (a : SReg) (l : BitVec 9) (s : State) : Ends := ends s (armM c (s.rd a) l.toNat)

/-- LOOPI (R48). -/
def execLoopi (c : Fin 2) (n : BitVec 15) (l : BitVec 9) (s : State) : Ends := ends s (armM c (n.zeroExtend 64) l.toNat)

/-! ## Repeat -/

/-- The trap of a fetch that failed (R35): the structure code for ECC, the package for LINK (R398). -/
def fetchTrap (c : Cause) (va : Word) (k : Nat) (at_ : Option Word) : PendTrap :=
  ⟨c, if c == .link || c == .ecc then 0 else k, va, if c == .ecc || c == .link then word k else 0, [], at_⟩

/-- Whether a word may not be repeated (R53): majors 0x11 to 0x18, major 0x3A, EXIT and YIELD. -/
def barred (w : Nat) : Bool :=
  let op := bits w 26 6
  (0x11 ≤ op && op ≤ 0x18) || op == 0x3A || (op == 0x36 && (bits w 0 8 == 2 || bits w 0 8 == 3))

/-- REP and REPI (R51, R52): the next word becomes the repeated instruction. -/
def repeatM (d : SReg) (n : Word) : M Unit := do
  let s ← get
  demand (!s.ctx.atLoopEnd) .illegal
  let t := s.pc + 4
  if n = 0 then
    doS fun s => (s.setPc (t + 4)).updCtx fun c => { c with grant := none }
    throw .done
  else
    match s.fetch s.cur t with
    | (s, .error (c, k)) => set s; throw (.trap (fetchTrap c t k (some t)))
    | (s, .ok w) =>
      set s
      if barred w.toNat || (decodeControl w.toNat).toOption.isNone then throw (.trap ⟨.illegal, 0, 0, 0, [], some t⟩)
      else
        doS fun s => s.updCtx fun c => { c with pc := t, rep := ⟨true, 0, n, d, t, w⟩, grant := none }
        throw .done

/-- REP (R52). -/
def execRep (d a : SReg) (s : State) : Ends := ends s (repeatM d (s.rd a))

/-- REPI (R52). -/
def execRepi (d : SReg) (n : BitVec 12) (s : State) : Ends := ends s (repeatM d (n.zeroExtend 64))

/-! ## Jump table -/

/-- Bounds strictly ascending (R55). -/
def ascending : List Nat → Bool
  | a :: b :: t => decide (a < b) && ascending (b :: t)
  | _ => true

/-- JTAB (R55, R56): the whole table is read through the instruction path, then the least bucket that holds the count. -/
def execJtab (d a : SReg) (i : BitVec 14) (s : State) : Ends := ends s do
  let t := s.pc + 4#64 * sx14 i
  let c := (s.rd a).toNat
  let hd ← readRecordM .fetch t 8
  let n := fieldOf hd 0 4
  demand (1 ≤ n && n ≤ 64) .illegal
  let body ← readRecordM .fetch (t + 8) (8 * n)
  let bounds := (List.range n).map fun k => fieldOf body (8 * k) 4
  demand (fieldOf hd 4 4 == 0 && ascending bounds) .illegal
  match bounds.findIdx? (c ≤ ·) with
  | some k =>
    wrM d (word (bounds.getD k 0))
    jumpM (t + 4#64 * (BitVec.ofNat 32 (fieldOf body (8 * k + 4) 4)).signExtend 64)
  | none => wrM d (word c)

/-! ## Words that decode to nothing, and fetches that fail -/

/-- ILLEGAL_INSTRUCTION (R15, R58): no effect but the trap. -/
def execIllegalInstruction (_w : BitVec 32) (s : State) : Ends := ends s (trapM .illegal)

/-- INSTRUCTION_FETCH_FAULT (R35): the pc's own address is the faulting one. -/
def execInstructionFetchFault (c : Cause) (va : BitVec 64) (detail : Nat) (s : State) : Ends :=
  ends s (throw (.trap (fetchTrap c va detail none)))

end Sys2Proof.Machine
end

