-- ==== Sys2Proof/Machine/SysOps.lean ====
section
/-!
DEFINITION. System registers (R128 to R130) with the checks of HASHPC (R302), UBINTHRESH (R346) and the extension (R360); XLINV
(R131); traps by instruction and TRET (R132, R133, R404, R405); trace and watchpoints (R134, R135).
-/
namespace Sys2Proof.Machine

/-! ## Fields (R6, R129) -/

/-- The register's fields of access RW, as a mask. -/
def SysRw (r : SysReg) : Word :=
  match r with
  | .status | .agentid | .pivstat => 0
  | .trapcause => 0xFFFFF#64
  | .trapframe => ~~~0x1FFF#64
  | .trapvec | .machvec => ~~~3#64
  | .fpstat => 0x3F00#64
  | .round => 7#64
  | .pivtau => 0xFFFFFFFF#64
  | .asid => 0x3FF#64
  | .pdrain => 0xFFFFFFFFFF#64
  | .hashch0 | .hashch1 | .hashch2 | .hashch3 | .hashch4 | .hashpc => 0x3FFFFFFFC0#64
  | .wextbase => 0x3FFFFFFF0000#64
  | .wextsize => 0xFFFFFF#64
  | .ubinthresh => 0xFFFFFFFC00003F#64
  | _ => BitVec.allOnes 64

/-- Its fields of access W1C. -/
def SysW1c (r : SysReg) : Word :=
  match r with
  | .status => 8#64
  | .fpstat => 0x3F#64
  | .pivstat => 0x1FFFF#64
  | _ => 0

/-- Whether only the system level writes it (R129). -/
def SysOnly (r : SysReg) : Bool :=
  match r with
  | .status | .repidx | .lc0 | .lc1 | .fpstat | .round | .stochseed | .pivtau | .pivstat | .agentid => false
  | _ => true

/-- A mask register with the BUSY bit that the six share (R301). -/
def Die.hashWord (d : Die) (m : Word) : Word := m ||| (if d.busy then 0x8000000000000000#64 else 0)

/-- The value a system register reads (R129). -/
def State.sysGet (s : State) (h : HartId) (r : SysReg) : Word :=
  let x := s.hart h
  let d := s.getDie (hartDie h)
  match r with
  | .status => x.status
  | .trapcause => x.trapcause
  | .trappc => x.trappc
  | .trapframe => x.frameBase ||| (if x.mact then 1 else 0)
  | .trapvec => x.trapvec
  | .machvec => x.machvec
  | .repidx => x.ctx.repidx
  | .lc0 => x.ctx.lc0
  | .lc1 => x.ctx.lc1
  | .fpstat => x.ctx.fpstat
  | .round => x.ctx.round
  | .stochseed => x.ctx.stochseed
  | .pivtau => x.ctx.pivtau
  | .pivstat => x.ctx.pivstat
  | .asid => x.asid.zeroExtend 64
  | .agentid => word (hartAgent h)
  | .pdrain => d.pdrain
  | .hashch0 => d.hashWord d.staged[0]
  | .hashch1 => d.hashWord d.staged[1]
  | .hashch2 => d.hashWord d.staged[2]
  | .hashch3 => d.hashWord d.staged[3]
  | .hashch4 => d.hashWord d.staged[4]
  | .hashpc => d.hashWord d.masks[5]
  | .wextbase => d.wextbase
  | .wextsize => d.wextsize
  | .ubinthresh => d.ubin

/-! ## The registers whose write is checked -/

/-- Reduce a mask by those before it, over GF(2). -/
def gfReduce (basis : List Nat) (m : Nat) : Nat := basis.foldl (fun m b => min m (m ^^^ b)) m

/-- Whether parity masks are independent (R302). -/
def independent (l : List Nat) : Bool :=
  (l.foldl (fun (acc : List Nat × Bool) m =>
    let r := gfReduce acc.1 m
    (acc.1 ++ [r], acc.2 && r != 0)) ([], true)).2

/-- The stack's parity mask (R300): bits 37 to 8. -/
def stackMask : Nat := 0x3FFFFFFF00

/-- A write to HASHPC (R302): commit all six masks, or ACCESS with the staged ones back at their committed values. -/
def State.writeHashpc (s : State) (d : Fin 6) (v : Word) : State × Bool :=
  let x := s.getDie d
  let masks := x.staged.toList ++ [v]
  if x.busy || !independent (stackMask :: masks.map (·.toNat)) then
    (s.updDie d fun y => { y with staged := Vector.ofFn fun i => y.masks[i.val]'(by omega) }, false)
  else
    (s.updDie d fun y => { y with busy := true, masks := Vector.ofFn fun i => masks.getD i.val 0 }, true)

/-- HBM bytes installed in a die's window (R284). -/
def hbmBytes : Nat := 0x3000000000

/-- A write to UBINTHRESH (R346). -/
def State.writeUbin (s : State) (d : Fin 6) (v : Word) : State × Bool :=
  let x := s.getDie d
  let thr := wfld v 0 6
  let ends_ := wfld v 38 18 * 2 ^ 20 + wfld v 26 12 * 2 ^ 24
  let moved := wfld v 26 30 != wfld x.ubin 26 30
  if thr == 0 || 32 < thr || (wfld v 26 12 != 0 && hbmBytes < ends_) || (moved && x.par.runs != []) then (s, false)
  else ((s.updDie d fun y => { y with ubin := v }).settleBins d, true)

/-- A write that would leave an extension of n units at a base (R360): refused when the area leaves the die's HBM or any slot is
in use. -/
def State.writeExt (s : State) (d : Fin 6) (base size : Word) : State × Bool :=
  let x := s.getDie d
  let lo := wfld base 16 30 * 2 ^ 16
  let n := size.toNat * 65536
  let inside := n == 0 || (d.val * 2 ^ 38 ≤ lo && lo + n ≤ d.val * 2 ^ 38 + hbmBytes)
  if !inside || x.extUsed != 0 then (s, false)
  else (allDies.foldl State.wakeSpawners (s.updDie d fun y => { y with wextbase := base, wextsize := size }), true)

/-- Write a register whose value is formed; false where the write takes ACCESS. -/
def State.sysPut (s : State) (h : HartId) (r : SysReg) (v : Word) : State × Bool :=
  let ctx (f : Ctx → Ctx) : State × Bool := (s.updHart h fun x => { x with ctx := f x.ctx }, true)
  let hart (f : Hart → Hart) : State × Bool := (s.updHart h f, true)
  let d := hartDie h
  let hash (i : Fin 5) : State × Bool := (s.updDie d fun y => { y with staged := y.staged.set i.val v }, true)
  match r with
  | .status => ctx fun c => { c with dz := v.toNat.testBit 3 }
  | .trapcause => hart fun x => { x with trapcause := v }
  | .trappc => hart fun x => { x with trappc := v }
  | .trapframe => hart fun x => { x with frameBase := v }
  | .trapvec => hart fun x => { x with trapvec := v }
  | .machvec => hart fun x => { x with machvec := v }
  | .repidx => ctx fun c => { c with repidx := v }
  | .lc0 => ctx fun c => { c with lc0 := v }
  | .lc1 => ctx fun c => { c with lc1 := v }
  | .fpstat => ctx fun c => { c with fpstat := v }
  | .round => ctx fun c => { c with round := v }
  | .stochseed => ctx fun c => { c with stochseed := v }
  | .pivtau => ctx fun c => { c with pivtau := v }
  | .pivstat => ctx fun c => { c with pivstat := v }
  | .asid => hart fun x => { x with asid := v.setWidth 10 }
  | .agentid => (s, true)
  | .pdrain => (s.updDie d fun y => { y with pdrain := v }, true)
  | .hashch0 => hash 0
  | .hashch1 => hash 1
  | .hashch2 => hash 2
  | .hashch3 => hash 3
  | .hashch4 => hash 4
  | .hashpc => s.writeHashpc d v
  | .wextbase => s.writeExt d v (s.getDie d).wextsize
  | .wextsize => s.writeExt d (s.getDie d).wextbase v
  | .ubinthresh => s.writeUbin d v

/-- SYSR (R128). -/
def execSysr (d : SReg) (n : SysReg) (s : State) : Ends := .next (s.result d (s.sysGet s.cur n))

/-- Commit a formed value: PRIV first (R97), then the register's own check. -/
def sysWriteM (r : SysReg) (f : Word → Word) : M Unit := do
  if SysOnly r then systemM
  let s ← get
  let x := s.sysPut s.cur r (f (s.sysGet s.cur r))
  set x.1
  demandOpen x.2 .access

/-- SYSW (R128). -/
def execSysw (d : SReg) (n : SysReg) (s : State) : Ends :=
  let v := s.rd d
  ends s (sysWriteM n fun old => (v &&& SysRw n) ||| (old &&& SysW1c n &&& ~~~v))

/-- SYSSET (R128). -/
def execSysset (d : SReg) (n : SysReg) (s : State) : Ends :=
  let v := s.rd d
  ends s (sysWriteM n fun old => ((old ||| v) &&& SysRw n) ||| (old &&& SysW1c n))

/-- SYSCLR (R128). -/
def execSysclr (d : SReg) (n : SysReg) (s : State) : Ends :=
  let v := s.rd d
  ends s (sysWriteM n fun old => (old &&& ~~~v) &&& (SysRw n ||| SysW1c n))

/-- The write of a value by a hart at system level, as a step of its own: taken, or ACCESS at that hart. -/
def State.writeStep (s : State) (h : HartId) (r : SysReg) (v : Word) : State :=
  if (s.hart h).run == .running && (s.hart h).pl then
    let x := s.sysPut h r (v &&& SysRw r)
    if x.2 then x.1 else x.1.enterOpen h .access
  else s

/-- HASHPC_WRITE (R302). -/
def execHashpcWrite (h : HartId) (v : BitVec 64) (s : State) : Ends := .next (s.writeStep h .hashpc v)
/-- UBINTHRESH_WRITE (R346). -/
def execUbinthreshWrite (h : HartId) (v : BitVec 64) (s : State) : Ends := .next (s.writeStep h .ubinthresh v)
/-- WEXTSIZE_WRITE (R360). -/
def execWextsizeWrite (h : HartId) (v : BitVec 64) (s : State) : Ends := .next (s.writeStep h .wextsize v)
/-- REHASH_COMPLETE (R302). -/
def execRehashComplete (die : Fin 6) (s : State) : Ends := .next (s.updDie die fun d => { d with busy := false })

/-! ## XLINV (R131) -/

/-- What an XLINV drops. -/
structure Drop where
  all : Bool
  page : Option Nat
  asid : Nat
  deriving DecidableEq, Repr

def Drop.entry (x : Drop) (t : TlbEntry) : Bool :=
  x.all || (t.asid == x.asid && match x.page with | none => true | some va => t.covers x.asid va)

/-- Drop entries in some dies' caches; stalled streams of those dies and that ASID retry (R415). -/
def State.dropXlat (s : State) (dies : List Nat) (x : Drop) : State :=
  let asidOf (key : Nat) : Nat :=
    match s.ownerOf (key / 4 / 480) (key / 4 % 480) (key % 4) with
    | some t => (s.task t).asid
    | none => 1024
  { s with
    dies := Vector.ofFn fun i =>
      if dies.contains i.val then { s.dies[i.val] with tlb := s.dies[i.val].tlb.filter fun t => !x.entry t } else s.dies[i.val]
    mtTlb := s.mtTlb.map fun ((k, l) : Nat × List TlbEntry) => (k, if dies.contains (k / 480) then l.filter fun t => !x.entry t else l)
    tiles := s.tiles.map fun ((k, c) : Nat × TileCtx) =>
      (k, if dies.contains (k / 4 / 480) && (x.all || asidOf k == x.asid) then
            { c with units := c.units.map fun ((n, u) : Nat × UnitSt) => (n, { u with stalled := none }) }
          else c) }

/-- XLINV (R131): copies held for a translation retry with HELD_ROW_RETRY. -/
def execXlinv (a b : SReg) (s : State) : Ends := ends s do
  systemM
  let w := s.rd b
  let scope := wfld w 0 4
  let what := wfld w 4 2
  let ok := 3 ≤ scope && scope ≤ 7 && what != 3 && wfld w 26 38 == 0 && wfld w 6 10 == 0 && (what == 1 || wfld w 16 10 == 0)
  demandOpen ok .access
  let dies := if scope == 3 then [s.die.val] else List.range 6
  let x : Drop :=
    if what == 0 then ⟨false, some (s.rd a).toNat, s.me.asid.toNat⟩
    else if what == 1 then ⟨false, none, wfld w 16 10⟩ else ⟨true, none, 0⟩
  doS fun t => t.dropXlat dies x

/-! ## Traps by instruction (R132) -/

/-- TRAP (R132): it completes, loop-back included, then takes TRAPI. -/
def execTrap (n : BitVec 12) (s : State) : Ends := .next (s.complete.enter s.cur ⟨.trapi, n.toNat, 0, 0, [], some s.pc⟩)

/-- BKPT (R132). -/
def execBkpt (s : State) : Ends := .next (s.enter s.cur ⟨.bkpt, 0, 0, 0, [], none⟩)

/-- HALT (R132): only a host restart resumes the hart; the hart's state tells the Arbour, a status record the host. -/
def execHalt (s : State) : Ends := ends s do
  systemM
  doS fun t => (t.complete.updMe fun h => { h with run := .halted none }).tellHalt t.cur 0
  throw .done

/-! ## TRET (R133, R404, R405) -/

/-- The region word and selection of a handle's frame word (R401). -/
def frameRegion (w : Nat) : Word := word (fld w 18 23 * 2 ^ 9)
def frameSel (w : Nat) : Nat := w % 2 ^ 10

/-- The frame word of a handle that was written when the active frame was entered (R133); a hart that entered none has its present one. -/
def Hart.entryWord (h : Hart) (q : QReg) : Nat := ((if h.mact then h.machWords else h.words)[q.val]?).getD h.ctx.q[q.val].frameWord

/-- Whether TRET may restore a handle from its frame word (R133). -/
def State.handleOk (s : State) (q : QReg) (w : Nat) : Bool :=
  w == s.me.entryWord q || w == 0
    || (w.testBit 63 && fld w 41 22 == 0 && fld w 10 8 == 0
        && match s.bindCheck s.myself s.die.val s.me.asid.toNat (frameRegion w) (word (frameSel w)) with
           | .ok _ => true
           | .error _ => false)

/-- The offset of the first field of a frame that TRET rejects (R133, R404). -/
def State.frameFlaw (s : State) (f : List Byte) : Option Nat :=
  let ctl := fieldOf f 0x20 8
  let checks : List (Nat × Bool) :=
    [(0x00, (fieldOf f 0 8) &&& 0xFFFFFFFFFFFF00E4 == 0),
     (0x20, fld ctl 27 37 == 0 && fld ctl 5 11 == 0 && ctl % 32 ≤ 16),
     (0x78, fieldOf f 0x78 8 == 0)]
    ++ ((List.finRange 16).map fun q => (0x2C0 + 8 * q.val, s.handleOk q (fieldOf f (0x2C0 + 8 * q.val) 8)))
    ++ [(0x348, zeroSpan f 0x348 56)]
    ++ ((List.range (ctl % 32)).flatMap fun i =>
        let o := 0x380 + 32 * i
        let v := (fieldOf f (o + 12) 4).testBit 0
        [(o + 8, !v || replayable (fieldOf f (o + 8) 4)), (o + 12, !v || fieldOf f (o + 12) 4 < 4)])
    ++ [(0x580, fieldOf f 8 1 == 8 || fieldOf f 8 1 == 9 || zeroSpan f 0x580 272), (0x690, zeroSpan f 0x690 368)]
  (checks.find? fun x => !x.2).map (·.1)

/-- A handle restored from its frame word, beside the word that entry wrote: unchanged, unbound, or bound as FBIND binds (R133). -/
def Ctx.restoreHandle (c : Ctx) (die : Nat) (entry : QReg → Nat) (q : QReg) (w : Nat) : Ctx :=
  if w == entry q then c
  else if w == 0 then c.unbind q
  else c.bindHandle q (resolveRegion die (frameRegion w)) (frameSel w)

/-- A replay entry of a frame. -/
def frameReplay (f : List Byte) (i : Nat) : Option Replay :=
  let o := 0x380 + 32 * i
  let fl := fieldOf f (o + 12) 4
  if fl.testBit 0 then
    some ⟨word (fieldOf f o 8), BitVec.ofNat 32 (fieldOf f (o + 8) 4), fl.testBit 1, word (fieldOf f (o + 16) 8), word (fieldOf f (o + 24) 8), none⟩
  else none

/-- What TRET restores from a frame into the continuation (R133, R401, R402). -/
def Ctx.restore (c : Ctx) (die : Nat) (entry : QReg → Nat) (f : List Byte) : Ctx :=
  let at_ (o : Nat) : Word := word (fieldOf f o 8)
  let ctl := fieldOf f 0x20 8
  let cause := fieldOf f 8 1
  let aux := fieldOf f 0x70 8
  let c := (List.finRange 16).foldl (fun c q => c.restoreHandle die entry q (fieldOf f (0x2C0 + 8 * q.val) 8)) c
  { c with
    pc := at_ 0x10
    bad := []
    s := Vector.ofFn fun i => if i.val = 0 then 0 else at_ (0x80 + 8 * i.val)
    m := Vector.ofFn fun i => if i.val = 0 then c.m[0] else at_ (0x280 + 8 * i.val)
    v := Vector.ofFn fun i => lineOf (slice f (0x800 + 64 * i.val) 64)
    lc0 := at_ 0x40, lc1 := at_ 0x48
    loop0 := ⟨at_ 0x50, at_ 0x58, ctl.testBit 18⟩
    loop1 := ⟨at_ 0x60, at_ 0x68, ctl.testBit 19⟩
    last1 := ctl.testBit 17
    rep := { active := ctl.testBit 20 && fieldOf f 0x30 8 != 0, next := at_ 0x28, left := at_ 0x30, d := Fin.ofNat 64 (fld ctl 21 6), t := at_ 0x38, word := 0 }
    repidx := at_ 0x340
    dz := (fieldOf f 0 8).testBit 3
    replay := (List.range (ctl % 32)).filterMap (frameReplay f)
    grant := none
    arrived := if (cause == 8 || cause == 9 || cause == 10) && aux != 0 then some (at_ 0x10, aux % 2 ^ 32) else c.arrived }

/-- The repeated instruction is fetched afresh (R405); a repeat with nothing left goes on at REPT + 4. -/
def refetchM (f : List Byte) : M Unit := do
  if (fieldOf f 0x20 8).testBit 20 then
    let t := word (fieldOf f 0x38 8)
    if fieldOf f 0x30 8 = 0 then doS fun s => s.setPc (t + 4)
    else
      doS fun s => s.setPc t
      let s ← get
      match s.fetch s.cur t with
      | (s, .error (c, k)) =>
        set s
        throw (.trap (fetchTrap c t k none))
      | (s, .ok w) =>
        set s
        if !barred w.toNat && (decodeControl w.toNat).toOption.isSome then doS fun s => s.updCtx fun c => { c with rep := { c.rep with word := w } }
        else throw (.trap ⟨.illegal, 0, 0, 0, [], some t⟩)

/-- TRET (R133, R400, R404, R405). -/
def execTret (s : State) : Ends := ends s do
  demand s.me.hm .illegal
  let base := s.me.frameBase + (if s.me.mact then 4096 else 0)
  match s.sysLoad s.cur base 4096 with
  | .error (c, k, _) => trapM c k base
  | .ok (f, t) =>
    set t
    match t.frameFlaw f with
    | some o => trapM .framebad 0 base (word o)
    | none =>
      let target := word (if (fieldOf f 0x20 8).testBit 20 then fieldOf f 0x38 8 else fieldOf f 0x10 8)
      alignedTarget target
      if fieldOf f 0x20 1 % 32 != 0 then flushM
      let qs := t.ctx.q.toList
      doS fun t => t.updMe fun h =>
        { h with pl := (fieldOf f 0 8).testBit 0, hm := (fieldOf f 0 8).testBit 1, mact := false, ctx := h.ctx.restore (hartDie t.cur).val h.entryWord f }
      doS fun t => (qs ++ t.ctx.q.toList).foldl State.syncBound t
      refetchM f
      let t ← get
      set (drainReplays t t.ctx.replay).1
      throw .done

/-! ## Trace (R134, R418) -/

/-- Release a core's freeze: the records lost in it are counted in one record (R418). -/
def State.releaseTrace (s : State) (core hart : Nat) : State :=
  let lost := (Tbl.getD s.traces core {}).lost
  if (Tbl.getD s.traces core {}).frozen then
    let s := { s with traces := Tbl.upd s.traces core {} fun t => { t with frozen := false, lost := 0 } }
    if lost == 0 then s else s.record core 8 hart 0 lost
  else s

/-- TRCON (R134, R418). -/
def execTrcon (s : State) : Ends :=
  let t := if s.me.pl then s.releaseTrace (hartCore s.cur) (s.cur.val % 4) else s
  .next (t.updMe fun h => { h with trc := true }).complete

/-- TRCOFF (R134). -/
def execTrcoff (s : State) : Ends := .next (s.updMe fun h => { h with trc := false }).complete

/-- TRCMARK (R134). -/
def execTrcmark (d : SReg) (n : BitVec 12) (s : State) : Ends :=
  .next (s.record (hartCore s.cur) 5 (s.cur.val % 4) n.toNat (s.rd d).toNat).complete

/-! ## Watchpoints (R135) -/

/-- WPSET (R135): a number of the issuing die's 64; the range is translated as one load of its first byte. -/
def execWpset (d a b : SReg) (s : State) : Ends := ends s do
  let w := s.rd b
  let len := wfld w 0 6
  let acc := wfld w 6 2
  if acc == 0 || wfld w 12 2 == 3 || len < 3 || 12 < len || wfld w 14 50 != 0 then wrM d (BitVec.allOnes 64)
  else
    let va := s.rd a
    demand (va.toNat % 2 ^ len == 0) .misalign 0 va
    let x ← checkM .load va (2 ^ len) 1
    let t ← get
    let used := (t.getDie t.die).watches
    match (List.range 64).find? fun i => (Tbl.find? used i).isNone with
    | none => wrM d (BitVec.allOnes 64)
    | some i =>
      doS fun t => t.updDie t.die fun y =>
        { y with watches := Tbl.set y.watches i ⟨s.me.asid.toNat, s.cur, x.pa, 2 ^ len, acc, wfld w 8 4, wfld w 12 2⟩ }
      wrM d (word i)

/-- WPCLR (R134): only a watchpoint of the issuer's ASID. -/
def execWpclr (a : SReg) (s : State) : Ends :=
  let n := (s.rd a).toNat
  .next (s.updDie s.die fun y =>
    match Tbl.find? y.watches n with
    | some w => if w.asid == s.me.asid.toNat then { y with watches := Tbl.erase y.watches n } else y
    | none => y).complete

/-- WATCH_DELIVERY (R135): the hart takes a WATCH that waits, between two of its instructions. -/
def execWatchDelivery (h : HartId) (s : State) : Ends :=
  let x := s.hart h
  match x.run, x.ctx.pend with
  | .running, p :: rest =>
    if p.cause == .watch then .next ((s.updHart h fun y => { y with ctx := { y.ctx with pend := rest } }).enter h p) else .next s
  | _, _ => .next s

/-- LOAD_DATA_RETURN (R403): of the hart `h`'s oldest outstanding load. -/
def execLoadDataReturn (h : HartId) (err : Bool) (s : State) : Ends := .next { ({ s with cur := h }.returnLoad err) with cur := s.cur }

end Sys2Proof.Machine
end

