-- ==== Sys2Proof/Machine/HostEvents.lean ====
section
/-!
DEFINITION. The host's mailbox and its commands (R419 to R423), and what they do (R373, R411, R416, R418, R428, R433, R435, R436).
-/
namespace Sys2Proof.Machine

/-! ## Slots, doorbell, status queue (R420 to R423) -/

def State.updHost (s : State) (f : Mailbox → Mailbox) : State := { s with host := f s.host }

/-- The bytes of a command slot (R421). -/
def slotBytes (x : BitVec 512) : List Byte := leBytes 64 x.toNat

/-- The seq that a slot holds. -/
def slotSeq (x : BitVec 512) : Nat := fieldOf (slotBytes x) 0 8

/-- DONE rises over the commands that have completed (R420). -/
def Mailbox.advance : Nat → Mailbox → Mailbox
  | 0, m => m
  | fuel + 1, m =>
    if m.complete.contains (m.done + 1) then
      Mailbox.advance fuel { m with done := m.done + 1, complete := m.complete.filter (· != m.done + 1) }
    else m

/-- A command completes with a status record (R420, R423). -/
def State.completeCmd (s : State) (seq op result : Nat) (data : Word) : State :=
  (s.updHost fun m =>
    let m := { m with cmds := m.cmds.filter (·.seq != seq), complete := m.complete ++ [seq] }
    m.advance m.complete.length).postStatus seq op result data

/-- One fetched slot (R422): accepted in seq order, or answered. -/
def State.takeSlot (s : State) (x : BitVec 512) : State :=
  let b := slotBytes x
  let seq := slotSeq x
  let op := fieldOf b 8 1
  if seq ≤ s.host.acc then s.postStatus seq op 3 0
  else if s.host.acc + 1 < seq then s.postStatus seq op 4 0
  else
    let s := s.updHost fun m => { m with acc := seq }
    if op == 0 || 14 < op || !zeroSpan b 9 7 then s.completeCmd seq op 5 0
    else s.updHost fun m => { m with cmds := m.cmds ++ [⟨seq, op, x.extractLsb' 128 384⟩] }

/-- The slot of the lowest seq that the doorbell covers; seq n lies in slot n mod 256 and in no other (R421). -/
def Mailbox.nextSlot (m : Mailbox) : Option (Nat × BitVec 512) :=
  (m.unread.map fun i => (i, Tbl.getD m.slots i 0)).foldl (fun b x =>
    if m.doorbell < slotSeq x.2 || slotSeq x.2 % 256 != x.1 then b
    else match b with
      | none => some x
      | some y => if slotSeq x.2 < slotSeq y.2 then some x else b) none

/-- Fetch slots while the mailbox is open and fewer than 4,096 records are held (R423, R432). -/
def State.fetchSlots (s : State) : Nat → State
  | 0 => s
  | fuel + 1 =>
    if s.morhan.stage != 7 || 4096 ≤ s.host.heldRecs.length then s
    else match s.host.nextSlot with
      | none => s
      | some (i, x) => State.fetchSlots ((s.updHost fun m => { m with unread := m.unread.filter (· != i) }).takeSlot x) fuel

/-- DOORBELL (R420): the host has written some slots and then the highest seq among them. -/
def execDoorbell (seq : BitVec 64) (writes : List (Fin 256 × BitVec 512)) (s : State) : Ends :=
  let s := s.updHost fun m =>
    { m with
      slots := writes.foldl (fun t w => Tbl.set t w.1.val w.2) m.slots
      unread := writes.foldl (fun l w => if l.contains w.1.val then l else l ++ [w.1.val]) m.unread
      doorbell := seq.toNat }
  .next (s.fetchSlots s.host.unread.length)

/-- Held records are posted while the queue has room (R423). -/
def Mailbox.drain : Nat → Mailbox → Mailbox
  | 0, m => m
  | fuel + 1, m => match m.heldRecs with
    | [] => m
    | r :: rest => if m.full then m else Mailbox.drain fuel ({ m with heldRecs := rest }.emit r)

def State.drainHeld (s : State) : State :=
  let s := s.updHost fun m => m.drain m.heldRecs.length
  s.fetchSlots s.host.unread.length

/-- SQHEAD (R420, R423). -/
def execSqhead (v : BitVec 64) (s : State) : Ends := .next (s.updHost fun m => { m with sqhead := v.toNat }).drainHeld

/-- A length that SQSIZE may hold (R420). -/
def sizeOk (n : Nat) : Bool := n == 0 || (List.range 10).any fun k => n == 64 * 2 ^ k

/-- HOST_REGISTER_WRITE (R420): SQBASE or SQSIZE, ignored unless STAT = HEAD. -/
def execHostRegisterWrite (size : Bool) (v : BitVec 64) (s : State) : Ends :=
  .next (if s.host.stat != s.host.sqhead then s
    else if size then (if sizeOk (v.toNat % 65536) then (s.updHost fun m => { m with sqsize := v.toNat % 65536 }).drainHeld else s)
    else s.updHost fun m => { m with sqbase := word (v.toNat / 4096 * 4096) })

/-- What the host reads at an 8-byte offset of BAR0 (R419, R420): slots, write-only and reserved fields read zero (R6). -/
def State.barRead (s : State) (off : Nat) : Word :=
  match off with
  | 0x4008 => word s.host.acc
  | 0x4010 => word s.host.done
  | 0x4018 => word s.host.stat
  | 0x4020 => s.host.sqbase
  | 0x4028 => word s.host.sqsize
  | 0x4030 => word s.host.sqhead
  | 0x4038 => word (s.morhan.stage + s.morhan.fail * 16)
  | _ => 0

/-! ## Commands (R421) -/

/-- An accepted command of an op. -/
def State.cmd (s : State) (seq op : Nat) : Option Cmd := s.host.cmds.find? fun c => c.seq == seq && c.op == op

/-- An operand at an offset of the slot. -/
def Cmd.arg (c : Cmd) (off n : Nat) : Nat := fld c.operands.toNat (8 * (off - 16)) (8 * n)

/-- Run a command that stands accepted. -/
def State.runCmd (s : State) (seq op : Nat) (f : Cmd → State) : Ends :=
  .next (match s.cmd seq op with
    | some c => f c
    | none => s)

/-- A command refused: result 2 (R421). -/
def State.refuseCmd (s : State) (c : Cmd) : State := s.completeCmd c.seq c.op 2 0
def State.doneCmd (s : State) (c : Cmd) (data : Word) : State := s.completeCmd c.seq c.op 0 data

/-- The global address of n bytes at a package-local address: none where a line of them lies in a hole, a copy port, the second tier, or an
area closed to the host (R421, R305, R347, R360). -/
def State.hostPlace (s : State) (a n : Nat) : Option Nat :=
  let pa := Config.package * 2 ^ 46 + a
  let bad := (linesOf pa (max n 1)).any fun ln => match spaceOf (ln * 64) with
    | .hbm _ => false
    | .store _ _ _ => false
    | _ => true
  if 2 ^ 46 ≤ a || bad || s.closedArea pa n then none else some pa

/-- The same for bytes that a command reads or writes: none where a line of them lies in a stack that has stopped (R304). -/
def State.hostAddr (s : State) (a n : Nat) : Option Nat :=
  (s.hostPlace a n).filter fun pa => !(linesOf pa (max n 1)).any fun ln => s.stopped (ln * 64)

/-- The host's agent id (R101). -/
def hostAgent : Nat := 5 * 2 ^ 29

/-- A write of the host at the point of coherence. -/
def State.hostWrite (s : State) (pa : Nat) (l : List Byte) : State :=
  (((s.touch pa l.length).putWake pa l).clearPoison pa l.length).watch pa l.length (word pa) 1 .remote hostAgent 0

/-- A read of the host. -/
def State.hostRead (s : State) (pa n : Nat) : State × List Byte :=
  let s := (s.touch pa n).watch pa n (word pa) 2 .remote hostAgent 0
  (s, s.bytesAt pa n)

/-- LAUNCH of the host (R421, R374): it waits for room in the queue. -/
def execLaunchCommand (seq : Nat) (s : State) : Ends := s.runCmd seq 1 fun c =>
  match s.hostAddr (c.arg 16 8) 128 with
  | none => s.refuseCmd c
  | some pa =>
    let q := c.arg 24 8 % 64
    if pa % 128 != 0 then s.refuseCmd c
    else if 256 ≤ (Tbl.getD s.queues q {}).recs.length then s
    else
      let r := s.hostRead pa 128
      ({ r.1 with queues := Tbl.upd s.queues q {} fun x => { x with recs := x.recs ++ [(⟨r.2, true, 15⟩ : LReq)] } }).doneCmd c 0

/-- CANCEL (R421, R436): a launch that does not live is refused. -/
def execCancel (seq : Nat) (s : State) : Ends := s.runCmd seq 2 fun c =>
  match List.find? (fun ((_, l) : Nat × Launch) => l.live && l.seq.toNat == c.arg 16 8 && l.asid == c.arg 24 2) s.launches with
  | some (n, _) => (s.endLaunch n 3 0 0).doneCmd c 0
  | none => s.refuseCmd c

/-- WRMEM (R421). -/
def execWrmem (seq : Nat) (s : State) : Ends := s.runCmd seq 3 fun c =>
  match s.hostAddr (c.arg 16 8) 32 with
  | some pa => if pa % 8 != 0 then s.refuseCmd c else (s.hostWrite pa (leBytes 32 (c.arg 24 32))).doneCmd c 0
  | none => s.refuseCmd c

/-- RDMEM (R421): a line found broken, before or after its bins are applied (R352), is refused. -/
def execRdmem (seq : Nat) (s : State) : Ends := s.runCmd seq 4 fun c =>
  match s.hostAddr (c.arg 16 8) 8 with
  | some pa =>
    if pa % 8 != 0 || s.broken pa then s.refuseCmd c
    else
      let r := s.hostRead pa 8
      if r.1.broken pa then r.1.refuseCmd c else r.1.doneCmd c (word (leValue r.2))
  | none => s.refuseCmd c

/-- QCFG (R373, R421): a word with no allowed core is refused. -/
def execQcfg (seq : Nat) (s : State) : Ends := s.runCmd seq 5 fun c =>
  let w := word (c.arg 24 8) &&& 0xFFFFFFFF3F#64
  if 64 ≤ c.arg 16 8 || wfld w 8 32 == 0 || wfld w 0 6 == 0 then s.refuseCmd c
  else ({ s with queues := Tbl.upd s.queues (c.arg 16 8) {} fun q => { q with word := w } }).doneCmd c 0

/-- ASIDTAB (R411, R421): every translation cache is invalidated. -/
def execAsidtab (seq : Nat) (s : State) : Ends := s.runCmd seq 6 fun c =>
  match s.hostPlace (c.arg 16 8) 16384 with
  | some pa =>
    if pa % 16384 != 0 then s.refuseCmd c
    else ({ s.mapDies (fun d => { d with tlb := [] }) with asidTab := pa, mtTlb := [] }).doneCmd c 0
  | none => s.refuseCmd c

/-- A core's 64 KiB trace buffer, oldest record first (R417). -/
def Trace.bytes (t : Trace) : List Byte :=
  t.recs.flatMap (fun r => leBytes 16 r.toNat) ++ leBytes (16 * (4096 - t.recs.length)) 0

/-- TRACE (R418, R421). -/
def execTrace (seq : Nat) (s : State) : Ends := s.runCmd seq 7 fun c =>
  let die := c.arg 16 1
  let core := c.arg 17 1
  match s.hostAddr (c.arg 24 8) 65536 with
  | some pa =>
    if 6 ≤ die || 32 ≤ core then s.refuseCmd c
    else
      let n := die * 32 + core
      ((s.hostWrite pa (Tbl.getD s.traces n {}).bytes).releaseTrace n 0).doneCmd c 0
  | none => s.refuseCmd c

/-- ERRCNT (R416, R421). -/
def execErrcnt (seq : Nat) (s : State) : Ends := s.runCmd seq 8 fun c =>
  if h : c.arg 16 1 < 6 then
    let d : Fin 6 := ⟨c.arg 16 1, h⟩
    let data := (List.range 8).map fun k => min 255 (Tbl.getD (s.getDie d).errs (k + 1) 0) * 256 ^ k
    (s.updDie d fun x => { x with errs := [] }).doneCmd c (word (data.foldl (· + ·) 0))
  else s.refuseCmd c

/-- HARTRST (R421): what the hart ran is killed (R331). After a thermal shutdown no hart runs before RESET (R436). -/
def execHartrst (seq : Nat) (s : State) : Ends := s.runCmd seq 9 fun c =>
  match hartOf (c.arg 16 8) with
  | some h =>
    if c.arg 24 8 % 4 != 0 || s.morhan.shutdown then s.refuseCmd c
    else
      let l := (s.hart h).ctx.cont.launch
      let s := if (s.hart h).run == .idle then s else (s.killOn h).settleLaunch l
      let n := s.nextCont
      (({ s with nextCont := n + 1 }).setHart h
        { run := .running, pl := true, ctx := { pc := word (c.arg 24 8), cont := { uid := n } } }).doneCmd c 0
  | none => s.refuseCmd c

/-- LINKUP is issued at the other end of a Pergola port (R428). -/
def State.farLinkup (s : State) (port : Nat) : State := if port < 24 then s.updLink port fun l => { l with far := true } else s

/-- LINKUP (R428): the SEQs, the counts and the slots of this end are as at reset; once the other end has done the same the link is up and the
command completes. Until then the command stands, and a link that was down stays down. -/
def execLinkup (seq : Nat) (s : State) : Ends := s.runCmd seq 0x0A fun c =>
  let p := c.arg 16 8
  if 24 ≤ p then s.refuseCmd c
  else if (s.link p).far then (s.updLink p fun _ => { audited := s.cycle }).doneCmd c 0
  else if (s.link p).near then s
  else s.updLink p fun l => { audited := s.cycle, down := l.down, near := true }

/-- The address of the identity key's certificate, in the HBM of die 0 (R433; assumption 6). -/
def certificateAddress : Word := word (Config.certificateLine.val * 64)

/-- The attestation report up to its signature (R433): the digests are of the three images that boot has checked. -/
def attestHead (firmware : List (List Byte)) (nonce : List Byte) : List Byte :=
  nonce ++ leBytes 2 Config.package ++ leBytes 2 Config.securityVersion.toNat ++ leBytes 28 0
    ++ (List.range 3).flatMap (fun k => slice (Config.shake256 64 (firmware.getD k [])) 0 64) ++ (List.range 1952).map Config.identityKeyByte

/-- ATTEST (R433): data holds the certificate's address. -/
def execAttest (seq : Nat) (s : State) : Ends := s.runCmd seq 0x0B fun c =>
  match s.hostAddr (c.arg 16 8) 32, s.hostAddr (c.arg 24 8) 5517 with
  | some a, some b =>
    let r := s.hostRead a 32
    let h := attestHead s.morhan.firmware r.2
    (r.1.hostWrite b (h ++ (List.range 3309).map (Config.signatureByte h))).doneCmd c certificateAddress
  | _, _ => s.refuseCmd c

/-- PCAP (R435). -/
def execPcap (seq : Nat) (s : State) : Ends := s.runCmd seq 0x0C fun c =>
  let w := c.arg 16 4
  if w < 1200 || 4800 < w || w % 50 != 0 then s.refuseCmd c
  else ({ s with morhan := { s.morhan with cap := w } }).doneCmd c (word s.morhan.average)

/-- The hottest layer of the package's stacks (R304). -/
def Stack.hottest (x : Stack) : Nat := x.layers.toList.foldl max 0

/-- What RESET keeps (R436): HBM and the second tier, the host's mailbox, Morhan and its sensors, the Pergola links, which
go down, and the model's own counters; the edges between dies are as at reset. -/
def State.rebooted (s : State) : State :=
  { turns := s.turns, free := s.free, cycle := s.cycle
    mem := s.mem.filter fun c => match spaceOf c.1 with
      | .hbm _ => true
      | .tier2 _ => true
      | _ => false
    poison := s.poison, nextLaunch := s.nextLaunch, nextCont := s.nextCont, period := s.period
    links := (List.range 24).map fun p => (p, { audited := s.cycle, down := true })
    reach := s.reach, portDown := s.portDown, host := s.host
    morhan := { s.morhan with shutdown := false, idleMatrix := 0, idleVector := 0, idleHart := 0 }
    hbmStacks := s.hbmStacks.map fun x => { x with stopped := false } }

/-- RESET (R436): refused while a layer reads 92 °C or a die 95 °C; `junction` is the hottest die's reading. -/
def execReset (seq junction : Nat) (s : State) : Ends := s.runCmd seq 0x0D fun c =>
  if s.hbmStacks.toList.any (fun x => 92 ≤ x.hottest) || 95 ≤ junction then s.refuseCmd c
  else s.rebooted.doneCmd c 0

/-- SQREPLAY (R423): the retained records from a sseq on are posted again under new ones. -/
def execSqreplay (seq : Nat) (s : State) : Ends := s.runCmd seq 0x0E fun c =>
  let kept := s.host.kept
  let t := (kept.filter fun r => c.arg 16 8 ≤ r.sseq).foldl (fun s r => s.updHost fun m => m.post r) s
  t.doneCmd c (word (kept.headD {}).sseq)

end Sys2Proof.Machine
end

