-- ==== Sys2Proof/Machine/PowerEvents.lean ====
section
/-!
DEFINITION. Boot, refresh, temperature and power (R303, R304, R432 to R436), and what happens in memory of its own accord: a store
performed (R309, R310), an L1 line evicted (R42), a second-tier port failing (R305).
-/
namespace Sys2Proof.Machine

/-! ## Boot (R432) -/

/-- BOOT (R432): power-on starts the first stage. -/
def execBoot (s : State) : Ends :=
  .next (if s.morhan.stage == 0 then { s with morhan := { s.morhan with stage := 1 } } else s)

/-- Whether a failure code that comes from no image can stop a stage (R420, R432). -/
def failsAt (stage fail : Nat) : Bool :=
  match fail with
  | 3 => stage == 4
  | 4 => stage == 5
  | 5 => true
  | _ => false

/-- Whether an image is signed by the vendor key of the fuses (R431). -/
def imageSigned (b : BootImage) : Bool :=
  b.key.length == 1952 && b.signature.length == 3309 && Config.shake256 32 b.key == Config.vendorKeyDigest
    && Config.mlDsaVerify b.key b.version b.body b.signature

/-- What a stage finds in the images that it checks: 0, or 1 for a signature, 2 for a security version below the fuses' (R420, R431). -/
def imagesFlaw (l : List BootImage) : Nat :=
  if l.any fun b => !imageSigned b then 1 else if l.any fun b => b.version.toNat < Config.securityVersion.toNat then 2 else 0

/-- How many images a stage checks: Morhan's firmware; the sequencer's and the link's (R432). -/
def stageImages (stage : Nat) : Nat := match stage with
  | 1 => 1
  | 2 => 2
  | _ => 0

/-- Morhan lays the identity key's certificate where ATTEST says it lies (R433). -/
def State.layCertificate (s : State) : State := s.put (Config.package * 2 ^ 46 + certificateAddress.toNat) Config.certificate

/-- BOOT_STAGE (R431, R432): the stage completes, or fails with a code and stops there. The images of stages 1 and 2 must hold; the seventh opens
the mailbox, the certificate in place. -/
def execBootStage (e : StageEnd) (s : State) : Ends :=
  let m := s.morhan
  let stops (code : Nat) : State := { s with morhan := { m with fail := code } }
  .next (if m.stage == 0 || 7 ≤ m.stage || m.fail != 0 then s
    else match e with
      | .failed code => if failsAt m.stage code then stops code else s
      | .checked images =>
        if images.length != stageImages m.stage then s
        else if imagesFlaw images != 0 then stops (imagesFlaw images)
        else
          let s := { s with morhan := { m with stage := m.stage + 1, firmware := m.firmware ++ images.map (·.body) } }
          if m.stage == 6 then s.layCertificate.fetchSlots s.host.unread.length else s)

/-! ## Stacks (R303, R304) -/

/-- REFRESH (R303): a group whose timestamp lies within the last Tr / 2 is skipped. -/
def execRefresh (stack : Fin 12) (group : Nat) (s : State) : Ends :=
  .next (s.updStack stack fun x =>
    match Tbl.find? x.groups group with
    | some t => if s.cycle < t + x.tr / 2 then x else { x with groups := Tbl.set x.groups group s.cycle }
    | none => { x with groups := Tbl.set x.groups group s.cycle })

/-- What the hottest layer does to its stack (R304). -/
def Stack.govern (x : Stack) : Stack :=
  let t := x.hottest
  { x with
    tr := if 85 ≤ t then 40000000 else if t < 82 then 80000000 else x.tr
    throttled := if 95 ≤ t then true else if t < 92 then false else x.throttled
    stopped := x.stopped || 105 ≤ t }

/-- TEMPERATURE_THRESHOLD (R304): what was on its way to a stack that stops fails. -/
def execTemperatureThreshold (stack : Fin 12) (layer : Fin 16) (deg : Nat) (s : State) : Ends :=
  let t := s.updStack stack fun x => { x with layers := x.layers.set layer.val deg }.govern
  .next (if t.hbmStacks[stack.val].stopped && !s.hbmStacks[stack.val].stopped then
      t.loseWrites (fun _ q => t.stopped q) fun va q => ⟨.ecc, 0, va, word (eccCode q), [], none⟩
    else t)

/-- Halt every hart and region task (R436). -/
def State.haltAll (s : State) : State :=
  let busy := s.tasks.filter fun ((_, k) : Nat × Task) => [TaskState.running, .parked, .draining, .checkpointing].contains k.state
  let s := busy.foldl (fun s x => s.killTask x.1) s
  allHarts.foldl (fun s h => s.updHart h fun x => { x with run := .halted none }) s

/-- CATASTROPHIC_TEMPERATURE (R304, R436): a layer at 105 °C, or a junction at 110 °C. -/
def execCatastrophicTemperature (junction : Nat) (s : State) : Ends :=
  .next (if !(s.hbmStacks.toList.any fun x => 105 ≤ x.hottest) && junction < 110 || s.morhan.shutdown then s
    else
      let s := (s.launches.filter fun x => x.2.live).foldl (fun s x => s.endLaunch x.1 2 Cause.ecc.code 0) s
      ({ s.haltAll with morhan := { s.morhan with shutdown := true } }).postStatus 0 0 6 0)

/-! ## Errors (R416) -/

/-- An error of the wait-for table, a pool or an extension ends the launch that owns what it struck. -/
def State.loseLaunch (s : State) (l : Nat) : State := s.endLaunch l 2 Cause.ecc.code 0

/-- The record that stands for one that its parity gives up: a lost record, of one (R416, R417). -/
def State.lostRecord (s : State) : BitVec 128 := BitVec.ofNat 128 (s.cycle % 2 ^ 32 + 8 * 2 ^ 32 + 2 ^ 64)

/-- A correctable error of a structure code is counted on its die. -/
def State.countError (s : State) (d : Fin 6) (code : Nat) : State :=
  if 1 ≤ code && code ≤ 7 then s.updDie d fun x => { x with errs := Tbl.upd x.errs code 0 (· + 1) } else s

/-- An error strikes (R416). A line of an L1 is refetched, and the code that found it out counts it like a bit that it corrects. -/
def State.suffer (s : State) : Damage → State
  | .line ln => s.strike ln
  | .register h r =>
    if r == 0 || r == 96 || 104 ≤ r then s else s.updHart h fun x => { x with ctx := { x.ctx with bad := x.ctx.bad ++ [r] } }
  | .l1 core ln =>
    { s with
      l1 := Tbl.upd s.l1 core.val [] fun l => l.filter (·.1 != ln)
      il1 := Tbl.upd s.il1 core.val [] fun l => l.filter (·.1 != ln) }.countError ⟨core.val / 32, by omega⟩ 2
  | .entry die idx => match (s.getDie die).wft[idx]? with
    | some e => s.loseLaunch (s.launchOf e)
    | none => s
  | .record die idx => match ((s.getDie die).pool ++ (s.getDie die).memq)[idx]? with
    | some r => s.loseLaunch r.launch
    | none => s
  | .area die idx => match (s.getDie die).sleepers[idx]? with
    | some z => s.loseLaunch z.ctx.cont.launch
    | none => s
  | .trace core idx => { s with traces := Tbl.upd s.traces core.val {} fun t => { t with recs := t.recs.set idx s.lostRecord } }
  | .corrected die code => s.countError die code

/-! ## Power (R434, R435) -/

/-- One more step of idling, in the order of R435. -/
def Morhan.idleMore (m : Morhan) : Morhan :=
  if m.idleMatrix < 16 then { m with idleMatrix := m.idleMatrix + 1 }
  else if m.idleVector < 16 then { m with idleVector := m.idleVector + 1 }
  else if m.idleHart < 16 then { m with idleHart := m.idleHart + 1 }
  else m

/-- One step back. -/
def Morhan.idleLess (m : Morhan) : Morhan :=
  if 0 < m.idleHart then { m with idleHart := m.idleHart - 1 }
  else if 0 < m.idleVector then { m with idleVector := m.idleVector - 1 }
  else { m with idleMatrix := m.idleMatrix - 1 }

/-- POWER_WINDOW (R435): the average of a window against the cap. -/
def execPowerWindow (watts : Nat) (s : State) : Ends :=
  let m := { s.morhan with average := watts }
  .next { s with morhan := if m.cap < watts then m.idleMore else if watts * 100 < m.cap * 95 then m.idleLess else m }

/-! ## Memory -/

/-- Whether a hart's store in flight may be performed: no earlier one of the hart meets its bytes, nor is one still to reach a replica there
(R42, R310), no fence stands before it (R122), and its links are up. -/
def State.mayPerform (s : State) (h : HartId) (fl : List Flight) (idx : Nat) (f : Flight) : Bool :=
  let meet (a b : Flight) : Bool := a.pas.any fun p => b.pas.any fun q => meets p a.bytes.length q b.bytes.length
  f.fence.isNone && !(fl.take idx).any (fun g => g.fence.isSome || meet g f) && f.pas.all (fun q => s.reaches (hartDie h) q)
    && !(s.casts.any fun c => c.agent == hartAgent h && c.pas.any fun p => f.pas.any fun q => meets p c.bytes.length q f.bytes.length)

/-- The places in the list of writes on their way of a hart's own. -/
def State.castsOf (s : State) (h : HartId) : List Nat := (s.casts.zipIdx.filter fun x => x.1.agent == hartAgent h).map (·.2)

/-- WRITE_PERFORMED (R309, R310): a store in flight reaches its point of coherence; beyond those, the hart's multicast stores reach their
next replica (R321, R322). -/
def execWritePerformed (h : HartId) (idx : Nat) (s : State) : Ends :=
  let fl := (s.hart h).ctx.stores
  .next (match fl[idx]? with
    | some f =>
      if s.mayPerform h fl idx f then
        ((s.updHart h fun x => { x with ctx := { x.ctx with stores := x.ctx.stores.eraseIdx idx } }).performFlight h f).trimFences h
      else s
    | none => match (s.castsOf h)[idx - fl.length]? with
      | some k => (s.landOne k).trimFences h
      | none => s)

/-- L1_LINE_EVICTION (R42). -/
def execL1LineEviction (core : Fin 192) (line : Nat) (s : State) : Ends :=
  .next { s with l1 := Tbl.upd s.l1 core.val [] fun l => l.filter (·.1 != line) }

/-- SECOND_TIER_PORT_FAILURE (R305). -/
def execSecondTierPortFailure (port : Fin 16) (s : State) : Ends :=
  .next (if s.portDown.contains port.val then s else { s with portDown := s.portDown ++ [port.val] })

end Sys2Proof.Machine
end

