-- ==== Sys2Proof/Machine/SchedOps.lean ====
section
/-!
DEFINITION. Scheduling, major 0x36 (R120), and DRAINW (R124).
-/
namespace Sys2Proof.Machine

/-- The record a SPAWN makes (R120, R211). -/
def State.childRec (s : State) (code frame join : Word) (pa : Option Nat := none) : Rec :=
  { uid := s.nextCont, launch := s.myLaunch, code := code, frame := frame, join := join, joinPa := pa, prio := s.ctx.bprio
    seed := nextSeed s.ctx.stochseed, node := false, time := s.cycle, saved := none }

/-- SPAWN (R120, R377): a release, then the join count, then the record. -/
def execSpawn (d a b : SReg) (s : State) : Ends := ends s do
  let code := s.rd a
  let frame := s.rd b
  let join := s.rd d
  demand (code.toNat % 4 == 0) .misalign 0 code
  demand (frame.toNat % 64 == 0) .misalign 0 frame
  let pa ← if join = 0 then pure none else some <$> objectM join 16 16 true
  if !((← get).getDie s.die).spawnRoom then waitM .launch (memqKey s.die) 0
  releaseM
  match pa with
  | some p =>
    doS fun t => t.objPut p (leBytes 8 (t.valueAt p 8 + 1))
    seeM p 8 join 3
  | none => pure ()
  doS fun t => { t.enterRecord t.die (t.childRec code frame join pa) with nextCont := t.nextCont + 1 }
  doS fun t => if t.myLaunch == 0 then t else t.updLaunch t.myLaunch fun l => { l with conts := l.conts + 1 }

/-- JOIN (R120). No cause is stated for a join record whose reserved word is non-zero; it is not read (assumption 74). -/
def execJoin (d a : SReg) (s : State) : Ends := ends s do
  let pa ← objectM (s.rd a) 16 16 false
  let t ← get
  if t.ctx.grant.isNone then seeM pa 8 (s.rd a) 2
  if t.ctx.grant != some (.word 0) && t.valueAt pa 8 != 0 then waitM .join (.mem pa) (s.rd a) 0 (some t)
  doS State.acquire
  wrM d 0

/-- YIELD (R120): to any ready record of its priority or above, handler mode included (assumption 76). Where only the reserve of the pool is
left, which it may not use (R377), it changes places with a record of its own pool, or goes on. -/
def execYield (s : State) : Ends :=
  let rivals := s.readyRecs.any fun x => decide (s.me.eprio.toNat ≤ s.recPrio x.2)
  let t := s.complete.shelve s.cur none
  .next (if !rivals then s.complete
    else if 256 < (s.getDie s.die).poolFree then t
    else match t.pick s.cur with
      | some ((d, r), u) => if d == s.die && r.uid != s.ctx.cont.uid then u.dispatch s.cur d r else s.complete
      | none => s.complete)

/-- EXIT (R120, R331): ILLEGAL in handler mode (R97). -/
def execExit (s : State) : Ends := ends s do
  demand (!s.me.hm) .illegal
  releaseM
  doS State.releaseLog
  doS fun t => allDies.foldl State.closeAll t
  doS fun t => t.depart t.myself 0
  doS fun t => t.endCont t.die t.ctx.cont (some t.agent)
  doS fun t => (t.updMe Hart.free).reprio
  doS fun t => t.settleLaunch s.myLaunch
  throw .done

/-- LAUNCH (R120, R97, R374). -/
def execLaunch (d a b : SReg) (s : State) : Ends := ends s do
  let va := s.rd a
  demand (va.toNat % 128 == 0) .misalign 0 va
  let r ← readRecordM (.object false) va 128
  demand (s.me.pl || fieldOf r 2 2 % 1024 == s.me.asid.toNat) .priv
  let q := wfld (s.rd b) 0 6
  let t ← get
  if 256 ≤ (Tbl.getD t.queues q {}).recs.length then waitM .launch (.queue q) 0
  releaseM
  let cap := if t.myLaunch == 0 then 15 else (t.launch t.myLaunch).prio.toNat
  doS fun t => { t with queues := Tbl.upd t.queues q {} fun x => { x with recs := x.recs ++ [⟨r, false, cap⟩] } }
  wrM d (word (fieldOf r 24 8))

/-- PRIO (R120): no higher than the launch's priority. -/
def execPrio (d a : SReg) (s : State) : Ends := ends s do
  let old := s.ctx.bprio
  let cap := if s.myLaunch == 0 then 15 else (s.launch s.myLaunch).prio.toNat
  doS fun t => (t.updCtx fun c => { c with bprio := BitVec.ofNat 4 (min (wfld (s.rd a) 0 4) cap) }).reprio
  wrM d (old.zeroExtend 64)

/-- ESTIM (R120, R383). -/
def execEstim (a b : SReg) (s : State) : Ends := ends s do
  let n := min (s.rd a).toNat (2 ^ 40 - 1)
  if s.rd b = 0 then doS fun t => t.updCtx fun c => { c with estim := n }
  else
    let t ← taskM (s.rd b)
    doS fun x => x.updTask t fun k => { k with estim := n }

/-- SELF (R120). -/
def execSelf (d : SReg) (s : State) : Ends :=
  .next (s.result d (word (s.me.asid.toNat * 2 ^ 48 + Config.package % 4096 * 2 ^ 32 + s.agent)))

/-- DRAINW (R124): an acquire after a drain, or on a drained task; a release that ended its wait gives the word, whatever has become of
the context since. -/
def execDrainw (d a : SReg) (s : State) : Ends := ends s do
  match s.ctx.grant with
  | some (.word w) =>
    if wfld w 60 4 == 5 then
      match regionRef s.die.val (s.rd a) with
      | some r => doS fun x => x.acquireTask r.task
      | none => pure ()
    wrM d w
  | _ =>
    let t ← taskM (s.rd a)
    heldFaultM t
    let x ← get
    match (x.task t).state with
    | .running | .parked | .draining | .checkpointing => waitM .region (.task t) 0
    | .drained =>
      doS fun x => x.acquireTask t
      wrM d (x.fstatWord t)
    | _ => wrM d (x.fstatWord t)

end Sys2Proof.Machine
end

