-- ==== Sys2Proof/Machine/SyncOps.lean ====
section
/-!
DEFINITION. Atomics, barriers, locks, the wait-for table and ordering: majors 0x33, 0x34, 0x35 and FENCE, SBAR of 0x37
(R113 to R119, R121 to R123).
-/
namespace Sys2Proof.Machine

/-! ## Atomics (R113, R114) -/

/-- A checked atomic's word (R98, R113, R115): writable words must not be protected. -/
def atomicM (va : Word) (write : Bool) : M Nat := do
  let pa ← objectM va 8 8 write
  let s ← get
  demand (!(write && s.protectedAt pa 8)) .access 0 va
  demand (!s.broken pa) .ecc 0 va 3
  pure pa

/-- Read or write a word at its home slice in one step, and note the watchpoints (R113, R135); no line stays in L1 (R114). `acc` is
the access that a watchpoint sees: 1 a write, 3 both. Tracing records the read and the write (R134, R417). -/
def State.atomicWrite (s : State) (pa : Nat) (va v : Word) (acc : Nat := 3) : State :=
  let s := ((s.objPut pa (leBytes 8 v.toNat)).noteLater (hartCore s.cur) s.agent pa (leBytes 8 v.toNat)).watch pa 8 va acc .hart s.agent
    s.me.asid.toNat (some s.pc)
  (if acc == 3 then s.traceEvent 3 8 va.toNat else s).traceEvent 4 8 va.toNat

def State.atomicRead (s : State) (pa : Nat) (va : Word) : State :=
  (s.watch pa 8 va 2 .hart s.agent s.me.asid.toNat (some s.pc)).traceEvent 3 8 va.toNat

def wordAtM (pa : Nat) : M Word := do return word ((← get).valueAt pa 8)

/-- CAS (R113). -/
def execCas (d a b : SReg) (s : State) : Ends := ends s do
  let pa ← atomicM (s.rd a) true
  releaseM
  let o ← wordAtM pa
  if o = s.rd d then doS fun t => t.atomicWrite pa (s.rd a) (s.rd b) else doS fun t => t.atomicRead pa (s.rd a)
  doS State.acquire
  wrM d o

/-- DCAS (R113): two words, or one word twice when the addresses are equal. -/
def execDcas (d a b : SReg) (s : State) : Ends := ends s do
  let p ← atomicM (s.rd a) true
  let q ← atomicM (s.rd (a + 1)) true
  releaseM
  let o1 ← wordAtM p
  let o2 ← wordAtM q
  if o1 = s.rd d ∧ o2 = s.rd (d + 1) then
    doS fun t => t.atomicWrite p (s.rd a) (s.rd b)
    doS fun t => t.atomicWrite q (s.rd (a + 1)) (s.rd (b + 1))
  else
    doS fun t => (t.atomicRead p (s.rd a)).atomicRead q (s.rd (a + 1))
  doS State.acquire
  wrM d o1
  wrM (d + 1) o2

/-- AMOVE (R113). -/
def execAmove (d a b : SReg) (s : State) : Ends := ends s do
  let p ← atomicM (s.rd a) true
  let q ← atomicM (s.rd b) false
  releaseM
  let v ← wordAtM q
  let o ← wordAtM p
  doS fun t => (t.atomicRead q (s.rd b)).atomicWrite p (s.rd a) v
  doS State.acquire
  wrM d o

/-- SWAP (R113). -/
def execSwap (d a b : SReg) (s : State) : Ends := ends s do
  let p ← atomicM (s.rd a) true
  releaseM
  let o ← wordAtM p
  doS fun t => t.atomicWrite p (s.rd a) (s.rd b)
  doS State.acquire
  wrM d o

/-- LDAQ (R113, R114): at the home slice; L1 is dropped before any later load. The hart's own stores to the word come first. -/
def execLdaq (d a : SReg) (s : State) : Ends := ends s do
  let p ← atomicM (s.rd a) false
  let v ← wordAtM p
  doS fun t => (t.atomicRead p (s.rd a)).acquire
  wrM d v

/-- STRL (R113, R114). -/
def execStrl (a b : SReg) (s : State) : Ends := ends s do
  let p ← atomicM (s.rd a) true
  releaseM
  doS fun t => t.atomicWrite p (s.rd a) (s.rd b) 1

/-! ## Barriers (R115 to R117) -/

/-- The running continuation's holding of an object: 3 a participation, 4 a lock, 5 a WHOLD (R119). -/
def State.myHold (s : State) (k : ObjKey) (kind : Nat) : Option WEntry := (s.holdings k).find? fun e => e.kind == kind && e.party.same s.myself

/-- BINIT (R117). -/
def execBinit (d a b : SReg) (s : State) : Ends := ends s do
  let pa ← objectM (s.rd a) 16 16 true
  let key := ObjKey.mem pa
  let n := wfld (s.rd b) 0 32
  let t ← get
  if n < 1 ∨ 2 ^ 31 - 1 < n then wrM d 1
  else if t.waiters key != [] then wrM d 2
  else
    roomM key (if (t.objOf key).isSome then 0 else 1) 3 (s.rd a) 0
    doS fun t => t.addObj key 3
    doS fun t => t.mapEntries key fun e => if e.typ == .obj then { e with bar := true, reserved := true, told := false, owed := none } else e
    doS fun t => t.dropEntries key fun e => e.typ == .hold
    doS fun t => t.updDie key.home fun x => { x with departed := x.departed.filter (·.key != key) }
    doS fun t => (t.objPut pa (leBytes 4 n ++ leBytes 4 0 ++ leBytes 4 (t.barGen pa + 1) ++ leBytes 4 0)).reprio
    seeM pa 16 (s.rd a) 3
    wrM d 0

/-- The arrival of BARR and BARW (R117): status 1 when ABORTED, 2 when already arrived, else 0, with the generation. -/
def arriveM (pa : Nat) (va : Word) : M (Nat × Nat) := do
  let t ← get
  let key := ObjKey.mem pa
  let g := t.barGen pa
  if (t.barState pa).testBit 0 then pure (1, g)
  else
    let mine := t.myHold key 3
    if (mine.map (·.arrived)).getD false then pure (2, g)
    else
      if mine.isNone then
        roomM key (t.need key) 3 va 0
        doS fun t => t.addHold key 3 va false
      releaseM
      doS fun t => t.mapEntries key fun e => if e.typ == .hold && e.kind == 3 && e.party.same t.myself then { e with arrived := true } else e
      doS fun t => t.objPut (pa + 4) (leBytes 4 (t.barArrived pa + 1))
      let t ← get
      if t.barArrived pa == t.barExpected pa then doS fun t => t.nextGen pa
      else if t.barArrived pa == 1 then doS fun t => t.firstArrivalTest pa t.myself
      pure (0, g)

/-- Whether the report of an orphaned barrier falls to a unit that waits now (R332, R368): the first arrival to which the test fell, or
with none, the first to wait. -/
def State.mayOrphan (s : State) (pa : Nat) (p : Party) : Bool :=
  (s.barState pa).testBit 1 && match s.objOf (.mem pa) with
    | none => true
    | some o => !o.told && match o.owed with
      | some (a, u) => (Party.mk a u).same p
      | none => true

/-- The wait of BWAIT and BARW (R117, R368): until the generation moves on or the barrier is aborted. -/
def barWaitM (pa : Nat) (va : Word) (g aux : Nat) : M Word := do
  let t ← get
  let key := ObjKey.mem pa
  match t.ctx.grant with
  | some (.barrier ab) => doS State.acquire; pure (if ab then 1 else 0)
  | _ =>
    if (t.barState pa).testBit 0 then doS State.acquire; pure 1
    else if t.barGen pa != g then doS State.acquire; pure 0
    else if t.mayOrphan pa t.myself then
      doS fun t => t.mapEntries key fun e => if e.typ == .obj then { e with told := true } else e
      let t ← get
      throw (.trap ⟨.orphan, min (t.departedOf pa).length 4095, va, word aux, t.orphanRecord pa va, none⟩)
    else waitM .barrier key va aux

/-- BARR (R117). -/
def execBarr (d a : SReg) (s : State) : Ends := ends s do
  let pa ← objectM (s.rd a) 16 16 true
  let r ← arriveM pa (s.rd a)
  seeM pa 16 (s.rd a) (if r.1 == 0 then 3 else 2)
  wrM d (word (r.1 * 2 ^ 62 + r.2))

/-- BWAIT (R117). DESIGN CHOICE (assumption 94): its page must allow the write that the other barrier instructions need. -/
def execBwait (d a b : SReg) (s : State) : Ends := ends s do
  let pa ← objectM (s.rd a) 16 16 true
  if s.ctx.grant.isNone then seeM pa 16 (s.rd a) 2
  wrM d (← barWaitM pa (s.rd a) (wfld (s.rd b) 0 32) 0)

/-- BARW (R101, R117): once it has arrived, a later try resumes only the wait half. -/
def execBarw (d a : SReg) (s : State) : Ends := ends s do
  let pa ← objectM (s.rd a) 16 16 true
  match s.ctx.arrived.filter fun x => x.1 == s.pc with
  | some x => wrM d (← barWaitM pa (s.rd a) x.2 x.2)
  | none =>
    let r ← arriveM pa (s.rd a)
    seeM pa 16 (s.rd a) (if r.1 == 0 then 3 else 2)
    if r.1 != 0 then wrM d (word r.1)
    else
      doS fun t => t.updCtx fun c => { c with arrived := some (s.pc, r.2) }
      wrM d (← barWaitM pa (s.rd a) r.2 r.2)

/-- BADJ (R117). -/
def execBadj (d a b : SReg) (s : State) : Ends := ends s do
  let pa ← objectM (s.rd a) 16 16 true
  let key := ObjKey.mem pa
  let t ← get
  let n : Int := (t.barExpected pa : Int) + signed 32 (s.rd b).toNat
  seeM pa 16 (s.rd a) (if n < 1 ∨ (2 ^ 31 - 1 : Nat) < n then 2 else 3)
  if n < 1 ∨ (2 ^ 31 - 1 : Nat) < n then wrM d 2
  else
    doS fun t => t.objPut pa (leBytes 4 n.toNat)
    doS fun t => t.objPut (pa + 12) (leBytes 4 (t.barState pa &&& 0xFFFFFFFD))
    doS fun t => t.mapEntries key fun e => if e.typ == .obj then { e with told := false, owed := none } else e
    wrM d 0
    let t ← get
    if t.barExpected pa ≤ t.barArrived pa then doS fun t => t.nextGen pa

/-- BABORT (R117). -/
def execBabort (a : SReg) (s : State) : Ends := ends s do
  let pa ← objectM (s.rd a) 16 16 true
  seeM pa 16 (s.rd a) 3
  doS fun t => t.objPut (pa + 12) (leBytes 4 (t.barState pa ||| 1))
  doS fun t => t.wakeAll (.mem pa) (some (.barrier true))

/-! ## Locks (R115, R118) -/

/-- Whether the running continuation holds a lock word (R118). -/
def State.holdsLock (s : State) (pa : Nat) : Bool :=
  let w := s.valueAt pa 8
  lockHeld w && (match (s.holdings (.mem pa)).filter (·.kind == 4) with
    | [] => w % 2 ^ 32 == s.agent && w / 2 ^ 32 % 4096 == Config.package
    | l => l.any (·.party.same s.myself))

/-- Take a free lock (R118, R361): the old ABANDONED mark is the result. -/
def takeM (pa : Nat) (va : Word) : M Word := do
  let t ← get
  let key := ObjKey.mem pa
  let old := t.valueAt pa 8
  roomM key (t.need key) 4 va 0
  doS fun t => (t.addHold key 4 va false).objPut pa (leBytes 8 (lockWord t.myself))
  seeM pa 8 va 3
  doS State.acquire
  pure (if lockAbandoned old then 1 else 0)

/-- LKACQ (R118). No cause is stated for a lock or barrier word whose reserved bits are non-zero; they are ignored (assumption 74). -/
def execLkacq (d a : SReg) (s : State) : Ends := ends s do
  let pa ← objectM (s.rd a) 8 8 true
  let t ← get
  match t.ctx.grant with
  | some (.lock ab) => doS State.acquire; wrM d (if ab then 1 else 0)
  | _ =>
    if !lockHeld (t.valueAt pa 8) then wrM d (← takeM pa (s.rd a))
    else if t.holdsLock pa then
      let e := t.waitEntry .lock (.mem pa) (s.rd a) 0
      throw (.trap ⟨.deadlock, 1, 0, 0, t.cycleRecord [e] 0, none⟩)
    else
      seeM pa 8 (s.rd a) 2
      waitM .lock (.mem pa) (s.rd a) 0 (some t)

/-- LKTRY (R118). -/
def execLktry (d a : SReg) (s : State) : Ends := ends s do
  let pa ← objectM (s.rd a) 8 8 true
  let t ← get
  if !lockHeld (t.valueAt pa 8) then wrM d (← takeM pa (s.rd a))
  else
    seeM pa 8 (s.rd a) 2
    wrM d (if t.holdsLock pa then 3 else 2)

/-- LKREL (R118). -/
def execLkrel (a : SReg) (s : State) : Ends := ends s do
  let pa ← objectM (s.rd a) 8 8 true
  demand ((← get).holdsLock pa) .access 0 (s.rd a)
  releaseM
  seeM pa 8 (s.rd a) 3
  doS fun t => ((t.passLock pa false).tidy (.mem pa)).dropL1 (hartCore t.cur) pa 8

/-! ## The wait-for table (R119) -/

/-- WOBJ (R119): the class is the kind byte of the record (R358). -/
def execWobj (a b : SReg) (s : State) : Ends := ends s do
  let pa ← objectM (s.rd a) 8 8 false
  let key := ObjKey.mem pa
  if ((← get).objOf key).isNone then
    let kind := wfld (s.rd b) 0 8
    roomM key 1 kind (s.rd a) 0
    doS fun t => (t.addObj key kind).mapEntries key fun e => if e.typ == .obj then { e with reserved := true } else e

/-- Whether an object is a lock word with a holder or a waiter. -/
def State.isLock (s : State) (k : ObjKey) : Bool := (s.entries k).any fun e => e.kind == 4 && e.typ != .obj

/-- WHOLD (R119): a participant of a barrier, a holder of anything else; on a lock word, ACCESS. DESIGN CHOICE (assumption 95): a word with
bit 63 set that no record calls a barrier counts as a lock word. -/
def execWhold (a : SReg) (s : State) : Ends := ends s do
  let pa ← objectM (s.rd a) 8 8 false
  let key := ObjKey.mem pa
  let t ← get
  demand (!t.isLock key && !lockHeld (t.valueAt pa 8) || t.isBarrier key) .access 0 (s.rd a)
  let kind := if t.isBarrier key then 3 else 5
  if (t.myHold key kind).isNone then
    roomM key (t.need key) kind (s.rd a) 0
    doS fun t => t.addHold key kind (s.rd a) false

/-- WDROP (R119): a non-holder, and any lock word, is left unchanged. -/
def execWdrop (a : SReg) (s : State) : Ends := ends s do
  let pa ← objectM (s.rd a) 8 8 false
  let key := ObjKey.mem pa
  let t ← get
  if !t.isLock key then
    match t.myHold key 3 with
    | some e => doS fun t => (t.departBarrier pa e 2).reprio
    | none => if (t.myHold key 5).isSome then doS fun t => (t.dropEntries key fun x => x.typ == .hold && x.kind == 5 && x.party.same t.myself).reprio

/-- WWAIT (R119). -/
def execWwait (d a b : SReg) (s : State) : Ends := ends s do
  let pa ← objectM (s.rd a) 8 8 false
  let t ← get
  match t.ctx.grant with
  | some (.word v) => doS State.acquire; wrM d v
  | _ =>
    let v := word (t.valueAt pa 8)
    seeM pa 8 (s.rd a) 2
    if v ≠ s.rd b then
      doS State.acquire
      wrM d v
    else waitM .word (.mem pa) (s.rd a) 0 (some t)

/-- WQUERY (R119). -/
def execWquery (d a : SReg) (s : State) : Ends := ends s do
  let pa ← objectM (s.rd a) 8 8 false
  let t ← get
  let key := ObjKey.mem pa
  match t.objOf key with
  | none => wrM d 0
  | some o => wrM d (word (o.kind * 2 ^ 56 + min (t.waiters key).length 65535 * 2 ^ 40 + min (t.holdings key).length 65535 * 2 ^ 24))

/-- WCYCLE (R119): nothing is registered. -/
def execWcycle (d a : SReg) (s : State) : Ends := ends s do
  let pa ← objectM (s.rd a) 8 8 false
  let t ← get
  let key := ObjKey.mem pa
  let kind := if t.isBarrier key then 3 else if t.isLock key then 4
    else if (t.objOf key).any (·.kind == 6) || t.children key != [] then 6 else 5
  let e := { t.waitEntry .word key (s.rd a) 0 with kind := kind }
  wrM d (word (((t.cycleOf e).map (·.length)).getD 0))

/-! ## Ordering (R121 to R123) -/

/-- Whether a scope code is the agent's own: code 0, or a level scope that the launch binds to LANE (R121, R208). -/
def State.agentScope (s : State) (z : Fin 16) : Bool :=
  z == 0 || (8 ≤ z.val && (s.launch s.myLaunch).levels.any fun l => l.1 == 1 && l.2.1 == z.val)

/-- Stores that a hart's SC fences hold back are performed, when another SC fence follows whose scope and theirs include both issuers: the
stores up to the last such fence (R315). -/
def State.settleSc (s : State) (z : Fin 16) : State :=
  s.harts.foldl (fun s ((n, x) : Nat × Hart) =>
    if hn : n < 768 then
      let h : HartId := ⟨n, hn⟩
      let p := hartAgent h
      let meetsMe (f : Flight) : Bool := match f.fence with
        | some (true, w) => s.inScope w x.ctx.cont.launch p s.agent && s.inScope z s.myLaunch s.agent p
        | _ => false
      if p == s.agent then s
      else match x.ctx.stores.reverse.findIdx? meetsMe with
        | none => s
        | some i =>
          let k := x.ctx.stores.length - i
          let s := s.updHart h fun x => { x with ctx := { x.ctx with stores := x.ctx.stores.drop k } }
          ((x.ctx.stores.take k).foldl (fun s f => s.performFlight h f) s).landAgent p
    else s) s

/-- The release of a fence (R122, R315): the earlier stores are performed now or, in a turn that leaves stores in flight, only before any
later store. -/
def fenceReleaseM (sc : Bool) (z : Fin 16) : M Unit := do
  let s ← get
  if s.me.late && s.ctx.stores.all (fun f => f.pas.all fun q => s.reaches s.die q) then
    if s.ctx.stores != [] || s.casts.any (·.agent == s.agent) then
      doS fun s => s.updCtx fun c => { c with stores := c.stores ++ [{ pas := [], bytes := [], va := 0, fence := some (sc, z) }] }
  else flushM

/-- FENCE (R122, R312, R315): at agent scope it orders nothing more. -/
def execFence (z : Fin 16) (k : Fin 4) (s : State) : Ends := ends s do
  if !s.agentScope z then
    if k ≠ 0 then
      fenceReleaseM (k == 3) z
      doS fun s => s.escape z
    if k = 3 then doS fun s => s.settleSc z
    if k ≠ 1 then doS fun s => s.acquireScope z

/-- The copies a hart issued that have not ended, gathers or not (R123). -/
def State.myCopies (s : State) (gather : Bool) : List Copy :=
  allDies.flatMap fun d => (s.copiesOf d).filter fun c => c.owner == s.agent && c.state < 2 && (c.blk.kind == 2) == gather

/-- Ingress takes 16 pairs a cycle: while more can pass, the instruction goes on with its next cycle (R338). Wait while some released
emission of the continuation is held at ingress (R111, R349); a wait that cannot be made leaves the state before the instruction
(R99, R361). -/
def closedM (before : State) : M Unit := do
  let s ← get
  match s.openDie s.myself with
  | some d =>
    if s.passing s.myself then throw .done
    waitM .apply (.parterre d.val) 0 0 (some before)
  | none => pure ()

/-- Let the ingress of every die take what a cycle allows of what no throttle holds back (R338). -/
def State.closeEach (s : State) : State := allDies.foldl (fun s d => s.closeN d 16) s

/-- SBAR (R123): stores performed, copies and gathers ended, emissions closed. -/
def execSbar (u g c t : Bool) (s : State) : Ends := ends s do
  if t then releaseM
  if u then
    doS State.releaseLog
    doS State.closeEach
    closedM s
  let here ← get
  match (if c then here.myCopies false else []) ++ (if g then here.myCopies true else []) with
  | x :: _ => waitM .copy (.copy x.id) 0 0 (some s)
  | [] => pure ()

end Sys2Proof.Machine
end

