-- ==== Sys2Proof/Machine/UpdateOps.lean ====
section
/-!
DEFINITION. Update regions, major 0x32 (R108 to R112), and the Parterre's own steps: ingress, pre-combining, binning, background
apply (R338, R344, R345, R350).
-/
namespace Sys2Proof.Machine

/-! ## Emission -/

/-- UPD (R110): the checks of UPDV at the region's element size; with no region, at 4 bytes. -/
def execUpd (a b : SReg) (s : State) : Ends := ends s do
  let va := s.rd a
  let size := match s.regionOf s.me.asid.toNat va with | some r => etypeBytes r.2.etype | none => 4
  let (pa, rid, r) ← checkUpdM va size none 0
  doS fun t => t.emitPair pa rid (pairValue r.etype (s.rd b))

/-- UFENCE (R111): closing does not depend on the scope, which says who is promised the emissions. -/
def execUfence (a : SReg) (s : State) : Ends := ends s do
  let z := Fin.ofNat 16 (wfld (s.rd a) 0 4)
  doS fun t => ((t.releaseLog true).promise t.myself (t.agent, t.myLaunch, z)).closeEach
  closedM s

/-! ## Regions -/

/-- The physical lines of a part of a region. -/
def URegion.lines (r : URegion) (va n : Nat) : List Nat :=
  r.segs.flatMap fun g =>
    let lo := max va g.1
    let hi := min (va + n) (g.1 + g.2.2)
    if lo < hi then linesOf (g.2.1 + (lo - g.1)) (hi - lo) else []

/-- Every line at which pairs of a region wait, closed (R112). -/
def State.pendingLines (s : State) (rid : Nat) : List Nat :=
  (s.dies.toList.flatMap fun d =>
    (d.par.flight.filter (·.rid == rid)).map (·.pa / 64) ++ (d.par.pre.filter (·.pair.rid == rid)).map (·.pair.pa / 64)
    ++ ((d.par.bins ++ d.par.runs).filter (·.rid == rid)).map (·.line)).eraseDups

/-- Occupancy and throttles of every die follow (R348, R349). -/
def State.settleAll (s : State) : State := allDies.foldl State.settleBins s

/-- UAPPLY (R112, R349): it waits while ingress is throttled. -/
def execUapply (a b : SReg) (s : State) : Ends := ends s do
  let va := s.rd a
  let n := (s.rd b).toNat
  if n ≠ 0 then
    match s.regionOf s.me.asid.toNat va with
    | none => trapM .uregion 0 va
    | some (_, r) =>
      demand (va.toNat + n ≤ r.base.toNat + r.size) .uregion 0 va
      if r.throttled || s.throttled s.myself s.myLaunch 4 then waitM .apply (.parterre s.die.val) 0
      doS fun t => ((r.lines va.toNat n).foldl State.applyLine t).settleAll

/-- Whether a pair of operator and element type is valid (R109). -/
def pairValid (etype op : Nat) : Bool :=
  match op with
  | 0 => etype ≤ 3
  | 1 | 2 => etype == 0 || etype == 2 || etype == 4
  | 3 | 4 | 5 => etype == 5 || etype == 6
  | _ => true

/-- Translate a range page by page in an ASID (R109): its segments, and the state with what the walks installed; none when a page
fails reason 3. -/
def State.segments (s : State) (d : Fin 6) (asid : Nat) (sys : Bool) : Nat → Nat → Nat → Option (List (Nat × Nat × Nat) × State)
  | 0, _, _ => none
  | fuel + 1, va, n =>
    if n = 0 then some ([], s)
    else if !canonical (word va) then none
    else
      match s.translate d asid va with
      | (_, .error _) => none
      | (t, .ok e) =>
        let pa := e.pa + (va % 2 ^ 57 - e.va)
        let k := min n (e.size - (va % 2 ^ 57 - e.va))
        if e.r && e.w && (sys || e.prog) && isHbm pa && e.repl.isNone && !t.aliased pa && !t.closedArea pa k then
          (State.segments t d asid sys fuel (va + k) (n - k)).map fun x => ((va, pa, k) :: x.1, x.2)
        else none

/-- UREGION (R108, R109). -/
def execUregion (d a : SReg) (s : State) : Ends := ends s do
  let va := s.rd a
  demand (va.toNat % 32 == 0) .misalign 0 va
  let r ← readRecordM (.object false) va 32
  let base := fieldOf r 0 8
  let size := fieldOf r 8 8
  let etype := fieldOf r 16 1
  let op := fieldOf r 17 1
  let asid := fieldOf r 18 2
  let fail (why : Nat) (b : Bool) : M Unit := demand (!b) .uregion why va
  fail 1 (1024 ≤ asid || !zeroSpan r 20 12 || 6 < etype || 6 < op)
  fail 2 (!pairValid etype op)
  demand (s.me.pl || asid == s.me.asid.toNat) .priv
  fail 3 (base % 256 != 0 || size % 256 != 0 || size == 0 || 2 ^ 46 < size || 2 ^ 64 < base + size)
  let t ← get
  match t.segments t.die asid t.me.pl (size / 65536 + 2) base size with
  | none => trapM .uregion 3 va
  | some (segs, t) =>
    set t
    fail 4 (t.regions.any fun ((_, x) : Nat × URegion) => x.segs.any fun g => segs.any fun h => meets g.2.1 g.2.2 h.2.1 h.2.2)
    fail 5 (4095 ≤ t.regions.length)
    fail 6 (segs.any fun g => pkgOf g.2.1 != Config.package)
    -- which free id is issued is not specified (R109): a free choice among them
    let free := (List.range 4095).filterMap fun i =>
      if t.regions.any fun ((k, _) : Nat × URegion) => k % 4096 == i + 1 then none else some (i + 1)
    let f := t.fresh
    let id := free.getD (Config.freeChoice f.1 % free.length) 1
    let region : URegion := { base := word base, size := size, etype := etype, op := op, asid := asid, segs := segs }
    let inside (ln : Nat) : Bool := segs.any fun g => meets (ln * 64) 64 g.2.1 g.2.2
    set { f.2 with
      regions := Tbl.set f.2.regions (f.1 * 4096 + id) region
      l1 := f.2.l1.map fun ((c, l) : Nat × List (Nat × Line)) => (c, l.filter fun x => !inside x.1)
      il1 := f.2.il1.map fun ((c, l) : Nat × List (Nat × Line)) => (c, l.filter fun x => !inside x.1)
      olds := f.2.olds.filter fun x => !inside x.2.1 }
    doS State.settleAll
    wrM d (word id)

/-- The live region an id names in the issuer's ASID (R112). -/
def State.regionNamed (s : State) (asid : Nat) (id : Nat) : Option (Nat × URegion) :=
  List.find? (fun ((k, r) : Nat × URegion) => k % 4096 == id && id < 4096 && r.asid == asid) s.regions

/-- UFREE (R112, R353): every closed pair of the region is applied, and the region is ordinary memory. -/
def execUfree (a : SReg) (s : State) : Ends := ends s do
  match s.regionNamed s.me.asid.toNat (s.rd a).toNat with
  | none => openTrapM .uregion
  | some (k, _) =>
    doS fun t => (t.pendingLines k).foldl State.applyLine t
    doS fun t => { t with regions := Tbl.erase t.regions k }
    doS State.settleAll

/-- USTAT (R112). -/
def execUstat (d a : SReg) (s : State) : Ends := ends s do
  if s.rd a = 0 then wrM d (word (s.getDie s.die).par.drops)
  else
    match s.regionNamed s.me.asid.toNat (s.rd a).toNat with
    | none => openTrapM .uregion
    | some (k, r) =>
      let bins := s.dies.toList.flatMap fun x => x.par.bins.filter (·.rid == k)
      let runs := s.dies.toList.flatMap fun x => x.par.runs.filter (·.rid == k)
      let lines := ((bins ++ runs).map (·.line)).eraseDups.length
      let pairs := ((bins ++ runs).map (·.entries.length)).foldl (· + ·) 0
      wrM d (word (r.throttled.toNat * 2 ^ 63 + (runs != []).toNat * 2 ^ 62 + min lines (2 ^ 24 - 1) * 2 ^ 32 + min pairs (2 ^ 32 - 1)))

/-! ## The Parterre's steps -/

/-- INGRESS_CLOSE (R338): up to 16 released pairs pass in a cycle, and the fences that waited for them go on. -/
def execIngressClose (die : Fin 6) (n : Nat) (s : State) : Ends :=
  let t := s.closeN die (min n 16)
  .next (if (t.getDie die).par.ingress == (s.getDie die).par.ingress then t else t.wakeAll (.parterre die.val) none)

/-- PRECOMBINE_EXPIRY (R344): an entry leaves for its home die. -/
def execPrecombineExpiry (die : Fin 6) (idx : Nat) (s : State) : Ends :=
  .next (s.updPar die fun p =>
    match p.pre[idx]? with
    | some e => { p with pre := p.pre.eraseIdx idx, flight := p.flight ++ [e.pair] }
    | none => p)

/-- BIN_MERGE (R345): a pair reaches its bin; none overtakes one of the same agent for the same element (R338). -/
def execBinMerge (die : Fin 6) (idx : Nat) (s : State) : Ends :=
  let l := (s.getDie die).par.flight
  match l[idx]? with
  | none => .next s
  | some p =>
    if (l.take idx).any p.tied then .next s
    else .next (((s.updPar die fun x => { x with flight := x.flight.eraseIdx idx }).toBin p).settleBins (homeDie p.pa))

/-- The units that have pairs in the bins and runs of a line, and so the line's place among background applies: the highest effective
priority of those that live (R371). -/
def State.linePrio (s : State) (p : Parterre) (ln : Nat) : Nat :=
  let l := s.effPrio
  let units := (((p.runs ++ p.bins).filter (·.line == ln)).flatMap (·.entries)).flatMap (·.who)
  (l.filter fun x => units.any fun u => x.1.same ⟨u.1, u.2⟩).foldl (fun m x => max m x.2) 0

/-- Whether the Parterre turns to a line now: runs first while the die is throttled, then by effective priority (R349, R371,
assumption 75). -/
def State.applyNext (s : State) (ln : Nat) : Bool :=
  let p := (s.getDie (homeDie (ln * 64))).par
  let inRun (n : Nat) : Bool := p.throttled && p.runs.any (·.line == n)
  ((p.runs ++ p.bins).map (·.line)).all fun n =>
    if inRun ln then !inRun n || s.linePrio p n ≤ s.linePrio p ln else !inRun n && s.linePrio p n ≤ s.linePrio p ln

/-- BACKGROUND_APPLY (R350). -/
def execBackgroundApply (line : Nat) (s : State) : Ends :=
  .next (if s.applyNext line then (s.applyLine line).settleBins (homeDie (line * 64)) else s)

end Sys2Proof.Machine
end

