-- ==== Sys2Proof/Machine/Dispatch.lean ====
section
/-!
DEFINITION. One arm for each instruction: a direct call of its meaning.
-/
namespace Sys2Proof.Machine

/-- The meaning of each instruction. -/
def exec (i : Instr) (s : State) : Host.Outcome State Fault Refusal :=
  match i with
  | .add d a b => Sys2Proof.Machine.execAdd d a b s
  | .sub d a b => Sys2Proof.Machine.execSub d a b s
  | .and d a b => Sys2Proof.Machine.execAnd d a b s
  | .or d a b => Sys2Proof.Machine.execOr d a b s
  | .xor d a b => Sys2Proof.Machine.execXor d a b s
  | .andn d a b => Sys2Proof.Machine.execAndn d a b s
  | .shl d a b => Sys2Proof.Machine.execShl d a b s
  | .shr d a b => Sys2Proof.Machine.execShr d a b s
  | .sra d a b => Sys2Proof.Machine.execSra d a b s
  | .ror d a b => Sys2Proof.Machine.execRor d a b s
  | .mul d a b => Sys2Proof.Machine.execMul d a b s
  | .mulh d a b => Sys2Proof.Machine.execMulh d a b s
  | .mulhz d a b => Sys2Proof.Machine.execMulhz d a b s
  | .div d a b => Sys2Proof.Machine.execDiv d a b s
  | .divz d a b => Sys2Proof.Machine.execDivz d a b s
  | .rem d a b => Sys2Proof.Machine.execRem d a b s
  | .remz d a b => Sys2Proof.Machine.execRemz d a b s
  | .min d a b => Sys2Proof.Machine.execMin d a b s
  | .max d a b => Sys2Proof.Machine.execMax d a b s
  | .minz d a b => Sys2Proof.Machine.execMinz d a b s
  | .maxz d a b => Sys2Proof.Machine.execMaxz d a b s
  | .slt d a b => Sys2Proof.Machine.execSlt d a b s
  | .sltz d a b => Sys2Proof.Machine.execSltz d a b s
  | .seq d a b => Sys2Proof.Machine.execSeq d a b s
  | .clz d a => Sys2Proof.Machine.execClz d a s
  | .ctz d a => Sys2Proof.Machine.execCtz d a s
  | .popc d a => Sys2Proof.Machine.execPopc d a s
  | .bext d a b => Sys2Proof.Machine.execBext d a b s
  | .bins d a b => Sys2Proof.Machine.execBins d a b s
  | .selnz d a b => Sys2Proof.Machine.execSelnz d a b s
  | .addi d a imm => Sys2Proof.Machine.execAddi d a imm s
  | .andi d a imm => Sys2Proof.Machine.execAndi d a imm s
  | .ori d a imm => Sys2Proof.Machine.execOri d a imm s
  | .xori d a imm => Sys2Proof.Machine.execXori d a imm s
  | .shli d a n => Sys2Proof.Machine.execShli d a n s
  | .shri d a n => Sys2Proof.Machine.execShri d a n s
  | .srai d a n => Sys2Proof.Machine.execSrai d a n s
  | .rori d a n => Sys2Proof.Machine.execRori d a n s
  | .slti d a imm => Sys2Proof.Machine.execSlti d a imm s
  | .sltzi d a imm => Sys2Proof.Machine.execSltzi d a imm s
  | .lui d imm => Sys2Proof.Machine.execLui d imm s
  | .auipc d imm => Sys2Proof.Machine.execAuipc d imm s
  | .ld d a z o => Sys2Proof.Machine.execLd d a z o s
  | .st d a z o => Sys2Proof.Machine.execSt d a z o s
  | .ldx d a b z => Sys2Proof.Machine.execLdx d a b z s
  | .stx d a b z => Sys2Proof.Machine.execStx d a b z s
  | .lea d a imm => Sys2Proof.Machine.execLea d a imm s
  | .pfch a imm => Sys2Proof.Machine.execPfch a imm s
  | .br a c o => Sys2Proof.Machine.execBr a c o s
  | .jmp o => Sys2Proof.Machine.execJmp o s
  | .call o => Sys2Proof.Machine.execCall o s
  | .jr a => Sys2Proof.Machine.execJr a s
  | .callr a => Sys2Proof.Machine.execCallr a s
  | .ret => Sys2Proof.Machine.execRet s
  | .loop c a l => Sys2Proof.Machine.execLoop c a l s
  | .loopi c n l => Sys2Proof.Machine.execLoopi c n l s
  | .rep d a => Sys2Proof.Machine.execRep d a s
  | .repi d n => Sys2Proof.Machine.execRepi d n s
  | .jtab d a imm => Sys2Proof.Machine.execJtab d a imm s
  | .nop => Sys2Proof.Machine.execNop s
  | .vadd d a b m e => Sys2Proof.Machine.execVadd d a b m e s
  | .vsub d a b m e => Sys2Proof.Machine.execVsub d a b m e s
  | .vmul d a b m e => Sys2Proof.Machine.execVmul d a b m e s
  | .vmulh d a b m e => Sys2Proof.Machine.execVmulh d a b m e s
  | .vmin d a b m e => Sys2Proof.Machine.execVmin d a b m e s
  | .vmax d a b m e => Sys2Proof.Machine.execVmax d a b m e s
  | .vminz d a b m e => Sys2Proof.Machine.execVminz d a b m e s
  | .vmaxz d a b m e => Sys2Proof.Machine.execVmaxz d a b m e s
  | .vand d a b m e => Sys2Proof.Machine.execVand d a b m e s
  | .vor d a b m e => Sys2Proof.Machine.execVor d a b m e s
  | .vxor d a b m e => Sys2Proof.Machine.execVxor d a b m e s
  | .vshl d a b m e => Sys2Proof.Machine.execVshl d a b m e s
  | .vshr d a b m e => Sys2Proof.Machine.execVshr d a b m e s
  | .vsra d a b m e => Sys2Proof.Machine.execVsra d a b m e s
  | .vadds d a b m e => Sys2Proof.Machine.execVadds d a b m e s
  | .vsubs d a b m e => Sys2Proof.Machine.execVsubs d a b m e s
  | .vfadd d a b m e => Sys2Proof.Machine.execVfadd d a b m e s
  | .vfsub d a b m e => Sys2Proof.Machine.execVfsub d a b m e s
  | .vfmul d a b m e => Sys2Proof.Machine.execVfmul d a b m e s
  | .vfma d a b m e => Sys2Proof.Machine.execVfma d a b m e s
  | .vfnma d a b m e => Sys2Proof.Machine.execVfnma d a b m e s
  | .vfmin d a b m e => Sys2Proof.Machine.execVfmin d a b m e s
  | .vfmax d a b m e => Sys2Proof.Machine.execVfmax d a b m e s
  | .vfabs d a m e => Sys2Proof.Machine.execVfabs d a m e s
  | .vfneg d a m e => Sys2Proof.Machine.execVfneg d a m e s
  | .vfdiv d a b m e => Sys2Proof.Machine.execVfdiv d a b m e s
  | .vfsqrt d a m e => Sys2Proof.Machine.execVfsqrt d a m e s
  | .vfrsq d a m e => Sys2Proof.Machine.execVfrsq d a m e s
  | .vfexp2 d a m e => Sys2Proof.Machine.execVfexp2 d a m e s
  | .vflog2 d a m e => Sys2Proof.Machine.execVflog2 d a m e s
  | .vceq d a b m e => Sys2Proof.Machine.execVceq d a b m e s
  | .vclt d a b m e => Sys2Proof.Machine.execVclt d a b m e s
  | .vcltz d a b m e => Sys2Proof.Machine.execVcltz d a b m e s
  | .vcle d a b m e => Sys2Proof.Machine.execVcle d a b m e s
  | .vfceq d a b m e => Sys2Proof.Machine.execVfceq d a b m e s
  | .vfclt d a b m e => Sys2Proof.Machine.execVfclt d a b m e s
  | .vfcle d a b m e => Sys2Proof.Machine.execVfcle d a b m e s
  | .vfcun d a b m e => Sys2Proof.Machine.execVfcun d a b m e s
  | .vcvt d a c m => Sys2Proof.Machine.execVcvt d a c m s
  | .vld d a m e => Sys2Proof.Machine.execVld d a m e s
  | .vst d a m e => Sys2Proof.Machine.execVst d a m e s
  | .vlds d a b m e => Sys2Proof.Machine.execVlds d a b m e s
  | .vsts d a b m e => Sys2Proof.Machine.execVsts d a b m e s
  | .vgth d a b m e => Sys2Proof.Machine.execVgth d a b m e s
  | .vsct d a b m e => Sys2Proof.Machine.execVsct d a b m e s
  | .vldb d a m e => Sys2Proof.Machine.execVldb d a m e s
  | .vldq d a b => Sys2Proof.Machine.execVldq d a b s
  | .vstq d a b => Sys2Proof.Machine.execVstq d a b s
  | .updv d a b m e => Sys2Proof.Machine.execUpdv d a b m e s
  | .vperm d a b m e => Sys2Proof.Machine.execVperm d a b m e s
  | .vslup d a b m e => Sys2Proof.Machine.execVslup d a b m e s
  | .vsldn d a b m e => Sys2Proof.Machine.execVsldn d a b m e s
  | .vreda d a m e => Sys2Proof.Machine.execVreda d a m e s
  | .vredx d a m e => Sys2Proof.Machine.execVredx d a m e s
  | .vredn d a m e => Sys2Proof.Machine.execVredn d a m e s
  | .vfreda d a m e => Sys2Proof.Machine.execVfreda d a m e s
  | .vcmpr d a m e => Sys2Proof.Machine.execVcmpr d a m e s
  | .vexpd d a m e => Sys2Proof.Machine.execVexpd d a m e s
  | .vmrg d a b m e => Sys2Proof.Machine.execVmrg d a b m e s
  | .vsplat d b m e => Sys2Proof.Machine.execVsplat d b m e s
  | .vins d a b e => Sys2Proof.Machine.execVins d a b e s
  | .vext d a b e => Sys2Proof.Machine.execVext d a b e s
  | .viota d m e => Sys2Proof.Machine.execViota d m e s
  | .mand d a b => Sys2Proof.Machine.execMand d a b s
  | .mor d a b => Sys2Proof.Machine.execMor d a b s
  | .mxor d a b => Sys2Proof.Machine.execMxor d a b s
  | .mnot d a => Sys2Proof.Machine.execMnot d a s
  | .mpopc d a => Sys2Proof.Machine.execMpopc d a s
  | .mmov d a => Sys2Proof.Machine.execMmov d a s
  | .mmovScalar d b => Sys2Proof.Machine.execMmovScalar d b s
  | .vpiv d a b m => Sys2Proof.Machine.execVpiv d a b m s
  | .vprcp d a b m => Sys2Proof.Machine.execVprcp d a b m s
  | .vfman d a b m e => Sys2Proof.Machine.execVfman d a b m e s
  | .vpstat d => Sys2Proof.Machine.execVpstat d s
  | .vbdot d a b m e => Sys2Proof.Machine.execVbdot d a b m e s
  | .fload d a b => Sys2Proof.Machine.execFload d a b s
  | .farm a b => Sys2Proof.Machine.execFarm a b s
  | .fsel a b => Sys2Proof.Machine.execFsel a b s
  | .fstat d a => Sys2Proof.Machine.execFstat d a s
  | .fkill a => Sys2Proof.Machine.execFkill a s
  | .fckpt a b => Sys2Proof.Machine.execFckpt a b s
  | .fdrain a => Sys2Proof.Machine.execFdrain a s
  | .fbind d a b => Sys2Proof.Machine.execFbind d a b s
  | .qpush d a b => Sys2Proof.Machine.execQpush d a b s
  | .qpop d a b => Sys2Proof.Machine.execQpop d a b s
  | .qstop d a => Sys2Proof.Machine.execQstop d a s
  | .qdone d => Sys2Proof.Machine.execQdone d s
  | .cpy d a => Sys2Proof.Machine.execCpy d a s
  | .cpwp d a => Sys2Proof.Machine.execCpwp d a s
  | .cpwait d a b => Sys2Proof.Machine.execCpwait d a b s
  | .cpcan a => Sys2Proof.Machine.execCpcan a s
  | .gath d a => Sys2Proof.Machine.execGath d a s
  | .cpcode a b => Sys2Proof.Machine.execCpcode a b s
  | .upd a b => Sys2Proof.Machine.execUpd a b s
  | .ufence a => Sys2Proof.Machine.execUfence a s
  | .uapply a b => Sys2Proof.Machine.execUapply a b s
  | .uregion d a => Sys2Proof.Machine.execUregion d a s
  | .ufree a => Sys2Proof.Machine.execUfree a s
  | .ustat d a => Sys2Proof.Machine.execUstat d a s
  | .cas d a b => Sys2Proof.Machine.execCas d a b s
  | .dcas d a b => Sys2Proof.Machine.execDcas d a b s
  | .amove d a b => Sys2Proof.Machine.execAmove d a b s
  | .swap d a b => Sys2Proof.Machine.execSwap d a b s
  | .ldaq d a => Sys2Proof.Machine.execLdaq d a s
  | .strl a b => Sys2Proof.Machine.execStrl a b s
  | .binit d a b => Sys2Proof.Machine.execBinit d a b s
  | .barr d a => Sys2Proof.Machine.execBarr d a s
  | .bwait d a b => Sys2Proof.Machine.execBwait d a b s
  | .barw d a => Sys2Proof.Machine.execBarw d a s
  | .badj d a b => Sys2Proof.Machine.execBadj d a b s
  | .babort a => Sys2Proof.Machine.execBabort a s
  | .lkacq d a => Sys2Proof.Machine.execLkacq d a s
  | .lktry d a => Sys2Proof.Machine.execLktry d a s
  | .lkrel a => Sys2Proof.Machine.execLkrel a s
  | .wobj a b => Sys2Proof.Machine.execWobj a b s
  | .whold a => Sys2Proof.Machine.execWhold a s
  | .wdrop a => Sys2Proof.Machine.execWdrop a s
  | .wwait d a b => Sys2Proof.Machine.execWwait d a b s
  | .wquery d a => Sys2Proof.Machine.execWquery d a s
  | .wcycle d a => Sys2Proof.Machine.execWcycle d a s
  | .spawn d a b => Sys2Proof.Machine.execSpawn d a b s
  | .join d a => Sys2Proof.Machine.execJoin d a s
  | .yield => Sys2Proof.Machine.execYield s
  | .exit => Sys2Proof.Machine.execExit s
  | .launch d a b => Sys2Proof.Machine.execLaunch d a b s
  | .prio d a => Sys2Proof.Machine.execPrio d a s
  | .estim a b => Sys2Proof.Machine.execEstim a b s
  | .self d => Sys2Proof.Machine.execSelf d s
  | .fence z k => Sys2Proof.Machine.execFence z k s
  | .sbar u g c t => Sys2Proof.Machine.execSbar u g c t s
  | .drainw d a => Sys2Proof.Machine.execDrainw d a s
  | .colls d a => Sys2Proof.Machine.execColls d a s
  | .collw d a => Sys2Proof.Machine.execCollw d a s
  | .collst d a => Sys2Proof.Machine.execCollst d a s
  | .collabt a => Sys2Proof.Machine.execCollabt a s
  | .memb d a b => Sys2Proof.Machine.execMemb d a b s
  | .sysr d n => Sys2Proof.Machine.execSysr d n s
  | .sysw d n => Sys2Proof.Machine.execSysw d n s
  | .sysset d n => Sys2Proof.Machine.execSysset d n s
  | .sysclr d n => Sys2Proof.Machine.execSysclr d n s
  | .xlinv a b => Sys2Proof.Machine.execXlinv a b s
  | .trap n => Sys2Proof.Machine.execTrap n s
  | .tret => Sys2Proof.Machine.execTret s
  | .bkpt => Sys2Proof.Machine.execBkpt s
  | .halt => Sys2Proof.Machine.execHalt s
  | .trcon => Sys2Proof.Machine.execTrcon s
  | .trcoff => Sys2Proof.Machine.execTrcoff s
  | .trcmark d n => Sys2Proof.Machine.execTrcmark d n s
  | .wpset d a b => Sys2Proof.Machine.execWpset d a b s
  | .wpclr a => Sys2Proof.Machine.execWpclr a s
  | .eadd p a b f m => Sys2Proof.Machine.execEadd p a b f m s
  | .esub p a b f m => Sys2Proof.Machine.execEsub p a b f m s
  | .emul p a b f m => Sys2Proof.Machine.execEmul p a b f m s
  | .efma p a b c f m x => Sys2Proof.Machine.execEfma p a b c f m x s
  | .emin p a b f m => Sys2Proof.Machine.execEmin p a b f m s
  | .emax p a b f m => Sys2Proof.Machine.execEmax p a b f m s
  | .eabs a f m => Sys2Proof.Machine.execEabs a f m s
  | .ecmp a b f z r l => Sys2Proof.Machine.execEcmp a b f z r l s
  | .esel a b c f m => Sys2Proof.Machine.execEsel a b c f m s
  | .ecvt a f m k => Sys2Proof.Machine.execEcvt a f m k s
  | .escale p a b f m x => Sys2Proof.Machine.execEscale p a b f m x s
  | .ebdot a b x => Sys2Proof.Machine.execEbdot a b x s
  | .ecsadd a b k x => Sys2Proof.Machine.execEcsadd a b k x s
  | .enorm a f x => Sys2Proof.Machine.execEnorm a f x s
  | .ecfwd a b f r x => Sys2Proof.Machine.execEcfwd a b f r x s
  | .econst p a b f m => Sys2Proof.Machine.execEconst p a b f m s
  | .eidx p a b f k n => Sys2Proof.Machine.execEidx p a b f k n s
  | .epiv a f m => Sys2Proof.Machine.execEpiv a f m s
  | .ercp a f m x => Sys2Proof.Machine.execErcp a f m x s
  | .epop a f x => Sys2Proof.Machine.execEpop a f x s
  | .eand p a b f m => Sys2Proof.Machine.execEand p a b f m s
  | .eor p a b f m => Sys2Proof.Machine.execEor p a b f m s
  | .exor p a b f m => Sys2Proof.Machine.execExor p a b f m s
  | .mdense a b f h o => Sys2Proof.Machine.execMdense a b f h o s
  | .mnm2 a b c f h o => Sys2Proof.Machine.execMnm2 a b c f h o s
  | .mmatch a b f h o => Sys2Proof.Machine.execMmatch a b f h o s
  | .mbxor a b f h o => Sys2Proof.Machine.execMbxor a b f h o s
  | .mband a b f h o => Sys2Proof.Machine.execMband a b f h o s
  | .mpp8 a b f h o => Sys2Proof.Machine.execMpp8 a b f h o s
  | .mexpert a b c f h o => Sys2Proof.Machine.execMexpert a b c f h o s
  | .mpred a b f x h => Sys2Proof.Machine.execMpred a b f x h s
  | .scanc a b r d => Sys2Proof.Machine.execScanc a b r d s
  | .scanb a b r d => Sys2Proof.Machine.execScanb a b r d s
  | .scand a b r d => Sys2Proof.Machine.execScand a b r d s
  | .lwc a f d => Sys2Proof.Machine.execLwc a f d s
  | .lwb a f d => Sys2Proof.Machine.execLwb a f d s
  | .lwd a f z d => Sys2Proof.Machine.execLwd a f z d s
  | .isect a b y x => Sys2Proof.Machine.execIsect a b y x s
  | .union a b => Sys2Proof.Machine.execUnion a b s
  | .rept a b => Sys2Proof.Machine.execRept a b s
  | .redc a f o n => Sys2Proof.Machine.execRedc a f o n s
  | .arrd a f d => Sys2Proof.Machine.execArrd a f d s
  | .upsink a b f w => Sys2Proof.Machine.execUpsink a b f w s
  | .crop a b f x => Sys2Proof.Machine.execCrop a b f x s
  | .cmerge a b f o => Sys2Proof.Machine.execCmerge a b f o s
  | .agen a d => Sys2Proof.Machine.execAgen a d s
  | .opst a b d => Sys2Proof.Machine.execOpst a b d s
  | .fifo a d => Sys2Proof.Machine.execFifo a d s
  | .lbuf a b d => Sys2Proof.Machine.execLbuf a b d s
  | .mld a d => Sys2Proof.Machine.execMld a d s
  | .mst a b d => Sys2Proof.Machine.execMst a b d s
  | .steer p a b imm => Sys2Proof.Machine.execSteer p a b imm s
  | .merge p a b c => Sys2Proof.Machine.execMerge p a b c s
  | .carry a b c => Sys2Proof.Machine.execCarry a b c s
  | .invar p a b => Sys2Proof.Machine.execInvar p a b s
  | .cand a b => Sys2Proof.Machine.execCand a b s
  | .cnot a => Sys2Proof.Machine.execCnot a s
  | .emit tag => Sys2Proof.Machine.execEmit tag s
  | .emitfree tag => Sys2Proof.Machine.execEmitfree tag s
  | .evict slot => Sys2Proof.Machine.execEvict slot s
  | .skipToken => Sys2Proof.Machine.execSkipToken s
  | .beatHop o => Sys2Proof.Machine.execBeatHop o s
  | .pendingBeatTimeout holder q => Sys2Proof.Machine.execPendingBeatTimeout holder q s
  | .regionCommit t => Sys2Proof.Machine.execRegionCommit t s
  | .regionPark t => Sys2Proof.Machine.execRegionPark t s
  | .regionUnpark t => Sys2Proof.Machine.execRegionUnpark t s
  | .countExhausted t => Sys2Proof.Machine.execCountExhausted t s
  | .drainEmit o => Sys2Proof.Machine.execDrainEmit o s
  | .phaseEnd t => Sys2Proof.Machine.execPhaseEnd t s
  | .checkpointComplete t => Sys2Proof.Machine.execCheckpointComplete t s
  | .regionStall t => Sys2Proof.Machine.execRegionStall t s
  | .copyRowIssue c => Sys2Proof.Machine.execCopyRowIssue c s
  | .copyRowLand c row => Sys2Proof.Machine.execCopyRowLand c row s
  | .tokenConsume c => Sys2Proof.Machine.execTokenConsume c s
  | .remoteRowFault f row => Sys2Proof.Machine.execRemoteRowFault f row s
  | .heldRowRetry c => Sys2Proof.Machine.execHeldRowRetry c s
  | .ingressClose die n => Sys2Proof.Machine.execIngressClose die n s
  | .precombineExpiry die idx => Sys2Proof.Machine.execPrecombineExpiry die idx s
  | .binMerge die idx => Sys2Proof.Machine.execBinMerge die idx s
  | .backgroundApply line => Sys2Proof.Machine.execBackgroundApply line s
  | .hashpcWrite h v => Sys2Proof.Machine.execHashpcWrite h v s
  | .rehashComplete die => Sys2Proof.Machine.execRehashComplete die s
  | .ubinthreshWrite h v => Sys2Proof.Machine.execUbinthreshWrite h v s
  | .wextsizeWrite h v => Sys2Proof.Machine.execWextsizeWrite h v s
  | .belvedereSweep die => Sys2Proof.Machine.execBelvedereSweep die s
  | .inheritanceUpdate => Sys2Proof.Machine.execInheritanceUpdate s
  | .launchDequeue => Sys2Proof.Machine.execLaunchDequeue s
  | .hartDispatch h => Sys2Proof.Machine.execHartDispatch h s
  | .switchOut h => Sys2Proof.Machine.execSwitchOut h s
  | .memoryQueuePromote die => Sys2Proof.Machine.execMemoryQueuePromote die s
  | .preemptionEvaluation n => Sys2Proof.Machine.execPreemptionEvaluation n s
  | .taskRearm t => Sys2Proof.Machine.execTaskRearm t s
  | .periodStart => Sys2Proof.Machine.execPeriodStart s
  | .graphEnd l => Sys2Proof.Machine.execGraphEnd l s
  | .graphRun l => Sys2Proof.Machine.execGraphRun l s
  | .graphIf l => Sys2Proof.Machine.execGraphIf l s
  | .graphLoop l => Sys2Proof.Machine.execGraphLoop l s
  | .graphSwitch l => Sys2Proof.Machine.execGraphSwitch l s
  | .watchDelivery h => Sys2Proof.Machine.execWatchDelivery h s
  | .translationWalkComplete u => Sys2Proof.Machine.execTranslationWalkComplete u s
  | .ringPartial msg => Sys2Proof.Machine.execRingPartial msg s
  | .ringTotal msg => Sys2Proof.Machine.execRingTotal msg s
  | .treeValue msg => Sys2Proof.Machine.execTreeValue msg s
  | .collectiveDone msg => Sys2Proof.Machine.execCollectiveDone msg s
  | .abort msg => Sys2Proof.Machine.execAbort msg s
  | .collectiveTimeout r => Sys2Proof.Machine.execCollectiveTimeout r s
  | .probe msg => Sys2Proof.Machine.execProbe msg s
  | .probeWindowEnd r answered => Sys2Proof.Machine.execProbeWindowEnd r answered s
  | .membCollect msg => Sys2Proof.Machine.execMembCollect msg s
  | .membPublish r => Sys2Proof.Machine.execMembPublish r s
  | .membPublication msg => Sys2Proof.Machine.execMembPublication msg s
  | .membReprobe r first => Sys2Proof.Machine.execMembReprobe r first s
  | .dataFlit port f => Sys2Proof.Machine.execDataFlit port f s
  | .acknowledgeFlit port f => Sys2Proof.Machine.execAcknowledgeFlit port f s
  | .negativeAcknowledge port f => Sys2Proof.Machine.execNegativeAcknowledge port f s
  | .auditTimer port => Sys2Proof.Machine.execAuditTimer port s
  | .auditFlit port f => Sys2Proof.Machine.execAuditFlit port f s
  | .occupancyReport port occ freed => Sys2Proof.Machine.execOccupancyReport port occ freed s
  | .linkRetrain port => Sys2Proof.Machine.execLinkRetrain port s
  | .resyncFlit port f => Sys2Proof.Machine.execResyncFlit port f s
  | .linkDown port => Sys2Proof.Machine.execLinkDown port s
  | .doorbell seq writes => Sys2Proof.Machine.execDoorbell seq writes s
  | .sqhead v => Sys2Proof.Machine.execSqhead v s
  | .hostRegisterWrite size v => Sys2Proof.Machine.execHostRegisterWrite size v s
  | .launchCommand seq => Sys2Proof.Machine.execLaunchCommand seq s
  | .cancel seq => Sys2Proof.Machine.execCancel seq s
  | .wrmem seq => Sys2Proof.Machine.execWrmem seq s
  | .rdmem seq => Sys2Proof.Machine.execRdmem seq s
  | .qcfg seq => Sys2Proof.Machine.execQcfg seq s
  | .asidtab seq => Sys2Proof.Machine.execAsidtab seq s
  | .trace seq => Sys2Proof.Machine.execTrace seq s
  | .errcnt seq => Sys2Proof.Machine.execErrcnt seq s
  | .hartrst seq => Sys2Proof.Machine.execHartrst seq s
  | .linkup seq => Sys2Proof.Machine.execLinkup seq s
  | .attest seq => Sys2Proof.Machine.execAttest seq s
  | .pcap seq => Sys2Proof.Machine.execPcap seq s
  | .reset seq junction => Sys2Proof.Machine.execReset seq junction s
  | .sqreplay seq => Sys2Proof.Machine.execSqreplay seq s
  | .boot => Sys2Proof.Machine.execBoot s
  | .bootStage e => Sys2Proof.Machine.execBootStage e s
  | .refresh stack group => Sys2Proof.Machine.execRefresh stack group s
  | .temperatureThreshold stack layer deg => Sys2Proof.Machine.execTemperatureThreshold stack layer deg s
  | .catastrophicTemperature junction => Sys2Proof.Machine.execCatastrophicTemperature junction s
  | .powerWindow watts => Sys2Proof.Machine.execPowerWindow watts s
  | .illegalInstruction w => Sys2Proof.Machine.execIllegalInstruction w s
  | .instructionFetchFault c va detail => Sys2Proof.Machine.execInstructionFetchFault c va detail s
  | .loadDataReturn h err => Sys2Proof.Machine.execLoadDataReturn h err s
  | .writePerformed h idx => Sys2Proof.Machine.execWritePerformed h idx s
  | .l1LineEviction core line => Sys2Proof.Machine.execL1LineEviction core line s
  | .linkRetrainComplete port => Sys2Proof.Machine.execLinkRetrainComplete port s
  | .secondTierPortFailure port => Sys2Proof.Machine.execSecondTierPortFailure port s

end Sys2Proof.Machine
end

