-- ==== Sys2Proof/Machine/Step.lean ====
section
/-!
DEFINITION. One step: whose turn it is, and the meaning of what that turn runs (assumption 7).
-/
namespace Sys2Proof.Machine

/-- What a hart's turn runs: a decoded word, an ILLEGAL word, a fetch fault, or nothing. -/
noncomputable def Ready.run : Ready → Host.Outcome State Fault Refusal
  | .idle s => .next s
  | .trapped s => .next s
  | .fault c va k s => exec (.instructionFetchFault c va k) s
  | .word w s =>
    match decodeControl w.toNat with
    | .ok i => exec i s
    | .error _ => exec (.illegalInstruction w) s

/-- What a slot's turn runs (R135 to R142): the operation its word decodes to; an empty slot does nothing. -/
noncomputable def State.unitTurn (s0 : State) (u : UnitRef) : Host.Outcome State Fault Refusal :=
  let s := { s0 with focus := u }
  match s.slotWord u with
  | none => .next s
  | some w =>
    match decodeElement w.toNat with
    | .ok i => exec i s
    | .error _ => .next s

/-- A step of the device whose writes to memory stay on their way (R282, R317). -/
noncomputable def State.slowTurn (s : State) (i : Instr) : Host.Outcome State Fault Refusal :=
  match exec i { s with slow := true } with
  | .next t => .next { t with slow := false }
  | o => o

/-- One turn. -/
noncomputable def State.turn (s : State) : Turn → Host.Outcome State Fault Refusal
  | .hart h late => (s.hartTurn h late).run
  | .unit u => s.unitTurn u
  | .event i => if isEvent i then exec i s else .next s
  | .pass _ => .next s
  | .slow i => if isEvent i then s.slowTurn i else .next s
  | .land k => .next (s.landOne k)
  | .damage d => .next (s.suffer d)
  | .transmit port payload => .next (s.transmit port payload)
  | .farLinkup port => .next (s.farLinkup port)
  | .activate stack group => .next (s.stampGroup stack group)

/-- The cycles a turn takes. -/
def Turn.cycles : Turn → Nat
  | .pass n => n
  | _ => 1

/-- One step: the next turn, or the hart that ran last when the agenda is empty; a cycle passes first. -/
noncomputable def step (s : State) : Host.Outcome State Fault Refusal :=
  match s.turns with
  | [] => (s.tick 1).turn (.hart s.cur s.me.late)
  | t :: rest => (({ s with turns := rest }).tick t.cycles).turn t

/-- The instruction placed so that the very next step runs it (assumption 10). -/
noncomputable def State.withFetchWord (s : State) (nbits w : Nat) : State :=
  match decodeTableWord nbits w with
  | some i => if i.isElement then s.placeElement w else s.placeControl w
  | none => s.placeControl w

end Sys2Proof.Machine
end

