-- ==== Sys2Proof/Safety.lean ====
section
/-!
DEFINITION. The terms that claims use: memory in its canonical form, and what an instruction leaves unchanged.
-/
namespace Sys2Proof.Machine

/-- Memory keeps its canonical form. -/
def State.memOk (s : State) : Prop := Memory.wf s.mem = true

/-- Every byte of memory reads as before. -/
def State.SameMem (s t : State) : Prop := ∀ a, Memory.get t.mem a = Memory.get s.mem a

/-- Every byte outside n bytes from an address reads as before. -/
def State.SameMemBut (s t : State) (pa n : Nat) : Prop :=
  ∀ a, a < pa ∨ pa + n ≤ a → Memory.get t.mem a = Memory.get s.mem a

/-- Nothing outside the harts has changed: memory, dies, fabric, engines, links, host interface; a trace buffer only takes a
record when the hart traces (R134). -/
def State.SameOutside (s t : State) : Prop :=
  { t with harts := s.harts, traces := s.traces } = s ∧ (s.me.trc = false → t.traces = s.traces)

/-- No hart but the running one has changed. -/
def State.SameOthers (s t : State) : Prop := ∀ h, h ≠ s.cur → t.hart h = s.hart h

/-- The registers that stay with the hart (R399): STATUS's mode bits, the trap registers, the vectors, the ASID. -/
def State.SameHartRegs (s t : State) : Prop := { t.me with ctx := s.me.ctx } = s.me

/-- What of a continuation completing an instruction may change (R49, R52): the pc, the loops' counters and active bits, the
repeat; with it go the model's notes of a wait that was released. A register struck by an error may be good again, written
anew, and none is struck (R416). -/
def Ctx.Steps (c c' : Ctx) : Prop :=
  c'.pc = c.finish.pc ∧ c'.lc0 = c.finish.lc0 ∧ c'.lc1 = c.finish.lc1 ∧ c'.loop0 = c.finish.loop0 ∧ c'.loop1 = c.finish.loop1 ∧
    c'.rep = c.finish.rep ∧ ∀ r ∈ c'.bad, r ∈ c.bad

/-- A continuation with what completion changes put aside. -/
def Ctx.still (c : Ctx) : Ctx :=
  { c with pc := 0, lc0 := 0, lc1 := 0, loop0 := {}, loop1 := {}, rep := {}, grant := none, arrived := none, bad := [] }

/-- Outside the continuation of the running hart nothing has changed. -/
def State.OnlyMine (s t : State) : Prop := t.cur = s.cur ∧ s.SameOutside t ∧ s.SameOthers t ∧ s.SameHartRegs t ∧ s.SameMem t

/-- A computation of the running hart: it completes, and apart from that only what `f` puts back has changed. -/
def State.Only (s t : State) (f : Ctx → Ctx → Ctx) : Prop :=
  s.OnlyMine t ∧ s.ctx.Steps t.ctx ∧ f s.ctx.still t.ctx.still = s.ctx.still

/-- A register-only instruction whose destination is s(d): its result there (s0 stays zero), every other scalar register as it
was, no other register, flag, special register or byte of memory changed; the instruction completes. -/
def State.Computes (s t : State) (d : SReg) (v : Word) : Prop :=
  t.rd d = (if d = 0 then 0 else v) ∧ (∀ r, r ≠ d → t.rd r = s.rd r) ∧ s.Only t fun old new => { new with s := old.s }

/-- The same with a vector destination. -/
def State.ComputesV (s t : State) (d : Fin 32) (x : Line) : Prop :=
  t.rdV d = x ∧ (∀ r, r ≠ d → t.rdV r = s.rdV r) ∧ s.Only t fun old new => { new with v := old.v }

/-- The same with a mask destination. -/
def State.ComputesM (s t : State) (d : MReg) (x : Word) : Prop :=
  t.rdM d = x ∧ (∀ r, r ≠ d → t.rdM r = s.rdM r) ∧ s.Only t fun old new => { new with m := old.m }

/-- An instruction that writes no register at all. -/
def State.Idles (s t : State) : Prop := s.Only t fun _ new => new

/-- Control goes to an address and nothing else of the running hart changes, its loops included (R46, R50). -/
def State.Transfers (s t : State) (a : Word) : Prop :=
  s.OnlyMine t ∧ t.pc = a ∧ { t.ctx with pc := s.ctx.pc, grant := s.ctx.grant } = s.ctx

/-- What a memory access leaves of the running continuation: it completes; beyond its destination only traps for later may be
added, those of the watchpoints it hit (R135). -/
def State.Accesses (s t : State) (f : Ctx → Ctx → Ctx) : Prop :=
  t.cur = s.cur ∧ s.ctx.Steps t.ctx ∧ { f s.ctx.still t.ctx.still with pend := s.ctx.pend } = s.ctx.still

/-- A memory object at an address is aligned, passes its check (R98) and is held at no port (R382): where it lies, and the state once it
is translated and the access charged (R381). -/
def State.objectAt (s : State) (va : Word) (n align : Nat) (write : Bool) (s1 : State) (pa : Nat) : Prop :=
  va.toNat % align = 0 ∧ ∃ (a : Acc) (t : State), a.pa = pa ∧ s.check s.die s.me.asid.toNat s.me.pl (.object write) va n = (t, .ok a) ∧
    t.portHeld t.myself t.ctx.cont.launch pa = false ∧ s1 = t.charged pa n

/-- Every hart's copy of memory is dropped: the core of the running hart holds no line (R114). -/
def State.acquired (t : State) : Prop := t.l1Of (hartCore t.cur) = []

/-- No pair of an update waits for a line that n bytes from an address touch (R43). -/
def State.unpaired (s : State) (pa n : Nat) : Prop := ∀ ln ∈ linesOf pa n, s.pendingLine ln = false

/-- No write is on its way and no entry of the Belvedere lies in memory, so that memory changes only where the instruction writes. -/
def State.calm (s : State) : Prop := s.ctx.stores = [] ∧ s.casts = [] ∧ ∀ e ∈ s.allEntries, e.slot = none

/-- The table of a die has n free entries of its own (R357). -/
def State.roomAt (s : State) (d : Fin 6) (n : Nat) : Prop := n ≤ (s.getDie d).chipFree

/-! ## What an instruction answers -/

/-- The instruction answers a next state, with this result in s(d) and everything else as `Computes` says. -/
def State.Yields (s : State) (i : Instr) (d : SReg) (v : Word) : Prop := ∃ t, exec i s = .next t ∧ s.Computes t d v

/-- The same with a result in a vector register. -/
def State.YieldsV (s : State) (i : Instr) (d : Fin 32) (x : Line) : Prop := ∃ t, exec i s = .next t ∧ s.ComputesV t d x

/-- The same with a result in a mask register. -/
def State.YieldsM (s : State) (i : Instr) (d : MReg) (x : Word) : Prop := ∃ t, exec i s = .next t ∧ s.ComputesM t d x

/-! ## A slot of the fabric -/

/-- The tile of the slot in focus, and the slot's unit. -/
def State.focusTile (s : State) : TileCtx := s.tc s.focus.tile.die.val (TileNo s.focus.tile) s.focus.ctx.val
def State.unit (s : State) : UnitSt := Tbl.getD s.focusTile.units s.focus.slot.val {}

/-- The beats that wait at an input of the slot, and those at an output of its tile. -/
def State.input (s : State) (p : Nat) : List Beat := (s.focusTile.buf (inKey s.focus.slot.val p)).q
def State.output (s : State) (plane code : Nat) : List Beat := (Tbl.getD s.focusTile.outs (outKey plane code) {}).q

/-- The slot's data-plane output. -/
def State.dataOut (s : State) : List Beat := s.output 0 (s.focus.slot.val + 4)

/-- One token alone waits at an input. -/
def State.lone (s : State) (p : Nat) (t : Tok) : Prop :=
  ∃ b j, s.input p = [b] ∧ b.first = some j ∧ b.tok j = t ∧ (b.clearLane j).first = none

/-- The slot serves a task that acts, nothing waits at an output of its tile (R178), and what the task published, or any task into a tile's
store, has landed (R249, R317). -/
def State.ready (s : State) (t : TaskId) : Prop :=
  s.ownerOf s.focus.tile.die.val (TileNo s.focus.tile) s.focus.ctx.val = some t ∧ s.taskActs t = true ∧
    (∀ plane code, s.output plane code = []) ∧ ∀ c ∈ s.casts, c.agent ≠ taskAgent t ∧ c.cls ≠ WClass.node.code

/-- Every consumer of the slot's output holds fewer of its beats than the depth of its route (R203). -/
def State.routeOpen (s : State) : Prop :=
  ∀ x ∈ s.consumers s.focus.tile.die.val s.focus.ctx.val 0 64 (TileNo s.focus.tile) (s.focus.slot.val + 4) 0, x.1 < x.2

/-- Something reads an output of the tile, so that what is sent there is not lost (R169). -/
def State.heard (s : State) (plane code : Nat) : Prop := s.focusTile.readers plane code ≠ []

/-- Where the context of the slot's tile is kept. -/
def State.focusKey (s : State) : Nat := tcKey s.focus.tile.die.val (TileNo s.focus.tile) s.focus.ctx.val

/-- What a step of a slot leaves as it was: everything but its tile's context and its task; of the tile's context every other slot's
unit and inputs, the configuration and the links; of the task everything but its flags and counts. -/
def State.InSlot (s x : State) (t : TaskId) : Prop :=
  { x with tiles := s.tiles, tasks := s.tasks } = s ∧ (∀ u, u ≠ t → x.task u = s.task u) ∧
  { x.task t with eflags := (s.task t).eflags, regCount := (s.task t).regCount, phaseBit := (s.task t).phaseBit, marks := (s.task t).marks } = s.task t ∧
  (∀ k, k ≠ s.focusKey → Tbl.find? x.tiles k = Tbl.find? s.tiles k) ∧
  { x.focusTile with ins := s.focusTile.ins, outs := s.focusTile.outs, units := s.focusTile.units } = s.focusTile ∧
  ∀ n, n ≠ s.focus.slot.val → Tbl.getD x.focusTile.units n {} = Tbl.getD s.focusTile.units n {} ∧
    ∀ p, p < 4 → Tbl.getD x.focusTile.ins (inKey n p) {} = Tbl.getD s.focusTile.ins (inKey n p) {}

/-- The slot's step moves, and the state it leaves before the task's registrations follow it (R235). -/
def State.MovesOut (s : State) (i : Instr) (t : TaskId) (P : State → Prop) : Prop :=
  ∃ x : State, exec i s = .next ((x.unitMoved t s.focus).syncTask t) ∧ P x

/-- The same of a step that changes nothing outside its slot but its task's flags and counts. -/
def State.Moves (s : State) (i : Instr) (t : TaskId) (P : State → Prop) : Prop := s.MovesOut i t fun x => s.InSlot x t ∧ P x

/-- It takes the lone tokens of some inputs and sends some tokens as one beat. -/
def State.Maps (s : State) (i : Instr) (t : TaskId) (ports : List Nat) (out : List Tok) (P : State → Prop) : Prop :=
  s.Moves i t fun x => (∀ p ∈ ports, x.input p = []) ∧ x.dataOut = (if out = [] then [] else [packBeat out]) ∧ P x

/-- The registrations of a task that stand, and those its ports call for. -/
def State.standingOf (s : State) (t : TaskId) : List WEntry := (s.getDie (taskDie t)).wft.filter fun e =>
  (e.typ == .wait && e.agent == taskAgent t && (e.kind == 1 || e.kind == 7)) || (e.typ == .hold && e.kind == 1 && e.key.ofTask t)

end Sys2Proof.Machine
end

