-- ==== Sys2Proof/Certificates/Slice0/Obligations.lean ====
section
/-!
DEFINITION. The statements for the provers, from the numbered rules of the manual.
-/
open Sys2Proof Sys2Proof.Machine


/-- Decode and encode agree (R10 to R27): no bit of an operand is dropped, for any of the 267 instructions that have a word. -/
def Obligations.EncodingRoundTrip : Prop :=
  ∀ (i : Instr) (w : Nat), wellFormed i = true → encode i = some w →
    w < 2 ^ 32 ∧ if i.isElement then decodeElement w = .ok i else decodeControl w = .ok i

/-- The other direction (R15, R23): a set bit in a reserved or unused field is never ignored. -/
def Obligations.DecodingIsExact : Prop :=
  ∀ (w : Nat) (i : Instr), w < 2 ^ 32 →
    (decodeControl w = .ok i → wellFormed i = true ∧ i.isElement = false ∧ encode i = some w) ∧
    (decodeElement w = .ok i → wellFormed i = true ∧ i.isElement = true ∧ encode i = some w)

/-- The worked encodings of the manual, one for each format. -/
def Obligations.ManualWords : Prop :=
  (decodeControl 0x04310500).toOption = some (.add 3 4 5) ∧
  (decodeControl 0x4473FFFD).toOption = some (.br 7 .nez 0x1FFFD#17) ∧
  (decodeControl 0x84854BA3).toOption = some (.vfma 4 5 (.s 9) 3 2) ∧
  (decodeControl 0x18826003).toOption = some (.srai 8 9 3#6) ∧
  (decodeControl 0x2C312003).toOption = some (.ld 3 4 .s32 3#11) ∧
  (decodeControl 0x58001006).toOption = some (.loopi 0 4#15 3#9) ∧
  (decodeControl 0x5C700801).toOption = some (.repi 7 8#12) ∧
  (decodeControl 0x38028703).toOption = some (.stx 0 10 7 .b8) ∧
  (decodeControl 0x60614003).toOption = some (.jtab 6 5 3#14) ∧
  (decodeControl 0x64000000).toOption = some .nop ∧
  (decodeControl 0x50000002).toOption = some .ret ∧
  (decodeControl 0xE8002A00).toOption = some (.trap 42#12)

/-- Such a word changes nothing but what the trap's entry changes (R15, R58). -/
def Obligations.UnassignedMajorsIllegal : Prop :=
  (∀ w : Nat, w < 2 ^ 32 →
    (w / 2 ^ 26 = 0 ∨ (0x1A ≤ w / 2 ^ 26 ∧ w / 2 ^ 26 ≤ 0x1F) ∨ (0x2A ≤ w / 2 ^ 26 ∧ w / 2 ^ 26 ≤ 0x2F) ∨ 0x3C ≤ w / 2 ^ 26) →
    ∃ r, decodeControl w = .error r) ∧
  ∀ (s : State) (w : BitVec 32), exec (.illegalInstruction w) s = .next (s.enter s.cur ⟨.illegal, 0, 0, 0, [], none⟩)

/-- What a step adds around `exec`: the cycle that passes, the turn taken from the agenda, the fetch (R10, R35, R43). -/
def Obligations.StepRunsTheDecodedInstruction : Prop :=
  (∀ (s : State) (s2 : State) (w : BitVec 32),
    let s0 := (s.tick 1).updHart s.cur fun x => { x with late := s.me.late }
    s.turns = [] → s0.cur = s.cur → s0.me.run = .running → s0.throttled s0.myself s0.ctx.cont.launch 0 = false → s0.ctx.pend = [] →
    s0.ctx.rep.active = false → s0.fetch s0.cur s0.pc = (s2, .ok w) → s2.ctx.replay = [] → s2.ctx.bad = [] →
    (∀ i, decodeControl w.toNat = .ok i → step s = exec i s2) ∧
    (∀ r, decodeControl w.toNat = .error r → step s = exec (.illegalInstruction w) s2)) ∧
  (∀ (s s1 : State) (a : Acc), s.me.late = false → s.check s.die s.me.asid.toNat s.me.pl .fetch s.pc 4 = (s1, .ok a) →
    let s2 := s1.touch a.pa 4
    s2.broken a.pa = false → s.fetch s.cur s.pc = (s2, .ok (BitVec.ofNat 32 (s2.valueAt a.pa 4)))) ∧
  (∀ (s : State) (u : UnitRef) (rest : List Turn) (w : BitVec 32) (i : Instr),
    s.turns = .unit u :: rest →
    let s0 := { ({ s with turns := rest } : State).tick 1 with focus := u }
    s0.slotWord u = some w → decodeElement w.toNat = .ok i → step s = exec i s0) ∧
  (∀ (s : State) (e : Instr) (rest : List Turn), s.turns = .event e :: rest → isEvent e = true →
    step s = exec e (({ s with turns := rest } : State).tick 1))

/-- R36, the functions that need no rule of their own: results and frame. R36: the results said by arithmetic and by bits, not by the shifts the meanings use. -/
def Obligations.AluResults : Prop :=
  (∀ (s : State) (d a b : SReg),
    let x := s.rd a
    let y := s.rd b
    s.Yields (.add d a b) d (BitVec.ofNat 64 (x.toNat + y.toNat)) ∧
    s.Yields (.sub d a b) d (BitVec.ofInt 64 (x.toNat - y.toNat)) ∧
    s.Yields (.and d a b) d (x &&& y) ∧
    s.Yields (.or d a b) d (x ||| y) ∧
    s.Yields (.xor d a b) d (x ^^^ y) ∧
    s.Yields (.andn d a b) d (x &&& ~~~y) ∧
    s.Yields (.mul d a b) d (BitVec.ofNat 64 (x.toNat * y.toNat)) ∧
    s.Yields (.min d a b) d (BitVec.ofInt 64 (min x.toInt y.toInt)) ∧
    s.Yields (.max d a b) d (BitVec.ofInt 64 (max x.toInt y.toInt)) ∧
    s.Yields (.minz d a b) d (BitVec.ofNat 64 (min x.toNat y.toNat)) ∧
    s.Yields (.maxz d a b) d (BitVec.ofNat 64 (max x.toNat y.toNat)) ∧
    s.Yields (.slt d a b) d (if x.toInt < y.toInt then 1 else 0) ∧
    s.Yields (.sltz d a b) d (if x.toNat < y.toNat then 1 else 0) ∧
    s.Yields (.seq d a b) d (if x = y then 1 else 0)) ∧
  ∀ (s : State) (d a b : SReg),
    let x := s.rd a
    let y := s.rd b
    let k := y.toNat % 64
    s.Yields (.shl d a b) d (BitVec.ofNat 64 (x.toNat * 2 ^ k)) ∧
    s.Yields (.shr d a b) d (BitVec.ofNat 64 (x.toNat / 2 ^ k)) ∧
    s.Yields (.sra d a b) d (BitVec.ofInt 64 (x.toInt / 2 ^ k)) ∧
    s.Yields (.ror d a b) d ((x >>> k) ||| (x <<< (64 - k))) ∧
    s.Yields (.mulh d a b) d (((x.signExtend 128 * y.signExtend 128) >>> 64).setWidth 64) ∧
    s.Yields (.mulhz d a b) d (((x.zeroExtend 128 * y.zeroExtend 128) >>> 64).setWidth 64) ∧
    (∃ n, n ≤ 64 ∧ x.toNat < 2 ^ (64 - n) ∧ (n < 64 → 2 ^ (63 - n) ≤ x.toNat) ∧ s.Yields (.clz d a) d (BitVec.ofNat 64 n)) ∧
    (∃ n, (n = 64 ↔ x = 0) ∧ n ≤ 64 ∧ 2 ^ n ∣ x.toNat ∧ (n < 64 → ¬ 2 ^ (n + 1) ∣ x.toNat) ∧ s.Yields (.ctz d a) d (BitVec.ofNat 64 n)) ∧
    s.Yields (.popc d a) d (BitVec.ofNat 64 ((List.range 64).countP fun i => x.toNat.testBit i))

/-- R37: the frame of a division by zero is taken from the state with DZ set. -/
def Obligations.Divisions : Prop :=
  ∀ (s : State) (d a b : SReg),
    let x := s.rd a
    let y := s.rd b
    (y ≠ 0 →
      s.Yields (.div d a b) d (BitVec.ofInt 64 (x.toInt.tdiv y.toInt)) ∧
      s.Yields (.rem d a b) d (BitVec.ofInt 64 (x.toInt - x.toInt.tdiv y.toInt * y.toInt)) ∧
      s.Yields (.divz d a b) d (BitVec.ofNat 64 (x.toNat / y.toNat)) ∧
      s.Yields (.remz d a b) d (BitVec.ofNat 64 (x.toNat - x.toNat / y.toNat * y.toNat))) ∧
    (x = 0x8000000000000000#64 → y = 0xFFFFFFFFFFFFFFFF#64 → s.Yields (.div d a b) d x ∧ s.Yields (.rem d a b) d 0) ∧
    (y = 0 → ∀ i q, (i, q) ∈ [(Instr.div d a b, 0xFFFFFFFFFFFFFFFF#64), (.divz d a b, 0xFFFFFFFFFFFFFFFF#64), (.rem d a b, x), (.remz d a b, x)] →
      ∃ t, exec i s = .next t ∧ t.ctx.dz = true ∧ (s.updCtx fun c => { c with dz := true }).Computes t d q)

/-- R38 bit by bit. -/
def Obligations.BitFieldsAndConditionalMove : Prop :=
  ∀ (s : State) (d a b : SReg),
    let y := s.rd b
    let pos := y.toNat % 64
    let len := if y.toNat / 256 % 64 = 0 then 64 else y.toNat / 256 % 64
    (∃ v, s.Yields (.bext d a b) d v ∧
      ∀ i, i < 64 → v.getLsbD i = (decide (i < len) && (s.rd a).getLsbD (pos + i))) ∧
    (∃ v, s.Yields (.bins d a b) d v ∧
      ∀ i, i < 64 → v.getLsbD i = if pos ≤ i ∧ i < pos + len then (s.rd a).getLsbD (i - pos) else (s.rd d).getLsbD i) ∧
    s.Yields (.selnz d a b) d (if y ≠ 0 then s.rd a else s.rd d)

/-- R39, R44, R57: results over the integers, and frame. -/
def Obligations.ImmediateResults : Prop :=
  ∀ (s : State) (d a : SReg) (i : BitVec 14) (n : BitVec 6) (u : BitVec 20),
    let x := s.rd a
    s.Yields (.addi d a i) d (BitVec.ofInt 64 (x.toInt + i.toInt)) ∧
    s.Yields (.andi d a i) d (BitVec.ofNat 64 (x.toNat &&& i.toNat)) ∧
    s.Yields (.ori d a i) d (x ||| BitVec.ofInt 64 i.toInt) ∧
    s.Yields (.xori d a i) d (x ^^^ BitVec.ofInt 64 i.toInt) ∧
    s.Yields (.shli d a n) d (BitVec.ofNat 64 (x.toNat * 2 ^ n.toNat)) ∧
    s.Yields (.shri d a n) d (BitVec.ofNat 64 (x.toNat / 2 ^ n.toNat)) ∧
    s.Yields (.srai d a n) d (BitVec.ofInt 64 (x.toInt / 2 ^ n.toNat)) ∧
    s.Yields (.rori d a n) d ((x >>> n.toNat) ||| (x <<< (64 - n.toNat))) ∧
    s.Yields (.slti d a i) d (if x.toInt < i.toInt then 1 else 0) ∧
    s.Yields (.sltzi d a i) d (if x.toNat < i.toNat then 1 else 0) ∧
    s.Yields (.lui d u) d (BitVec.ofInt 64 (u.toInt * 4096)) ∧
    s.Yields (.auipc d u) d (BitVec.ofInt 64 (s.pc.toInt + u.toInt * 4096)) ∧
    s.Yields (.lea d a i) d (BitVec.ofInt 64 (x.toInt + i.toInt * 64)) ∧
    ∃ t, exec .nop s = .next t ∧ s.Idles t

/-- R49, R50 and R52: what every instruction that completes does to the pc, the two loops and the repeat. -/
def Obligations.CompletionAndLoopBack : Prop :=
  ∀ c : Ctx,
    let at0 := c.loop0.active = true ∧ c.loop0.stop = c.pc
    let at1 := c.loop1.active = true ∧ c.loop1.stop = c.pc
    let d := c.finish
    (c.rep.active = false → ¬ at0 → ¬ at1 →
      d.pc = c.pc + 4 ∧ d.lc0 = c.lc0 ∧ d.lc1 = c.lc1 ∧ d.loop0 = c.loop0 ∧ d.loop1 = c.loop1 ∧ d.rep = c.rep) ∧
    (c.rep.active = false → at0 → (¬ at1 ∨ c.last1 = false) → 1 < c.lc0.toNat →
      d.pc = c.loop0.start ∧ d.lc0 = c.lc0 - 1 ∧ d.lc1 = c.lc1 ∧ d.loop0 = c.loop0 ∧ d.loop1 = c.loop1) ∧
    (c.rep.active = false → at1 → (¬ at0 ∨ c.last1 = true) → 1 < c.lc1.toNat →
      d.pc = c.loop1.start ∧ d.lc1 = c.lc1 - 1 ∧ d.lc0 = c.lc0 ∧ d.loop0 = c.loop0 ∧ d.loop1 = c.loop1) ∧
    (c.rep.active = false → at0 → ¬ at1 → c.lc0.toNat ≤ 1 →
      d.pc = c.pc + 4 ∧ d.lc0 = 0 ∧ d.loop0 = { c.loop0 with active := false } ∧ d.lc1 = c.lc1 ∧ d.loop1 = c.loop1) ∧
    (c.rep.active = false → at1 → ¬ at0 → c.lc1.toNat ≤ 1 →
      d.pc = c.pc + 4 ∧ d.lc1 = 0 ∧ d.loop1 = { c.loop1 with active := false } ∧ d.lc0 = c.lc0 ∧ d.loop0 = c.loop0) ∧
    (c.rep.active = false → at0 → at1 → c.last1 = false → c.lc0.toNat ≤ 1 → 1 < c.lc1.toNat →
      d.pc = c.loop1.start ∧ d.lc0 = 0 ∧ d.loop0 = { c.loop0 with active := false } ∧ d.lc1 = c.lc1 - 1 ∧ d.loop1 = c.loop1) ∧
    (c.rep.active = false → at0 → at1 → c.last1 = true → c.lc1.toNat ≤ 1 → 1 < c.lc0.toNat →
      d.pc = c.loop0.start ∧ d.lc1 = 0 ∧ d.loop1 = { c.loop1 with active := false } ∧ d.lc0 = c.lc0 - 1 ∧ d.loop0 = c.loop0) ∧
    (c.rep.active = false → at0 → at1 → c.lc0.toNat ≤ 1 → c.lc1.toNat ≤ 1 →
      d.pc = c.pc + 4 ∧ d.lc0 = 0 ∧ d.lc1 = 0 ∧ d.loop0.active = false ∧ d.loop1.active = false) ∧
    (c.rep.active = true → 1 < c.rep.left.toNat →
      d.rep = { c.rep with next := c.rep.next + 1, left := c.rep.left - 1 } ∧ d.pc = c.pc ∧ d.lc0 = c.lc0 ∧ d.lc1 = c.lc1 ∧
        d.loop0 = c.loop0 ∧ d.loop1 = c.loop1) ∧
    (c.rep.active = true → c.rep.left.toNat ≤ 1 →
      d = ({ c with rep := { c.rep with active := false, left := 0, next := c.rep.next + 1 } } : Ctx).finish)

/-- R40 to R43: what `readBytes` gives is the subject of the next statement. -/
def Obligations.LoadResults : Prop :=
  ∀ (s s1 : State) (d a b : SReg) (z : LdSize) (o : BitVec 11) (i : Instr) (va : Word) (acc : Acc),
    let n := LdBytes z
    ((i, va) = (Instr.ld d a z o, s.rd a + BitVec.ofInt 64 (o.toInt * n)) ∨ (i, va) = (Instr.ldx d a b z, s.rd a + s.rd b * BitVec.ofNat 64 n)) →
    s.me.late = false → va.toNat % n = 0 → s.check s.die s.me.asid.toNat s.me.pl .load va n = (s1, .ok acc) →
    let s2 := if s1.hitsL1 acc then s1 else s1.arrive acc.pa n
    (s1.hitsL1 acc = true ∨ s1.portHeld s1.myself s1.ctx.cont.launch acc.pa = false ∧ s2.broken acc.pa = false) →
    let v := leValue (s2.readBytes acc n).1
    let x : Int := if z = .s8 ∨ z = .s16 ∨ z = .s32 then signed (8 * n) v else v
    ∃ t, exec i s = .next t ∧
      t.rd d = (if d = 0 then 0 else BitVec.ofInt 64 x) ∧ (∀ r, r ≠ d → t.rd r = s.rd r) ∧
      s.Accesses t (fun old new => { new with s := old.s }) ∧ (s.unpaired acc.pa n → s.SameMem t)

/-- R42, R43 and R309: L1 and the home slice. R45. -/
def Obligations.LoadedBytesAndPrefetch : Prop :=
  (∀ (s : State) (a : Acc) (n : Nat), s.ownStores = [] → a.pa % 64 + n ≤ 64 →
    let r := s.readBytes a n
    (∀ x, a.cached = true → (s.l1Of (hartCore s.cur)).find? (fun y => y.1 == a.pa / 64) = some x →
      r.1 = slice (lineBytes x.2) (a.pa % 64) n ∧ r.2 = s) ∧
    (a.cached = true → (s.l1Of (hartCore s.cur)).find? (fun y => y.1 == a.pa / 64) = none →
      r.1 = s.bytesAt a.pa n ∧ s.SameMem r.2 ∧
        (r.2.l1Of (hartCore s.cur)).find? (fun y => y.1 == a.pa / 64) = some (a.pa / 64, lineOf (s.bytesAt (a.pa / 64 * 64) 64))) ∧
    (a.cached = false → r.1 = (s.arrive a.pa n).bytesAt a.pa n ∧ r.2.mem = (s.arrive a.pa n).mem ∧ r.2.l1 = (s.arrive a.pa n).l1) ∧
    (s.me.late = false → s.arrive a.pa n = s.touch a.pa n)) ∧
  ∀ (s : State) (a : SReg) (i : BitVec 14), ∃ t, exec (.pfch a i) s = .next t ∧ t.cur = s.cur ∧ s.ctx.Steps t.ctx ∧
    t.ctx.still = s.ctx.still ∧ s.SameHartRegs t ∧ t.me.run = s.me.run ∧ s.SameOthers t ∧ s.SameMem t

/-- R40 to R42, R309, R321: the address written is the one that the check of R41 gives. That a store may be left in flight is log entry 11
(DEDUCED), that a throttle holds it at its port entry 50; R115's protected bytes and R304's and R352's lines are AccessChecks'. -/
def Obligations.StoreResults : Prop :=
  ∀ (s s1 : State) (d a b : SReg) (z : StSize) (o : BitVec 11) (i : Instr) (va : Word) (acc : Acc),
    let n := StBytes z
    ((i, va) = (Instr.st d a z o, s.rd a + BitVec.ofInt 64 (o.toInt * n)) ∨ (i, va) = (Instr.stx d a b z, s.rd a + s.rd b * BitVec.ofNat 64 n)) →
    va.toNat % n = 0 → s.check s.die s.me.asid.toNat s.me.pl .store va n = (s1, .ok acc) →
    (∀ q ∈ acc.pas, s1.protectedAt q n = false ∧ s1.stopped q = false ∧ q / 64 ∉ s1.poison ∧ s1.portHeld s1.myself s1.ctx.cont.launch q = false ∧ s.unpaired q n) →
    (s.me.late = false → s.calm →
      ∃ t, exec i s = .next t ∧ s.Accesses t (fun _ new => new) ∧
        (∀ q ∈ acc.pas, ∀ k, k < n → Memory.get t.mem (q + k) = BitVec.ofNat 8 ((s.rd d).toNat / 256 ^ k)) ∧
        ∀ x, (∀ q ∈ acc.pas, x < q ∨ q + n ≤ x) → Memory.get t.mem x = Memory.get s.mem x) ∧
    (s.me.late = true →
      ∃ t, exec i s = .next t ∧ s.Accesses t (fun old new => { new with stores := old.stores }) ∧ s.SameMem t ∧
        t.ctx.stores = s.ctx.stores ++ [{ pas := acc.pas, bytes := leBytes n (s.rd d).toNat, va := va }])

/-- R41, steps 2 to 6, in their order; R115, R304, R352 and R416's structure codes; what a throttle holds is log entry 50 (DEDUCED). R41, R98, R284, R427. That an object's page must allow reading, and that BWAIT's must allow writing, is log entry 94 (DESIGN CHOICE). -/
def Obligations.AccessChecks : Prop :=
  (∀ (s : State) (d a b : SReg) (i : Instr) (va : Word) (n : Nat) (use : Use),
    ((∃ z o, (i, use, n) = (Instr.ld d a z o, Use.load, LdBytes z) ∧ va = s.rd a + BitVec.ofInt 64 (o.toInt * n)) ∨
      (∃ z, (i, use, n) = (Instr.ldx d a b z, Use.load, LdBytes z) ∧ va = s.rd a + s.rd b * BitVec.ofNat 64 n) ∨
      (∃ z o, (i, use, n) = (Instr.st d a z o, Use.store, StBytes z) ∧ va = s.rd a + BitVec.ofInt 64 (o.toInt * n)) ∨
      (∃ z, (i, use, n) = (Instr.stx d a b z, Use.store, StBytes z) ∧ va = s.rd a + s.rd b * BitVec.ofNat 64 n)) →
    let go (t : State) (c : Cause) (k : Nat) (x : Word) := exec i s = .next (t.enter t.cur ⟨c, k, va, x, [], none⟩)
    (va.toNat % n ≠ 0 → go s .misalign 0 0) ∧
    (va.toNat % n = 0 → va.toNat / 2 ^ 56 ≠ 0 → va.toNat / 2 ^ 56 ≠ 255 → go s .access 0 0) ∧
    (va.toNat % n = 0 → (va.toNat / 2 ^ 56 = 0 ∨ va.toNat / 2 ^ 56 = 255) →
      (∀ s1 c k, s.translate s.die s.me.asid.toNat va.toNat = (s1, .error (c, k)) → c ≠ .link → go s1 c k 0) ∧
      ∀ s1 e c k p, s.translate s.die s.me.asid.toNat va.toNat = (s1, .ok e) →
        s1.judge s.die s.me.pl use va n e = .error (c, k, p) → go s1 c k (if c == .link then BitVec.ofNat 64 p else 0)) ∧
    ∀ s1 acc, va.toNat % n = 0 → s.check s.die s.me.asid.toNat s.me.pl use va n = (s1, .ok acc) →
      let code : Word := match spaceOf acc.pa with
        | .store _ _ _ => 4
        | _ => 3
      let held (q : Nat) : Prop := s1.portHeld s1.myself s1.ctx.cont.launch q = true
      let guarded := ∃ q ∈ acc.pas, s1.protectedAt q n = true
      let lost := ∃ q ∈ acc.pas, s1.stopped q = true ∨ q / 64 ∈ s1.poison
      (use = .store → guarded → go s1 .access 0 0) ∧
      (use = .store → ¬ guarded → lost → go s1 .ecc 0 code) ∧
      (use = .store → ¬ guarded → ¬ lost → (∃ q ∈ acc.pas, held q) → exec i s = .next s1) ∧
      (use = .load → s.me.late = false → s1.hitsL1 acc = false → held acc.pa → exec i s = .next s1) ∧
      (use = .load → s.me.late = false → s1.hitsL1 acc = false → ¬ held acc.pa → (s1.arrive acc.pa n).broken acc.pa = true →
        go (s1.arrive acc.pa n) .ecc 0 code)) ∧
  ∀ (s : State) (d a b : SReg) (i : Instr) (n : Nat) (w : Bool),
    (i, n, w) ∈ [(Instr.cas d a b, 8, true), (.dcas d a b, 8, true), (.amove d a b, 8, true), (.swap d a b, 8, true), (.ldaq d a, 8, false), (.strl a b, 8, true),
      (.binit d a b, 16, true), (.barr d a, 16, true), (.bwait d a b, 16, true), (.barw d a, 16, true), (.badj d a b, 16, true), (.babort a, 16, true),
      (.lkacq d a, 8, true), (.lktry d a, 8, true), (.lkrel a, 8, true), (.wobj a b, 8, false), (.whold a, 8, false), (.wdrop a, 8, false),
      (.wwait d a b, 8, false), (.wquery d a, 8, false), (.wcycle d a, 8, false), (.join d a, 16, false)] →
    let va := s.rd a
    let go (t : State) (c : Cause) (k : Nat) (x : Word) := exec i s = .next (t.enter t.cur ⟨c, k, va, x, [], none⟩)
    (va.toNat % n ≠ 0 → go s .misalign 0 0) ∧
    (va.toNat % n = 0 → va.toNat / 2 ^ 56 ≠ 0 → va.toNat / 2 ^ 56 ≠ 255 → go s .access 0 0) ∧
    (va.toNat % n = 0 → (va.toNat / 2 ^ 56 = 0 ∨ va.toNat / 2 ^ 56 = 255) →
      (∀ s1 c k, s.translate s.die s.me.asid.toNat va.toNat = (s1, .error (c, k)) → c ≠ .link → go s1 c k 0) ∧
      ∀ s1 e, s.translate s.die s.me.asid.toNat va.toNat = (s1, .ok e) →
        let pa := e.addrFor s.die va.toNat
        let all := if w then e.allAddrs va.toNat else [pa]
        let denied := e.r = false ∨ (w = true ∧ e.w = false) ∨ (s.me.pl = false ∧ e.prog = false) ∨ 2304 ≤ pkgOf pa ∨ ∃ q ∈ all, s1.closedArea q n = true
        let shared := e.repl.isSome = true ∨ s1.aliased pa = true
        (denied → go s1 .access 0 0) ∧
        (¬ denied → (s1.regionAt pa).isSome = true → go s1 .uregion 0 0) ∧
        (¬ denied → s1.regionAt pa = none → (isHbm pa = false ∨ shared) → go s1 .access 0 0) ∧
        (¬ denied → s1.regionAt pa = none → isHbm pa = true → ¬ shared → s1.reaches s.die pa = false → go s1 .link 0 (BitVec.ofNat 64 (pkgOf pa))) ∧
        (¬ denied → s1.regionAt pa = none → isHbm pa = true → ¬ shared → s1.reaches s.die pa = true → s1.broken pa = true → go s1 .ecc 0 3))

/-- R13, R46 and R47. -/
def Obligations.BranchesJumpsAndCalls : Prop :=
  ∀ (s : State) (a : SReg) (c : Cond) (o : BitVec 17) (j : BitVec 26),
    let x := (s.rd a).toInt
    let test : Prop := match c with
      | .eqz => x = 0 | .nez => x ≠ 0 | .ltz => x < 0 | .gez => 0 ≤ x | .gtz => 0 < x | .lez => x ≤ 0 | .bit0 => x % 2 = 1
    let far : Word := s.pc + BitVec.ofInt 64 (4 * j.toInt)
    let linked := s.wr 62 (s.pc + 4)
    let stopped (t : Word) : State := s.enter s.cur ⟨.misalign, 0, t, 0, [], none⟩
    (∃ t, exec (.br a c o) s = .next t ∧ (test → s.Transfers t (s.pc + BitVec.ofInt 64 (4 * o.toInt))) ∧ (¬ test → s.Idles t)) ∧
    (∃ t, exec (.jmp j) s = .next t ∧ s.Transfers t far) ∧
    (∃ t, exec (.call j) s = .next t ∧ linked.Transfers t far ∧ t.rd 62 = s.pc + 4) ∧
    ((s.rd a).toNat % 4 = 0 →
      (∃ t, exec (.jr a) s = .next t ∧ s.Transfers t (s.rd a)) ∧
      (∃ t, exec (.callr a) s = .next t ∧ linked.Transfers t (s.rd a) ∧ t.rd 62 = s.pc + 4)) ∧
    ((s.rd a).toNat % 4 ≠ 0 → exec (.jr a) s = .next (stopped (s.rd a)) ∧ exec (.callr a) s = .next (stopped (s.rd a))) ∧
    ((s.rd 62).toNat % 4 = 0 → ∃ t, exec .ret s = .next t ∧ s.Transfers t (s.rd 62)) ∧
    ((s.rd 62).toNat % 4 ≠ 0 → exec .ret s = .next (stopped (s.rd 62)))

/-- R48 and R51. -/
def Obligations.LoopsArmed : Prop :=
  ∀ (s : State) (c : Fin 2) (a : SReg) (k : BitVec 15) (l : BitVec 9) (i : Instr) (n : Word), l ≠ 0 →
    ((i, n) = (Instr.loop c a l, s.rd a) ∨ (i, n) = (Instr.loopi c k l, BitVec.ofNat 64 k.toNat)) →
    let x := s.ctx
    let body : HwLoop := ⟨s.pc + 4, s.pc + BitVec.ofNat 64 (4 * l.toNat), true⟩
    let fits (t : State) (y : Ctx) := s.OnlyMine t ∧ { t.ctx with grant := x.grant } = y
    ((x.loop0.active = true ∧ x.loop0.stop = s.pc ∨ x.loop1.active = true ∧ x.loop1.stop = s.pc) →
      exec i s = .next (s.enter s.cur ⟨.illegal, 0, 0, 0, [], none⟩)) ∧
    (¬ (x.loop0.active = true ∧ x.loop0.stop = s.pc) → ¬ (x.loop1.active = true ∧ x.loop1.stop = s.pc) →
      (n ≠ 0 → ∃ t, exec i s = .next t ∧
        fits t (if c = 0 then { x with lc0 := n, loop0 := body, last1 := false, pc := s.pc + 4 }
          else { x with lc1 := n, loop1 := body, last1 := true, pc := s.pc + 4 })) ∧
      (n = 0 → ∃ t, exec i s = .next t ∧
        fits t (if c = 0 then { x with lc0 := 0, loop0 := { x.loop0 with active := false }, pc := s.pc + 4 + BitVec.ofNat 64 (4 * l.toNat) }
          else { x with lc1 := 0, loop1 := { x.loop1 with active := false }, pc := s.pc + 4 + BitVec.ofNat 64 (4 * l.toNat) })))

/-- R52 and R53; R51 gives the ILLEGAL at a loop's end, which LoopsArmed states for its own two. -/
def Obligations.RepeatsArmedAndRun : Prop :=
  (∀ (s : State) (d a : SReg) (k : BitVec 12) (i : Instr) (n : Word),
    ((i, n) = (Instr.rep d a, s.rd a) ∨ (i, n) = (Instr.repi d k, BitVec.ofNat 64 k.toNat)) →
    ¬ (s.ctx.loop0.active = true ∧ s.ctx.loop0.stop = s.pc) → ¬ (s.ctx.loop1.active = true ∧ s.ctx.loop1.stop = s.pc) →
    (n = 0 → ∃ t, exec i s = .next t ∧ s.OnlyMine t ∧ { t.ctx with grant := s.ctx.grant } = { s.ctx with pc := s.pc + 4 + 4 }) ∧
    (n ≠ 0 → ∀ (s1 : State) (w : BitVec 32), s.fetch s.cur (s.pc + 4) = (s1, .ok w) →
      let major := w.toNat / 2 ^ 26
      let bar := (0x11 ≤ major ∧ major ≤ 0x18) ∨ major = 0x3A ∨ (major = 0x36 ∧ (w.toNat % 256 = 2 ∨ w.toNat % 256 = 3))
      (¬ bar → (∃ j, decodeControl w.toNat = .ok j) →
        ∃ t, exec i s = .next t ∧ s1.OnlyMine t ∧
          { t.ctx with grant := s1.ctx.grant } = { s1.ctx with pc := s.pc + 4, rep := ⟨true, 0, n, d, s.pc + 4, w⟩ }) ∧
      ((bar ∨ ∃ r, decodeControl w.toNat = .error r) →
        exec i s = .next (s1.enter s1.cur ⟨.illegal, 0, 0, 0, [], some (s.pc + 4)⟩)))) ∧
  (∀ (s : State) (late : Bool),
    let s0 := s.updHart s.cur fun x => { x with late := late }
    s0.me.run = .running → s0.throttled s0.myself s0.ctx.cont.launch 0 = false → s0.ctx.pend = [] → s0.ctx.rep.active = true →
    s0.ctx.replay = [] → s0.ctx.bad = [] →
    ∃ t, s.hartTurn s.cur late = .word s.ctx.rep.word t ∧ t.ctx.repidx = s.ctx.rep.next ∧
      t.rd s.ctx.rep.d = (if s.ctx.rep.d = 0 then 0 else s.ctx.rep.next) ∧ ∀ r, r ≠ s.ctx.rep.d → t.rd r = s.rd r)

/-- R55 and R56. -/
def Obligations.JumpTable : Prop :=
  ∀ (s s1 s2 : State) (d a : SReg) (i : BitVec 14) (hd body : List Byte),
    let at_ := s.pc + BitVec.ofInt 64 (4 * i.toInt)
    let c := s.rd a
    let n := fieldOf hd 0 4
    let bound (k : Nat) := fieldOf body (8 * k) 4
    let sized := 1 ≤ n ∧ n ≤ 64
    let rising := fieldOf hd 4 4 = 0 ∧ ∀ k, k + 1 < n → bound k < bound (k + 1)
    readRecordM .fetch at_ 8 s = .ok hd s1 →
    (¬ sized → exec (.jtab d a i) s = .next (s1.enter s1.cur ⟨.illegal, 0, 0, 0, [], none⟩)) ∧
    (sized → readRecordM .fetch (at_ + 8) (8 * n) s1 = .ok body s2 →
      (¬ rising → exec (.jtab d a i) s = .next (s2.enter s2.cur ⟨.illegal, 0, 0, 0, [], none⟩)) ∧
      (rising → ∀ k, k < n → c.toNat ≤ bound k → (∀ j, j < k → bound j < c.toNat) →
        ∃ t, exec (.jtab d a i) s = .next t ∧ (s2.wr d (BitVec.ofNat 64 (bound k))).Transfers t
          (at_ + BitVec.ofInt 64 (4 * signed 32 (fieldOf body (8 * k + 4) 4)))) ∧
      (rising → (∀ k, k < n → bound k < c.toNat) →
        ∃ t, exec (.jtab d a i) s = .next t ∧ s2.Computes t d c))

/-- R19, R61, R62, R82, R130, R301, R346, R360, R399: the values their rules state. -/
def Obligations.ResetState : Prop :=
  State.reset.memOk ∧ State.reset.mem = [] ∧
  (∀ (h : HartId) (r : SReg), (State.reset.hart h).ctx.rd r = 0) ∧
  (∀ (h : HartId) (r : Fin 32), (State.reset.hart h).ctx.v[r.val] = 0) ∧
  (∀ (h : HartId) (r : MReg), (if r = 0 then 0xFFFFFFFFFFFFFFFF#64 else (State.reset.hart h).ctx.m[r.val]) = if r = 0 then 0xFFFFFFFFFFFFFFFF#64 else 0) ∧
  (∀ (h : HartId) (q : QReg), (State.reset.hart h).ctx.q[q.val].bound = false) ∧
  (∀ h : HartId, (State.reset.hart h).status = 0 ∧
    State.reset.sysGet h .lc0 = 0 ∧ State.reset.sysGet h .lc1 = 0 ∧ State.reset.sysGet h .round = 0 ∧ State.reset.sysGet h .fpstat = 0 ∧
    State.reset.sysGet h .pivtau = 0x34000000#64 ∧ State.reset.sysGet h .pivstat = 0 ∧ State.reset.sysGet h .trapvec = 0 ∧
    State.reset.sysGet h .machvec = 0 ∧ State.reset.sysGet h .trapframe = 0 ∧ State.reset.sysGet h .trapcause = 0 ∧
    State.reset.sysGet h .ubinthresh = 24 ∧ State.reset.sysGet h .wextsize = 0 ∧
    State.reset.sysGet h .hashch0 = 0x200#64 ∧ State.reset.sysGet h .hashch1 = 0x400#64 ∧ State.reset.sysGet h .hashch2 = 0x800#64 ∧
    State.reset.sysGet h .hashch3 = 0x1000#64 ∧ State.reset.sysGet h .hashch4 = 0x2000#64 ∧ State.reset.sysGet h .hashpc = 0x100#64) ∧
  ∀ h : HartId, (State.reset.hart h).ctx.loop0.active = false ∧ (State.reset.hart h).ctx.loop1.active = false

/-- Equal memories are equal data: the model's own invariant (log entry 8), kept by all 361 meanings. -/
def Obligations.MemoryStaysCanonical : Prop :=
  ∀ s t : State, s.memOk → step s = .next t → t.memOk

/-- R128 to R130, R101, R301. -/
def Obligations.SystemRegisterReads : Prop :=
  ∀ (s : State) (d : SReg) (n : SysReg),
    let h := s.me
    let c := s.ctx
    let e := s.getDie s.die
    let busy : Word := if e.busy then 0x8000000000000000#64 else 0
    s.Yields (.sysr d n) d (match n with
      | .status => BitVec.ofNat 64 (h.eprio.toNat * 4096 + c.bprio.toNat * 256 + h.trc.toNat * 16 + c.dz.toNat * 8 + h.hm.toNat * 2 + h.pl.toNat)
      | .trapcause => h.trapcause
      | .trappc => h.trappc
      | .trapframe => h.frameBase ||| (if h.mact then 1 else 0)
      | .trapvec => h.trapvec
      | .machvec => h.machvec
      | .repidx => c.repidx
      | .lc0 => c.lc0
      | .lc1 => c.lc1
      | .fpstat => c.fpstat
      | .round => c.round
      | .stochseed => c.stochseed
      | .pivtau => c.pivtau
      | .pivstat => c.pivstat
      | .asid => BitVec.ofNat 64 h.asid.toNat
      | .agentid => BitVec.ofNat 64 (s.cur.val / 128 * 2 ^ 26 + s.cur.val % 128)
      | .pdrain => e.pdrain
      | .hashch0 => e.staged[0] ||| busy
      | .hashch1 => e.staged[1] ||| busy
      | .hashch2 => e.staged[2] ||| busy
      | .hashch3 => e.staged[3] ||| busy
      | .hashch4 => e.staged[4] ||| busy
      | .hashpc => e.masks[5] ||| busy
      | .wextbase => e.wextbase
      | .wextsize => e.wextsize
      | .ubinthresh => e.ubin)

/-- R6, R97, R128, R129: `SysRw` and `SysW1c` are the access masks of the register tables, `SysOnly` the system-written registers. -/
def Obligations.SystemRegisterWrites : Prop :=
  ∀ (s : State) (d : SReg) (n : SysReg),
    let v := s.rd d
    let old := s.sysGet s.cur n
    let rw := SysRw n
    let w1c := SysW1c n
    let kept : Word := match n with
      | .status => old &&& ~~~8#64
      | .agentid => old
      | .trapframe => if s.me.mact then 1 else 0
      | .hashch0 | .hashch1 | .hashch2 | .hashch3 | .hashch4 => if (s.getDie s.die).busy then 0x8000000000000000#64 else 0
      | _ => 0
    let takes (u : State) (x : Word) : Prop := u.cur = s.cur ∧ u.sysGet s.cur n &&& (rw ||| w1c) = x ∧ u.sysGet s.cur n &&& ~~~(rw ||| w1c) = kept ∧
      (∀ m, m ≠ n → u.sysGet s.cur m = s.sysGet s.cur m) ∧ (∀ r, u.rd r = s.rd r) ∧ s.SameOthers u ∧ s.SameMem u ∧ u.pc = s.pc
    (SysOnly n = true → s.me.pl = false →
      exec (.sysw d n) s = .next (s.enter s.cur ⟨.priv, 0, 0, 0, [], none⟩) ∧
      exec (.sysset d n) s = .next (s.enter s.cur ⟨.priv, 0, 0, 0, [], none⟩) ∧
      exec (.sysclr d n) s = .next (s.enter s.cur ⟨.priv, 0, 0, 0, [], none⟩)) ∧
    ((SysOnly n = false ∨ s.me.pl = true) → n ≠ .hashpc → n ≠ .wextbase → n ≠ .wextsize → n ≠ .ubinthresh →
      (∃ u, exec (.sysw d n) s = .next u.complete ∧ takes u ((v &&& rw) ||| (old &&& w1c &&& ~~~v))) ∧
      (∃ u, exec (.sysset d n) s = .next u.complete ∧ takes u (((old ||| v) &&& rw) ||| (old &&& w1c))) ∧
      (∃ u, exec (.sysclr d n) s = .next u.complete ∧ takes u ((old &&& ~~~v) &&& (rw ||| w1c))))

/-- R302, R346 and R360; ADDR of a trap where no address is at fault is a free value (log entry 20). -/
def Obligations.CheckedRegistersAndRehash : Prop :=
  ∀ (s : State) (d : SReg) (mk : SysReg → Instr) (val : Word → Word), s.me.pl = true →
    (mk, val) ∈ [((fun n => Instr.sysw d n), fun _ => s.rd d), ((fun n => Instr.sysset d n), fun old => old ||| s.rd d),
      ((fun n => Instr.sysclr d n), fun old => old &&& ~~~(s.rd d))] →
    let e := s.getDie s.die
    let v (n : SysReg) : Word := val (s.sysGet s.cur n)
    let denied (u : State) (i : Instr) := exec i s = .next (u.enterOpen s.cur .access)
    let now (u : State) (i : Instr) := exec i s = .next u.complete
    let hash : Word := v .hashpc &&& 0x3FFFFFFFC0#64
    let good := e.busy = false ∧ independent (stackMask :: (e.staged.toList ++ [hash]).map (·.toNat)) = true
    let commit : State := s.updDie s.die fun y => { y with busy := true, masks := Vector.ofFn fun i => (e.staged.toList ++ [hash]).getD i.val 0 }
    let revert : State := s.updDie s.die fun y => { y with staged := Vector.ofFn fun i => y.masks[i.val]'(by omega) }
    let bin : Word := v .ubinthresh &&& 0xFFFFFFFC00003F#64
    let fits := 1 ≤ bin.toNat % 64 ∧ bin.toNat % 64 ≤ 32 ∧
      (wfld bin 26 12 = 0 ∨ wfld bin 38 18 * 2 ^ 20 + wfld bin 26 12 * 2 ^ 24 ≤ 0x3000000000) ∧ (wfld bin 26 30 = wfld e.ubin 26 30 ∨ e.par.runs = [])
    let inside (base size : Word) := e.extUsed = 0 ∧ (size.toNat = 0 ∨
      (s.die.val * 2 ^ 38 ≤ wfld base 16 30 * 2 ^ 16 ∧ wfld base 16 30 * 2 ^ 16 + size.toNat * 65536 ≤ s.die.val * 2 ^ 38 + 0x3000000000))
    let base : Word := v .wextbase &&& 0x3FFFFFFF0000#64
    let size : Word := v .wextsize &&& 0xFFFFFF#64
    (good → now commit (mk .hashpc) ∧ (s.me.run = .running → exec (.hashpcWrite s.cur (v .hashpc)) s = .next commit)) ∧
    (¬ good → denied revert (mk .hashpc) ∧
      (s.me.run = .running → exec (.hashpcWrite s.cur (v .hashpc)) s = .next (revert.enterOpen s.cur .access))) ∧
    (∀ k : Fin 6, ∃ t, exec (.rehashComplete k) s = .next t ∧ t = s.updDie k fun y => { y with busy := false }) ∧
    (fits → ∃ u, now u (mk .ubinthresh) ∧ u.sysGet s.cur .ubinthresh = bin ∧
      (s.me.run = .running → exec (.ubinthreshWrite s.cur (v .ubinthresh)) s = .next u)) ∧
    (¬ fits → denied s (mk .ubinthresh)) ∧
    (inside base e.wextsize → ∃ u, now u (mk .wextbase) ∧ u.sysGet s.cur .wextbase = base ∧ u.sysGet s.cur .wextsize = e.wextsize) ∧
    (¬ inside base e.wextsize → denied s (mk .wextbase)) ∧
    (inside e.wextbase size → ∃ u, now u (mk .wextsize) ∧ u.sysGet s.cur .wextsize = size ∧ u.sysGet s.cur .wextbase = e.wextbase ∧
      (s.me.run = .running → exec (.wextsizeWrite s.cur (v .wextsize)) s = .next u)) ∧
    (¬ inside e.wextbase size → denied s (mk .wextsize))

/-- R400 in every case; R399 for the vectors and frames. That entry ends the repeat in progress is log entry 21, that the handles' words are noted for TRET
log entry 22 (both DEDUCED). MACHVEC 0 after a normal frame that cannot be written is left out. -/
def Obligations.TrapEntry : Prop :=
  ∀ (s : State) (h : HartId) (p : PendTrap),
    let x := s.hart h
    let addr (v : Word) : Word := v &&& ~~~3#64
    let into (s1 : State) (machine : Bool) (v : Word) : State := s1.setHart h
      { s1.hart h with
        trapcause := BitVec.ofNat 64 (p.cause.code + p.detail % 4096 * 256)
        trappc := p.at_.getD (s1.hart h).ctx.pc
        pl := true, hm := true, mact := machine, run := .running
        words := if machine then (s1.hart h).words else (s1.hart h).ctx.q.toList.map Handle.frameWord
        machWords := if machine then (s1.hart h).ctx.q.toList.map Handle.frameWord else (s1.hart h).machWords
        ctx := { (s1.hart h).ctx with pc := addr v, replay := [], grant := none, rep := { (s1.hart h).ctx.rep with active := false } } }
    let halts : Prop := ((s.enter h p).hart h).run = .halted (some p.cause)
    (x.mact = true → halts) ∧
    (x.mact = false → x.hm = true →
      (addr x.machvec = 0 → halts) ∧
      (addr x.machvec ≠ 0 → (∀ e, s.sysStore h (x.frameBase + 4096) (x.frame p false) = .error e → halts) ∧
        ∀ s1, s.sysStore h (x.frameBase + 4096) (x.frame p false) = .ok s1 → s.enter h p = into s1 true (s1.hart h).machvec)) ∧
    (x.mact = false → x.hm = false →
      (addr x.trapvec = 0 → p.cause = .preempt → s.enter h p = s) ∧
      (addr x.trapvec = 0 → p.cause ≠ .preempt → s.enter h p = s.faultHart h p.cause) ∧
      (addr x.trapvec ≠ 0 →
        (∀ s1, s.sysStore h x.frameBase (x.frame p false) = .ok s1 → s.enter h p = into s1 false (s1.hart h).trapvec) ∧
        ∀ e, s.sysStore h x.frameBase (x.frame p false) = .error e → addr x.machvec ≠ 0 →
          (∀ s1, s.sysStore h (x.frameBase + 4096) (x.frame p true) = .ok s1 → s.enter h p = into s1 true (s1.hart h).machvec) ∧
          ∀ e', s.sysStore h (x.frameBase + 4096) (x.frame p true) = .error e' → halts))

/-- That 0x008 holds this trap's cause, and that the frame keeps the repeat, rest on log entry 21 (DEDUCED). R401 and R402, but for the handles' words, the replay entries and the record, which other rules lay out. -/
def Obligations.FrameLayout : Prop :=
  ∀ (h : Hart) (p : PendTrap) (fw : Bool), h.ctx.replay.length ≤ 16 → p.record.length ≤ 272 →
    let c := h.ctx
    let f := h.frame p fw
    let w (o : Nat) := fieldOf f o 8
    let act := c.rep.active
    f.length = 4096 ∧ w 0x000 = h.status.toNat ∧ w 0x008 = p.cause.code + p.detail % 4096 * 256 ∧ w 0x010 = c.pc.toNat ∧ w 0x018 = p.addr.toNat ∧
    w 0x028 = (if act then c.rep.next.toNat else 0) ∧ w 0x030 = (if act then c.rep.left.toNat else 0) ∧ w 0x038 = (if act then c.rep.t.toNat else 0) ∧
    w 0x040 = c.lc0.toNat ∧ w 0x048 = c.lc1.toNat ∧ w 0x050 = c.loop0.start.toNat ∧ w 0x058 = c.loop0.stop.toNat ∧ w 0x060 = c.loop1.start.toNat ∧
    w 0x068 = c.loop1.stop.toNat ∧ w 0x070 = p.aux.toNat ∧ w 0x078 = 0 ∧
    (∀ r : SReg, w (0x080 + 8 * r.val) = (c.rd r).toNat) ∧ (∀ m : MReg, m ≠ 0 → w (0x280 + 8 * m.val) = c.m[m.val].toNat) ∧
    w 0x340 = c.repidx.toNat ∧ (∀ v : Fin 32, lineOf (slice f (0x800 + 64 * v.val) 64) = c.v[v.val]) ∧
    w 0x020 % 32 = c.replay.length ∧ fld (w 0x020) 16 1 = fw.toNat ∧ fld (w 0x020) 17 1 = c.last1.toNat ∧ fld (w 0x020) 18 1 = c.loop0.active.toNat ∧
    fld (w 0x020) 19 1 = c.loop1.active.toNat ∧ fld (w 0x020) 20 1 = act.toNat ∧ (act = true → fld (w 0x020) 21 6 = c.rep.d.val)

/-- R35, R58, R132, R133, R400 and R404; R416 for the structure codes, where an error strikes being log entry 19 (DESIGN CHOICE) and which registers are struck
log entry 90. -/
def Obligations.TrapInstructionsAndReturn : Prop :=
  ∀ s : State,
    (∀ n : BitVec 12, exec (.trap n) s = .next (s.complete.enter s.cur ⟨.trapi, n.toNat, 0, 0, [], some s.pc⟩)) ∧
    exec .bkpt s = .next (s.enter s.cur ⟨.bkpt, 0, 0, 0, [], none⟩) ∧
    (∀ w, exec (.illegalInstruction w) s = .next (s.enter s.cur ⟨.illegal, 0, 0, 0, [], none⟩)) ∧
    (∀ va k, exec (.instructionFetchFault .pagefault va k) s = .next (s.enter s.cur ⟨.pagefault, k, va, 0, [], none⟩) ∧
      exec (.instructionFetchFault .access va k) s = .next (s.enter s.cur ⟨.access, k, va, 0, [], none⟩) ∧
      exec (.instructionFetchFault .ecc va k) s = .next (s.enter s.cur ⟨.ecc, 0, va, BitVec.ofNat 64 k, [], none⟩) ∧
      exec (.instructionFetchFault .link va k) s = .next (s.enter s.cur ⟨.link, 0, va, BitVec.ofNat 64 k, [], none⟩)) ∧
    (s.me.pl = false → exec .halt s = .next (s.enter s.cur ⟨.priv, 0, 0, 0, [], none⟩)) ∧
    (s.me.pl = true → ∃ t, exec .halt s = .next t ∧ t.me.run = .halted none ∧ { t.me with run := s.me.run } = s.complete.me ∧ s.SameOthers t ∧ s.SameMem t) ∧
    (s.me.hm = false → exec .tret s = .next (s.enter s.cur ⟨.illegal, 0, 0, 0, [], none⟩)) ∧
    (∀ (f : List Byte) (s1 : State), s.me.hm = true → s.sysLoad s.cur (s.me.frameBase + (if s.me.mact then 4096 else 0)) 4096 = .ok (f, s1) →
      s1.frameFlaw f = none → fieldOf f 0x10 8 % 4 = 0 → (fieldOf f 0x20 8).testBit 20 = false → fieldOf f 0x20 8 % 32 = 0 →
      (∀ q : QReg, s1.ctx.q[q.val].bound = false ∧ fieldOf f (0x2C0 + 8 * q.val) 8 = 0) →
      let w (o : Nat) : Word := BitVec.ofNat 64 (fieldOf f o 8)
      ∃ t, exec .tret s = .next t ∧ t.cur = s1.cur ∧ t.pc = w 0x10 ∧ t.me.pl = (fieldOf f 0 8).testBit 0 ∧ t.me.hm = (fieldOf f 0 8).testBit 1 ∧
        t.me.mact = false ∧ t.ctx.dz = (fieldOf f 0 8).testBit 3 ∧ t.ctx.bprio = s1.ctx.bprio ∧ t.me.eprio = s1.me.eprio ∧ t.me.trc = s1.me.trc ∧
        (∀ r : SReg, t.rd r = if r = 0 then 0 else w (0x080 + 8 * r.val)) ∧ (∀ m : MReg, m ≠ 0 → t.rdM m = w (0x280 + 8 * m.val)) ∧
        (∀ v : Fin 32, t.rdV v = lineOf (slice f (0x800 + 64 * v.val) 64)) ∧ t.ctx.lc0 = w 0x40 ∧ t.ctx.lc1 = w 0x48 ∧
        t.ctx.loop0 = ⟨w 0x50, w 0x58, (fieldOf f 0x20 8).testBit 18⟩ ∧ t.ctx.loop1 = ⟨w 0x60, w 0x68, (fieldOf f 0x20 8).testBit 19⟩ ∧
        t.ctx.repidx = w 0x340 ∧ t.ctx.rep.active = false ∧ t.ctx.bad = [] ∧ s1.SameMem t) ∧
    (∀ (s1 : State) (a : Acc), s.me.late = false → s.check s.die s.me.asid.toNat s.me.pl .fetch s.pc 4 = (s1, .ok a) → (s1.touch a.pa 4).broken a.pa = true →
      s.fetch s.cur s.pc = (s1.touch a.pa 4, .error (.ecc, match spaceOf a.pa with
        | .store _ _ _ => 4
        | _ => 3))) ∧
    ∀ (s2 : State) (w : BitVec 32) (r : Nat),
      let s0 := (s.tick 1).updHart s.cur fun x => { x with late := s.me.late }
      s.turns = [] → s0.cur = s.cur → s0.me.run = .running → s0.throttled s0.myself s0.ctx.cont.launch 0 = false → s0.ctx.pend = [] →
      s0.ctx.rep.active = false → s0.fetch s0.cur s0.pc = (s2, .ok w) → s2.ctx.replay = [] → r ∈ s2.ctx.bad → r ∈ sourcesOf w →
      step s = .next (s2.enter s2.cur ⟨.ecc, 0, 0, 1, [], none⟩)

/-- R131, R134, R135, R403, R416, R417. WPSET's translation as a load and the table of the issuing die rest on log entry 47 (DEDUCED); a load that returns with an error
and its structure code on log entries 11 and 19. -/
def Obligations.TraceWatchAndInvalidate : Prop :=
  ∀ s : State,
    (∃ t, exec .trcon s = .next t ∧ t.me.trc = true ∧ s.ctx.Steps t.ctx ∧ t.ctx.still = s.ctx.still ∧ s.SameMem t) ∧
    (∃ t, exec .trcoff s = .next t ∧ t.me.trc = false ∧ s.ctx.Steps t.ctx ∧ t.ctx.still = s.ctx.still ∧ s.SameMem t) ∧
    (∀ (d : SReg) (n : BitVec 12), ∃ t, exec (.trcmark d n) s = .next t ∧ s.ctx.Steps t.ctx ∧ t.ctx.still = s.ctx.still ∧ s.SameMem t ∧
      ((Tbl.getD s.traces (hartCore s.cur) {}).frozen = false →
        ∃ r : BitVec 128, (Tbl.getD t.traces (hartCore s.cur) {}).recs.getLast? = some r ∧ r.toNat % 2 ^ 32 = s.cycle % 2 ^ 32 ∧
          r.toNat / 2 ^ 32 % 256 = 5 ∧ r.toNat / 2 ^ 48 % 2 ^ 16 = n.toNat ∧ r.toNat / 2 ^ 64 = (s.rd d).toNat)) ∧
    (∀ (d a b : SReg), let w := s.rd b
      let len := wfld w 0 6
      let bad := wfld w 6 2 = 0 ∨ wfld w 12 2 = 3 ∨ len < 3 ∨ 12 < len ∨ wfld w 14 50 ≠ 0
      (bad → s.Yields (.wpset d a b) d 0xFFFFFFFFFFFFFFFF#64) ∧
      (¬ bad → ∀ (s1 : State) (x : Acc) (i : Nat), (s.rd a).toNat % 2 ^ len = 0 →
        s.check s.die s.me.asid.toNat s.me.pl .load (s.rd a) (2 ^ len) = (s1, .ok x) → i < 64 →
        Tbl.find? (s1.getDie s.die).watches i = none → (∀ j, j < i → Tbl.find? (s1.getDie s.die).watches j ≠ none) →
        ∃ t, exec (.wpset d a b) s = .next t ∧ t.rd d = (if d = 0 then 0 else BitVec.ofNat 64 i) ∧ s.SameMem t ∧
          Tbl.find? (t.getDie s.die).watches i = some ⟨s.me.asid.toNat, s.cur, x.pa, 2 ^ len, wfld w 6 2, wfld w 8 4, wfld w 12 2⟩)) ∧
    (∀ a : SReg, ∃ t, exec (.wpclr a) s = .next t ∧ s.SameMem t ∧
      ∀ w, Tbl.find? (s.getDie s.die).watches (s.rd a).toNat = some w →
        Tbl.find? (t.getDie s.die).watches (s.rd a).toNat = if w.asid = s.me.asid.toNat then none else some w) ∧
    (∀ (h : HartId) (p : PendTrap) (rest : List PendTrap), (s.hart h).run = .running → (s.hart h).ctx.pend = p :: rest → p.cause = .watch →
      exec (.watchDelivery h) s = .next ((s.updHart h fun y => { y with ctx := { y.ctx with pend := rest } }).enter h p)) ∧
    (∀ a b : SReg, s.me.pl = false → exec (.xlinv a b) s = .next (s.enter s.cur ⟨.priv, 0, 0, 0, [], none⟩)) ∧
    (∀ a b : SReg, let w := s.rd b
      s.me.pl = true → 3 ≤ wfld w 0 4 → wfld w 0 4 ≤ 7 → wfld w 26 38 = 0 → wfld w 6 10 = 0 →
      (wfld w 4 2 = 0 ∧ wfld w 16 10 = 0 ∨ wfld w 4 2 = 1 ∨ wfld w 4 2 = 2 ∧ wfld w 16 10 = 0) →
      ∃ t, exec (.xlinv a b) s = .next t ∧ s.SameMem t ∧ ∀ x ∈ (t.getDie s.die).tlb,
        ¬ (wfld w 4 2 = 2 ∨ (wfld w 4 2 = 1 ∧ x.asid = wfld w 16 10) ∨
          (wfld w 4 2 = 0 ∧ x.asid = s.me.asid.toNat ∧ x.covers s.me.asid.toNat (s.rd a).toNat = true))) ∧
    ∀ (h : HartId) (r : Replay) (rest : List Replay) (d a : SReg) (z : LdSize) (o : BitVec 11), (s.hart h).ctx.replay = r :: rest →
      decodeControl r.word.toNat = .ok (.ld d a z o) →
      let s0 : State := { s with cur := h }
      (∀ v s1, (lateLoadM r (LdBytes z)).run s0 = .ok v s1 →
        ∃ t, exec (.loadDataReturn h false) s = .next t ∧ t.cur = s.cur ∧ (t.hart h).ctx.replay = rest ∧
          (t.hart h).ctx.rd d = (if d = 0 then 0 else extendLoad z v) ∧ (∀ k, k ≠ d → (t.hart h).ctx.rd k = (s1.hart h).ctx.rd k) ∧ s1.SameMem t) ∧
      exec (.loadDataReturn h true) s = .next { (s0.updCtx fun c => { c with replay := { r with err := true } :: rest }).enter h
        ⟨.ecc, 0, r.opa, match r.served.map fun x => spaceOf x.1 with
          | some (.store _ _ _) => 4
          | _ => 3, [], some r.pc⟩ with cur := s.cur }

/-- R113 to R115 and the order of checks of R98. -/
def Obligations.Atomics : Prop :=
  ∀ (s s1 : State) (d a b : SReg) (p : Nat), s.calm → s.objectAt (s.rd a) 8 8 true s1 p → s1.broken p = false →
    let o := BitVec.ofNat 64 (s1.valueAt p 8)
    let keep := s.Accesses
    let res (t : State) (d : SReg) (v : Word) := t.rd d = if d = 0 then 0 else v
    let only (t : State) (d : SReg) := ∀ r, r ≠ d → t.rd r = s.rd r
    let put (t : State) (p : Nat) (v : Word) := t.valueAt p 8 = v.toNat ∧ s.SameMemBut t p 8
    (s1.protectedAt p 8 = false →
      (∃ t, exec (.cas d a b) s = .next t ∧ res t d o ∧ only t d ∧ t.acquired ∧ keep t (fun old new => { new with s := old.s }) ∧
        (o = s.rd d → put t p (s.rd b)) ∧ (o ≠ s.rd d → s.SameMem t)) ∧
      (∃ t, exec (.swap d a b) s = .next t ∧ res t d o ∧ only t d ∧ t.acquired ∧ keep t (fun old new => { new with s := old.s }) ∧ put t p (s.rd b)) ∧
      (∃ t, exec (.strl a b) s = .next t ∧ keep t (fun _ new => new) ∧ put t p (s.rd b)) ∧
      (∀ (s2 : State) (q : Nat), s1.objectAt (s.rd b) 8 8 false s2 q → s2.broken q = false →
        ∃ t, exec (.amove d a b) s = .next t ∧ res t d (BitVec.ofNat 64 (s2.valueAt p 8)) ∧ only t d ∧ t.acquired ∧
          put t p (BitVec.ofNat 64 (s2.valueAt q 8))) ∧
      (∀ (s2 : State) (q : Nat), d.val % 2 = 0 → a.val % 2 = 0 → b.val % 2 = 0 → s1.objectAt (s.rd (a + 1)) 8 8 true s2 q →
        s2.broken q = false → s2.protectedAt q 8 = false → (p + 8 ≤ q ∨ q + 8 ≤ p) →
        let o1 := BitVec.ofNat 64 (s2.valueAt p 8)
        let o2 := BitVec.ofNat 64 (s2.valueAt q 8)
        ∃ t, exec (.dcas d a b) s = .next t ∧ res t d o1 ∧ res t (d + 1) o2 ∧ (∀ r, r ≠ d → r ≠ d + 1 → t.rd r = s.rd r) ∧ t.acquired ∧
          (o1 = s.rd d ∧ o2 = s.rd (d + 1) → t.valueAt p 8 = (s.rd b).toNat ∧ t.valueAt q 8 = (s.rd (b + 1)).toNat ∧
            ∀ x, (x < p ∨ p + 8 ≤ x) → (x < q ∨ q + 8 ≤ x) → Memory.get t.mem x = Memory.get s.mem x) ∧
          (¬ (o1 = s.rd d ∧ o2 = s.rd (d + 1)) → s.SameMem t)) ∧
      (∀ s2 : State, d.val % 2 = 0 → a.val % 2 = 0 → b.val % 2 = 0 → s1.objectAt (s.rd (a + 1)) 8 8 true s2 p → s2.broken p = false →
        s2.protectedAt p 8 = false →
        ∃ t, exec (.dcas d a b) s = .next t ∧ res t d o ∧ res t (d + 1) o ∧ (o = s.rd d ∧ o = s.rd (d + 1) → put t p (s.rd (b + 1))) ∧
          (¬ (o = s.rd d ∧ o = s.rd (d + 1)) → s.SameMem t))) ∧
    (s1.protectedAt p 8 = true → ∀ i ∈ [Instr.cas d a b, .swap d a b, .strl a b],
      exec i s = .next (s1.enter s1.cur ⟨.access, 0, s.rd a, 0, [], none⟩)) ∧
    (∀ (s2 : State) (q : Nat), s.objectAt (s.rd a) 8 8 false s2 q → s2.broken q = false →
      ∃ t, exec (.ldaq d a) s = .next t ∧ res t d (BitVec.ofNat 64 (s2.valueAt q 8)) ∧ only t d ∧ t.acquired ∧ s.SameMem t)

/-- R115 to R117; a barrier's words are read and written as R115 lays them out. That an object of BINIT stays reserved, and when orphans are tested, is log entry 26 (DEDUCED);
that BWAIT's page must allow writing, like the other barrier instructions', log entry 94 (DESIGN CHOICE). -/
def Obligations.Barriers : Prop :=
  ∀ (s s1 : State) (d a b : SReg) (p : Nat), s.calm → s.ctx.grant = none → s.ctx.arrived = none → s.objectAt (s.rd a) 16 16 true s1 p → s1.broken p = false →
    let key := ObjKey.mem p
    let n := (s.rd b).toNat % 2 ^ 32
    let g := s1.barGen p
    let res (t : State) (v : Nat) := t.rd d = if d = 0 then 0 else BitVec.ofNat 64 v
    let ends (i : Instr) (v : Nat) := ∃ t, exec i s = .next t ∧ res t v ∧ s.SameMem t
    let aborted := (s1.barState p).testBit 0 = true
    (n < 1 ∨ 2 ^ 31 - 1 < n → ends (.binit d a b) 1) ∧
    (1 ≤ n → n ≤ 2 ^ 31 - 1 → s1.waiters key ≠ [] → ends (.binit d a b) 2) ∧
    (1 ≤ n → n ≤ 2 ^ 31 - 1 → s1.waiters key = [] → s1.roomAt key.home 1 →
      ∃ t, exec (.binit d a b) s = .next t ∧ res t 0 ∧ t.barExpected p = n ∧ t.barArrived p = 0 ∧ t.barGen p = (g + 1) % 2 ^ 32 ∧ t.barState p = 0 ∧
        t.holdings key = [] ∧ s.SameMemBut t p 16) ∧
    (aborted → ends (.barr d a) (2 ^ 62 + g) ∧ ends (.barw d a) 1 ∧ ends (.bwait d a b) 1) ∧
    (¬ aborted → ∀ e, s1.myHold key 3 = some e →
      (e.arrived = true → ends (.barr d a) (2 * 2 ^ 62 + g) ∧ ends (.barw d a) 2) ∧
      (e.arrived = false → s1.barArrived p + 1 = s1.barExpected p →
        (∃ t, exec (.barr d a) s = .next t ∧ res t g ∧ t.barArrived p = 0 ∧ t.barGen p = (g + 1) % 2 ^ 32 ∧ t.barExpected p = s1.barExpected p ∧ s.SameMemBut t p 16) ∧
        (∃ t, exec (.barw d a) s = .next t ∧ res t 0 ∧ t.barArrived p = 0 ∧ t.barGen p = (g + 1) % 2 ^ 32 ∧ t.acquired ∧ s.SameMemBut t p 16)) ∧
      (e.arrived = false → s1.barArrived p + 1 < s1.barExpected p →
        ∃ t, exec (.barr d a) s = .next t ∧ res t g ∧ t.barArrived p = s1.barArrived p + 1 ∧ t.barGen p = g ∧ s.SameMemBut t p 16)) ∧
    (¬ aborted → g ≠ n → ∃ t, exec (.bwait d a b) s = .next t ∧ res t 0 ∧ t.acquired ∧ s.SameMem t) ∧
    (
      let m : Int := s1.barExpected p + signed 32 (s.rd b).toNat
      (m < 1 ∨ 2 ^ 31 - 1 < m → ends (.badj d a b) 2) ∧
      (1 ≤ m → m ≤ 2 ^ 31 - 1 → ∃ t, exec (.badj d a b) s = .next t ∧ res t 0 ∧ (t.barExpected p : Int) = m ∧ (t.barState p).testBit 1 = false ∧
        (s1.barArrived p < m → t.barGen p = g ∧ t.barArrived p = s1.barArrived p) ∧
        (m ≤ s1.barArrived p → t.barGen p = (g + 1) % 2 ^ 32 ∧ t.barArrived p = 0) ∧ s.SameMemBut t p 16)) ∧
    ∃ t, exec (.babort a) s = .next t ∧ (t.barState p).testBit 0 = true ∧ t.barExpected p = s1.barExpected p ∧ t.barArrived p = s1.barArrived p ∧
      t.barGen p = g ∧ t.waiters key = [] ∧ s.SameMemBut t p 16

/-- R115, R118. -/
def Obligations.Locks : Prop :=
  ∀ (s s1 : State) (d a : SReg) (p : Nat), s.calm → s.ctx.grant = none → s.objectAt (s.rd a) 8 8 true s1 p → s1.broken p = false →
    let w := s1.valueAt p 8
    let key := ObjKey.mem p
    let res (t : State) (v : Nat) := t.rd d = if d = 0 then 0 else BitVec.ofNat 64 v
    (w.testBit 63 = false → s1.roomAt key.home 2 → ∀ i ∈ [Instr.lkacq d a, .lktry d a],
      ∃ t, exec i s = .next t ∧ res t (if w.testBit 62 then 1 else 0) ∧ t.valueAt p 8 = 2 ^ 63 + Config.package * 2 ^ 32 + s.agent ∧
        t.holdsLock p = true ∧ t.acquired ∧ s.SameMemBut t p 8 ∧ ∀ r, r ≠ d → t.rd r = s.rd r) ∧
    (w.testBit 63 = true →
      (s1.holdsLock p = false →
        (∃ t, exec (.lktry d a) s = .next t ∧ res t 2 ∧ s.SameMem t) ∧
        exec (.lkrel a) s = .next (s1.enter s1.cur ⟨.access, 0, s.rd a, 0, [], none⟩)) ∧
      (s1.holdsLock p = true →
        (∃ t, exec (.lktry d a) s = .next t ∧ res t 3 ∧ s.SameMem t) ∧
        (∃ rec_, exec (.lkacq d a) s = .next (s1.enter s1.cur ⟨.deadlock, 1, 0, 0, rec_, none⟩)) ∧
        (s1.waiters key = [] → ∃ t, exec (.lkrel a) s = .next t ∧ t.valueAt p 8 = 0 ∧ (∀ e ∈ t.holdings key, e.kind ≠ 4) ∧ s.SameMemBut t p 8) ∧
        (∀ e, (((s1.flushHart s1.cur).escape.watch p 8 (s.rd a) 3 .hart s1.agent s1.me.asid.toNat (some s1.pc)).dropEntries key
            fun x => x.typ == .hold && x.kind == 4).nextWaiter key = some e → e.agent < 2 ^ 32 →
          ∃ t, exec (.lkrel a) s = .next t ∧ t.valueAt p 8 = 2 ^ 63 + Config.package * 2 ^ 32 + e.agent ∧ s.SameMemBut t p 8))) ∧
    (w.testBit 63 = false → exec (.lkrel a) s = .next (s1.enter s1.cur ⟨.access, 0, s.rd a, 0, [], none⟩))

/-- R99, R119, R357 to R364; that WOBJ's class is the kind of the record is the model's reading (log entry 25), that a word with bit 63 set counts as a lock word log entry 95
(DESIGN CHOICE). -/
def Obligations.WaitForTable : Prop :=
  ∀ (s s1 : State) (d a b : SReg) (p : Nat), s.calm → s.ctx.grant = none → s.objectAt (s.rd a) 8 8 false s1 p → s1.broken p = false →
    let key := ObjKey.mem p
    let w := BitVec.ofNat 64 (s1.valueAt p 8)
    let room := s1.roomAt key.home 2
    let seen := s1.watch p 8 (s.rd a) 2 .hart s1.agent s1.me.asid.toNat (some s1.pc)
    let lock := s1.isLock key = true ∨ w.toNat.testBit 63 = true
    let kind := if s1.isBarrier key = true then 3 else if s1.isLock key = true then 4
      else if (s1.objOf key).any (·.kind == 6) = true ∨ s1.children key ≠ [] then 6 else 5
    (room → ∃ t, exec (.wobj a b) s = .next t ∧ s.SameMem t ∧ s.ctx.still = t.ctx.still ∧
      ((s1.objOf key).isSome = true → t.entries key = s1.entries key) ∧
      ((s1.objOf key).isSome = false → ∃ e, t.objOf key = some e ∧ e.reserved = true ∧ e.kind = (s.rd b).toNat % 256)) ∧
    (room → (s1.isBarrier key = true ∨ ¬ lock) →
      ∃ t, exec (.whold a) s = .next t ∧ s.SameMem t ∧ ∃ e, t.myHold key (if s1.isBarrier key = true then 3 else 5) = some e) ∧
    (s1.isBarrier key = false → lock → exec (.whold a) s = .next (s1.enter s1.cur ⟨.access, 0, s.rd a, 0, [], none⟩)) ∧
    ((s1.isLock key = true ∨ (s1.myHold key 3 = none ∧ s1.myHold key 5 = none)) → ∃ t, exec (.wdrop a) s = .next t ∧ t.entries key = s1.entries key ∧ s.SameMem t) ∧
    (s1.isLock key = false → ∀ e, s1.myHold key 3 = some e → ∃ t, exec (.wdrop a) s = .next t ∧ t.myHold key 3 = none ∧ s.SameMemBut t p 16) ∧
    (s1.isLock key = false → s1.myHold key 3 = none → ∀ e, s1.myHold key 5 = some e → ∃ t, exec (.wdrop a) s = .next t ∧ t.myHold key 5 = none ∧ s.SameMem t) ∧
    (w ≠ s.rd b → ∃ t, exec (.wwait d a b) s = .next t ∧ t.rd d = (if d = 0 then 0 else w) ∧ t.acquired ∧ s.SameMem t) ∧
    (w = s.rd b → room → seen.cycleOf (seen.waitEntry .word key (s.rd a) 0) = none →
      ∃ t, exec (.wwait d a b) s = .next t ∧ t.me.run = .waiting ⟨.word, key, 0, s.cycle⟩ ∧ t.pc = s.pc ∧ s.SameMem t ∧
        ∃ e ∈ t.waiters key, e.party = s.myself) ∧
    (∃ t, exec (.wquery d a) s = .next t ∧ s.SameMem t ∧ t.entries key = s1.entries key ∧ t.rd d = if d = 0 then 0 else
      match s1.objOf key with
      | none => 0
      | some o => BitVec.ofNat 64 (o.kind * 2 ^ 56 + min (s1.waiters key).length 65535 * 2 ^ 40 + min (s1.holdings key).length 65535 * 2 ^ 24)) ∧
    ∃ t, exec (.wcycle d a) s = .next t ∧ s.SameMem t ∧ t.entries key = s1.entries key ∧ t.rd d = if d = 0 then 0 else
      match s1.cycleOf { s1.waitEntry .word key (s.rd a) 0 with kind := kind } with
      | none => 0
      | some path => BitVec.ofNat 64 path.length

/-- R117, R118, R120, R332, R375, R377, R383; a continuation that runs outside any launch has launch 0 (log entry 10); YIELD in handler mode and to any ready record is log
entry 76 (DEDUCED). -/
def Obligations.Scheduling : Prop :=
  ∀ (s : State) (d a b : SReg), s.calm → s.ctx.grant = none →
    ((s.rd a).toNat % 4 ≠ 0 → exec (.spawn d a b) s = .next (s.enter s.cur ⟨.misalign, 0, s.rd a, 0, [], none⟩)) ∧
    ((s.rd a).toNat % 4 = 0 → (s.rd b).toNat % 64 ≠ 0 → exec (.spawn d a b) s = .next (s.enter s.cur ⟨.misalign, 0, s.rd b, 0, [], none⟩)) ∧
    ((s.rd a).toNat % 4 = 0 → (s.rd b).toNat % 64 = 0 → 256 < (s.getDie s.die).poolFree →
      (s.rd d = 0 → ∃ t, exec (.spawn d a b) s = .next t ∧ t.nextCont = s.nextCont + 1 ∧ s.SameMem t ∧ ∃ r : Rec,
        (t.getDie s.die).pool = (s.getDie s.die).pool ++ [r] ∧ r.uid = s.nextCont ∧ r.code = s.rd a ∧ r.frame = s.rd b ∧ r.join = 0 ∧ r.prio = s.ctx.bprio) ∧
      (s.rd d ≠ 0 → ∀ s1 p, s.objectAt (s.rd d) 16 16 true s1 p → s1.broken p = false →
        ∃ t, exec (.spawn d a b) s = .next t ∧ t.valueAt p 8 = (s1.valueAt p 8 + 1) % 2 ^ 64 ∧ s.SameMemBut t p 8 ∧
          ∃ r ∈ (t.getDie s.die).pool, r.uid = s.nextCont ∧ r.code = s.rd a ∧ r.frame = s.rd b ∧ r.join = s.rd d ∧ r.prio = s.ctx.bprio)) ∧
    (∀ s1 p, s.objectAt (s.rd a) 16 16 false s1 p → s1.broken p = false → s1.valueAt p 8 = 0 →
      ∃ t, exec (.join d a) s = .next t ∧ t.rd d = 0 ∧ t.acquired ∧ s.SameMem t ∧ ∀ r, r ≠ d → t.rd r = s.rd r) ∧
    (
      let rival := ∃ x ∈ s.readyRecs, s.me.eprio.toNat ≤ s.recPrio x.2
      (¬ rival → ∃ t, exec .yield s = .next t ∧ s.Idles t) ∧
      (rival → 256 < (s.getDie s.die).poolFree → ∃ t, exec .yield s = .next t ∧ t.me.run = .idle ∧ s.SameMem t ∧ ∃ r : Rec,
        (t.getDie s.die).pool = (s.getDie s.die).pool ++ [r] ∧ r.uid = s.ctx.cont.uid ∧ r.code = s.ctx.finish.pc ∧
          r.saved = some { s.ctx.finish with stores := [] })) ∧
    (s.me.hm = true → exec .exit s = .next (s.enter s.cur ⟨.illegal, 0, 0, 0, [], none⟩)) ∧
    (s.me.hm = false → ∃ t, exec .exit s = .next t ∧ (t.hart s.cur).run = .idle ∧ (t.hart s.cur).ctx = {} ∧
      let s1 := allDies.foldl State.closeAll (s.flushHart s.cur).escape.releaseLog
      let s2 := s1.depart s1.myself 0
      let mine := s1.allEntries.filter fun e => e.typ == .hold && e.party.same s.myself
      let rest := s.ctx.cont.launch = 0 ∨ 1 < (s2.launch s.ctx.cont.launch).conts
      (rest → s.ctx.cont.join = 0 →
        (∀ k, (t.getDie k).par = (s1.getDie k).par) ∧
        (∀ e pa, mine = [e] → e.key = .mem pa → e.kind = 4 →
          (s1.waiters e.key = [] → t.valueAt pa 8 = s1.valueAt pa 8 % 2 ^ 62 + 2 ^ 62 ∧ s1.SameMemBut t pa 8) ∧
          ∀ x h, s1.waiters e.key = [x] → x.kind = 4 → x.party.same s.myself = false → x.agent < 2 ^ 32 → s1.hartOfParty x.party = some h →
            (∃ w, (s1.hart h).run = .waiting w) →
            t.valueAt pa 8 = 2 ^ 63 + Config.package * 2 ^ 32 + x.agent ∧ (t.hart h).run = .running ∧ (t.hart h).ctx.grant = some (.lock true)) ∧
        ∀ e pa, mine = [e] → e.key = .mem pa → e.kind = 3 → e.arrived = false → s1.barArrived pa = 0 → s1.waiters e.key = [] →
          s1.SameMem t ∧ ∃ x ∈ (t.getDie (homeDie pa)).departed, x.key = e.key ∧ x.gen = s1.barGen pa ∧ x.agent = e.agent ∧ x.how = 0) ∧
      (rest → s.ctx.cont.join ≠ 0 → ∀ (s3 : State) (x : Acc),
        s2.check s2.die (s2.launch s.ctx.cont.launch).asid true (.object true) s.ctx.cont.join 8 = (s3, .ok x) → x.pa % 8 = 0 →
          t.valueAt x.pa 8 = (s3.valueAt x.pa 8 + 2 ^ 64 - 1) % 2 ^ 64 ∧
          (s3.valueAt x.pa 8 = 1 → ∀ e ∈ t.waiters (.mem x.pa), e.kind ≠ 6))) ∧
    (∀ r s1, (s.rd a).toNat % 128 = 0 → (readRecordM (.object false) (s.rd a) 128).run s = .ok r s1 → fieldOf r 2 2 % 1024 = s.me.asid.toNat → s1.ctx.stores = [] → s1.casts = [] →
      let q := (s.rd b).toNat % 64
      (Tbl.getD s1.queues q {}).recs.length < 256 →
      ∃ t x, exec (.launch d a b) s = .next t ∧ (Tbl.getD t.queues q {}).recs = (Tbl.getD s1.queues q {}).recs ++ [x] ∧ x.rec_ = r ∧
        t.rd d = (if d = 0 then 0 else BitVec.ofNat 64 (fieldOf r 24 8)) ∧ s1.SameMem t) ∧
    (∃ t, exec (.prio d a) s = .next t ∧ t.rd d = (if d = 0 then 0 else BitVec.ofNat 64 s.ctx.bprio.toNat) ∧ s.SameMem t ∧
      t.ctx.bprio.toNat = min ((s.rd a).toNat % 16) (if s.ctx.cont.launch = 0 then 15 else (s.launch s.ctx.cont.launch).prio.toNat)) ∧
    (s.rd b = 0 → ∃ t, exec (.estim a b) s = .next t ∧ t.ctx.estim = min (s.rd a).toNat (2 ^ 40 - 1) ∧
      { t.ctx.still with estim := s.ctx.estim } = s.ctx.still ∧ s.SameMem t) ∧
    s.Yields (.self d) d (BitVec.ofNat 64 (s.me.asid.toNat * 2 ^ 48 + Config.package * 2 ^ 32 + s.agent))

/-- R121 to R124, R311; that a turn may leave stores in flight is log entry 11 (DEDUCED). -/
def Obligations.Ordering : Prop :=
  (∀ s : State, s.calm →
    (∀ (z : Fin 16) (k : Fin 4), s.agentScope z = true → ∃ t, exec (.fence z k) s = .next t ∧ s.Idles t) ∧ s.agentScope 0 = true ∧
    (∀ (z : Fin 16) (k : Fin 4), s.agentScope z = false → (k = 3 → ∀ x ∈ s.harts, x.2.ctx.stores = []) → ∃ t, exec (.fence z k) s = .next t ∧ s.ctx.Steps t.ctx ∧ t.ctx.still = s.ctx.still ∧ s.SameMem t ∧
      (k ≠ 1 → t.acquired) ∧ (k = 1 → t.l1 = s.l1)) ∧
    (∀ c g st : Bool, (c = true → s.myCopies false = []) → (g = true → s.myCopies true = []) →
      ∃ t, exec (.sbar false g c st) s = .next t ∧ s.ctx.Steps t.ctx ∧ t.ctx.still = s.ctx.still ∧ s.SameMem t) ∧
    (s.releaseLog.closeEach.allClosed s.myself = true → ∃ t, exec (.sbar true false false false) s = .next t ∧ t.ctx.log = []) ∧
    ∀ (d a : SReg) (s1 s2 : State) (k : TaskId), s.ctx.grant = none → s2.casts = [] → (taskM (s.rd a)).run s = .ok k s1 → (heldFaultM k).run s1 = .ok () s2 →
      ((s2.task k).state = .loaded ∨ (s2.task k).state = .drained ∨ (s2.task k).state = .checkpointed ∨ (s2.task k).state = .killed) →
      ∃ t, exec (.drainw d a) s = .next t ∧ t.rd d = (if d = 0 then 0 else s2.fstatWord k) ∧ s2.SameMem t ∧ ((s2.task k).state = .drained → t.acquired)) ∧
  ∀ (s : State) (z : Fin 16) (i : Instr), i ∈ [Instr.fence z 1, .fence z 2, .sbar false false false true] → s.agentScope z = false →
    let cut (f : Flight) : Bool := f.pas.any fun q => !s.reaches s.die q
    (s.me.late = false → s.ctx.stores.find? cut = none →
      ∃ t, exec i s = .next t ∧ t.ctx.stores = [] ∧ (∀ c ∈ t.casts, c.agent ≠ s.agent) ∧ t.mem = (s.flushHart s.cur).mem ∧
        ∀ f q, s.ctx.stores = [f] → f.fence = none → f.pas = [q] → s.casts = [] → s.stopped q = false → s.unpaired q f.bytes.length →
          (∀ e ∈ s.allEntries, e.slot = none) →
          (∀ k, k < f.bytes.length → Memory.get t.mem (q + k) = f.bytes.getD k 0) ∧ s.SameMemBut t q f.bytes.length) ∧
    (s.me.late = false → ∀ f, s.ctx.stores.find? cut = some f →
      exec i s = .next (s.enter s.cur ⟨.link, 0, f.va, BitVec.ofNat 64 (pkgOf (f.pas.headD 0)), [], none⟩)) ∧
    (s.me.late = true → s.ctx.stores ≠ [] → s.ctx.stores.find? cut = none →
      ∃ t, exec (.fence z 1) s = .next t ∧ t.ctx.stores = s.ctx.stores ++ [{ pas := [], bytes := [], va := 0, fence := some (false, z) }] ∧ s.SameMem t)

/-- R59, R66, R68 and R63 for the saturation flag. -/
def Obligations.VectorIntegerLanes : Prop :=
  ∀ (s : State) (d a : Fin 32) (b : VSrc) (m : MReg) (e : Fin 4) (md : MReg),
    let w := 8 * 2 ^ e.val
    let n := 512 / w
    let on (k : Nat) : Prop := (s.rdM m).toNat.testBit k = true
    let x (k : Nat) : Nat := lane (s.rdV a) w k
    let y (k : Nat) : Nat := match b with | .v r => lane (s.rdV r) w k | .s r => (s.rd (s5 r)).toNat % 2 ^ w
    let sx (k : Nat) : Int := signed w (x k)
    let sy (k : Nat) : Int := signed w (y k)
    let holds (z : Line) (f : Nat → Int) : Prop := ∀ k, k < n → (on k → (lane z w k : Int) = f k % 2 ^ w) ∧ (¬ on k → lane z w k = lane (s.rdV d) w k)
    let each (i : Instr) (f : Nat → Int) : Prop := ∃ z, s.YieldsV i d z ∧ holds z f
    let lo : Int := -2 ^ (w - 1)
    let hi : Int := 2 ^ (w - 1) - 1
    let clamped (f : Nat → Int) : Prop := ∃ k, k < n ∧ on k ∧ (f k < lo ∨ hi < f k)
    let sat (i : Instr) (f : Nat → Int) : Prop :=
      (¬ clamped f → each i f) ∧
      (clamped f → s.ctx.fpstat.toNat.testBit 13 = false → ∃ z t, exec i s = .next t ∧
        (s.updCtx fun c => { c with fpstat := c.fpstat ||| 0x20#64 }).ComputesV t d z ∧ holds z fun k => max lo (min hi (f k))) ∧
      (clamped f → s.ctx.fpstat.toNat.testBit 13 = true → exec i s = .next (s.enter s.cur ⟨.fpx, 0, 0, 0x20, [], none⟩))
    let test (i : Instr) (f : Nat → Bool) : Prop := md ≠ 0 → ∃ v, s.YieldsM i md v ∧ ∀ k, k < 64 →
      v.toNat.testBit k = if n ≤ k then false else if (s.rdM m).toNat.testBit k then f k else (s.rdM md).toNat.testBit k
    each (.vadd d a b m e) (fun k => x k + y k) ∧
    each (.vsub d a b m e) (fun k => x k - y k) ∧
    each (.vmul d a b m e) (fun k => x k * y k) ∧
    each (.vmulh d a b m e) (fun k => sx k * sy k / 2 ^ w) ∧
    each (.vmin d a b m e) (fun k => min (sx k) (sy k)) ∧
    each (.vmax d a b m e) (fun k => max (sx k) (sy k)) ∧
    each (.vminz d a b m e) (fun k => min (x k) (y k)) ∧
    each (.vmaxz d a b m e) (fun k => max (x k) (y k)) ∧
    each (.vand d a b m e) (fun k => (x k &&& y k : Nat)) ∧
    each (.vor d a b m e) (fun k => (x k ||| y k : Nat)) ∧
    each (.vxor d a b m e) (fun k => (x k ^^^ y k : Nat)) ∧
    each (.vshl d a b m e) (fun k => x k * 2 ^ (y k % w)) ∧
    each (.vshr d a b m e) (fun k => x k / 2 ^ (y k % w)) ∧
    each (.vsra d a b m e) (fun k => sx k / 2 ^ (y k % w)) ∧
    sat (.vadds d a b m e) (fun k => sx k + sy k) ∧
    sat (.vsubs d a b m e) (fun k => sx k - sy k) ∧
    test (.vceq md a b m e) (fun k => x k == y k) ∧
    test (.vclt md a b m e) (fun k => decide (sx k < sy k)) ∧
    test (.vcltz md a b m e) (fun k => decide (x k < y k)) ∧
    test (.vcle md a b m e) (fun k => decide (sx k ≤ sy k))

/-- R60 to R64, R67, R68 and R84. The zero of two zeros of unlike sign is log entry 84 (DESIGN CHOICE), the rounding of VFEXP2 and VFLOG2
log entry 16, tininess under stochastic rounding log entry 65 (both DEDUCED). -/
def Obligations.VectorFloatLanes : Prop :=
  ∀ (s : State) (d a : Fin 32) (b : VSrc) (m : MReg) (e : Fin 4) (md : MReg),
    let ft := fpFmt e
    let w := ft.width
    let n := 512 / w
    let rm := roundMode s.ctx.round
    let dn := roundDenorm s.ctx.round
    let on (k : Nat) : Bool := (s.rdM m).toNat.testBit k
    let x (k : Nat) : Nat := lane (s.rdV a) w k
    let y (k : Nat) : Nat := match b with | .v r => lane (s.rdV r) w k | .s r => (s.rd (s5 r)).toNat % 2 ^ w
    let z (k : Nat) : Nat := lane (s.rdV d) w k
    let o (v : Nat) : ExNum := operand ft dn v
    let rnd (v : Ex) : Nat × Fl := roundIeee ft rm dn v
    let flags (f : Nat → Fl) : Fl := ((List.range n).filter on).foldl (fun acc k => acc ||| f k) 0
    let traps (fl : Fl) : Prop := fl.toNat &&& wfld s.ctx.fpstat 8 6 ≠ 0
    let after (fl : Fl) : State := s.updCtx fun c => { c with fpstat := c.fpstat ||| BitVec.ofNat 64 fl.toNat }
    let fpx (i : Instr) (fl : Fl) : Prop := exec i s = .next (s.enter s.cur ⟨.fpx, 0, 0, BitVec.ofNat 64 fl.toNat, [], none⟩)
    let each (i : Instr) (f : Nat → Nat × Fl) : Prop :=
      let fl := flags fun k => (f k).2
      (traps fl → fpx i fl) ∧
      (¬ traps fl → ∃ q t, exec i s = .next t ∧ (after fl).ComputesV t d q ∧ ∀ k, k < n → lane q w k = if on k then (f k).1 % 2 ^ w else z k)
    let test (i : Instr) (f : Nat → Bool × Fl) : Prop := md ≠ 0 →
      let fl := flags fun k => (f k).2
      (traps fl → fpx i fl) ∧
      (¬ traps fl → ∃ v t, exec i s = .next t ∧ (after fl).ComputesM t md v ∧ ∀ k, k < 64 →
        v.toNat.testBit k = if n ≤ k then false else if on k then (f k).1 else (s.rdM md).toNat.testBit k)
    let nan (k : Nat) : Bool := (o (x k)).isNan || (o (y k)).isNan
    let nv (k : Nat) : Fl := if nan k then 1#6 else 0
    let less (k : Nat) : Bool := (o (x k)).cmp (o (y k)) == some .lt
    let same (k : Nat) : Bool := (o (x k)).cmp (o (y k)) == some .eq
    each (.vfadd d a b m e) (fun k => rnd (ExNum.add rm (o (x k)) (o (y k)))) ∧
    each (.vfsub d a b m e) (fun k => rnd (ExNum.add rm (o (x k)) (o (y k)).neg)) ∧
    each (.vfmul d a b m e) (fun k => rnd (ExNum.mul (o (x k)) (o (y k)))) ∧
    each (.vfdiv d a b m e) (fun k => rnd (ExNum.div (o (x k)) (o (y k)))) ∧
    each (.vfma d a b m e) (fun k => rnd (ExNum.fma rm (o (x k)) (o (y k)) (o (z k)))) ∧
    each (.vfnma d a b m e) (fun k => rnd (ExNum.fma rm (o (x k)).neg (o (y k)) (o (z k)))) ∧
    each (.vfman d a b m e) (fun k => rnd (ExNum.fma rm (o (x k)) (o (y k)) (o (z k)).neg)) ∧
    each (.vfsqrt d a m e) (fun k => rnd (ExNum.sqrt (o (x k)))) ∧
    each (.vfrsq d a m e) (fun k => rnd (ExNum.rsqrt (o (x k)))) ∧
    each (.vfexp2 d a m e) (fun k => rnd (ExNum.exp2 (o (x k)))) ∧
    each (.vflog2 d a m e) (fun k => rnd (ExNum.log2 (o (x k)))) ∧
    each (.vfabs d a m e) (fun k => (x k % 2 ^ (w - 1), 0)) ∧
    each (.vfneg d a m e) (fun k => (if x k < 2 ^ (w - 1) then x k + 2 ^ (w - 1) else x k - 2 ^ (w - 1), 0)) ∧
    each (.vfmin d a b m e) (fun k => (fpPick false ft dn (x k) (y k), 0)) ∧
    each (.vfmax d a b m e) (fun k => (fpPick true ft dn (x k) (y k), 0)) ∧
    test (.vfceq md a b m e) (fun k => (same k, 0)) ∧
    test (.vfclt md a b m e) (fun k => (less k, nv k)) ∧
    test (.vfcle md a b m e) (fun k => (less k || same k, nv k)) ∧
    test (.vfcun md a b m e) (fun k => (nan k, 0))

/-- R65, R69 to R71, R79, R82 to R84; `convertLanes`, `treeSum` and `pivot` are the model's operations for them.
The flags of a clamped conversion are log entry 85, the inactive partner of a sum entry 91 (both DEDUCED), NV with no active element entry 86 (DESIGN CHOICE). -/
def Obligations.ConversionReductionAndPivots : Prop :=
  ∀ (s : State) (d a : Fin 32) (m : MReg),
    let on (k : Nat) : Bool := (s.rdM m).toNat.testBit k
    let rm := roundMode s.ctx.round
    let dn := roundDenorm s.ctx.round
    let flags (n : Nat) (f : Nat → Fl) : Fl := ((List.range n).filter on).foldl (fun acc k => acc ||| f k) 0
    let traps (fl : Fl) : Prop := fl.toNat &&& wfld s.ctx.fpstat 8 6 ≠ 0
    let after (fl : Fl) : State := s.updCtx fun c => { c with fpstat := c.fpstat ||| BitVec.ofNat 64 fl.toNat }
    let fpx (i : Instr) (fl : Fl) : Prop := exec i s = .next (s.enter s.cur ⟨.fpx, 0, 0, BitVec.ofNat 64 fl.toNat, [], none⟩)
    (∀ (c : Fin 32) (row : ConvRow), convRow c.val = some row →
      let sb := row.src.width
      let db := row.dst.width
      let n := 512 / max sb db
      let r := convertLanes row rm dn (s.rdM m) 0 ((List.range n).map (lane (s.rdV a) sb)) s.ctx.stochseed
      let fl := flags n fun k => (r.1.getD k (0, 0)).2
      (traps fl → fpx (.vcvt d a c m) fl) ∧
      (¬ traps fl → ∃ t, exec (.vcvt d a c m) s = .next t ∧ t.ctx.stochseed = r.2 ∧ t.ctx.fpstat = (after fl).ctx.fpstat ∧ (∀ k, k ≠ d → t.rdV k = s.rdV k) ∧
        s.SameMem t ∧ (∀ k, k < n → lane (t.rdV d) db k = if on k then (r.1.getD k (0, 0)).1 % 2 ^ db else lane (s.rdV d) db k) ∧
        ∀ k, n ≤ k → k < 512 / db → lane (t.rdV d) db k = if db < sb then 0 else lane (s.rdV d) db k)) ∧
    (∀ e : Fin 4,
      let ft := fpFmt e
      let n := 512 / ft.width
      let none_ : Bool := (List.range n).all fun k => !on k
      let r := treeSum ft rm dn (if ft.width = 32 then 4 else 5)
        ((List.range n).map fun k => if on k then some (lane (s.rdV a) ft.width k) else none) 0
      let fl : Fl := r.2
      (none_ = true → r = (0, 0)) ∧
      (traps fl → fpx (.vfreda d a m e) fl) ∧
      (¬ traps fl → ∃ z t, exec (.vfreda d a m e) s = .next t ∧ (after fl).ComputesV t d z ∧ lane z ft.width 0 = r.1 % 2 ^ ft.width ∧
        ∀ k, 0 < k → k < n → lane z ft.width k = lane (s.rdV d) ft.width k)) ∧
    (∀ (fm : MReg) (rec_ : Bool) (i : Instr), (i, rec_) ∈ [(Instr.vpiv d a fm m, false), (.vprcp d a fm m, true)] →
      (pivTau s.ctx.pivtau = none → (∃ k, k < 16 ∧ on k = true) →
        (traps 1#6 → fpx i 1#6) ∧
        (¬ traps 1#6 → ∃ z t, exec i s = .next t ∧ (after 1#6).ComputesV t d z ∧
          ∀ k, k < 16 → lane z 32 k = if on k then 0x7FC00000 else lane (s.rdV d) 32 k)) ∧
      (∀ tau, pivTau s.ctx.pivtau = some tau →
        let p (k : Nat) := pivot dn tau (lane (s.rdV a) 32 k)
        let out (k : Nat) := roundIeee .f32 rm dn (if rec_ then ExNum.div (.fin false 1 0) (p k).1 else ⟨(p k).1, false, 0⟩)
        let fl := flags 16 fun k => (out k).2 ||| (p k).2.2
        (traps fl → fpx i fl) ∧
        (¬ traps fl → ∃ t, exec i s = .next t ∧ t.ctx.fpstat = (after fl).ctx.fpstat ∧ s.SameMem t ∧ (∀ k, k ≠ d → t.rdV k = s.rdV k) ∧
          (∀ k, k < 16 → lane (t.rdV d) 32 k = if on k then (out k).1 % 2 ^ 32 else lane (s.rdV d) 32 k) ∧
          (∀ k, k < 16 → t.ctx.pivstat.toNat.testBit k = (s.ctx.pivstat.toNat.testBit k || (on k && (p k).2.1))) ∧
          (fm ≠ 0 → ∀ k, k < 16 → (t.rdM fm).toNat.testBit k = if on k then (p k).2.1 else (s.rdM fm).toNat.testBit k) ∧
          ∀ k, k ≠ fm → t.rdM k = s.rdM k))) ∧
    ∀ q : Fin 32, ∃ t, exec (.vpstat q) s = .next t ∧ (s.updCtx fun c => { c with pivstat := 0 }).Computes t (s5 q) s.ctx.pivstat

/-- R59, R78, R80 and R85. R19, R20 and R81. -/
def Obligations.VectorPermutationsAndMasks : Prop :=
  (∀ (s : State) (d a b : Fin 32) (v : VSrc) (m : MReg) (e : Fin 4),
    let w := 8 * 2 ^ e.val
    let n := 512 / w
    let on (k : Nat) : Bool := (s.rdM m).toNat.testBit k
    let x (k : Nat) : Nat := lane (s.rdV a) w k
    let old (k : Nat) : Nat := lane (s.rdV d) w k
    let y (k : Nat) : Nat := match v with | .v r => lane (s.rdV r) w k | .s r => (s.rd (s5 r)).toNat % 2 ^ w
    let cnt : Nat := (s.rd (s5 b)).toNat
    let below (k : Nat) : Nat := (List.range k).countP on
    let act : List Nat := ((List.range n).filter on).map x
    let all (i : Instr) (f : Nat → Nat) : Prop := ∃ z, s.YieldsV i d z ∧ ∀ k, k < n → lane z w k = f k
    let each (i : Instr) (f : Nat → Nat) : Prop := all i fun k => if on k then f k else old k
    let first (i : Instr) (r : Int) : Prop := ∃ z, s.YieldsV i d z ∧ (lane z w 0 : Int) = r % 2 ^ w ∧ ∀ k, 0 < k → k < n → lane z w k = old k
    each (.vperm d a b m e) (fun k => x (lane (s.rdV b) w k % n)) ∧
    each (.vslup d a b m e) (fun k => if cnt ≤ k then x (k - cnt) else 0) ∧
    each (.vsldn d a b m e) (fun k => if k + cnt < n then x (k + cnt) else 0) ∧
    first (.vreda d a m e) (act.map Int.ofNat).sum ∧
    first (.vredx d a m e) ((act.map (signed w)).foldl max (-2 ^ (w - 1))) ∧
    first (.vredn d a m e) ((act.map (signed w)).foldl min (2 ^ (w - 1) - 1)) ∧
    all (.vcmpr d a m e) (fun k => act.getD k 0) ∧
    each (.vexpd d a m e) (fun k => x (below k)) ∧
    all (.vmrg d a v m e) (fun k => if on k then y k else x k) ∧
    each (.vsplat d b m e) (fun _ => cnt % 2 ^ w) ∧
    all (.vins d a b e) (fun k => if k = (s.rd (s5 a)).toNat % n then cnt % 2 ^ w else old k) ∧
    s.Yields (.vext d a b e) (s5 d) (BitVec.ofNat 64 (x (cnt % n))) ∧
    each (.viota d m e) (fun k => below k % 2 ^ w) ∧
    (e = 2 → each (.vbdot d a v m 0) (fun k =>
      (((old k : Int) + 32 - 2 * ((List.range 32).countP fun i => (x k ^^^ y k).testBit i : Nat)) % 2 ^ w).toNat)) ∧
    (e = 3 → each (.vbdot d a v m 1) (fun k => (old k + (List.range 64).countP fun i => (x k &&& y k).testBit i) % 2 ^ w))) ∧
  (∀ (s : State) (d a b : MReg) (x : Fin 32),
    (d ≠ 0 →
      s.YieldsM (.mand d a b) d (s.rdM a &&& s.rdM b) ∧ s.YieldsM (.mor d a b) d (s.rdM a ||| s.rdM b) ∧
      s.YieldsM (.mxor d a b) d (s.rdM a ^^^ s.rdM b) ∧ s.YieldsM (.mnot d a) d (~~~ s.rdM a) ∧
      s.YieldsM (.mmov d a) d (s.rdM a) ∧ s.YieldsM (.mmovScalar d x) d (s.rd (s5 x))) ∧
    s.Yields (.mpopc x a) (s5 x) (BitVec.ofNat 64 ((List.range 64).countP fun i => (s.rdM a).toNat.testBit i)) ∧
    s.rdM 0 = 0xFFFFFFFFFFFFFFFF#64) ∧
  ∀ (w : Nat) (i : Instr), decodeControl w = .ok i → ∀ (a b : MReg) (x : Fin 32),
    i ≠ .mand 0 a b ∧ i ≠ .mor 0 a b ∧ i ≠ .mxor 0 a b ∧ i ≠ .mnot 0 a ∧ i ≠ .mmov 0 a ∧ i ≠ .mmovScalar 0 x

/-- R72 to R74, R41 to R43; what a throttle holds is log entry 50 (DEDUCED); a walk that installs a translation, replicas and late turns are in the statements about ST and LD. -/
def Obligations.VectorMemory : Prop :=
  ∀ (s : State) (d a b : Fin 32) (m : MReg) (e : Fin 4) (at_ : Nat → Word) (load store : Instr) (acc : Nat → Acc),
    let w := 8 * 2 ^ e.val
    let n := w / 8
    let base := s.rd (s5 a)
    let on (k : Nat) : Prop := k < 512 / w ∧ (s.rdM m).toNat.testBit k = true
    ((∀ k, at_ k = base + BitVec.ofNat 64 (k * n)) ∧ load = .vld d a m e ∧ store = .vst d a m e ∨
      (∀ k, at_ k = base + BitVec.ofNat 64 k * s.rd (s5 b)) ∧ load = .vlds d a b m e ∧ store = .vsts d a b m e ∨
      (∀ k, at_ k = base + BitVec.ofNat 64 (lane (s.rdV b) w k * n)) ∧ load = .vgth d a b m e ∧ store = .vsct d a b m e) →
    s.calm → (∀ k, on k → (at_ k).toNat % n = 0 ∧ (acc k).pa % n = 0 ∧ s.unpaired (acc k).pa n) →
    ((∀ k, on k → s.check s.die s.me.asid.toNat s.me.pl .load (at_ k) n = (s, .ok (acc k)) ∧ s.broken (acc k).pa = false ∧
        s.portHeld s.myself s.ctx.cont.launch (acc k).pa = false) →
      s.l1Of (hartCore s.cur) = [] →
      (∃ t, exec load s = .next t ∧ s.Accesses t (fun old new => { new with v := old.v }) ∧ s.SameMem t ∧ (∀ r, r ≠ d → t.rdV r = s.rdV r) ∧
        ∀ k, k < 512 / w → (on k → lane (t.rdV d) w k = s.valueAt (acc k).pa n) ∧ (¬ on k → lane (t.rdV d) w k = lane (s.rdV d) w k)) ∧
      ((∀ k, at_ k = base + BitVec.ofNat 64 (k * n)) → on 0 → s.oldLine (acc 0) = none →
        ∃ t, exec (.vldb d a m e) s = .next t ∧ s.Accesses t (fun old new => { new with v := old.v }) ∧ s.SameMem t ∧
          ∀ k, k < 512 / w → (on k → lane (t.rdV d) w k = s.valueAt (acc 0).pa n) ∧ (¬ on k → lane (t.rdV d) w k = lane (s.rdV d) w k))) ∧
    ((∀ k, on k → s.check s.die s.me.asid.toNat s.me.pl .store (at_ k) n = (s, .ok (acc k)) ∧ (acc k).pas = [(acc k).pa] ∧
        s.protectedAt (acc k).pa n = false ∧ s.stopped (acc k).pa = false ∧ (acc k).pa / 64 ∉ s.poison ∧
        s.portHeld s.myself s.ctx.cont.launch (acc k).pa = false) → s.me.late = false →
      ∃ t, exec store s = .next t ∧ s.Accesses t (fun _ new => new) ∧
        (∀ k, on k → (∀ j, k < j → on j → (acc j).pa + n ≤ (acc k).pa ∨ (acc k).pa + n ≤ (acc j).pa) → t.valueAt (acc k).pa n = lane (s.rdV d) w k) ∧
        ∀ x, (∀ k, on k → x < (acc k).pa ∨ (acc k).pa + n ≤ x) → Memory.get t.mem x = Memory.get s.mem x)

/-- R103 to R105, R213, R225, R226, R230 to R236; ADDR of a trap where no address is at fault is a free value (log entry 20); MISALIGN of FCKPT is log entry 79 (DESIGN CHOICE), FARM of a resumed or
killed task log entry 40, and ACCESS where nothing is loaded, beside R226's empty cell, log entry 93 (DEDUCED). -/
def Obligations.RegionTasks : Prop :=
  ∀ (s : State) (d a b : SReg),
    let cause (c : Cause) (detail : Nat) (addr : Word) : Host.Outcome State Fault Refusal := .next (s.enter s.cur ⟨c, detail, addr, 0, [], none⟩)
    ((s.rd a).toNat % 64 ≠ 0 → exec (.fload d a b) s = cause .misalign 0 (s.rd a)) ∧
    ((s.rd a).toNat % 64 = 0 → regionRef s.die.val (s.rd b) = none → exec (.fload d a b) s = cause .cfgrefuse 12 0) ∧
    (∀ (r : RegionRef) (h l : List Byte) (s1 s2 : State), (s.rd a).toNat % 64 = 0 → regionRef s.die.val (s.rd b) = some r →
      (∀ k ∈ s.overlapping r, (s.task k).state.busy = false) →
      (readRecordM .read (s.rd a) 64).run s = .ok h s1 → fieldOf h 0 1 = 1 → hdrFields h r = true → zeroSpan h 18 46 = true →
      (readRecordM .read (s.rd a + 64) (sectionBytes h)).run s1 = .ok l s2 →
      (s2.blockFlaw r s2.ctx.pivtau (parseBlock h l) = none → s2.calm →
        ∃ t, exec (.fload d a b) s = .next t ∧ t.rd d = (if d = 0 then 0 else resolveRegion s.die.val (s.rd b)) ∧ (∀ x, x ≠ d → t.rd x = s2.rd x) ∧
          s2.SameMem t ∧
          let k := t.task r.task
          k.state = .loaded ∧ k.asid = s2.me.asid.toNat ∧ k.launch = s2.myLaunch ∧ k.w1 = r.w1 ∧ k.h1 = r.h1 ∧ k.count = 0 ∧ k.eflags = 0 ∧
            k.cauto = (fieldOf h 7 1).testBit 2 ∧ k.next = fieldOf h 16 1 ∧ k.psrc = fieldOf h 17 1 ∧ k.estim = fieldOf h 8 5 ∧
            k.round = s2.ctx.round ∧ k.pivtau = s2.ctx.pivtau ∧ k.seed = s2.ctx.stochseed ∧ k.bprio = s2.ctx.bprio) ∧
      ∀ f, s2.blockFlaw r s2.ctx.pivtau (parseBlock h l) = some f →
        ∃ x : State, exec (.fload d a b) s = .next (x.enter x.cur ⟨.cfgrefuse, f.reason, f.cause, 0, [], none⟩) ∧ { x with tasks := s2.tasks } = s2) ∧
    (∀ r : RegionRef, regionRef s.die.val (s.rd a) = some r → s.loadedFor r s.me.asid.toNat = false →
      ∀ i ∈ [Instr.farm a b, .fsel a b, .fstat d a, .fkill a, .fckpt a b, .fdrain a], exec i s = .next (s.enterOpen s.cur .access)) ∧
    (∀ r : RegionRef, regionRef s.die.val (s.rd a) = some r → s.loadedFor r s.me.asid.toNat = false → s.ctx.grant = none →
      exec (.drainw d a) s = .next (s.enterOpen s.cur .access)) ∧
    ∀ k : TaskId, (taskM (s.rd a)).run s = .ok k s →
      let st := (s.task k).state
      let mine := (s.task k).held.isSome ∧ s.myLaunch = (s.task k).launch
      (¬ mine →
        (st ∈ [TaskState.loaded, .running, .parked, .drained, .killed] → s.dueDrain k = s →
          ∃ x : State, exec (.farm a b) s = .next ((((x.wakePorts k).syncTask k).reprio).complete) ∧ s.SameMem x ∧ (∀ r, x.rd r = s.rd r) ∧
            (x.task k).eflags = 0 ∧ (x.task k).bprio = s.ctx.bprio ∧
            (x.task k).count = wfld (s.rd b) 0 32 +
              (if st = .killed ∨ st = .loaded ∧ (s.task k).resume = 8 then (s.task k).restart.count else (s.task k).count) ∧
            (x.task k).state = if st = .loaded ∧ (s.task k).resume = 4 then .draining else .running) ∧
        (((s.dueDrain k).task k).state ∉ [TaskState.loaded, .running, .parked, .drained, .killed] → exec (.farm a b) s = .next ((s.dueDrain k).enterOpen s.cur .access)) ∧
        s.Yields (.fstat d a) d (s.fstatWord k)) ∧
      (mine → ∀ c w, (s.task k).held = some (c, w) →
        ∃ x : State, exec (.fstat d a) s = .next (x.enter x.cur ⟨c, 0, w, 0, [], none⟩) ∧ (x.task k).held = none ∧ { x with tasks := s.tasks } = s) ∧
      (st = .parked → ∃ x : State, exec (.fsel a b) s = .next (x.syncAll (taskDie k)).complete ∧ s.SameMem x ∧
        ∀ tile ∈ tilesOf k (s.task k).w1 (s.task k).h1, x.curCtx (taskDie k).val tile = (s.rd b).toNat % 4) ∧
      (st ≠ .parked → ∃ t, exec (.fsel a b) s = .next t ∧ (t.task k).fsel = some ((s.rd b).toNat % 4) ∧ t.current = s.current ∧ s.SameMem t) ∧
      ((s.task k).killable = true → ∃ x : State, exec (.fkill a) s = .next (x.afterTask k).complete ∧ (x.task k).state = .killed ∧
        ∀ tile ∈ tilesOf k (s.task k).w1 (s.task k).h1,
          let c := x.tc (taskDie k).val tile (taskCtx k).val
          c.units = [] ∧ c.outs = [] ∧ (∀ b ∈ c.ins, b.2.q = []) ∧ ∀ b ∈ c.links, b.2.q = []) ∧
      ((s.task k).killable = false → ∃ t, exec (.fkill a) s = .next t ∧ s.Idles t) ∧
      ((s.rd b).toNat % 4096 ≠ 0 → exec (.fckpt a b) s = cause .misalign 0 (s.rd b)) ∧
      ((s.rd b).toNat % 4096 = 0 → st ∈ [TaskState.running, .parked, .draining] →
        ∃ x : State, exec (.fckpt a b) s = .next (x.syncTask k).complete ∧ (x.task k).state = .checkpointing ∧ (x.task k).image = some (s.rd b) ∧ s.SameMem x) ∧
      (st = .running ∨ st = .parked → ∃ x : State, exec (.fdrain a) s = .next (x.syncTask k).complete ∧ (x.task k).state = .draining ∧
        { x with tasks := s.tasks } = s) ∧
      (st = .checkpointing → ∃ x : State, exec (.fdrain a) s = .next (x.syncTask k).complete ∧ (x.task k).state = .checkpointing ∧ (x.task k).drainPending = true ∧
        { x with tasks := s.tasks } = s)

/-- R75, R106, R107, R170, R254, R317; `offer` lays a beat at a port and lets its readers take it, as BEAT_HOP does; ADDR of a trap where no address is at fault is a free value (log entry 20). -/
def Obligations.StreamHandles : Prop :=
  ∀ s : State, s.calm →
    let rel := (s.flushHart s.cur).escape 2
    let kept (x : State) : Prop := (∀ r, x.rd r = s.rd r) ∧ (∀ r, x.rdV r = s.rdV r) ∧ s.SameMem x ∧ s.SameOthers x
    (∀ (d : QReg) (a b : SReg), let old := s.ctx.q[d.val]
      (s.rd a = 0 → let x := s.updCtx fun c => c.unbind d
        exec (.fbind d a b) s = .next (x.syncBound old).complete ∧ x.ctx.q[d.val] = {} ∧ kept x) ∧
      (s.rd a ≠ 0 → (∀ k, s.bindCheck s.myself s.die.val s.me.asid.toNat (s.rd a) (s.rd b) = .ok k →
          let x := s.updCtx fun c => c.bindHandle d (resolveRegion s.die.val (s.rd a)) (s.rd b).toNat
          (∃ t, exec (.fbind d a b) s = .next t ∧ t = ((x.syncBound old).syncBound (x.syncBound old).ctx.q[d.val]).complete) ∧ kept x ∧
            x.ctx.q[d.val] = { bound := true, region := resolveRegion s.die.val (s.rd a), sel := BitVec.ofNat 10 (s.rd b).toNat }) ∧
        ∀ c, s.bindCheck s.myself s.die.val s.me.asid.toNat (s.rd a) (s.rd b) = .error c →
          exec (.fbind d a b) s = .next (s.enterOpen s.cur c))) ∧
    (∀ (q : QReg) (a b : SReg),
      let h := s.ctx.q[q.val]
      let p := h.port
      let refused (i : Instr) := exec i s = .next (s.enterOpen s.cur .streamproto)
      (h.sending = some s.pc → (s.standing p).q = [] → ∀ i ∈ [Instr.qpush q a b, .qstop q a, .qdone q],
        exec i s = .next (s.updCtx fun c => c.sent q).complete) ∧
      (h.sending ≠ some s.pc →
        (h.bound = false ∨ h.closed = true ∨ p.write = false ∨ 14 ≤ (s.rd b).toNat ∨ (s.rd b).toNat = 12 ∨ (p.plane = 1 ∧ s.rd b ≠ 0) → refused (.qpush q a b)) ∧
        (h.bound = false ∨ h.closed = true ∨ p.write = false ∨ p.plane = 1 → refused (.qdone q)) ∧
        (h.bound = false ∨ h.closed = true ∨ p.write = false ∨ p.plane = 1 ∨ 8 ≤ (s.rd a).toNat → refused (.qstop q a)) ∧
        (h.bound = true → h.closed = false → p.write = true → (s.standing p).q = [] → s.frozen p.task = false →
          (p.plane = 0 → ((s.task p.task).state ≠ .draining ∨ (s.portSt p).flag = true) →
            let laid (k : Nat) (h' : Handle) : State :=
              (rel.updPortSt p fun u => { u with flag := passAfter k u.flag }).updCtx fun c => { c with q := c.q.set q.val h' }
            let placed (v : Word) (k : Nat) (i : Instr) := exec i s = .next (laid k (h.place v k s.cycle)).complete ∧ kept (laid k (h.place v k s.cycle))
            let sent (v : Word) (k : Nat) (i : Instr) :=
              let h' := h.place v k s.cycle
              let x := laid k { h' with pend := {}, pendN := 0 }
              kept x ∧ (((x.offer p h'.pend).standing p).q = [] → exec i s = .next (x.offer p h'.pend).complete)
            (h.pendN < 7 → ((s.rd b).toNat ≤ 8 ∨ (s.rd b).toNat = 13) → placed (s.rd a) (s.rd b).toNat (.qpush q a b)) ∧
            (h.pendN = 7 → ((s.rd b).toNat ≤ 8 ∨ (s.rd b).toNat = 13) → sent (s.rd a) (s.rd b).toNat (.qpush q a b)) ∧
            (9 ≤ (s.rd b).toNat → (s.rd b).toNat ≤ 11 → sent (s.rd a) (s.rd b).toNat (.qpush q a b)) ∧
            (h.pendN = 7 → (s.rd a).toNat < 8 → sent 0 ((s.rd a).toNat + 1) (.qstop q a)) ∧
            (h.pendN < 7 → (s.rd a).toNat < 8 → placed 0 ((s.rd a).toNat + 1) (.qstop q a)) ∧
            sent 0 9 (.qdone q)) ∧
          (p.plane = 1 → s.rd b = 0 → let bt := narrowBeat ((s.rd a).toNat % 2 ^ 32)
            kept rel ∧ (((rel.offer p bt).standing p).q = [] → exec (.qpush q a b) s = .next (rel.offer p bt).complete))))) ∧
    (∀ (d : SReg) (a : QReg) (b : SReg), let p := (s.ctx.q[a.val]).port
      let res (t : State) (r : SReg) (v : Word) := t.rd r = if r = 0 then 0 else v
      (s.ctx.q[a.val]).bound = true → p.write = false →
      (p.plane = 0 → ∀ x rest j, ((s.popBuf p).dropWhile fun x => x.first.isNone) = x :: rest → x.first = some j →
        ∃ t, exec (.qpop d a b) s = .next t ∧ (d ≠ b → res t d (word ((x.tok j).v.toNat * 2 ^ 32 + (x.tok j).c.toNat))) ∧ res t b (word (x.tok j).k) ∧
          t.popBuf p = (if (x.clearLane j).first.isNone then rest else x.clearLane j :: rest) ∧ (∀ r, r ≠ d → r ≠ b → t.rd r = s.rd r) ∧ s.SameMem t ∧
          (9 ≤ (x.tok j).k ∧ (x.tok j).k ≤ 11 → t.acquired)) ∧
      (p.plane = 1 → ∀ x rest, s.popBuf p = x :: rest →
        ∃ t, exec (.qpop d a b) s = .next t ∧ (d ≠ b → res t d (word (x.pay.toNat % 2 ^ 32))) ∧ res t b 0 ∧ t.popBuf p = rest ∧ s.SameMem t)) ∧
    ∀ (d : Fin 32) (a : QReg) (b : Fin 32), let h := s.ctx.q[a.val]
      let p := h.port
      h.bound = true →
      (p.write = false → p.plane = 0 → ∀ x rest, s.popBuf p = x :: rest →
        ∃ t, exec (.vldq d a b) s = .next t ∧ t.rdV d = x.pay ∧ (b ≠ 0 → t.rd (s5 b) = x.side.zeroExtend 64) ∧ t.popBuf p = rest ∧
          (∀ r, r ≠ d → t.rdV r = s.rdV r) ∧ s.SameMem t ∧ ((∃ k ∈ x.kinds, 9 ≤ k ∧ k ≤ 11) → t.acquired)) ∧
      (h.sending = some s.pc → h.first = false → (s.standing p).q = [] → exec (.vstq d a b) s = .next (s.updCtx fun c => c.sent a).complete) ∧
      (p.write = true → p.plane = 0 → h.sending ≠ some s.pc → h.closed = false → (s.standing p).q = [] → s.frozen p.task = false →
        ((s.task p.task).state ≠ .draining ∨ (s.portSt p).flag = true) →
        let bt : Beat := ⟨s.rdV d, (s.rd (s5 b)).setWidth 32⟩
        let ready := rel.updCtx fun c => c.sent a
        let whole (x : State) : State := (x.updPortSt p fun u => { u with flag := bt.kinds.foldl (fun o k => passAfter k o) u.flag }).updCtx fun c =>
          { c with q := c.q.set a.val { c.q[a.val] with closed := bt.kinds.contains kDone } }
        let first := (ready.updCtx fun c => { c with q := c.q.set a.val { c.q[a.val] with pend := {}, pendN := 0 } }).offer p h.pend
        (bt.pushable = true → h.pendN = 0 → kept (whole ready) ∧
          ((((whole ready).offer p bt).standing p).q = [] → exec (.vstq d a b) s = .next ((whole ready).offer p bt).complete)) ∧
        (bt.pushable = true → 0 < h.pendN → (first.standing p).q = [] → (((whole first).offer p bt).standing p).q = [] →
          exec (.vstq d a b) s = .next ((whole first).offer p bt).complete) ∧
        (bt.pushable = false → exec (.vstq d a b) s = .next (s.enterOpen s.cur .streamproto)))

/-- R86 to R89, R93 to R95; a copy's channel is the block's, or the least occupied one of the die (R87); ADDR of a trap where no address is at fault is a free value (log entry 20). -/
def Obligations.CopyCommands : Prop :=
  ∀ (s : State) (d a b : SReg),
    let res (t : State) (v : Word) := t.rd d = (if d = 0 then 0 else v) ∧ ∀ r, r ≠ d → t.rd r = s.rd r
    (∀ (gather : Bool) (l : List Byte) (s1 : State), (s.rd a).toNat % 64 = 0 → (readRecordM .read (s.rd a) 64).run s = .ok l s1 → s1.calm →
      let i := if gather then Instr.gath d a else .cpy d a
      let s2 := (s1.flushHart s1.cur).escape
      let blk := copyBlk l
      let ch := if blk.chan < 64 then blk.chan else s2.freeChan s2.die
      let id := copyIdOf s2.die.val ch (s2.chan s2.die ch).ticket
      let regs (t : State) := t.rd d = (if d = 0 then 0 else word id) ∧ ∀ r, r ≠ d → t.rd r = s1.rd r
      (malformed l gather = true → ∃ t, exec i s = .next t ∧ regs t ∧ s1.SameMem t ∧ (t.chan s2.die ch).ticket = (s2.chan s2.die ch).ticket + 1 ∧
        ∃ r ∈ (t.chan s2.die ch).kept, r.id = id ∧ r.status = word (4 * 2 ^ 60 + 2 ^ 48)) ∧
      (malformed l gather = false → s2.aliasBad s2.die s2.me.asid.toNat blk = false → blk.pred = false → blk.decode = false → blk.waitsTok = none →
        (s2.chan s2.die ch).cmds.length < 16 → ∃ t, exec i s = .next t ∧ regs t ∧ s1.SameMem t ∧
          (t.chan s2.die ch).ticket = (s2.chan s2.die ch).ticket + 1 ∧
          ∃ c : Copy, (t.chan s2.die ch).cmds = (s2.chan s2.die ch).cmds ++ [c] ∧ c.id = id ∧ c.blk = blk ∧ c.state = 0 ∧ c.asid = s2.me.asid.toNat ∧
            c.launch = s2.ctx.cont.launch ∧ c.flying = [] ∧ c.done = 0 ∧ c.nextRow = 0)) ∧
    (∀ id, (copyIdM (s.rd a)).run s = .ok id s → s.calm →
      (∃ t, exec (.cpwp d a) s = .next t ∧ res t (s.statusOf id) ∧ t.acquired ∧ s.Accesses t (fun old new => { new with s := old.s }) ∧ s.SameMem t) ∧
      ((2 ≤ wfld (s.statusOf id) 60 4 ∨ (s.rd b).toNat ≤ wfld (s.statusOf id) 0 48) →
        ∃ t, exec (.cpwait d a b) s = .next t ∧ res t (s.statusOf id) ∧ t.acquired ∧ s.Accesses t (fun old new => { new with s := old.s }) ∧ s.SameMem t) ∧
      (∀ c, s.copy id = some c →
        (c.flying = [] → c.fail = 0 → ∃ t, exec (.cpcan a) s = .next t ∧ s.SameMem t ∧
          ∃ r ∈ (t.chan (copyDie id) (copyChan id)).kept, r.id = id ∧ r.status = c.status 3 0) ∧
        (c.flying ≠ [] → ∃ t, exec (.cpcan a) s = .next t ∧ t.copy id = some { c with cancelled := true, again := [] } ∧ s.SameMem t)) ∧
      (s.copy id = none → ∃ t, exec (.cpcan a) s = .next t ∧ t.statusOf id = s.statusOf id ∧ s.SameMem t)) ∧
    (((s.chan (copyDie (s.rd a).toNat) (copyChan (s.rd a).toNat)).issued).contains (s.me.asid.toNat, (s.rd a).toNat % 2 ^ 32) = false →
      ∀ i ∈ [Instr.cpwp d a, .cpwait d a b, .cpcan a], exec i s = .next (s.enterOpen s.cur .access)) ∧
    (16 ≤ (s.rd b).toNat → exec (.cpcode a b) s = .next (s.enter s.cur ⟨.illegal, 0, 0, 0, [], none⟩)) ∧
    ∀ l s1, (s.rd b).toNat < 16 → (s.rd a).toNat % 4096 = 0 → (readRecordM .read (s.rd a) 4096).run s = .ok l s1 →
      ∃ t, exec (.cpcode a b) s = .next t ∧ s1.SameMem t ∧ (∀ r, t.rd r = s1.rd r) ∧
        Tbl.find? (t.getDie s1.die).codes (s.me.asid.toNat * 16 + (s.rd b).toNat) = some (codeTab l)

/-- R90 to R93, R284, R293, R297, R429. When rows issue and land is log entry 49, how CONV clamps entry 48 (both DEDUCED). -/
def Obligations.CopyChannelSteps : Prop :=
  ∀ (s : State) (c : CopyId) (x : Copy), s.calm →
    let ch (t : State) := t.chan (copyDie c) (copyChan c)
    (∀ rest row base l s2 s3, (ch s).cmds = x :: rest → x.id = c → x.cancelled = false → (x.blk.waitsTok.isSome = true → x.tokenTaken = true) →
      s.copyHeld x row = false → x.next = some row → s.copyPort x = none → s.rowBase x row = (s2, .ok base) →
      (if x.blk.decode then s2.decodeRow x row else s2.readElems x row base) = (s3, .ok l) →
      ∃ t, exec (.copyRowIssue c) s = .next t ∧ s3.SameMem t ∧
        ∀ y, s3.copy c = some y → t.copy c = some (y.launched ⟨row, (packRow x.blk l).1, (packRow x.blk l).2, [], []⟩)) ∧
    (∀ row r s1, s.copy c = some x → x.flying.find? (·.row == row) = some r → s.portWindow x = none → s.slow = false → s.landRow x r = (s1, none) → s1.calm →
      ∃ t, exec (.copyRowLand c row) s = .next t ∧ s1.SameMem t ∧ ∀ y, s1.copy c = some y →
        let n := landedUpTo (r.row :: y.landed) (y.landed.length + 1) y.done
        let sat := y.sat || r.sat
        let ended (code : Nat) := ∃ k ∈ (ch t).kept, k.id = c ∧
          k.status = word (code * 2 ^ 60 + sat.toNat * 2 ^ 59 + (y.held.filter (·.row != r.row) != []).toNat * 2 ^ 58 + n * y.blk.dstride % 2 ^ 48)
        (n = y.blk.drows → y.cancelled = false → ended 2) ∧
        (y.cancelled = true → y.fail = 0 → y.flying.filter (·.row != r.row) = [] → ended 3) ∧
        (n ≠ y.blk.drows → y.cancelled = false → ∃ z, t.copy c = some z ∧ z.done = n ∧ z.sat = sat ∧ z.flying = y.flying.filter (·.row != r.row))) ∧
    (∀ row r e s1 y, s.copy c = some x → x.flying.find? (·.row == row) = some r → s.portWindow x = none → s.slow = false →
      s.landRow x r = (s1, some e) → s1.calm → e ≠ 0 → s1.copy c = some y → y.flying.filter (·.row != row) = [] →
      ∃ t, exec (.copyRowLand c row) s = .next t ∧ s1.SameMem t ∧ ∃ k ∈ (ch t).kept, k.id = c ∧ k.status = y.status 4 e) ∧
    (∀ row r pkg d tile p, s.copy c = some x → x.flying.find? (·.row == row) = some r → x.flying.filter (·.row != row) = [] →
      s.portWindow x = some (pkg, d, tile, p) → (2304 ≤ pkg ∨ s.destDenied x = true) →
      ∃ t, exec (.copyRowLand c row) s = .next t ∧ s.SameMem t ∧ ∃ k ∈ (ch t).kept, k.id = c ∧ k.status = x.status 4 2) ∧
    (∀ rest tok, (ch s).cmds = x :: rest → x.id = c → x.blk.waitsTok = some tok → x.tokenTaken = false → x.cancelled = false →
      Tbl.getD (s.getDie (copyDie c)).tokens tok 0 ≠ 0 →
      ∃ t z, exec (.tokenConsume c) s = .next t ∧ s.SameMem t ∧ t.copy c = some z ∧ z.tokenTaken = true ∧
        Tbl.getD (t.getDie (copyDie c)).tokens tok 0 = Tbl.getD (s.getDie (copyDie c)).tokens tok 0 - 1) ∧
    (∀ row r p, s.copy c = some x → x.cancelled = false → x.flying.find? (·.row == row) = some r → s.rowPkg x row = some p → p ≠ Config.package →
      (∃ t z, exec (.remoteRowFault (.sent c false) row) s = .next t ∧ s.SameMem t ∧ t.copy c = some z ∧ z.held = x.held ++ [r] ∧
        z.flying = x.flying.filter (·.row != row)) ∧
      (x.flying.filter (·.row != row) = [] →
        ∃ t, exec (.remoteRowFault (.sent c true) row) s = .next t ∧ s.SameMem t ∧ ∃ k ∈ (ch t).kept, k.id = c ∧ k.status = x.status 4 2)) ∧
    (∀ asid va row, (∃ k, s.walk asid.toNat va.toNat = .error (.pagefault, k)) →
      exec (.remoteRowFault (.received asid va) row) s = .next (s.postStatus asid.toNat 0 2 va)) ∧
    (s.copy c = some x → x.cancelled = false → ∃ t, exec (.heldRowRetry c) s = .next t ∧ s.SameMem t ∧
      t.copy c = some { x with flying := x.flying ++ x.held, held := [] })

/-- R76, R77, R108 to R112, R337; which free id UREGION issues is a free choice of the model (log entry 4); that a UPD at an address of no region checks it on 4 bytes, and that UREGION checks PROG at the level of the hart that issues it, are the model's readings (log entry 46); ADDR of a trap where no address is at fault is a free value (log entry 20). -/
def Obligations.UpdateInstructions : Prop :=
  ∀ s : State,
    let traps (i : Instr) (c : Cause) (addr : Word) := exec i s = .next (s.enter s.cur ⟨c, 0, addr, 0, [], none⟩)
    (∀ (a b : SReg), let va := s.rd a
      let size := match s.regionOf s.me.asid.toNat va with | some r => etypeBytes r.2.etype | none => 4
      (va.toNat % size ≠ 0 → traps (.upd a b) .misalign va) ∧
      ∀ p rid r s1, (checkUpdM va size none 0).run s = .ok (p, rid, r) s1 →
        let q := Tbl.getD s1.seqs s1.agent 0
        ∃ t, exec (.upd a b) s = .next t ∧ t.ctx.log = s1.ctx.log ++ [{ pa := p, val := pairValue r.etype (s.rd b), rid := rid, agent := s1.agent, seq := q, launch := s1.ctx.cont.launch, uid := s1.ctx.cont.uid }] ∧
          Tbl.getD t.seqs s1.agent 0 = (q + 1) % 2 ^ 48 ∧ s1.SameMem t ∧ ∀ x, t.rd x = s1.rd x) ∧
    (∀ (d a b : Fin 32) (m : MReg) (e : Fin 4) (l : List (Nat × Nat × Nat × URegion)) (s1 : State),
      let w := ewBits e
      let sc := if w = 64 then 8 else 4
      let one (x : Nat × Word) : M (Nat × Nat × Nat × URegion) := do
        let r ← checkUpdM x.2 sc (some w) (word x.1)
        pure (x.1, r)
      ((s.elemAddrs m (512 / w) fun i => s.rd (s5 a) + word (lane (s.rdV b) w i * sc)).mapM one).run s = .ok l s1 → Tbl.getD s1.seqs s1.agent 0 < 2 ^ 48 →
      ∃ t ps, exec (.updv d a b m e) s = .next t ∧ t.ctx.log = s1.ctx.log ++ ps ∧ ps.length = l.length ∧ s1.SameMem t ∧
        ∀ n x p, l[n]? = some x → ps[n]? = some p → p.pa = x.2.1 ∧ p.rid = x.2.2.1 ∧ p.agent = s1.agent ∧
          p.val = pairValue x.2.2.2.etype (word (lane (s.rdV d) w x.1)) ∧ p.seq = (Tbl.getD s1.seqs s1.agent 0 + n) % 2 ^ 48) ∧
    (∀ a : SReg, ((s.releaseLog true).promise s.myself (s.agent, s.myLaunch, Fin.ofNat 16 (wfld (s.rd a) 0 4))).closeEach.allClosed s.myself = true →
      ∃ t, exec (.ufence a) s = .next t ∧ t.ctx.log = [] ∧ (∀ d : Fin 6, ∀ p ∈ (t.getDie d).par.ingress, p.by_ s.myself = false) ∧ s.SameMem t ∧ ∀ r, t.rd r = s.rd r) ∧
    (∀ (a b : SReg), (s.rd b = 0 → ∃ t, exec (.uapply a b) s = .next t ∧ s.Idles t) ∧
      (s.rd b ≠ 0 → s.regionOf s.me.asid.toNat (s.rd a) = none → traps (.uapply a b) .uregion (s.rd a)) ∧
      ∀ k r, s.rd b ≠ 0 → s.regionOf s.me.asid.toNat (s.rd a) = some (k, r) → (s.rd a).toNat + (s.rd b).toNat ≤ r.base.toNat + r.size →
        r.throttled = false → s.throttled s.myself s.myLaunch 4 = false →
        exec (.uapply a b) s = .next (((r.lines (s.rd a).toNat (s.rd b).toNat).foldl State.applyLine s).settleAll).complete) ∧
    (∀ (d a : SReg), ((s.rd a).toNat % 32 ≠ 0 → traps (.uregion d a) .misalign (s.rd a)) ∧
      ∀ l segs s1 s2, (s.rd a).toNat % 32 = 0 → (readRecordM (.object false) (s.rd a) 32).run s = .ok l s1 →
        let base := fieldOf l 0 8
        let size := fieldOf l 8 8
        let etype := fieldOf l 16 1
        let op := fieldOf l 17 1
        let asid := fieldOf l 18 2
        asid < 1024 → zeroSpan l 20 12 = true → etype ≤ 6 → op ≤ 6 → pairValid etype op = true → (s.me.pl = true ∨ asid = s.me.asid.toNat) →
        base % 256 = 0 → size % 256 = 0 → size ≠ 0 → size ≤ 2 ^ 46 → base + size ≤ 2 ^ 64 →
        s1.segments s1.die asid s1.me.pl (size / 65536 + 2) base size = some (segs, s2) →
        (∀ x ∈ s2.regions, ∀ g ∈ x.2.segs, ∀ h ∈ segs, meets g.2.1 g.2.2 h.2.1 h.2.2 = false) → s2.regions.length < 4095 →
        (∃ id, 1 ≤ id ∧ id ≤ 4095 ∧ ∀ x ∈ s2.regions, x.1 % 4096 ≠ id) → (∀ g ∈ segs, pkgOf g.2.1 = Config.package) → s2.calm →
        ∃ t id k r, exec (.uregion d a) s = .next t ∧ t.rd d = (if d = 0 then 0 else word id) ∧ 1 ≤ id ∧ id ≤ 4095 ∧ (∀ x ∈ s2.regions, x.1 % 4096 ≠ id) ∧
          k % 4096 = id ∧ Tbl.find? t.regions k = some r ∧ r.base = word base ∧ r.size = size ∧ r.etype = etype ∧ r.op = op ∧ r.asid = asid ∧ r.segs = segs ∧
          s2.SameMem t) ∧
    (∀ a : SReg, (s.regionNamed s.me.asid.toNat (s.rd a).toNat = none → exec (.ufree a) s = .next (s.enterOpen s.cur .uregion)) ∧
      ∀ k r, s.regionNamed s.me.asid.toNat (s.rd a).toNat = some (k, r) → ∃ t, exec (.ufree a) s = .next t ∧ Tbl.find? t.regions k = none) ∧
    ∀ (d a : SReg), (s.rd a = 0 → s.Yields (.ustat d a) d (word (s.getDie s.die).par.drops)) ∧
      (s.rd a ≠ 0 → s.regionNamed s.me.asid.toNat (s.rd a).toNat = none → exec (.ustat d a) s = .next (s.enterOpen s.cur .uregion)) ∧
      ∀ k r, s.rd a ≠ 0 → s.regionNamed s.me.asid.toNat (s.rd a).toNat = some (k, r) →
        let of_ (f : Parterre → List Bin) := s.dies.toList.flatMap fun x => (f x.par).filter (·.rid == k)
        let all := of_ (·.bins) ++ of_ (·.runs)
        s.Yields (.ustat d a) d (word (r.throttled.toNat * 2 ^ 63 + (of_ (·.runs) != []).toNat * 2 ^ 62
          + min (all.map (·.line)).eraseDups.length (2 ^ 24 - 1) * 2 ^ 32 + min ((all.map (·.entries.length)).foldl (· + ·) 0) (2 ^ 32 - 1)))

/-- R336, R338, R343 to R345, R350 to R352; which line's turn it is, is the model's reading of R371 (log entry 75);
which pairs wait for each other on their way to a bin rests on log entry 89 (DEDUCED). -/
def Obligations.ParterreSteps : Prop :=
  ∀ s : State, s.calm →
    (∀ (die : Fin 6) (p : Pair) (rest : List Pair) (r : URegion), let q := (s.getDie die).par
      q.ingress = p :: rest → s.heldBack p = false → Tbl.find? s.regions p.rid = some r → (∀ e ∈ q.pre, ¬ (e.pair.pa = p.pa ∧ e.pair.rid = p.rid)) → q.pre.length < 256 →
      ∃ t, exec (.ingressClose die 1) s = .next t ∧ (t.getDie die).par.ingress = rest ∧ (t.getDie die).par.pre = q.pre ++ [⟨p, s.cycle⟩] ∧ s.SameMem t) ∧
    (∀ (die : Fin 6) (idx : Nat) (e : PreEntry), let q := (s.getDie die).par
      q.pre[idx]? = some e → ∃ t, exec (.precombineExpiry die idx) s = .next t ∧ (t.getDie die).par.pre = q.pre.eraseIdx idx ∧
        (t.getDie die).par.flight = q.flight ++ [e.pair] ∧ s.SameMem t ∧ s.SameOthers t) ∧
    (∀ (die : Fin 6) (idx : Nat) (p : Pair) (r : URegion), (s.getDie die).par.flight[idx]? = some p →
      (∀ x ∈ (s.getDie die).par.flight.take idx, p.tied x = false) → Tbl.find? s.regions p.rid = some r → s.poison.contains (p.pa / 64) = false →
      let d := homeDie p.pa
      (∀ b ∈ (s.getDie d).par.bins, ¬ (b.line = p.pa / 64 ∧ b.rid = p.rid)) →
      ∃ x : State, exec (.binMerge die idx) s = .next (x.settleBins d) ∧ (x.getDie die).par.flight = (s.getDie die).par.flight.eraseIdx idx ∧
        (x.getDie d).par.bins = (s.getDie d).par.bins ++ [⟨p.pa / 64, p.rid, [pairEntry p], false⟩] ∧ s.SameMem x) ∧
    (∀ (die : Fin 6) (idx : Nat) (p : Pair), (s.getDie die).par.flight[idx]? = some p → (∀ x ∈ (s.getDie die).par.flight.take idx, p.tied x = false) →
      (Tbl.find? s.regions p.rid = none ∨ s.poison.contains (p.pa / 64) = true) →
      ∃ t, exec (.binMerge die idx) s = .next t ∧ (t.getDie (homeDie p.pa)).par.drops = (s.getDie (homeDie p.pa)).par.drops + 1 ∧ s.SameMem t) ∧
    ∀ (line : Nat) (b : Bin) (e : BinEntry) (r : URegion), let p := (s.getDie (homeDie (line * 64))).par
      s.applyNext line = true →
      (∀ d : Fin 6, (∀ x ∈ (s.getDie d).par.flight, x.pa / 64 ≠ line) ∧ ∀ x ∈ (s.getDie d).par.pre, x.pair.pa / 64 ≠ line) →
      p.runs.filter (·.line == line) = [] → p.bins.filter (·.line == line) = [b] → b.bad = false → s.stopped (line * 64) = false → b.entries = [e] → Tbl.find? s.regions b.rid = some r →
      let n := etypeBytes r.etype
      ∃ t, exec (.backgroundApply line) s = .next t ∧ s.SameMemBut t e.pa n ∧
        t.valueAt e.pa n = (if r.op = 6 then e.val else combine r.etype r.op (word (s.valueAt e.pa n)) e.val).toNat % 2 ^ (8 * n)

/-- R125 to R127, R390, R392, R394; which of the die's engines takes a round is the model's reading (log entry 52), that it is in state 1 at once (log entry 51), that ops 1 to 3 go by the messages of the ring and early ones wait (log entry 53), and that a MEMB is known by its continuation and pc (log entry 54); ADDR of a trap where no address is at fault is a free value (log entry 20). -/
def Obligations.CollectiveInstructions : Prop :=
  ∀ (s : State) (d a b : SReg),
    ((s.rd a).toNat % 64 ≠ 0 → exec (.colls d a) s = .next (s.enter s.cur ⟨.misalign, 0, s.rd a, 0, [], none⟩)) ∧
    (∀ x bad s1, (collDescM (s.rd a)).run s = .ok (x, bad) s1 → s1.calm →
      let s2 := (s1.flushHart s1.cur).escape
      let gave (u t : State) := t.rd d = (if d = 0 then 0 else word (u.newHandle u.die x.round)) ∧ ∀ r, r ≠ d → t.rd r = u.rd r
      (bad = true → ∃ t r, exec (.colls d a) s = .next t ∧ gave s2 t ∧ t.roundOf (s2.newHandle s2.die x.round) = some r ∧ r.state = 3 ∧ r.why = 5) ∧
      (bad = false → 2 ≤ x.n → x.tree = false → x.op ≠ 4 → (x.op = 3 → x.me = x.root) →
        ∀ l s3, (readRecordM .read x.sbuf (x.sends * x.size)).run s2 = .ok l s3 → s3.early = [] →
          let mine := (List.range x.sends).map fun i => BitVec.ofNat 32 (fieldOf l (i * x.size) x.size)
          let h := s3.newHandle s3.die x.round
          (x.me ≠ 0 → ∃ t r, exec (.colls d a) s = .next t ∧ gave s3 t ∧ t.roundOf h = some r ∧ r.state = 1 ∧ r.desc = x ∧ r.mine = mine ∧
            r.asid = s3.me.asid.toNat ∧ r.start = s3.cycle ∧ t.sent = s3.sent ∧ s3.SameMem t) ∧
          (x.me = 0 → x.list.getD 1 0 ≠ Config.package → s3.linked (x.list.getD 1 0) = true →
            ∃ t m, exec (.colls d a) s = .next t ∧ t.rd d = (if d = 0 then 0 else word h) ∧ t.sent = s3.sent ++ [(.partial_, x.list.getD 1 0, m)] ∧
              m.data = mine ∧ m.epoch = x.epoch ∧ m.round = x.round ∧ m.src = Config.package))) ∧
    (s.roundOf (s.rd a).toNat = none → ∀ i ∈ [Instr.collw d a, .collst d a, .collabt a], exec i s = .next (s.enterOpen s.cur .access)) ∧
    (∀ r, s.roundOf (s.rd a).toNat = some r → r.asid = s.me.asid.toNat →
      (r.live = false → (r.state = 3 ∧ r.desc.trapFail = true → exec (.collw d a) s = .next (s.acquire.enter s.cur ⟨.coll, 0, 0, r.word, [], none⟩)) ∧
        (¬ (r.state = 3 ∧ r.desc.trapFail = true) → ∃ t, exec (.collw d a) s = .next t ∧ t.rd d = (if d = 0 then 0 else r.word) ∧ t.acquired ∧
          s.Accesses t (fun old new => { new with s := old.s }) ∧ (∀ x, x ≠ d → t.rd x = s.rd x) ∧ s.SameMem t)) ∧
      s.Yields (.collst d a) d r.word ∧
      (r.live = true → s.calm → ∃ t z, exec (.collabt a) s = .next t ∧ t.roundOf r.handle = some z ∧ z.state = 3 ∧ z.why = 2 ∧ z.pkg = Config.package ∧ s.SameMem t) ∧
      (r.live = false → ∃ t, exec (.collabt a) s = .next t ∧ s.Idles t)) ∧
    let mine (m : Memb) : Bool := (Party.mk m.agent m.uid).same s.myself && m.pc == s.pc
    ∀ m l s1, s.membs.find? mine = some m → m.result = some l → (storeHalves (s.rd b) l).run s = .ok () s1 →
      ∃ t, exec (.memb d a b) s = .next t ∧ t.rd d = (if d = 0 then 0 else word ((m.epoch + 1) * 2 ^ 32 + l.length)) ∧
        (∀ x, x ≠ d → t.rd x = s1.rd x) ∧ t.membs.find? mine = none ∧ s1.SameMem t

/-- R390 to R394; that ops 1 to 4 go by the messages of the ring, that a probe is answered live while the state is below 2, that WHY 3 is tested at the time-out, and that a partial or a value with no round at all waits for its COLLS, are the model's readings (log entry 53), and so is that the first list published for an epoch stands, and whom a reprobe asks (log entry 54). -/
def Obligations.CollectiveMessages : Prop :=
  ∀ (s : State) (msg : CollMsg),
    let away (p : Nat) := p ≠ Config.package ∧ s.linked p = true
    let toAll (l : List Nat) (k : CollOut) (m : CollMsg) := (l.filter fun p => p != Config.package && s.linked p).map fun p => (k, p, m)
    (∀ r, s.liveFor msg = some r →
      let k := r.desc.me
      let dest (n : Nat) := r.desc.list.getD n 0
      let u := (s.hear r.handle msg.src).updRound r.handle fun x => { x with sent := true }
      let v := (s.hear r.handle msg.src).updRound r.handle fun x => { x with passed := true }
      (r.desc.tree = false → r.sent = false → k ≠ 0 → dest (k - 1) = msg.src →
        let p := r.partialOf k msg.data
        (k + 1 ≠ r.desc.n → away (dest (k + 1)) → ∃ t, exec (.ringPartial msg) s = .next t ∧ t.sent = s.sent ++ [(.partial_, dest (k + 1), r.msg p)] ∧
          (r.desc.op = 0 → (u.writeRbuf r p).SameMem t) ∧ (r.desc.op ≠ 0 → s.SameMem t)) ∧
        (k + 1 = r.desc.n → away (dest 0) → ∃ t, exec (.ringPartial msg) s = .next t ∧ t.sent = s.sent ++ [(.total, dest 0, r.msg p)] ∧
          (u.writeRbuf r (r.share p)).SameMem t)) ∧
      (r.desc.tree = false → r.sent = true → r.passed = false → k + 1 < r.desc.n → dest (if k = 0 then r.desc.n - 1 else k - 1) = msg.src →
        (k + 2 ≠ r.desc.n → away (dest (k + 1)) → ∃ t, exec (.ringTotal msg) s = .next t ∧ t.sent = s.sent ++ [(.total, dest (k + 1), r.msg msg.data)] ∧
          (v.writeRbuf r (r.share msg.data)).SameMem t) ∧
        (k + 2 = r.desc.n → s.roundOf r.handle = some r → ∃ t z, exec (.ringTotal msg) s = .next t ∧ t.roundOf r.handle = some z ∧ z.state = 2 ∧ z.why = 0 ∧
          t.sent = s.sent ++ toAll r.desc.list .done (r.msg []) ∧ (s.calm → (v.writeRbuf r (r.share msg.data)).SameMem t))) ∧
      (
        let j := r.desc.list.idxOf msg.src
        r.desc.tree = true → r.sent = false → j < r.desc.n → (∀ g ∈ r.got, ¬ (g.1 = msg.level ∧ g.2.1 = j)) → s.roundOf r.handle = some r →
        let w := { r with heard := r.heard ++ [msg.src], got := r.got ++ [(msg.level, j, msg.data)] }
        let x := ((s.hear r.handle msg.src).updRound r.handle fun r => { r with got := r.got ++ [(msg.level, j, msg.data)] }).updRound r.handle fun r => { r with sent := true }
        ∃ t z, exec (.treeValue msg) s = .next t ∧ t.roundOf r.handle = some z ∧ z.got = w.got ∧
          (treeUp w k 6 0 r.mine = .wait → z = w ∧ t.sent = s.sent ∧ s.SameMem t) ∧
          (∀ q level y, treeUp w k 6 0 r.mine = .send q level y → away (dest q) → z.sent = true ∧ t.sent = s.sent ++ [(.value, dest q, { r.msg y with level := level })] ∧ s.SameMem t) ∧
          (∀ y, treeUp w k 6 0 r.mine = .root y → z.state = 2 ∧ t.sent = s.sent ++ toAll r.desc.list .done (r.msg y) ∧ (s.calm → (x.writeRbuf w y).SameMem t))) ∧
      (s.roundOf r.handle = some r → s.roundFor msg = some r →
        (∃ t z, exec (.collectiveDone msg) s = .next t ∧ t.roundOf r.handle = some z ∧ z.state = 2 ∧
          (r.desc.tree = true → s.calm → (s.writeRbuf r msg.data).SameMem t) ∧ (r.desc.tree = false → s.calm → s.SameMem t)) ∧
        (∃ t z, exec (.abort msg) s = .next t ∧ t.roundOf r.handle = some z ∧ z.state = 3 ∧ z.why = msg.why ∧ z.pkg = msg.pkg))) ∧
    (∀ (r : Round) (l : List (BitVec 32)) (s1 : State) (a : Acc) (q : Nat), let bytes := l.flatMap fun x => leBytes r.desc.size x.toNat
      s.memOk → s.calm → lineSpans r.desc.rbuf.toNat bytes.length = [(r.desc.rbuf.toNat, bytes.length)] →
      s.check (engineDie r.handle) r.asid r.sys .store r.desc.rbuf bytes.length = (s1, .ok a) → a.pas = [q] → isHbm q = true → s1.protectedAt q bytes.length = false → s1.stopped q = false →
      (s.writeRbuf r l).bytesAt q bytes.length = bytes) ∧
    (∀ (r : Round) (k : Nat), 2 ≤ r.desc.n → r.desc.n ≤ 8 → k < r.desc.n →
      (k ≠ 0 → treeUp r k 6 0 r.mine = .send 0 0 r.mine) ∧
      (∀ vals : List (List (BitVec 32)), vals.length + 1 = r.desc.n → (∀ i, i < vals.length → (r.got.find? fun g => g.1 == 0 && g.2.1 == i + 1).map (·.2.2) = vals[i]?) →
        treeUp r 0 6 0 r.mine = .root (vals.foldl (collCombine r.desc) r.mine))) ∧
    (s.liveFor msg = none → away msg.src →
      let refused (why : Nat) := Host.Outcome.next { s with sent := s.sent ++ [(.abort, msg.src, { msg with src := Config.package, why := why, pkg := Config.package, data := [] })] }
      (∀ i ∈ [Instr.ringPartial msg, .ringTotal msg, .treeValue msg],
        (msg.epoch < s.epoch → exec i s = refused 4) ∧
        (s.epoch ≤ msg.epoch → (∃ r ∈ s.rounds, r.desc.epoch = msg.epoch ∧ r.desc.round = msg.round) → exec i s = refused 2)) ∧
      (s.epoch ≤ msg.epoch → exec (.ringTotal msg) s = refused 2)) ∧
    (∀ h x, s.roundOf h = some x → x.live = true →
      (x.probing = none → x.start + x.desc.tmo * 2500 ≤ s.cycle →
        ∃ t z, exec (.collectiveTimeout h) s = .next t ∧ t.roundOf h = some z ∧ z.state = x.state ∧
          z.probing = some ⟨s.cycle, s.downPkgs x.desc.list, x.desc.list.filter fun p => p != Config.package && !s.linked p⟩ ∧
          t.sent = s.sent ++ toAll x.desc.list .probe (x.msg [])) ∧
      (∀ z answered p, x.probing = some z → z.at_ + 2500 ≤ s.cycle →
        let heard := answered.filter fun a => !z.silent.contains a.1
        x.desc.list.find? (fun q => !(q == Config.package || heard.contains (q, true))) = some p →
        let why := if z.down.contains p then 3 else 1
        ∃ t y, exec (.probeWindowEnd h answered) s = .next t ∧ t.roundOf h = some y ∧ y.state = 3 ∧ y.pkg = p ∧ y.why = why ∧
          t.sent = s.sent ++ toAll (x.desc.list.filter fun q => heard.any (·.1 == q)) .abort { x.msg [] with why := why, pkg := p })) ∧
    (away msg.src → ∃ t, exec (.probe msg) s = .next t ∧
      t.sent = s.sent ++ [(.answer, msg.src, { msg with src := Config.package, level := (s.liveFor msg).isSome.toNat })]) ∧
    (∀ l, Tbl.find? s.published msg.epoch = some l →
      (away msg.src → ∃ t, exec (.membCollect msg) s = .next t ∧ t.sent = s.sent ++ [(.publish, msg.src, membMsg msg.epoch 0 0 l)]) ∧
      ∀ i ∈ [Instr.membPublication msg, .membPublish msg.epoch], ∃ t, exec i s = .next t ∧ Tbl.find? t.published msg.epoch = some l ∧ t.epoch = s.epoch) ∧
    (Tbl.find? s.published msg.epoch = none → s.collections.find? (·.epoch == msg.epoch) = none → msg.members.contains msg.src = true →
      (∃ p ∈ msg.members, p ≠ msg.src) → ∃ t, exec (.membCollect msg) s = .next t ∧
        ∃ c ∈ t.collections, c.epoch = msg.epoch ∧ c.collected = [msg.src] ∧ c.list = msg.members ∧ c.since = s.cycle) ∧
    (∀ e c, s.collections.find? (·.epoch == e) = some c → (c.since + c.tmo * 2500 ≤ s.cycle ∨ c.list.all (c.collected.contains ·) = true) → Tbl.find? s.published e = none →
      let l := c.list.filter (c.collected.contains ·)
      ∃ t, exec (.membPublish e) s = .next t ∧ Tbl.find? t.published e = some l ∧ t.epoch = max s.epoch (e + 1) ∧
        ∀ p ∈ c.collected, away p → (.publish, p, membMsg e 0 0 l) ∈ t.sent) ∧
    (Tbl.find? s.published msg.epoch = none →
      ∃ t, exec (.membPublication msg) s = .next t ∧ Tbl.find? t.published msg.epoch = some msg.members ∧ t.epoch = max s.epoch (msg.epoch + 1) ∧
        ∀ m ∈ t.membs, m.epoch = msg.epoch → m.result.isSome = true) ∧
    ∀ e first m, s.membs.find? (fun m => m.epoch == e && m.result.isNone && m.since + m.tmo * 2500 + 10000 ≤ s.cycle && m.list.contains first) = some m →
      away first → ∃ t, exec (.membReprobe e first) s = .next t ∧ { m with coordinator := first, since := s.cycle } ∈ t.membs ∧
        t.sent = s.sent ++ toAll m.list .probe (membMsg m.epoch (m.handle % 2 ^ 32) m.tmo m.list) ++ [(.memb, first, membMsg m.epoch (m.handle % 2 ^ 32) m.tmo m.list)]

/-- R136 to R146, R148, R154, R263; formats and arithmetic as for the hart's vectors. -/
def Obligations.ElementwiseOperations : Prop :=
  (∀ (x : State) (t : TaskId) (u : UnitRef),
    let y := x.unitMoved t u
    { y with tasks := x.tasks } = x ∧ (∀ v, v ≠ t → y.task v = x.task v) ∧
      y.task t = { x.task t with moved := x.cycle, wants := Tbl.erase (x.task t).wants (TileNo u.tile * 16 + u.slot.val) } ∧
      ((∀ w ∈ x.wants t, ∃ e ∈ x.standingOf t, e.key = w.1) → (x.syncTask t).tiles = x.tiles ∧ (x.calm → x.SameMem (x.syncTask t)) ∧
        ((∀ e ∈ x.standingOf t, ∃ w ∈ x.wants t, w.1 = e.key) → (x.getDie (taskDie t)).unmade = [] → x.syncTask t = x))) ∧
  ∀ (s : State) (t : TaskId) (p : Fin 4) (a b c f : Fin 16) (m : Fin 4) (e8 : Bool) (y : BitVec 32), s.ready t → s.heard 0 (s.focus.slot.val + 4) →
    let rm := roundMode (s.task t).round
    let dn := roundDenorm (s.task t).round
    let ft := fmtOf f
    let x (l : List Nat) (n : Nat) := l.getD n 0
    let less (l : List Nat) := signed 32 (x l 0) < signed 32 (x l 1)
    let num (flt : ExNum → ExNum → Ex) (int : Nat → Nat → Nat) (l : List Nat) : Nat × Fl :=
      if ft = .s32 then (int (x l 0) (x l 1) % 2 ^ 32, 0) else fp2 ft rm dn flt (x l 0) (x l 1)
    let args (plane : Nat) (l : List Nat) := if plane = 3 then l.take 1 ++ [y.toNat % 2 ^ ft.width] ++ l.drop 1 else l
    let does (i : Instr) (n plane : Nat) (g : List Nat → Nat × Fl) : Prop :=
      let ports := dataPorts plane n
      (plane = 3 → s.unit.tsA = some y) →
      (m ≠ 1 → ∀ ts : List Tok, ts.length = ports.length → (∀ z ∈ ports.zip ts, s.lone z.1 z.2) →
        ((∀ u ∈ ts, u.k = 0) →
          let r := g (args plane (ts.map fun u => u.v.toNat % 2 ^ ft.width))
          s.Moves i t fun z => (∀ q ∈ ports, z.input q = []) ∧
            z.dataOut = [packBeat [⟨(ts.headD ⟨0, 0, 0⟩).c, BitVec.ofNat 32 r.1, 0⟩]] ∧
            (z.task t).eflags = (s.task t).eflags ||| BitVec.ofNat 16 r.2.toNat) ∧
        ∀ k, 1 ≤ k → k ≤ 11 → (∀ u ∈ ts, u.k = k) →
          s.Moves i t fun z => (∀ q ∈ ports, z.input q = []) ∧ z.dataOut = [packBeat (ts.take 1)] ∧
            (k = 9 → z.unit.tsA = none)) ∧
      (m = 1 → f ≠ 0 → s.unit.flag = false → ∀ bs : List Beat, bs.length = ports.length →
        (∀ z ∈ ports.zip bs, (s.input z.1).head? = some z.2 ∧ z.2.cls = .data) →
        s.Moves i t fun z => (∀ q ∈ ports, z.input q = (s.input q).drop 1) ∧
          z.dataOut = [dataBeat (ofLanes ft.width ((List.range (512 / ft.width)).map fun j => (g (args plane (bs.map fun q => lane q.pay ft.width j))).1)).toNat])
    does (.eadd p a b f m) 2 p.val (num (ExNum.add rm) (· + ·)) ∧
    does (.esub p a b f m) 2 p.val (num (fun u v => u.add rm v.neg) (fun u v => u + 2 ^ 32 - v)) ∧
    does (.emul p a b f m) 2 p.val (num ExNum.mul (· * ·)) ∧
    does (.efma p a b c f m false) 3 p.val (fun l => roundIeee ft rm dn (ExNum.fma rm (operand ft dn (x l 0)) (operand ft dn (x l 1)) (operand ft dn (x l 2)))) ∧
    does (.emin p a b f m) 2 p.val (fun l => if ft = .s32 then (if less l then x l 0 else x l 1, 0) else (fpPick false ft dn (x l 0) (x l 1), 0)) ∧
    does (.emax p a b f m) 2 p.val (fun l => if ft = .s32 then (if less l then x l 1 else x l 0, 0) else (fpPick true ft dn (x l 0) (x l 1), 0)) ∧
    does (.eabs a f m) 1 0 (fun l => if ft = .s32 then satSigned 32 ((signed 32 (x l 0)).natAbs : Int) else (x l 0 % 2 ^ (ft.width - 1), 0)) ∧
    does (.eand p a b f m) 2 p.val (fun l => (x l 0 &&& x l 1, 0)) ∧
    does (.eor p a b f m) 2 p.val (fun l => (x l 0 ||| x l 1, 0)) ∧
    does (.exor p a b f m) 2 p.val (fun l => (x l 0 ^^^ x l 1, 0)) ∧
    does (.esel a b c f m) 3 0 (fun l => (if ft.nonzero (x l 2) then x l 0 else x l 1, 0)) ∧
    does (.escale p a b f m e8) 2 p.val (fun l =>
      let sc := if e8 then (if dn = false ∧ x l 1 % 256 = 0 then .fin false 0 0 else Fmt.e8m0.value (x l 1)) else operand .f32 dn (x l 1)
      let r := roundIeee .f32 .rne dn ((operand .f32 dn (x l 0)).mul sc)
      (r.1, r.2 ||| (if sc.isNan then Fl.nv else 0)))

/-- R146, R147, R149 to R151, R158 to R160; that EFMA with ACC passes no HEADER on, and that the compared operands are flushed, are the model's readings (log entry 33), and so is the accumulator alone where a format is given and no HEADER came (log entry 99). -/
def Obligations.ComparisonsPivotsAndConversions : Prop :=
  ∀ (s : State) (t : TaskId) (a b f : Fin 16) (ta tb : Tok), s.ready t →
    let rm := roundMode (s.task t).round
    let dn := roundDenorm (s.task t).round
    let ft := fmtOf f
    let val (u : Tok) := u.v.toNat % 2 ^ ft.width
    let sent (u : Tok) : Tok := { u with v := BitVec.ofNat 32 (val u) }
    let cond := s.focus.slot.val + 6
    let heard := s.heard 0 (s.focus.slot.val + 4)
    (∀ (z : Bool) (r : Fin 4) (l : Fin 8), let ports := if z then [0] else [0, 1]
      s.heard 2 cond → s.lone 0 ta → (z = false → s.lone 1 tb) →
      let bit := relTest ft dn l (val ta) (if z then 0 else val tb)
      (ta.k = 0 → (z = false → tb.k = 0) →
        (r = 0 → s.Moves (.ecmp a b f z r l) t fun x => (∀ p ∈ ports, x.input p = []) ∧ x.output 2 cond = [narrowBeat bit.toNat]) ∧
        (r ≠ 0 → s.Moves (.ecmp a b f z r l) t fun x => (∀ p ∈ ports, x.input p = []) ∧ x.output 2 cond = [] ∧
          x.unit.any = (s.unit.any || bit) ∧ x.unit.all = (s.unit.all && bit))) ∧
      (ta.k = 9 → (z = false → tb.k = 9) → r ≠ 0 →
        s.Moves (.ecmp a b f z r l) t fun x => x.output 2 cond = [narrowBeat (if r = 1 then s.unit.any else s.unit.all).toNat] ∧
          x.unit.any = false ∧ x.unit.all = true)) ∧
    (∀ x : Bool, heard → s.lone 0 ta → s.lone 1 tb → ta.k = 0 → tb.k = 0 →
      s.Maps (.ecfwd a b f false x) t [0, 1] [sent (if beats ft dn x (val tb) (val ta) then tb else ta)] fun _ => True) ∧
    (∀ x : Bool, heard → s.lone 0 ta →
      (ta.k = 0 → s.Maps (.ecfwd a b f true x) t [0] [] fun z =>
        z.unit.win = some (match s.unit.win with | some w => if beats ft dn x (val ta) (val w) then ta else w | none => ta)) ∧
      (1 ≤ ta.k → ta.k ≤ 8 → s.Maps (.ecfwd a b f true x) t [0]
        (s.unit.win.toList.map sent ++ if ta.k = 1 then [] else [{ ta with k := ta.k - 1 }]) fun z => z.unit.win = none)) ∧
    (∀ (p : Fin 4) (m : Fin 256), heard → p ≠ 3 → s.lone 0 ta → ta.k = 0 →
      s.Maps (.econst p a b f m) t [0] [{ ta with v := BitVec.ofNat 32 (smallConst ft m) }] fun _ => True) ∧
    (∀ (p : Fin 4) (k : Bool) (n : Fin 8), heard → p ≠ 3 → s.lone 0 ta → ta.k = 0 → (k = false → n ≠ 6 → s.lone 1 tb ∧ tb.k = 0) →
      let kv := if k then ta.v.toNat else if n = 6 then 0 else tb.v.toNat
      let c := ta.c.toNat
      let r := [c + kv, c + 2 ^ 32 - kv, c * kv, c / 2 ^ (kv % 32), c * 2 ^ (kv % 32), c &&& kv, ta.v.toNat, if kv = 0 then 0xFFFFFFFF else c / kv].getD n.val 0
      s.Maps (.eidx p a b f k n) t (if k = true ∨ n = 6 then [0] else [0, 1]) [⟨BitVec.ofNat 32 r, if n = 6 then ta.c else ta.v, 0⟩] fun x =>
        (x.task t).eflags = (s.task t).eflags ||| (if n = 7 ∧ kv = 0 then 0x40#16 else 0#16)) ∧
    (∀ (m : Fin 4) (tau : ExNum), heard → m ≠ 1 → s.lone 0 ta → ta.k = 0 → pivTau (s.task t).pivtau = some tau →
      let q := pivot dn tau ta.v.toNat
      let r := roundIeee .f32 rm dn ⟨q.1, false, q.2.2⟩
      s.Maps (.epiv a f m) t [0] [⟨ta.c, BitVec.ofNat 32 r.1, 0⟩] fun x =>
        (x.task t).eflags = ((s.task t).eflags ||| (if q.2.1 then 0x80#16 else 0#16)) ||| BitVec.ofNat 16 r.2.toNat ∧
        (x.task t).regCount = if q.2.1 then min ((s.task t).regCount + 1) 65535 else (s.task t).regCount) ∧
    (∀ (m : Fin 4) (piv : Bool) (tau : ExNum), heard → m ≠ 1 → s.lone 0 ta → ta.k = 0 → (piv = true → pivTau (s.task t).pivtau = some tau) →
      let v := if piv then (pivot dn tau ta.v.toNat).1 else operand .f32 dn ta.v.toNat
      s.Maps (.ercp a f m piv) t [0] [⟨ta.c, BitVec.ofNat 32 (roundIeee .f32 rm dn (ExNum.div (.fin false 1 0) v)).1, 0⟩] fun _ => True) ∧
    (∀ x : Bool, heard → s.lone 0 ta →
      (ta.k = 0 → s.Maps (.epop a f x) t [0] [] fun z => z.unit.n = s.unit.n + (if x || ft.nonzero (val ta) then 1 else 0)) ∧
      (1 ≤ ta.k → ta.k ≤ 8 → s.Maps (.epop a f x) t [0]
        (⟨BitVec.ofNat 32 s.unit.f, BitVec.ofNat 32 s.unit.n, 0⟩ :: if ta.k = 1 then [] else [{ ta with k := ta.k - 1 }]) fun z => z.unit.n = 0)) ∧
    (∀ (m : Fin 4) (k : Fin 32) (row : ConvRow), heard → m ≠ 1 → convRow k = some row → s.lone 0 ta → ta.k = 0 →
      s.Maps (.ecvt a f m k) t [0] [{ ta with v := BitVec.ofNat 32 (convert row rm dn s.unit.gen (ta.v.toNat % 2 ^ row.src.width)).1 }] fun _ => True) ∧
    ∀ (p m : Fin 4) (c : Fin 16) (ba bb : Beat), heard → p ≠ 3 → (s.input 0).head? = some ba → (s.input 1).head? = some bb →
      (f ≠ 0 → s.unit.flag = false → ba.cls = .data → bb.cls = .data → s.Moves (.efma p a b c f m true) t fun x => x.dataOut = [] ∧
        x.unit.acc = some (ofLanes ft.width ((List.range (512 / ft.width)).map fun j =>
          let o (u : Line) := operand ft dn (lane u ft.width j)
          (roundIeee ft rm dn (ExNum.fma rm (o ba.pay) (o bb.pay) (o (s.unit.acc.getD 0)))).1))) ∧
      (∀ k u, s.unit.flag = false → s.unit.acc = some u → ba.cls = .ctl k → bb.cls = .ctl k →
        s.Moves (.efma p a b c f m true) t fun x => x.unit.acc = none ∧ x.input 0 = (s.input 0).drop 1 ∧
          x.dataOut = (s.unit.hdrA.toList.map fun h => headerBeat (setFld h.pay.toNat 24 8 1)) ++ [dataBeat u.toNat, ba])

/-- R152, R153, R155 to R157, R255, R271 to R273. CAR and STK beside OVF are log entry 97, the upper bits of a scale header entry 100 (both DESIGN CHOICE),
the range of SUM and CAR and when two HEADERs of EBDOT must match entry 33 (DEDUCED). -/
def Obligations.CarrySaveAndDots : Prop :=
  ∀ (s : State) (t : TaskId) (a b f : Fin 16) (ba bb : Beat), s.ready t → s.heard 0 (s.focus.slot.val + 4) → (s.input 0).head? = some ba →
    let rm := roundMode (s.task t).round
    let dn := roundDenorm (s.task t).round
    let next (x : State) (p : Nat) := x.input p = (s.input p).drop 1
    (∀ k : Fin 16, (s.input 1).head? = some bb → csClass ba = .data → csClass bb = .data →
      s.Moves (.ecsadd a b k false) t fun x => x.dataOut = [dataBeat ((readCs ba.pay).addBeat (readCs bb.pay)).pay] ∧ next x 0 ∧ next x 1) ∧
    (∀ k : Fin 16, csClass ba = .data → s.Moves (.ecsadd a b k true) t fun x => x.dataOut = [] ∧ x.unit.n = s.unit.n + 1 ∧ next x 0) ∧
    (∀ (k : Fin 16) n, csClass ba = .ctl n → s.Moves (.ecsadd a b k true) t fun x =>
      x.dataOut = ((s.unit.accs.filter (·.valid != 0)).map fun c => dataBeat c.pay) ++ [ba] ∧ x.unit.accs = [] ∧ x.unit.n = 0 ∧ next x 0) ∧
    (∀ x : Bool, csClass ba = .data → (x = true → s.unit.tsA.isSome = true) →
      let cs := readCs ba.pay
      let one (j : Fin 4) := let r := resolveLane rm dn cs j
        if x then tensorScale dn (s.unit.tsB.getD 0) (tensorScale dn (s.unit.tsA.getD 0) r) else r
      let l := ((List.finRange 4).filter fun j => bit4 cs.valid j.val).map one
      s.Moves (.enorm a f x) t fun z => z.unit.n = s.unit.n + l.length ∧ next z 0 ∧
        z.dataOut = packBeats l.length (l.zipIdx.map fun y => ⟨BitVec.ofNat 32 (s.unit.n + y.2), BitVec.ofNat 32 y.1.1, 0⟩)) ∧
    (∀ (x : Bool) k, csClass ba = .ctl k → s.Moves (.enorm a f x) t fun z => z.unit.n = 0 ∧ z.dataOut = [packBeat [⟨0, 0, k⟩]] ∧ next z 0) ∧
    (∀ x : Bool, csClass ba = .header → s.Moves (.enorm a f x) t fun z => z.dataOut = [] ∧ z.unit.n = 0 ∧
      z.unit.tsA = some (BitVec.ofNat 32 (ba.pay.toNat % 2 ^ 32)) ∧ z.unit.tsB = some (BitVec.ofNat 32 (ba.pay.toNat / 2 ^ 32 % 2 ^ 32))) ∧
    ∀ part : Bool,
      (s.unit.hdrA = none → s.unit.hdrB = none → (s.input 1).head? = some bb →
        (ba.cls = .header → bb.cls = .header → bdotOk ba.pay.toNat bb.pay.toNat = true →
          s.Moves (.ebdot a b part) t fun x => x.unit.hdrA = some ba ∧ x.unit.hdrB = some bb ∧ x.dataOut = [] ∧ next x 0 ∧ next x 1) ∧
        ∀ k, ba.cls = .ctl k → bb.cls = .ctl k → s.Moves (.ebdot a b part) t fun x => x.dataOut = [ba] ∧ next x 0 ∧ next x 1) ∧
      ∀ ha hb : Beat, s.unit.hdrA = some ha → s.unit.hdrB = some hb → (s.input 1).head? = some bb → bb.cls = .data →
        packetDone ha.pay.toNat (pays s.unit.pktA) = true → packetDone hb.pay.toNat (pays s.unit.pktB) = false →
        packetDone hb.pay.toNat (pays (s.unit.pktB ++ [bb])) = true →
        s.Moves (.ebdot a b part) t fun x => x.unit.hdrA = none ∧ x.unit.hdrB = none ∧ next x 1 ∧
          x.dataOut = bdotResult dn part ha.pay.toNat hb.pay.toNat (pays s.unit.pktA) (pays (s.unit.pktB ++ [bb]))

/-- R164 to R166, R240 to R247, R252, R271 to R273; four cells share a carry-save exponent, one after another (log entry 31), and MEXPERT's port c
and MPRED are read as log entry 32 says (both DEDUCED). -/
def Obligations.MatrixOperations : Prop :=
  ∀ (s : State) (t : TaskId) (a b c f : Fin 16) (hold x : Bool) (o : Fin 4), s.ready t → s.heard 0 (s.focus.slot.val + 4) →
    let rm := roundMode (s.task t).round
    let dn := roundDenorm (s.task t).round
    let ops : List (Instr × MatCfg) :=
      [(.mdense a b f hold o, ⟨.dense, f, hold, o⟩), (.mnm2 a b c f hold o, ⟨.nm2, f, hold, o⟩), (.mmatch a b f hold o, ⟨.match_, f, hold, o⟩),
       (.mbxor a b f hold o, ⟨.bxor, f, hold, o⟩), (.mband a b f hold o, ⟨.band, f, hold, o⟩), (.mpp8 a b f hold o, ⟨.pp8, f, hold, o⟩),
       (.mexpert a b c f hold o, ⟨.expert, f, hold, o⟩), (.mpred a b f x hold, ⟨.pred x, f, hold, 0⟩)]
    ∀ e ∈ ops, let i := e.1
      let m := e.2
      let u := s.unit
      let ports := m.op.packetPorts
      (m.op = .expert → s.input 2 = []) → u.behind = [] →
      (∀ h, u.hdrA = none → u.hdrB = none → u.hdrC = none → s.input 0 = [h] → (∀ p ∈ ports, p ≠ 0 → s.input p = []) → h.cls = .header →
        m.op.hdrAccept 0 h.pay.toNat = true →
        s.Moves i t fun z => z.unit.hdrA = some h ∧ z.unit.pktA = [] ∧ z.unit.hdrB = none ∧ z.dataOut = [] ∧ z.input 0 = []) ∧
      (∀ ha hb : Beat, (∀ p ∈ ports, u.complete p = true ∧ s.input p = []) → u.hdrA = some ha → u.hdrB = some hb → (m.op = .expert → u.flag = true) →
        let A := ha.pay.toNat
        let B := hb.pay.toNat
        let C := (u.hdrC.map fun q => q.pay.toNat).getD 0
        let la := pays u.pktA
        let lb := pays u.pktB
        let lc := pays u.pktC
        m.pairOk A B = true → bodyOk m.op 0 A la = true → bodyOk m.op 1 B lb = true →
        (m.op = .nm2 → hRows C = hRows B ∧ hK C = hK B ∧ bodyOk m.op 2 C lc = true) →
        let int := m.op.isInt A
        let fresh := m.out ≠ 2 ∨ u.any = false
        let listed : List Nat := if m.op = .expert then u.toks.map (·.c.toNat) else List.range 32
        let ra := packetRows m.op 0 A la 0 []
        let rb := packetRows m.op 1 B lb C lc
        let ints0 := if fresh then freshInts else u.ints
        let accs0 := if fresh then freshCells else u.accs
        s.Moves i t fun z =>
          z.unit.ints = (if int then addInt m.op A B ra rb listed ints0 else ints0) ∧
          z.unit.accs = (if int then accs0 else addFloat dn A B la lb ra rb listed accs0) ∧
          z.unit.any = true ∧ z.unit.hdrA = none ∧ z.unit.hdrB = (if hold then some hb else none) ∧ (∀ p, z.input p = s.input p) ∧
          z.dataOut = if m.out = 2 then [] else (m.result rm dn z.unit A B).1) ∧
      (∀ (k : Nat) (q : Nat → Beat), u.hdrA = none → u.hdrB = none → u.hdrC = none → (m.out ≠ 2 ∨ u.any = false) →
        (∀ p ∈ ports, (s.input p).head? = some (q p) ∧ (q p).cls = .ctl k) →
        s.Moves i t fun z => z.dataOut = [ctlBeat k] ∧ (∀ p ∈ ports, z.input p = (s.input p).drop 1) ∧ z.unit.any = false)

/-- R138, R174 to R191, R203; how many tokens share a beat is the model's reading (log entry 35), and so is where a DONE after no stop is found (log entry 34). -/
def Obligations.StreamUnits : Prop :=
  ∀ (s : State) (t : TaskId) (a b f : Fin 16) (d : Fin 16) (ta tb : Tok), s.ready t → s.heard 0 (s.focus.slot.val + 4) →
    let u := s.unit
    let de := s.focusTile.desc d.val
    let ft := fmtOf f
    let rm := roundMode (s.task t).round
    let dn := roundDenorm (s.task t).round
    let second := s.focus.slot.val + 8
    let both (x : State) (p q : Tok) := x.dataOut = [packBeat [p]] ∧ x.output 0 second = [packBeat [q]] ∧ x.input 0 = [] ∧ x.input 1 = []
    let pair := s.heard 0 second ∧ s.lone 0 ta ∧ s.lone 1 tb
    let scanners (r : Bool) : List Instr := [.scanc a b r d, .scanb a b r d, .scand a b r d]
    (∀ (r : Bool) (k : Nat), k ∈ [9, 10, 11] → u.scan = none → s.input 1 = [] → (b ≠ 0 → s.routeOpen) → (r = true → u.toks = [⟨0, 0, k⟩]) → (r = false → s.lone 0 ta ∧ ta.k = k) →
      ∀ i ∈ scanners r, s.Moves i t fun x => x.dataOut = [packBeat [⟨0, 0, k⟩]] ∧ x.unit.scan = none ∧ if r then x.unit.toks = [] else x.input 0 = []) ∧
    (b ≠ 0 → s.input 1 = [] → ∀ r : Bool,
      (u.scan = none → r = false → s.lone 0 ta → ta.k = 0 → ta.v.toNat < dfield de 20 4 → dfield de 4 4 ≤ dfield de 24 4 →
        s.Moves (.scand a b r d) t fun x => x.dataOut = [] ∧ x.unit.scan = some ⟨ta.v.toNat, 0, dfield de 4 4, none⟩ ∧ x.input 0 = []) ∧
      ∀ q, u.scan = some q → s.routeOpen →
        (q.pos < q.stop → s.Moves (.scand a b r d) t fun x => x.unit.scan = some { q with pos := q.pos + 1, lastC := some q.pos } ∧
          x.dataOut = [packBeat [⟨BitVec.ofNat 32 q.pos, BitVec.ofNat 32 ((q.p * dfield de 4 4 + q.pos + dfield de 28 4) % 2 ^ 32), 0⟩]]) ∧
        (∀ c, q.pos < q.stop → (storeWord (dfield de 12 4 + 4 * q.pos)).run s = .ok c s → (∀ l, q.lastC = some l → l < c) →
          s.Moves (.scanc a b r d) t fun x => x.unit.scan = some { q with pos := q.pos + 1, lastC := some c } ∧
            x.dataOut = [packBeat [⟨BitVec.ofNat 32 c, BitVec.ofNat 32 ((q.pos + dfield de 28 4) % 2 ^ 32), 0⟩]]) ∧
        (∀ bm j rank, (fibreBits de q.p).run s = .ok bm s → (List.range q.stop).find? (fun j => q.pos ≤ j && bm.testBit j) = some j →
          (storeWord (dfield de 12 4 + 4 * q.p)).run s = .ok rank s →
          s.Moves (.scanb a b r d) t fun x => x.unit.scan = some { q with pos := j + 1, lastC := some j } ∧
            x.dataOut = [packBeat [⟨BitVec.ofNat 32 j, BitVec.ofNat 32 ((rank + popCount bm j + dfield de 28 4) % 2 ^ 32), 0⟩]]) ∧
        (q.stop ≤ q.pos → r = false → s.lone 0 ta → ta.k = 0 → ∀ i ∈ [Instr.scanc a b r d, .scand a b r d],
          s.Moves i t fun x => x.unit.scan = none ∧ x.unit.stops = u.stops + 1 ∧ x.dataOut = [packBeat [⟨0, 0, 1⟩]])) ∧
    (∀ (e : ElemWord) (sb : Beat), s.focusTile.word s.focus.slot.val = some e → 0x20 ≤ e.eop → e.eop ≤ 0x22 → e.b ≠ 0 → s.input 1 = [sb] →
      let v := sb.pay.toNat % 2 ^ 32
      (u.scan = none → s.Moves .skipToken t fun x => x.input 1 = [] ∧ x.unit.scan = none) ∧
      ∀ q, u.scan = some q →
        (v / 2 ^ 30 ≠ u.stops % 4 → s.Moves .skipToken t fun x => x.input 1 = [] ∧ x.unit.scan = some q) ∧
        (v / 2 ^ 30 = u.stops % 4 → v % 2 ^ 30 = skipEnd → s.Moves .skipToken t fun x => x.input 1 = [] ∧ x.unit.scan = some { q with pos := q.stop }) ∧
        (v / 2 ^ 30 = u.stops % 4 → v % 2 ^ 30 ≠ skipEnd → e.eop ≠ 0x20 →
          s.Moves .skipToken t fun x => x.input 1 = [] ∧ x.unit.scan = some { q with pos := max q.pos (min (v % 2 ^ 30) q.stop) })) ∧
    (pair → ∀ (y x : Bool) (o : Fin 4),
      (ta.k = 0 → tb.k = 0 → ta.c = tb.c → (∀ i ∈ [Instr.isect a b y x, .union a b], s.Moves i t fun z => both z ta tb) ∧
        let v := (mergeFn o ft rm dn [ta.v.toNat, tb.v.toNat]).1
        s.Moves (.cmerge a b f o) t fun z => both z ⟨ta.c, BitVec.ofNat 32 v, 0⟩ ⟨ta.c, BitVec.ofNat 32 v, 0⟩) ∧
      (ta.k = 0 → tb.k = 0 → ta.c.toNat < tb.c.toNat →
        (s.Moves (.isect a b y x) t fun z => z.dataOut = [] ∧ z.output 0 second = [] ∧ z.input 0 = [] ∧ z.input 1 = s.input 1) ∧
        (s.Moves (.union a b) t fun z => z.dataOut = [packBeat [ta]] ∧ z.output 0 second = [packBeat [{ ta with v := 0xFFFFFFFF#32 }]] ∧ z.input 0 = []) ∧
        (s.Moves (.cmerge a b f o) t fun z => z.dataOut = [packBeat [ta]] ∧ z.output 0 second = [packBeat [ta]] ∧ z.input 0 = [])) ∧
      (1 ≤ ta.k → ta.k ≤ 8 → tb.k = ta.k → ∀ i ∈ [Instr.isect a b y x, .union a b, .cmerge a b f o],
        s.Moves i t fun z => both z ⟨0, 0, ta.k⟩ ⟨0, 0, ta.k⟩ ∧ z.unit.stops = u.stops + 1)) ∧
    (s.heard 0 second → s.lone 0 ta → ta.k = 0 → ∀ (x : Bool) (lo hi : BitVec 32), (x = true → u.scal = [lo, hi]) →
      let keep := if x then lo.toNat ≤ ta.c.toNat ∧ ta.c.toNat < hi.toNat else ft.nonzero ta.v.toNat = true
      (keep → s.Moves (.crop a b f x) t fun z => z.dataOut = [packBeat [ta]] ∧ z.output 0 second = [packBeat [ta]] ∧ z.input 0 = []) ∧
      (¬ keep → s.Moves (.crop a b f x) t fun z => z.dataOut = [] ∧ z.output 0 second = [] ∧ z.input 0 = [])) ∧
    (s.lone 0 ta → s.input 1 = [] →
      (∀ y, ta.k = 0 → y.k = 0 → u.flag = true → u.toks = [y] → u.n = 0 → u.any = false →
        s.Maps (.rept a b) t [0] [y] fun x => x.unit.any = true ∧ x.unit.toks = [y] ∧ x.unit.n = 0) ∧
      (u.flag = true → 1 ≤ ta.k → ta.k < 8 → s.Maps (.rept a b) t [0] [⟨0, 0, ta.k + 1⟩] fun x => x.unit.any = false ∧ x.unit.flag = false ∧ x.unit.toks = []) ∧
      (ta.k = 10 → s.Maps (.rept a b) t [0] [⟨0, 0, 10⟩] fun x => x.unit.toks = u.toks)) ∧
    (s.lone 0 ta → ∀ (o : Fin 4) (n : Bool), let v := if ft = .bf16 then ta.v <<< 16 else ta.v
      (ta.k = 0 → s.Maps (.redc a f o n) t [0] [] fun x => x.unit.tsA = some (match u.tsA with
        | none => v
        | some w => BitVec.ofNat 32 (mergeFn o (if ft = .s32 then .s32 else .f32) rm dn [w.toNat, v.toNat]).1)) ∧
      (∀ w, u.tsA = some w → 1 ≤ ta.k → ta.k ≤ 8 → s.Maps (.redc a f o n) t [0]
        (⟨BitVec.ofNat 32 u.n, w, 0⟩ :: if ta.k = 1 then [] else [⟨0, 0, ta.k - 1⟩]) fun x => x.unit.tsA = none ∧ x.unit.n = if ta.k = 1 then u.n + 1 else 0)) ∧
    (s.lone 0 ta →
      (ta.k = 0 → ta.v = 0xFFFFFFFF#32 → s.Maps (.arrd a f d) t [0] [{ ta with v := 0 }] fun _ => True) ∧
      (let i := (ta.v.toNat + 2 ^ 32 - dfield de 28 4) % 2 ^ 32
        let w := (fmtOf (dfield de 1 1)).width
        ta.k = 0 → ta.v ≠ 0xFFFFFFFF#32 → i < dfield de 4 4 → ∀ x, (∀ y : State, y.mem = s.mem → y.focus = s.focus → y.poison = s.poison → y.hbmStacks = s.hbmStacks →
          y.portDown = s.portDown → (storeBits (8 * dfield de 16 4 + i * w) w).run y = .ok x y) →
        s.Maps (.arrd a f d) t [0] [{ ta with v := BitVec.ofNat 32 x }] fun _ => True)) ∧
    (s.lone 0 ta → ta.k = 9 → 1 ≤ u.prev → u.prev ≤ 8 → ∀ (z : Bool), ∀ i ∈ [Instr.lwc a f d, .lwb a f d, .lwd a f z d],
      s.MovesOut i t fun x => x.input 0 = [] ∧ x.dataOut = [packBeat [⟨0, BitVec.ofNat 32 u.n, 0⟩, ⟨0, 0, 9⟩]] ∧ x.unit.n = 0 ∧ x.unit.f = 0) ∧
    (let c := ta.c.toNat
      let w := (fmtOf (dfield de 1 1)).width
      let base := storeAddr s.focus.tile.die (TileNo s.focus.tile) 0
      s.lone 0 ta → ta.k = 0 → u.any = true → u.flag = true → u.lastSkipA = none → c < dfield de 4 4 → u.q < dfield de 24 4 →
      8 * (dfield de 12 4 + 4 * u.q) + 32 ≤ 8 * 0x300000 → 8 * dfield de 16 4 + u.q * w + w ≤ 8 * 0x300000 →
      s.Maps (.lwc a f d) t [0] [] fun x => x.unit.q = u.q + 1 ∧ x.unit.n = u.n + 1 ∧
        x.unit.wlog = u.wlog ++ logBits (8 * base + 8 * (dfield de 12 4 + 4 * u.q)) 32 c ++ logBits (8 * base + (8 * dfield de 16 4 + u.q * w)) w ta.v.toNat) ∧
    (s.lone 0 ta → ∀ w : Fin 4, (ta.k = 9 → s.MovesOut (.upsink a b f w) t fun x => x.input 0 = [] ∧ x.unit.scal = []) ∧
      ∀ y : State, ta.k = 0 → (peekTok 0 >>= fun _ => sinkData ft w ta).run s = .ok () y → y.input 0 = s.input 0 → y.focus = s.focus →
        s.MovesOut (.upsink a b f w) t fun x => x.input 0 = [] ∧ x.unit.plog = y.unit.plog)

/-- R192 to R198, R250, R251, R290, R292; a chained load or store waits for its turn (R196); what LBUF, AGEN and OPST do with control tokens and rows beyond those rules, and MST's address, are the model's readings (log entry 36). -/
def Obligations.MemoryNodesAndRouters : Prop :=
  ∀ (s : State) (t : TaskId) (a b d : Fin 16) (ta tb : Tok), s.ready t →
    let u := s.unit
    let de := s.focusTile.desc d.val
    let heard := s.heard 0 (s.focus.slot.val + 4)
    let area (off : Nat) := storeAddr s.focus.tile.die (TileNo s.focus.tile) off
    let alone := dfield de 6 2 = 0xFFFF ∧ dfield de 8 2 = 0xFFFF ∧ dfield de 11 1 = 0
    let size := LdBytes ((LdSize.ofNat? (dfield de 10 1)).getD .s32)
    (heard → u.flag = true → ∀ pos, agenAdvance de 0 u.pos = (pos, u.pos.length) → u.pos ≠ [] → (s.task t).cauto = false →
      s.Moves (.agen a d) t fun x => x.unit.flag = false ∧ x.unit.n = u.n + 1 ∧
        x.dataOut = [packBeat [⟨BitVec.ofNat 32 u.n, BitVec.ofNat 32 (agenAddr de u.f u.pos), 0⟩, ⟨0, 0, u.pos.length⟩, ⟨0, 0, 9⟩]]) ∧
    (heard → u.flag = false → de.testBit 16 = false → s.lone 0 ta → ta.k = 10 ∨ ta.k = 11 → s.Maps (.agen a d) t [0] [ta] fun _ => True) ∧
    (∀ q, heard → s.input 0 = [q] → q.kinds.all (· < 14) = true → u.outB = [] → dfield de 16 4 / 64 = 0 → 1 ≤ dfield de 8 4 / 64 →
      s.MovesOut (.fifo a d) t fun x => x.dataOut = [q] ∧ x.input 0 = [] ∧ x.unit.outB = [] ∧
        x.bytesAt (area (dfield de 4 4 + 64 * (u.q % (dfield de 8 4 / 64)))) 64 = lineBytes q.pay ∧
        s.SameMemBut x (area (dfield de 4 4 + 64 * (u.q % (dfield de 8 4 / 64)))) 64) ∧
    (∀ y : Tok, heard → y.k ≤ 8 → u.flag = true → u.toks = [y] → u.q = 0 → u.n = 0 → u.scal = [1#32] → s.input 0 = [] →
      s.Moves (.lbuf a b d) t fun x => x.dataOut = [packBeat [y]] ∧ x.unit.toks = [] ∧ x.unit.flag = false) ∧
    (heard → u.flag = false → u.toks = [] → s.lone 0 ta → ta.k = 10 ∨ ta.k = 11 → s.Maps (.lbuf a b d) t [0] [ta] fun _ => True) ∧
    (heard → u.flag = false → u.toks ≠ [] → s.lone 0 ta → ta.k = 10 → s.Maps (.lbuf a b d) t [0] [] fun x => x.unit.toks = u.toks ++ [ta]) ∧
    (∀ (q : Beat) (tag : BitVec 16) (i : Nat) (x : OSlot), heard → (s.input 1).head? = some q → (∃ e, s.focusTile.word s.focus.slot.val = some e ∧ e.eop = 0x31 ∧ e.mode % 16 = d.val) →
      let v := q.pay.toNat % 2 ^ 32
      let l := u.opSlots de
      (l.findIdx fun y => y.st == .resident && y.tag.toNat == tag.toNat) = i → l[i]? = some x →
      (v = tag.toNat → ∀ j ∈ [Instr.opst a b d, .emit tag], s.Moves j t fun z => z.dataOut = x.beats ∧ z.input 1 = (s.input 1).drop 1 ∧ z.unit.slots = u.slots) ∧
      (v = 2 ^ 30 + tag.toNat → ∀ j ∈ [Instr.opst a b d, .emitfree tag], s.Moves j t fun z => z.dataOut = x.beats ∧ z.input 1 = (s.input 1).drop 1 ∧
        z.unit.slots[i]? = some { x with leaving := true })) ∧
    (∀ (q : Beat) (k : Fin 16) (x : OSlot), (s.input 1).head? = some q → (∃ e, s.focusTile.word s.focus.slot.val = some e ∧ e.eop = 0x31 ∧ e.mode % 16 = d.val) →
      q.pay.toNat % 2 ^ 32 = 2 * 2 ^ 30 + k.val → (u.opSlots de)[k.val]? = some x → x.st ≠ .free → x.by_ = none →
      ∀ j ∈ [Instr.opst a b d, .evict k], s.Moves j t fun z => z.dataOut = [] ∧ z.input 1 = (s.input 1).drop 1 ∧ z.unit.slots[k.val]? = some { freedAt := s.cycle }) ∧
    (∀ q, heard → s.input 1 = [] → (s.input 0).head? = some q → q.kinds.contains kDrain = true → q.kinds.all (· < 14) = true →
      s.Moves (.opst a b d) t fun x => x.dataOut = [ctlBeat kDrain] ∧ x.input 0 = (s.input 0).drop 1 ∧ x.unit.drained = true) ∧
    (heard → alone → s.lone 0 ta → ta.k = 0 →
      let pa := area (dfield de 12 8 + ta.v.toNat * size)
      dfield de 12 8 + ta.v.toNat * size + size ≤ 0x300000 → s.unpaired pa size → (∀ ln ∈ linesOf pa size, s.broken (ln * 64) = false) →
      s.MovesOut (.mld a d) t fun x => x.input 0 = [] ∧ x.unit.q = u.q + 1 ∧ s.SameMem x ∧
        x.dataOut = [packBeat [{ ta with v := (extendLoad ((LdSize.ofNat? (dfield de 10 1)).getD .s32) (s.valueAt pa size)).setWidth 32 }]]) ∧
    (heard → s.lone 0 ta → 1 ≤ ta.k → ta.k ≤ 11 → s.MovesOut (.mld a d) t fun x => x.input 0 = [] ∧ x.dataOut = [packBeat [ta]] ∧ s.SameMem x) ∧
    (alone → s.lone 0 ta → s.lone 1 tb → ta.k = 0 → tb.k = 0 →
      let pa := area (dfield de 12 8 + ta.v.toNat * size)
      dfield de 12 8 + ta.v.toNat * size + size ≤ 0x300000 → (∀ ln ∈ linesOf pa size, s.broken (ln * 64) = false) →
      s.MovesOut (.mst a b d) t fun x => x.input 0 = [] ∧ x.input 1 = [] ∧ x.unit.q = u.q + 1 ∧ s.SameMem x ∧
        x.unit.wlog = u.wlog ++ logBits (8 * area (dfield de 12 8 + ta.v.toNat * size)) (8 * size) tb.v.toNat) ∧
    (∀ (p : Fin 4) (c : Fin 16) (inv : Bool) (x0 x1 x2 : Beat),
      let out (plane : Nat) := s.heard plane (s.focus.slot.val - 9)
      let sent (z : State) (plane v : Nat) := z.output plane (s.focus.slot.val - 9) = [narrowBeat (if plane = 2 then v % 2 else v)]
      let silent (z : State) (plane : Nat) := z.output plane (s.focus.slot.val - 9) = []
      let v (q : Beat) := q.pay.toNat % 2 ^ 32
      let bit (q : Beat) := q.pay.toNat.testBit 0
      let taken (z : State) (n : Nat) := z.input n = (s.input n).drop 1
      let at0 := (s.input 0).head? = some x0
      let at1 := (s.input 1).head? = some x1
      let at2 := (s.input 2).head? = some x2
      (at0 → at1 → bit x1 ≠ inv → out p → s.Moves (.steer p a b inv) t fun z => sent z p (v x0) ∧ taken z 0 ∧ taken z 1) ∧
      (at0 → at1 → bit x1 = inv → s.Moves (.steer p a b inv) t fun z => silent z p ∧ taken z 0 ∧ taken z 1) ∧
      (at2 → out p → (bit x2 = true → at0 → s.Moves (.merge p a b c) t fun z => taken z 2 ∧ sent z p (v x0) ∧ taken z 0 ∧ z.input 1 = s.input 1) ∧
        (bit x2 = false → at1 → s.Moves (.merge p a b c) t fun z => taken z 2 ∧ sent z p (v x1) ∧ taken z 1 ∧ z.input 0 = s.input 0)) ∧
      (out 1 → (at0 → u.tsA = none → s.Moves (.carry a b c) t fun z =>
          sent z 1 (v x0) ∧ z.unit.tsA = some (BitVec.ofNat 32 (v x0)) ∧ taken z 0 ∧ z.input 1 = s.input 1) ∧
        ∀ w, at1 → u.tsA = some w →
          let r := w + (if c = 0 then 1#32 else BitVec.ofNat 32 (v x2))
          (bit x1 = true → (c ≠ 0 → at2) → s.Moves (.carry a b c) t fun z => sent z 1 r.toNat ∧ z.unit.tsA = some r ∧ taken z 1 ∧ z.input 0 = s.input 0) ∧
          (bit x1 = false → s.Moves (.carry a b c) t fun z => silent z 1 ∧ z.unit.tsA = none ∧ taken z 1)) ∧
      (out p → (at0 → u.tsA = none → s.Moves (.invar p a b) t fun z => silent z p ∧ z.unit.tsA = some (BitVec.ofNat 32 (v x0)) ∧ taken z 0) ∧
        ∀ w, at1 → u.tsA = some w →
          (bit x1 = true → s.Moves (.invar p a b) t fun z => sent z p w.toNat ∧ z.unit.tsA = some w ∧ taken z 1) ∧
          (bit x1 = false → s.Moves (.invar p a b) t fun z => silent z p ∧ z.unit.tsA = none ∧ taken z 1)) ∧
      (out 2 → at0 → (at1 → s.Moves (.cand a b) t fun z => sent z 2 (bit x0 && bit x1).toNat ∧ taken z 0 ∧ taken z 1) ∧
        s.Moves (.cnot a) t fun z => sent z 2 (!bit x0).toNat ∧ taken z 0))

/-- R107, R169, R172, R190, R227 to R234, R385, R387, R407, R408, R414, R415; the registrations of the task follow each of them (R235); that the task of a hart is the one its continuation armed is the model's reading (log entry 80), and so is what is emptied when a tile is left, and when (log entry 43). -/
def Obligations.FabricEvents : Prop :=
  ∀ (s : State) (t : TaskId),
    let whole : Prop := ∀ e ∈ s.allEntries, e.slot = none
    let k := s.task t
    let tiles := tilesOf t k.w1 k.h1
    let die := (taskDie t).val
    let ctx := (taskCtx t).val
    (∀ (o : OriginRef) (b : Beat) (rest : List Beat),
      let d := o.tile.die.val
      let n := TileNo o.tile
      let rs := (s.tc d n o.ctx.val).readers o.plane.val o.code.val
      4 ≤ o.code.val → s.ownerOf d n o.ctx.val = some t →
      (if isPort n o.plane.val o.code.val then s.frozen t = false ∧ k.rows = [] else s.taskActs t = true) →
      s.source d n o.ctx.val o.plane.val o.code.val = { s.source d n o.ctx.val o.plane.val o.code.val with q := b :: rest, got := [] } →
      rs.Nodup → (∀ r ∈ rs, ((s.tc d n o.ctx.val).buf r).room = true) →
      ∃ x : State, exec (.beatHop o) s = .next (x.syncTask t) ∧ (whole → s.SameMem x) ∧ (x.source d n o.ctx.val o.plane.val o.code.val).q = rest ∧
        ∀ r ∈ rs, ((x.tc d n o.ctx.val).buf r).q = ((s.tc d n o.ctx.val).buf r).q ++ [b]) ∧
    (∀ (agent uid : Nat) (q : QReg) (who : Party) (c : Ctx), s.allCtx.find? (fun x => x.1.same ⟨agent, uid⟩) = some (who, c) →
      let y := c.q[q.val]
      y.bound = true → 0 < y.pendN → y.pendAt + 16 ≤ s.cycle → (s.standing y.port).q = [] → s.frozen y.port.task = false →
      ∃ x : State, exec (.pendingBeatTimeout (agent, uid) q) s = .next (x.offer y.port y.pend) ∧ { x with harts := s.harts, dies := s.dies } = s ∧
        ∀ z ∈ x.allCtx, z.1.same ⟨agent, uid⟩ = true → z.2.q[q.val] = { y with pend := {}, pendN := 0 }) ∧
    (∀ (y : UnitRef × ElemWord) (c : Nat), s.logUnits t = [y] → s.heldCtl y = some c → c = 10 ∨ c = 11 → s.taskActs t = true → s.commitHeld [y] = false → s.logStopped [y] = none →
      let at_ (z : State) := Tbl.getD (z.tc y.1.tile.die.val (TileNo y.1.tile) y.1.ctx.val).units y.1.slot.val {}
      ∃ x : State, exec (.regionCommit t) s = .next (x.syncTask t) ∧ (at_ x).wlog = [] ∧ (at_ x).plog = [] ∧ (c = 11 → (at_ x).drained = true) ∧
        (c = 11 ∨ (∀ z ∈ s.allCtx, z.1.same k.armer = true → z.2.log = []) →
          (x.getDie (taskDie t)).par.ingress = (s.getDie (taskDie t)).par.ingress ++ s.bySeq t (at_ s).plog) ∧
        (c = 10 → ∀ h, (s.hart h).run ≠ .idle → (Party.mk (hartAgent h) (s.hart h).ctx.cont.uid).same k.armer = true → (x.hart h).ctx.log = []) ∧
        (c = 10 → (x.task t).restart.count = k.count ∧ (x.task t).restart.ports = k.taken) ∧
        ((at_ s).wlog = [] → s.SameMem x) ∧
        ∀ pa v, (at_ s).wlog = [(8 * pa, 8, v)] → s.unpaired pa 1 → whole → s.memOk → s.casts = [] → s.slow = false → s.stopped pa = false →
          Memory.get x.mem pa = BitVec.ofNat 8 v ∧ s.SameMemBut x pa 1) ∧
    (k.state = .running → s.isCurrent t = true → k.rows = [] → s.holdsToken t = false →
      ∃ x : State, exec (.regionPark t) s = .next (x.syncTask t) ∧ x.task t = { k with state := .parked } ∧ { x with tasks := s.tasks } = s) ∧
    (k.state = .parked → s.holdsToken t = true →
      ∃ x : State, exec (.regionUnpark t) s = .next (x.syncTask t) ∧ x.task t = { k with state := .running, moved := s.cycle } ∧ { x with tasks := s.tasks } = s) ∧
    (k.positive = true → k.count = 0 → k.state = .running ∨ k.state = .parked →
      ∃ x : State, exec (.countExhausted t) s = .next (x.syncTask t) ∧ x.task t = { k with state := .draining, positive := false } ∧ { x with tasks := s.tasks } = s) ∧
    (k.positive = true → k.count = 0 → k.state = .checkpointing →
      ∃ x : State, exec (.countExhausted t) s = .next (x.syncTask t) ∧ x.task t = { k with drainPending := true, positive := false } ∧ { x with tasks := s.tasks } = s) ∧
    (∀ o : OriginRef,
      let n := TileNo o.tile
      let key := if isPort n 0 o.code.val then portKey 0 o.code.val else o.code.val - 4
      s.ownerOf o.tile.die.val n o.ctx.val = some t → k.state = .draining → s.taskActs t = true → s.mayDrain t n o.plane.val o.code.val = true →
      o.tile.die = taskDie t → o.ctx = taskCtx t →
      ∃ x : State, exec (.drainEmit o) s = .next (x.syncTask t) ∧ s.SameMem x ∧ (Tbl.getD (x.tc die n ctx).units key {}).drained = true ∧
        (Tbl.getD (x.tc die n ctx).outs (outKey 0 o.code.val) {}).q = (if (s.tc die n ctx).readers 0 o.code.val = [] then [] else [ctlBeat 11])) ∧
    (let pick (f : Nat) : Nat := if f.testBit 2 then f % 4 else ctx
      let c := match k.fsel with
        | some c => c
        | none => if k.psrc ≠ 0 ∧ k.phaseBit = some true then pick (k.next / 8 % 8) else pick (k.next % 8)
      ∀ n ∈ tiles, n ∉ k.gone → s.tileDrained t n = true → k.psrc = 0 ∨ s.tileDrained t (tileAt t k.w1 (k.psrc % 16)) = true →
        ∃ x : State, s.leaveTile t n = x.syncAll (taskDie t) ∧ s.SameMem x ∧ x.curCtx die n = c ∧ (∀ m, m ≠ n → x.curCtx die m = s.curCtx die m) ∧
          x.task t = { k with gone := k.gone ++ [n] } ∧ x.tc die n ctx = (s.tc die n ctx).quiet) ∧
    (k.state = .draining → s.taskActs t = true →
      let z := tiles.foldl (fun z n => z.leaveTile t n) s
      let v := z.task t
      ((∃ n ∈ tiles, n ∉ v.gone) → exec (.phaseEnd t) s = .next (z.afterTask t)) ∧
      ((∀ n ∈ tiles, n ∈ v.gone) → ∃ x : State, exec (.phaseEnd t) s = .next ((x.handOver t).afterTask t) ∧ z.SameMem x ∧ x.launches = z.launches ∧
        x.task t = { v with state := .drained, fsel := none, phaseBit := none, positive := false, gone := [], wants := [], endFlags := v.eflags })) ∧
    (k.state = .checkpointing →
      let z := (s.dueDrain t).updTask t fun k => { k with resume := if k.drainPending then 4 else k.resume, drainPending := false }
      let store (va : Word) := z.devStore (taskDie t) k.asid false .node (taskAgent t) va (z.imageBytes t)
      let saved (x : State) : Prop := (x.task t).state = .checkpointed ∧ (x.task t).drainPending = false ∧
        (x.task t).resume = (if k.drainPending = true ∨ (k.positive = true ∧ k.count = 0) then 4 else k.resume) ∧
        ∃ n, (x.task t).saved = some n ∧ Tbl.find? x.images n = some (z.imageNow t)
      let lost (x : State) : Prop := (x.task t).state = .killed ∧ (x.task t).cause = Cause.access.code
      ∃ x : State, exec (.checkpointComplete t) s = .next ((x.handOver t).afterTask t) ∧
        match k.image with
        | none => match (z.getDie (taskDie t)).extFind ((z.imageSize t + 63) / 64) with
          | some _ => saved x ∧ (whole → s.SameMem x)
          | none => lost x
        | some va => match (store va).2 with
          | none => saved x ∧ (whole → (store va).1.SameMem x)
          | some _ => lost x) ∧
    (∀ x : State, let v := x.task t
      v.state ≠ .running → v.state ≠ .draining → v.state ≠ .parked → v.launch = 0 ∨ (x.launch v.launch).conts ≠ 0 →
      (x.afterTask t).tiles = x.tiles ∧ { (x.afterTask t).task t with eprio := v.eprio } = v ∧ ((∀ e ∈ x.allEntries, e.slot = none) → x.SameMem (x.afterTask t))) ∧
    (k.state = .running ∨ k.state = .draining → s.taskActs t = true → k.moved + 2 ^ 22 ≤ s.cycle → s.holdsToken t = true → s.waitsOutside t = false →
      ∃ x : State, exec (.regionStall t) s = .next (x.afterTask t) ∧ (x.task t).state = .killed ∧ (x.task t).cause = Cause.streamproto.code) ∧
    (∀ (u : UnitRef) (va : Word),
      let at_ (z : State) := Tbl.getD (z.tc u.tile.die.val (TileNo u.tile) u.ctx.val).units u.slot.val {}
      (at_ s).stalled = some (va, 0) → s.ownerOf u.tile.die.val (TileNo u.tile) u.ctx.val = some t →
      ∃ x : State, exec (.translationWalkComplete u) s = .next x ∧
        (at_ x).stalled = match (({ s with focus := u }).translateMt u.tile.die (TileNo u.tile) k.asid va.toNat).2 with
          | .ok _ => none
          | .error _ => some (va, 1)) ∧
    (k.owed = 1 ∧ k.state = .drained ∨ k.owed = 3 ∧ k.state = .killed ∨ k.owed = 2 ∧ k.state = .checkpointed ∧ (∃ n y, k.saved = some n ∧ Tbl.find? s.images n = some y) →
      (∀ n ∈ tiles, s.ownerOf die n (s.curCtx die n) = none ∨ s.ownerOf die n (s.curCtx die n) = some t) →
      k.launch = 0 ∨ (s.launch k.launch).live = true →
      ∃ x : State, exec (.taskRearm t) s = .next ((((x.setCurrent t ctx).wakePorts t).syncTask t).reprio) ∧ (x.task t).owed = 0 ∧
        (k.owed = 1 → (x.task t).state = .running ∧ (x.task t).count = k.count ∧ s.SameMem x) ∧
        (k.owed = 3 → (x.task t).state = .running ∧ (x.task t).count = k.restart.count ∧ s.SameMem x) ∧
        (k.owed = 2 → (k.resume ≠ 8 → (x.task t).count = k.count) ∧ (x.task t).state = if k.resume = 4 then .draining else .running))

/-- R206, R210, R211, R330, R362, R367, R370, R373 to R377, R381, R382, R385 to R387, R406, R407, R437; the slots that entries, records and save areas take and their bytes (log entry 44), that inheritance and sweeps are not gated on time (log entries 55 and 56), and the ring of the round-robin (log entry 58) are the model's readings. -/
def Obligations.SchedulingEvents : Prop :=
  ∀ s : State,
    let wft (z : State) (d : Fin 6) := (z.getDie d).wft
    let whole : Prop := ∀ e ∈ s.allEntries, e.slot = none
    (∀ d, ((wft s d).filter (·.slot.isSome)).length ≤ (s.getDie d).chipFree → (s.getDie d).unmade = [] → ∃ y : State,
      { y with mem := s.mem } = (s.updDie d fun x => { x with wft := x.wft.map fun e => { e with slot := none } }) ∧
      (∀ e ∈ wft s d, ∀ n, e.slot = some n → y.bytesAt ((s.getDie d).slotAddr n) 64 = List.replicate 64 0) ∧
      (∀ a, (∀ e ∈ wft s d, ∀ n, e.slot = some n → a < (s.getDie d).slotAddr n ∨ (s.getDie d).slotAddr n + 64 ≤ a) → Memory.get y.mem a = Memory.get s.mem a) ∧
      let search (e : WEntry) := y.findCycle e.party (y.allEntries.length + 1) e []
      ((∀ e ∈ wft y d, e.typ = .wait → search e = none) → exec (.belvedereSweep d) s = .next y.reprio.roomFreed) ∧
      ∀ e path i, (wft y d).filter (·.typ == .wait) = [e] → e ∈ y.waiters e.key → search e = some path → newestHart path = some i →
        exec (.belvedereSweep d) s = .next (y.reportCycle path i 1).reprio.roomFreed) ∧
    (∃ t, exec .inheritanceUpdate s = .next t ∧ { t with harts := s.harts, tasks := s.tasks } = s ∧
      (∀ h, t.hart h = if (s.hart h).run = .idle then s.hart h else
        { s.hart h with eprio := BitVec.ofNat 4 (prioOf s.effPrio ⟨hartAgent h, (s.hart h).ctx.cont.uid⟩) }) ∧
      ∀ k z, Tbl.find? s.tasks k = some z → t.task k = { z with eprio := BitVec.ofNat 4 (prioOf s.effPrio ⟨taskAgent k, 0⟩) }) ∧
    (∀ q r, s.nextQueue = some (q, r) →
      let d := rootDie (s.queueWord q)
      let n := s.nextLaunch
      let l := r.launch q
      let y := ({ s with queues := Tbl.upd s.queues q {} fun x => { x with recs := x.recs.drop 1 } }).wakeAll (.queue q) none
      let flaw := y.recordFlaw d r.rec_
      let added (x : State) (l : Launch) := x.launch n = l ∧ x.nextLaunch = n + 1 ∧ (∀ m, m ≠ n → x.launch m = y.launch m)
      let root : Rec := { uid := s.nextCont, launch := n, code := word (fieldOf r.rec_ 8 8), frame := word (fieldOf r.rec_ 16 8), join := 0,
                          prio := l.prio, seed := l.seq ^^^ word (l.asid * 2 ^ 48), node := false, time := s.cycle, saved := none }
      (s.launches.filter fun x => x.2.live).length < 1024 →
      (flaw ≠ 0 → ∃ x : State, exec .launchDequeue s = .next (x.completeLaunch n 1 flaw 0) ∧ added x l ∧ x.harts = y.harts ∧ x.mem = y.mem) ∧
      (flaw = 0 → (fieldOf r.rec_ 1 1).testBit 0 = true →
        ∃ x, exec .launchDequeue s = .next x ∧ added x { l with walk := some { table := word (fieldOf r.rec_ 8 8) } } ∧ x.dies = y.dies ∧ x.mem = y.mem) ∧
      (flaw = 0 → (fieldOf r.rec_ 1 1).testBit 0 = false →
        ∃ x, exec .launchDequeue s = .next x ∧ added x { l with conts := 1 } ∧ x.nextCont = s.nextCont + 1 ∧ x.harts = y.harts ∧
          (x.getDie d).pool = (y.getDie d).pool ++ [root] ∧ (x.getDie d).memq = (y.getDie d).memq ∧ x.mem = y.mem)) ∧
    (∀ h d r, (s.hart h).run = .idle →
      s.newcomer h = some (d, r) ∨ (s.newcomer h = none ∧ ∃ t, s.pick h = some ((d, r), t) ∧ s.taker d r = some h) →
      ∃ x : State, exec (.hartDispatch h) s = .next (x.reprio.wakeSpawners d) ∧ s.SameMem x ∧ (∀ g, g ≠ h → x.hart g = s.hart g) ∧
        (x.getDie d).pool = (s.getDie d).pool.filter (·.uid != r.uid) ∧
        let y := x.hart h
        y.run = .running ∧ y.pl = r.pl ∧ y.hm = r.hm ∧ y.mact = r.mact ∧
          (r.launch ≠ 0 → y.asid.toNat = (s.launch r.launch).asid % 1024) ∧ (r.launch = 0 → y.asid = (s.hart h).asid) ∧
          y.ctx = match r.saved with
            | some c => { c with cont := { c.cont with time := r.time } }
            | none => { pc := r.code, s := ((Vector.replicate 64 0).set 1 r.frame).set 2 r.join, bprio := r.prio, stochseed := r.seed,
                        cont := ⟨r.uid, r.launch, r.join, r.node, r.joinPa, r.time⟩ }) ∧
    (∀ h w n, (s.hart h).run = .waiting w → (s.asleep h).isSome = true → (s.hart h).ctx.stores = [] → (∀ c ∈ s.casts, c.agent ≠ hartAgent h) → whole →
      (s.getDie (hartDie h)).extFind (saveSlots (s.hart h).ctx) = some n →
      let me : Party := ⟨hartAgent h, (s.hart h).ctx.cont.uid⟩
      let area := (s.getDie (hartDie h)).slotAddr n
      let bytes := (s.hart h).saveBytes
      let leaves (x : State) := x.bytesAt area bytes.length = bytes ∧ s.SameMemBut x area bytes.length ∧ x.hart h = (s.hart h).free ∧
        (x.getDie (hartDie h)).sleepers = (s.getDie (hartDie h)).sleepers ++
          [{ ctx := (s.hart h).ctx, wait := w, agent := hartAgent h, asid := (s.hart h).asid.toNat, area := n, pl := (s.hart h).pl }] ∧
        ∀ d, ∀ e ∈ wft x d, e.key.home = d → e.typ = .wait → e.party.same me = true → e.swout = true
      ((s.hart h).drainFor.isSome = true → ∃ x, exec (.switchOut h) s = .next x ∧ leaves x) ∧
      ∀ d r t, (s.hart h).drainFor = none → s.pick h = some ((d, r), t) → s.taker d r = none → s.sleeperFor r = some h →
        ∃ x : State, exec (.switchOut h) s = .next (x.dispatch h d r) ∧ leaves x) ∧
    (∀ d r rest, (s.getDie d).memq = r :: rest → 256 < (s.getDie d).poolFree ∨ (s.getDie d).pool = [] →
      ∃ x : State, exec (.memoryQueuePromote d) s = .next (x.wakeSpawners d) ∧ (x.getDie d).memq = rest ∧ (x.getDie d).pool = (s.getDie d).pool ++ [{ r with slot := none }] ∧
        { x with dies := s.dies, mem := s.mem } = s ∧ (r.slot = none → x.mem = s.mem) ∧
        ∀ n, r.slot = some n → x.bytesAt ((s.getDie d).slotAddr n) 64 = List.replicate 64 0 ∧ s.SameMemBut x ((s.getDie d).slotAddr n) 64) ∧
    (∀ d i r h, (s.getDie d).pool[i]? = some r → s.taker d r = none → s.sleeperFor r = none → (∀ g, s.mayRun g r = true → (s.hart g).drainFor ≠ some r.uid) →
      leastOf (fun g => ((s.hart g).eprio.toNat, (s.hart g).dispatchedAt, hartAgent g))
        (allHarts.filter fun g => s.mayRun g r && ((s.hart g).run == .running && !(s.hart g).hm && (s.hart g).ctx.cont.launch != 0 && (s.hart g).drainFor.isNone
          && decide ((s.hart g).eprio.toNat < s.recPrio r))) = some h →
      let c := (s.hart h).ctx
      let die := s.getDie (hartDie h)
      let go := exec (.preemptionEvaluation (.record d i)) s
      (s.hart h).eprio.toNat < s.recPrio r →
      (c.estim < die.pdrain.toNat → go = .next (s.updHart h fun y =>
        { y with drainFor := some r.uid, ctx := { y.ctx with pend := y.ctx.pend ++ [⟨.preempt, 0, 0, word (s.recPrio r), [], none⟩] } })) ∧
      (die.pdrain.toNat ≤ c.estim → 512 + 2 * c.log.length < c.estim →
        (∀ n, die.extFind (saveSlots c) = some n → 256 < die.poolFree ∨ d = hartDie h → go = .next ((s.shelve h (some n)).dispatch h d r)) ∧
        (die.extFind (saveSlots c) = none ∨ (die.poolFree ≤ 256 ∧ d ≠ hartDie h) → go = .next s)) ∧
      (die.pdrain.toNat ≤ c.estim → c.estim ≤ 512 + 2 * c.log.length → go = .next (((s.killOn h).settleLaunch c.cont.launch).dispatch h d r))) ∧
    (∀ t u, (s.task t).state = .running → s.isCurrent t = false → (∀ v ∈ s.inTheWay t, (s.task v).handTo ≠ some t) →
      leastOf (fun v => ((s.task v).eprio.toNat, (s.task v).armedAt, taskAgent v))
        ((s.inTheWay t).filter fun v => decide ((s.task v).eprio.toNat < (s.task t).eprio.toNat) && (s.task v).handTo.isNone) = some u →
      (s.task u).eprio.toNat < (s.task t).eprio.toNat → u ≠ t →
      let v := s.task u
      let slots := (s.imageSize u + 63) / 64
      let die := s.getDie (taskDie u)
      let go := exec (.preemptionEvaluation (.task t)) s
      let room := (die.extFind slots).isSome = true
      (v.state = .checkpointing → ∃ x : State, go = .next x ∧ x.task u = { v with handTo := some t } ∧ { x with tasks := s.tasks } = s) ∧
      (v.state = .running ∨ (v.state = .parked ∧ ¬ room) → v.estim < die.pdrain.toNat →
        ∃ x : State, go = .next (x.syncTask u) ∧ x.task u = { v with owed := 1, handTo := some t, state := .draining } ∧ { x with tasks := s.tasks } = s) ∧
      (v.state = .running ∨ v.state = .parked → room →
        (v.state = .parked ∧ v.estim < die.pdrain.toNat) ∨ (die.pdrain.toNat ≤ v.estim ∧ v.ckpt = true ∧ 2048 + slots < v.estim) →
        ∃ x : State, go = .next (x.syncTask u) ∧ (x.task u).owed = 2 ∧ (x.task u).handTo = some t ∧ (x.task u).state = .checkpointing ∧ (x.task u).image = none) ∧
      (v.state = .running ∨ v.state = .parked → die.pdrain.toNat ≤ v.estim → ¬ (v.ckpt = true ∧ 2048 + slots < v.estim) → v.restartable = true →
        ∃ x : State, go = .next ((x.handOver u).afterTask u) ∧ (x.task u).owed = 3 ∧ (x.task u).handTo = some t ∧ (x.task u).state = .killed)) ∧
    (s.period < s.cycle / 25000 →
      ∃ x : State, exec .periodStart s = .next (allDies.foldl (fun s d => s.wakeAll (.parterre d.val) none) x) ∧ x.period = s.period + 1 ∧
        { x with period := s.period, launches := s.launches } = s ∧
        ∀ n l, Tbl.find? s.launches n = some l → x.launch n = { l with period := (List.range 5).map fun k =>
          (if l.budget.getD k 0 = 0 then 0 else min (l.budget.getD k 0 * budgetUnit k) (l.period.getD k 0 - l.budget.getD k 0 * budgetUnit k)) })

/-- R378 to R380; the reads of the walk are loads of the launch's ASID as remote agent 0, and that a LOOP entered through a next field counts on, and the seed of a RUN, are the model's readings (log entry 60). -/
def Obligations.GraphWalk : Prop :=
  ∀ (s : State) (l : Nat) (w : Walk) (b : List Byte) (y : State), (s.launch l).live = true → (s.launch l).walk = some w →
    (w.ran = true → w.out = false → (∃ x, exec (.graphRun l) s = .next x ∧ { x with launches := s.launches } = s ∧
      (x.launch l).walk = some { w with node := w.after, viaNext := true, ran := false, out := false })) ∧
    (w.ran = false → s.readNode l w = (y, .ok b) → (y.launch l).walk = some w →
      let typ := fieldOf b 0 1
      let va := word (fieldOf b 8 8)
      let root := rootDie (y.queueWord (y.launch l).queue)
      let at_ (n : Nat) (next : Bool) : Walk := { w with node := n, viaNext := next, ran := false, out := false }
      let goes (i : Instr) (z : State) (v : Walk) := ∃ x, exec i s = .next x ∧ (x.launch l).walk = some v ∧ { x with launches := z.launches } = z
      (nodeBad b = true → ∀ i ∈ [Instr.graphEnd l, .graphRun l, .graphIf l, .graphLoop l, .graphSwitch l], exec i s = .next (y.faultLaunch l .illegal 0)) ∧
      (nodeBad b = false →
        (typ = 0 → ∃ x : State, exec (.graphEnd l) s = .next (x.settleLaunch l) ∧ (x.launch l).walk = none ∧ { x with launches := y.launches } = y) ∧
        (typ = 1 → va.toNat % 4 ≠ 0 → exec (.graphRun l) s = .next (y.faultLaunch l .misalign 0)) ∧
        (typ = 1 → va.toNat % 4 = 0 → (y.getDie root).spawnRoom = true →
          let r : Rec := { uid := y.nextCont, launch := l, code := va, frame := word (fieldOf b 16 8), join := 0, prio := (y.launch l).prio,
                           seed := (y.launch l).seq ^^^ word ((y.launch l).asid * 2 ^ 48), node := true, time := y.cycle, saved := none }
          ∃ x, exec (.graphRun l) s = .next x ∧ (x.launch l).walk = some { w with ran := true, out := true, after := fieldOf b 2 2 } ∧
            (x.launch l).conts = (y.launch l).conts + 1 ∧ x.nextCont = y.nextCont + 1 ∧ x.harts = y.harts ∧
            (if 256 < (y.getDie root).poolFree then (x.getDie root).pool = (y.getDie root).pool ++ [r] ∧ x.mem = y.mem
             else (x.getDie root).memq = (y.getDie root).memq ++ [{ r with slot := (y.getDie root).extFind 1 }] ∧
               ∀ k, (y.getDie root).extFind 1 = some k → x.bytesAt ((y.getDie root).slotAddr k) 64 = x.recBytes r ∧ y.SameMemBut x ((y.getDie root).slotAddr k) 64)) ∧
        (va.toNat % 8 ≠ 0 → (typ = 2 → exec (.graphIf l) s = .next (y.faultLaunch l .misalign 0)) ∧
          (typ = 4 → exec (.graphSwitch l) s = .next (y.faultLaunch l .misalign 0))) ∧
        (∀ z bytes, va.toNat % 8 = 0 → y.devLoad root (y.launch l).asid false .remote 0 va 8 = (z, .ok bytes) → (z.launch l).walk = some w →
          let v := leValue bytes
          let others := w.counters.filter (·.1 != w.node)
          (typ = 2 → goes (.graphIf l) z (if v = 0 then at_ (fieldOf b 4 2) false else at_ (fieldOf b 2 2) true)) ∧
          (typ = 4 → goes (.graphSwitch l) z (if v < fieldOf b 1 1 then at_ (fieldOf b (16 + 2 * v) 2) false else at_ (fieldOf b 2 2) true)) ∧
          (typ = 3 → w.viaNext = false ∨ w.counters.find? (·.1 == w.node) = none →
            (v = 0 → goes (.graphLoop l) z { at_ (fieldOf b 2 2) true with counters := others }) ∧
            (0 < v → others.length < 8 → goes (.graphLoop l) z { at_ (fieldOf b 4 2) false with counters := others ++ [(w.node, v - 1)] }) ∧
            (0 < v → 8 ≤ others.length → exec (.graphLoop l) s = .next (z.faultLaunch l .illegal 0)))) ∧
        (∀ c, typ = 3 → w.viaNext = true → w.counters.find? (·.1 == w.node) = some (w.node, c) →
          let others := w.counters.filter (·.1 != w.node)
          (c = 0 → goes (.graphLoop l) y { at_ (fieldOf b 2 2) true with counters := others }) ∧
          (0 < c → others.length < 8 → goes (.graphLoop l) y { at_ (fieldOf b 4 2) false with counters := others ++ [(w.node, c - 1)] }))))

/-- R424 to R429. When data is sent, and that a data flit finds its slot freed later by a free choice, are turns and choices of the model (log entries 4 and 61); the parts of a flit's payload
that carry a report, that a quiesced end with nothing held goes on at once, and that a store whose only address lies beyond a down link is lost, are the model's (entry 61). -/
def Obligations.LinkEvents : Prop :=
  ∀ (s : State) (p : Nat) (f : FlitBits),
    let l := s.link p
    let g := flitOf f
    let becomes (i : Instr) (y : Link) := ∃ x, exec i s = .next x ∧ x.link p = y ∧ (∀ q, q ≠ p → x.link q = s.link q) ∧ { x with links := s.links } = s
    let mine (k : BitVec 8) (ack seq : BitVec 16) (d : List Byte) : Flit := { seq := seq, ack := ack, free := l.freed, kind := k, payload := d }
    let nak : Link := { l with wire := l.wire ++ [mine 3 l.rxSeq 0 []] }
    let covered (x : Flit) : Prop := (g.ack - x.seq).toNat < 2 ^ 15
    let free' := if (g.free - l.freeSeen).toNat < 2 ^ 31 then g.free else l.freeSeen
    let unacked := l.replay.filter fun x => !decide (covered x)
    let held := l.replay.filter fun x => decide ((x.seq - g.ack).toNat < 2 ^ 15)
    let settle (y : Link) : Link := if y.replay = [] then { y with quiesced := false, freeSeen := y.report.getD y.freeSeen, report := none } else y
    let heeded (y : Link) : Link := settle { y with naks := 0, replay := unacked, freeSeen := free' }
    (∀ x : Flit, x.payload.length = 240 → flitOk x.bits = true ∧ flitOf x.bits = x ∧
      let b := leBytes 256 x.bits.toNat
      b = leBytes 2 x.seq.toNat ++ leBytes 2 x.ack.toNat ++ leBytes 4 x.free.toNat ++ [x.kind, 0, 0, 0] ++ x.payload ++ leBytes 4 (crc32 (b.take 252))) ∧
    (31 ≤ p → ∀ i ∈ [Instr.dataFlit p f, .acknowledgeFlit p f, .auditFlit p f, .negativeAcknowledge p f, .resyncFlit p f, .auditTimer p, .linkRetrain p],
      exec i s = .next s) ∧
    (p < 31 → l.down = false → l.retraining = none →
      (∀ d, let a := mine 0 (l.rxSeq - 1) l.txSeq d
        (l.quiesced = true ∨ 512 ≤ l.replay.length ∨ l.credit ≤ 0 → s.turn (.transmit p (some d)) = .next (s.updLink p fun _ => l)) ∧
        (l.quiesced = false → l.replay.length < 512 → 0 < l.credit → s.turn (.transmit p (some d)) = .next (s.updLink p fun _ =>
          { l with txSeq := l.txSeq + 1, sent := l.sent + 1, replay := l.replay ++ [a], wire := l.wire ++ [a] }))) ∧
      s.turn (.transmit p none) = .next (s.updLink p fun _ => { l with wire := l.wire ++ [mine 1 (l.rxSeq - 1) 0 []] }) ∧
      (g.kind = 0 → l.occupancy < 256 → flitOk f = true → g.seq = l.rxSeq →
        ∃ x k, exec (.dataFlit p f) s = .next x ∧ { x with links := s.links, free := s.free } = s ∧ (∀ q, q ≠ p → x.link q = s.link q) ∧ k ≤ l.occupancy + 1 ∧
          x.link p = { heeded { l with rxSeq := l.rxSeq + 1 } with
            received := l.received + 1, occupancy := l.occupancy + 1 - k, freed := l.freed + BitVec.ofNat 32 k }) ∧
      (g.kind = 0 → flitOk f = false ∨ g.seq ≠ l.rxSeq ∨ 256 ≤ l.occupancy →
        ∃ x, exec (.dataFlit p f) s = .next x ∧ x.link p = nak ∧ (∀ q, q ≠ p → x.link q = s.link q) ∧ { x with links := s.links, free := s.free } = s) ∧
      (g.kind = 1 → flitOk f = true → becomes (.acknowledgeFlit p f) (heeded l)) ∧
      (g.kind = 1 → flitOk f = false → becomes (.acknowledgeFlit p f) nak) ∧
      (g.kind = 2 → flitOk f = true → g.seq = l.rxSeq →
        let h := heeded { l with rxSeq := l.rxSeq + 1 }
        becomes (.auditFlit p f) (if BitVec.ofNat 32 (fieldOf g.payload 0 4) = l.received ∧ l.received - l.freed = BitVec.ofNat 32 l.occupancy then h
          else { h with quiesced := h.replay != [], wire := h.wire ++ [mine 1 l.rxSeq 0 (leBytes 4 l.occupancy ++ leBytes 4 l.freed.toNat)] })) ∧
      (g.kind = 2 → flitOk f = false ∨ g.seq ≠ l.rxSeq → becomes (.auditFlit p f) nak) ∧
      (g.kind = 3 → flitOk f = true → l.naks < 7 →
        becomes (.negativeAcknowledge p f) (settle { l with naks := l.naks + 1, freeSeen := free', replay := held, wire := l.wire ++ held })) ∧
      (g.kind = 3 → flitOk f = true → 7 ≤ l.naks →
        becomes (.negativeAcknowledge p f) { l with naks := l.naks + 1, freeSeen := free', retraining := some s.cycle }) ∧
      (g.kind = 3 → flitOk f = false → becomes (.negativeAcknowledge p f) nak) ∧
      (g.kind = 4 → flitOk f = true → becomes (.resyncFlit p f) (settle { l with freeSeen := free', replay := held, wire := l.wire ++ held })) ∧
      (g.kind = 4 → flitOk f = false → becomes (.resyncFlit p f) nak) ∧
      (l.replay.length < 512 → l.audited + 250000 ≤ s.cycle →
        let a := mine 2 (l.rxSeq - 1) l.txSeq (leBytes 4 l.sent.toNat)
        becomes (.auditTimer p) { l with txSeq := l.txSeq + 1, replay := l.replay ++ [a], wire := l.wire ++ [a], audited := s.cycle }) ∧
      (∀ occ freed, occ ≤ 256 → becomes (.occupancyReport p occ freed) (settle { l with quiesced := true, report := some (BitVec.ofNat 32 freed) })) ∧
      becomes (.linkRetrain p) { l with retraining := some s.cycle }) ∧
    (∀ t, l.down = false → l.retraining = some t →
      (s.cycle ≤ t + 5000000 → becomes (.linkRetrainComplete p) { l with retraining := none, naks := 0, wire := l.wire ++ [mine 4 l.rxSeq 0 []] }) ∧
      (t + 5000000 < s.cycle → ∃ x : State,
        x.link p = { l with down := true, retraining := none, replay := [], wire := [], report := none, near := false, far := false } ∧
        { x with links := s.links } = s ∧
        let y := x.loseWrites (fun d q => x.carries p d q) fun va q => ⟨.link, 0, va, word (pkgOf q), [], none⟩
        let z := (y.copiesThrough p).foldl (fun s c => s.failCopy c 4) y
        exec (.linkDown p) s = .next (if p < 24 then z else (z.launches.filter fun y => y.2.live).foldl (fun s y => s.endLaunch y.1 2 Cause.link.code 0) z))) ∧
    ∀ (h : HartId) (w : Flight) (q : Nat) lost trap, (s.hart h).ctx.stores = [w] → w.pas = [q] → s.casts = [] → (∀ k, k ≠ h → (s.hart k).ctx.stores = []) →
      lost (hartDie h) q = true →
      s.loseWrites lost trap = s.updHart h fun x => { x with ctx := { x.ctx with stores := [], pend := x.ctx.pend ++ [trap w.va q] } }

/-- R42, R303 to R305, R309, R310, R321, R322, R431 to R436. That a store on its way to a stack that stops is lost is the reading of log entry 64, the order in which a hart's own stores land is entry 11, and the sensors' readings are operands (entry 77). -/
def Obligations.PowerBootAndMemoryEvents : Prop :=
  ∀ s : State,
    let m := s.morhan
    (m.stage = 0 → exec .boot s = .next { s with morhan := { m with stage := 1 } }) ∧
    (∀ images : List BootImage, m.stage ≠ 0 → m.stage < 7 → m.fail = 0 → images.length = stageImages m.stage →
      let signed (b : BootImage) : Bool := b.key.length == 1952 && b.signature.length == 3309 && Config.shake256 32 b.key == Config.vendorKeyDigest &&
        Config.mlDsaVerify b.key b.version b.body b.signature
      let old (b : BootImage) : Bool := decide (b.version.toNat < Config.securityVersion.toNat)
      let next : State := { s with morhan := { m with stage := m.stage + 1, firmware := m.firmware ++ images.map (·.body) } }
      let stops (c : Nat) : State := { s with morhan := { m with fail := c } }
      stageImages m.stage = (if m.stage = 1 then 1 else if m.stage = 2 then 2 else 0) ∧
      (m.stage ≤ 5 → exec (.bootStage (.checked images)) s = .next (if images.any (fun b => !signed b) then stops 1 else if images.any old then stops 2 else next)) ∧
      (m.stage = 6 → ∃ x : State, exec (.bootStage (.checked images)) s = .next (x.fetchSlots s.host.unread.length) ∧ { x with mem := s.mem } = { next with mem := s.mem } ∧
        ((∀ e ∈ s.allEntries, e.slot = none) → let pa := Config.package * 2 ^ 46 + certificateAddress.toNat
          x.bytesAt pa Config.certificate.length = Config.certificate ∧ s.SameMemBut x pa Config.certificate.length)) ∧
      ∀ c, (c = 3 ∧ m.stage = 4 ∨ c = 4 ∧ m.stage = 5 ∨ c = 5) → exec (.bootStage (.failed c)) s = .next (stops c)) ∧
    (∀ (k : Fin 12) (g : Nat), ∃ x, exec (.refresh k g) s = .next x ∧ { x with hbmStacks := s.hbmStacks } = s ∧
      (∀ j : Fin 12, j ≠ k → x.hbmStacks[j.val] = s.hbmStacks[j.val]) ∧ { x.hbmStacks[k.val] with groups := s.hbmStacks[k.val].groups } = s.hbmStacks[k.val] ∧
      Tbl.find? x.hbmStacks[k.val].groups g = match Tbl.find? s.hbmStacks[k.val].groups g with
        | some t => some (if s.cycle < t + s.hbmStacks[k.val].tr / 2 then t else s.cycle)
        | none => some s.cycle) ∧
    (∀ (k : Fin 12) (j : Fin 16) (deg : Nat), ∃ x : State, exec (.temperatureThreshold k j deg) s = .next
        (if x.hbmStacks[k.val].stopped = true ∧ s.hbmStacks[k.val].stopped = false then
          x.loseWrites (fun _ q => x.stopped q) fun va q => ⟨.ecc, 0, va, word (eccCode q), [], none⟩ else x) ∧ { x with hbmStacks := s.hbmStacks } = s ∧
      (∀ i : Fin 12, i ≠ k → x.hbmStacks[i.val] = s.hbmStacks[i.val]) ∧
      let old := s.hbmStacks[k.val]
      let new := x.hbmStacks[k.val]
      let hot := new.hottest
      new.layers = old.layers.set j.val deg ∧ new.groups = old.groups ∧
        new.tr = (if 85 ≤ hot then 40000000 else if hot < 82 then 80000000 else old.tr) ∧
        new.throttled = (if 95 ≤ hot then true else if hot < 92 then false else old.throttled) ∧
        new.stopped = (old.stopped || decide (105 ≤ hot))) ∧
    (∀ j : Nat, 110 ≤ j ∨ (∃ k : Fin 12, 105 ≤ s.hbmStacks[k.val].hottest) → m.shutdown = false →
      ∃ x : State, exec (.catastrophicTemperature j) s = .next (x.postStatus 0 0 6 0) ∧ x.morhan.shutdown = true ∧ (∀ h, (x.hart h).run = .halted none) ∧
        (∀ n l, Tbl.find? x.launches n = some l → l.live = false) ∧ ∀ t, (x.task t).killable = false) ∧
    (∀ w : Nat, ∃ x, exec (.powerWindow w) s = .next { s with morhan := x } ∧ x.average = w ∧ x.cap = m.cap ∧ x.stage = m.stage ∧
      let idle (n : Morhan) := (n.idleMatrix, n.idleVector, n.idleHart)
      let (a, b, c) := idle m
      (m.cap < w → idle x = if a < 16 then (a + 1, b, c) else if b < 16 then (a, b + 1, c) else if c < 16 then (a, b, c + 1) else (a, b, c)) ∧
      (w * 100 < m.cap * 95 → idle x = if 0 < c then (a, b, c - 1) else if 0 < b then (a, b - 1, c) else (a - 1, b, c)) ∧
      (w ≤ m.cap → m.cap * 95 ≤ w * 100 → idle x = (a, b, c))) ∧
    ((∀ e ∈ s.allEntries, e.slot = none) → ∀ h,
      let fl := (s.hart h).ctx.stores
      (∀ n f pa rest, fl[n]? = some f → f.pas = pa :: rest → (∀ q ∈ f.pas, s.reaches (hartDie h) q = true) → s.unpaired pa f.bytes.length → s.stopped pa = false →
        (∀ g ∈ fl, g.fence = none) → (∀ g ∈ fl.take n, ∀ p ∈ g.pas, ∀ q ∈ f.pas, p + g.bytes.length ≤ q ∨ q + f.bytes.length ≤ p) →
        (∀ b ∈ s.casts, b.agent = hartAgent h → ∀ p ∈ b.pas, ∀ q ∈ f.pas, p + b.bytes.length ≤ q ∨ q + f.bytes.length ≤ p) →
        ∃ x, exec (.writePerformed h n) s = .next x ∧ x.bytesAt pa f.bytes.length = f.bytes ∧ s.SameMemBut x pa f.bytes.length ∧
          (x.hart h).ctx.stores = fl.eraseIdx n ∧
          x.casts = s.casts ++ (if rest = [] then [] else
            [{ pas := rest, bytes := f.bytes, agent := hartAgent h, asid := (s.hart h).asid.toNat, va := f.va }])) ∧
      ∀ n k c q rest, (s.castsOf h)[n]? = some k → s.casts[k]? = some c → c.pas = q :: rest → c.mask = [] → s.unpaired q c.bytes.length → s.stopped q = false →
        (∀ b ∈ s.casts.take k, ∀ p ∈ b.pas, p + b.bytes.length ≤ q ∨ q + c.bytes.length ≤ p) →
        ∃ x, exec (.writePerformed h (fl.length + n)) s = .next x ∧ x.bytesAt q c.bytes.length = c.bytes ∧ s.SameMemBut x q c.bytes.length ∧
          x.casts = if rest = [] then s.casts.eraseIdx k else s.casts.set k { c with pas := rest }) ∧
    (∀ (c : Fin 192) (ln : Nat), ∃ x, exec (.l1LineEviction c ln) s = .next x ∧ { x with l1 := s.l1 } = s ∧
      x.l1Of c.val = (s.l1Of c.val).filter (·.1 != ln) ∧ ∀ d : Nat, d ≠ c.val → x.l1Of d = s.l1Of d) ∧
    ∀ p : Fin 16, ∃ x, exec (.secondTierPortFailure p) s = .next x ∧ p.val ∈ x.portDown ∧ (∀ q ∈ s.portDown, q ∈ x.portDown) ∧ { x with portDown := s.portDown } = s

/-- R373, R411, R416, R418, R420 to R423, R428, R433, R435, R436; the digests, the signature and the certificate's place are Morhan's own (log entry 6), what RESET keeps and how a link's two ends come up is entry 63, and which commands a stopped package refuses is entry 62. -/
def Obligations.HostCommands : Prop :=
  ∀ s : State,
    let m := s.host
    let whole : Prop := ∀ e ∈ s.allEntries, e.slot = none
    (s.barRead 0x4000 = 0 ∧ s.barRead 0x4008 = word m.acc ∧ s.barRead 0x4010 = word m.done ∧ s.barRead 0x4018 = word m.stat ∧ s.barRead 0x4020 = m.sqbase ∧
      s.barRead 0x4028 = word m.sqsize ∧ s.barRead 0x4030 = word m.sqhead ∧ s.barRead 0x4038 = word (s.morhan.stage + s.morhan.fail * 16) ∧
      ∀ o, o < 0x4000 ∨ 0x4038 < o → s.barRead o = 0) ∧
    (∀ seq op r data, let x := s.completeCmd seq op r data
      let e : StatRec := { cseq := seq, op := op, result := r, data := data }
      let posted (n : Nat) := leBytes 8 n ++ leBytes 8 seq ++ [BitVec.ofNat 8 op, BitVec.ofNat 8 r] ++ leBytes 6 0 ++ leBytes 8 data.toNat
      { x with host := m } = s ∧ x.host.cmds = m.cmds.filter (·.seq != seq) ∧
        (m.complete = [] → x.host.done = if seq = m.done + 1 then seq else m.done) ∧
        (m.heldRecs = [] → m.full = false → x.host.stat = m.stat + 1 ∧ x.host.kept.getLast? = some { e with sseq := m.stat + 1 } ∧
          Tbl.find? x.host.queue (m.sqbase.toNat + 32 * ((m.stat + 1) % m.sqsize)) = some (posted (m.stat + 1))) ∧
        (m.heldRecs ≠ [] ∨ m.full = true → x.host.stat = m.stat ∧ x.host.heldRecs = m.heldRecs ++ [e])) ∧
    (∀ (bell : BitVec 64) (i : Fin 256) (v : BitVec 512), s.morhan.stage = 7 → m.unread = [] → m.heldRecs.length < 4096 →
      let x : State := { s with host := { m with slots := Tbl.set m.slots i.val v, doorbell := bell.toNat } }
      let seq := fieldOf (slotBytes v) 0 8
      let op := fieldOf (slotBytes v) 8 1
      let go := exec (.doorbell bell [(i, v)]) s
      (bell.toNat < seq ∨ seq % 256 ≠ i.val → go = .next { x with host := { x.host with unread := [i.val] } }) ∧
      (seq ≤ bell.toNat → seq % 256 = i.val →
        (seq ≤ m.acc → go = .next (x.postStatus seq op 3 0)) ∧ (m.acc + 1 < seq → go = .next (x.postStatus seq op 4 0)) ∧
        (seq = m.acc + 1 →
          let y : State := { x with host := { x.host with acc := seq } }
          (op = 0 ∨ 14 < op ∨ zeroSpan (slotBytes v) 9 7 = false → go = .next (y.completeCmd seq op 5 0)) ∧
          (op ≠ 0 → op ≤ 14 → zeroSpan (slotBytes v) 9 7 = true →
            go = .next { y with host := { y.host with cmds := m.cmds ++ [⟨seq, op, v.extractLsb' 128 384⟩] } })))) ∧
    (∀ v : BitVec 64, m.unread = [] →
      let h : Mailbox := { m with sqhead := v.toNat }
      (m.heldRecs = [] ∨ h.full = true → exec (.sqhead v) s = .next { s with host := h }) ∧
      (∀ r, m.heldRecs = [r] → h.full = false → ∃ x, exec (.sqhead v) s = .next { s with host := x } ∧ x.heldRecs = [] ∧ x.stat = m.stat + 1 ∧ x.sqhead = v.toNat ∧
        Tbl.find? x.queue (m.sqbase.toNat + 32 * ((m.stat + 1) % m.sqsize)) = some (StatRec.bytes { r with sseq := m.stat + 1 })) ∧
      (∀ b, m.stat ≠ m.sqhead → exec (.hostRegisterWrite b v) s = .next s) ∧
      (m.stat = m.sqhead → exec (.hostRegisterWrite false v) s = .next { s with host := { m with sqbase := word (v.toNat / 4096 * 4096) } } ∧
        (m.heldRecs = [] → sizeOk (v.toNat % 65536) = true → exec (.hostRegisterWrite true v) s = .next { s with host := { m with sqsize := v.toNat % 65536 } }))) ∧
    (∀ seq, ∀ y ∈ [(1, Instr.launchCommand seq), (2, .cancel seq), (3, .wrmem seq), (4, .rdmem seq), (5, .qcfg seq), (6, .asidtab seq), (7, .trace seq),
        (8, .errcnt seq), (9, .hartrst seq), (10, .linkup seq), (11, .attest seq), (12, .pcap seq), (13, .reset seq 0), (14, .sqreplay seq)],
      s.cmd seq y.1 = none → exec y.2 s = .next s) ∧
    ∀ seq op c, s.cmd seq op = some c →
      let a := c.arg 16 8
      let b := c.arg 24 8
      let done (i : Instr) (x : State) (data : Word) := exec i s = .next (x.completeCmd seq op 0 data)
      let refused (i : Instr) := exec i s = .next (s.completeCmd seq op 2 0)
      let queue := (Tbl.getD s.queues (b % 64) {}).recs
      (op = 1 → (s.hostAddr a 128 = none → refused (.launchCommand seq)) ∧
        ∀ pa, s.hostAddr a 128 = some pa → (pa % 128 ≠ 0 → refused (.launchCommand seq)) ∧
          (pa % 128 = 0 → 256 ≤ queue.length → exec (.launchCommand seq) s = .next s) ∧
          (pa % 128 = 0 → queue.length < 256 → s.unpaired pa 128 → ∃ x, done (.launchCommand seq) x 0 ∧ s.SameMem x ∧
            (Tbl.getD x.queues (b % 64) {}).recs = queue ++ [⟨s.bytesAt pa 128, true, 15⟩])) ∧
      (op = 2 → let hit := List.find? (fun ((_, l) : Nat × Launch) => l.live && l.seq.toNat == a && l.asid == c.arg 24 2) s.launches
        (hit = none → refused (.cancel seq)) ∧ ∀ n l, hit = some (n, l) → done (.cancel seq) (s.endLaunch n 3 0 0) 0) ∧
      (op = 3 → (s.hostAddr a 32 = none → refused (.wrmem seq)) ∧ ∀ pa, s.hostAddr a 32 = some pa → (pa % 8 ≠ 0 → refused (.wrmem seq)) ∧
        (pa % 8 = 0 → whole → s.unpaired pa 32 → ∃ x, done (.wrmem seq) x 0 ∧ x.bytesAt pa 32 = leBytes 32 (c.arg 24 32) ∧ s.SameMemBut x pa 32)) ∧
      (op = 4 → (s.hostAddr a 8 = none → refused (.rdmem seq)) ∧ ∀ pa, s.hostAddr a 8 = some pa → (pa % 8 ≠ 0 ∨ s.broken pa = true → refused (.rdmem seq)) ∧
        (pa % 8 = 0 → s.broken pa = false → s.unpaired pa 8 → ∃ x, done (.rdmem seq) x (word (s.valueAt pa 8)) ∧ s.SameMem x)) ∧
      (op = 5 → let w := word b &&& 0xFFFFFFFF3F#64
        (64 ≤ a ∨ wfld w 8 32 = 0 ∨ wfld w 0 6 = 0 → refused (.qcfg seq)) ∧
        (a < 64 → wfld w 8 32 ≠ 0 → wfld w 0 6 ≠ 0 → ∃ x, done (.qcfg seq) x 0 ∧ { x with queues := s.queues } = s ∧
          Tbl.getD x.queues a {} = { Tbl.getD s.queues a {} with word := w } ∧ ∀ q, q ≠ a → Tbl.getD x.queues q {} = Tbl.getD s.queues q {})) ∧
      (op = 6 → (s.hostPlace a 16384 = none → refused (.asidtab seq)) ∧ ∀ pa, s.hostPlace a 16384 = some pa → (pa % 16384 ≠ 0 → refused (.asidtab seq)) ∧
        (pa % 16384 = 0 → ∃ x, done (.asidtab seq) x 0 ∧ x.asidTab = pa ∧ x.mtTlb = [] ∧ (∀ d, (x.getDie d).tlb = []) ∧
          { x with asidTab := s.asidTab, mtTlb := s.mtTlb, dies := s.dies } = s)) ∧
      (op = 7 → let n := c.arg 16 1 * 32 + c.arg 17 1
        let l := (Tbl.getD s.traces n {}).bytes
        (s.hostAddr b 65536 = none ∨ 6 ≤ c.arg 16 1 ∨ 32 ≤ c.arg 17 1 → refused (.trace seq)) ∧
        ∀ pa, s.hostAddr b 65536 = some pa → c.arg 16 1 < 6 → c.arg 17 1 < 32 → whole → s.unpaired pa l.length →
          ∃ x, done (.trace seq) x 0 ∧ x.bytesAt pa l.length = l ∧ s.SameMemBut x pa l.length ∧ (Tbl.getD x.traces n {}).frozen = false) ∧
      (op = 8 → (6 ≤ c.arg 16 1 → refused (.errcnt seq)) ∧ ∀ d : Fin 6, c.arg 16 1 = d.val →
        let n (k : Nat) := min 255 (Tbl.getD (s.getDie d).errs (k + 1) 0) * 256 ^ k
        done (.errcnt seq) (s.updDie d fun x => { x with errs := [] }) (word (n 0 + n 1 + n 2 + n 3 + n 4 + n 5 + n 6 + n 7))) ∧
      (op = 9 → (hartOf a = none ∨ b % 4 ≠ 0 ∨ s.morhan.shutdown = true → refused (.hartrst seq)) ∧ ∀ h, hartOf a = some h → b % 4 = 0 → s.morhan.shutdown = false →
        ∃ x, done (.hartrst seq) x 0 ∧ x.hart h = { run := .running, pl := true, ctx := { pc := word b, cont := { uid := x.nextCont - 1 } } } ∧
          ((s.hart h).run = .idle → { x with harts := s.harts, nextCont := s.nextCont } = s ∧ x.nextCont = s.nextCont + 1 ∧ ∀ g, g ≠ h → x.hart g = s.hart g)) ∧
      (op = 10 → (24 ≤ a → refused (.linkup seq)) ∧ (a < 24 →
        let with_ (y : Link) (x : State) : Prop := x.link a = y ∧ (∀ p, p ≠ a → x.link p = s.link p) ∧ { x with links := s.links } = s
        ((s.link a).far = true → ∃ x, done (.linkup seq) x 0 ∧ with_ { audited := s.cycle } x) ∧
        ((s.link a).far = false → (s.link a).near = true → exec (.linkup seq) s = .next s) ∧
        ((s.link a).far = false → (s.link a).near = false → ∃ x, exec (.linkup seq) s = .next x ∧ with_ { audited := s.cycle, down := (s.link a).down, near := true } x) ∧
        ∃ x, s.turn (.farLinkup a) = .next x ∧ with_ { s.link a with far := true } x)) ∧
      (op = 11 → (s.hostAddr a 32 = none ∨ s.hostAddr b 5517 = none → refused (.attest seq)) ∧
        ∀ pa pb, s.hostAddr a 32 = some pa → s.hostAddr b 5517 = some pb → whole → s.unpaired pa 32 → s.unpaired pb 5517 →
          let l := attestHead s.morhan.firmware (s.bytesAt pa 32)
          ∃ x, done (.attest seq) x certificateAddress ∧ x.bytesAt pb 5517 = l ++ (List.range 3309).map (Config.signatureByte l) ∧ s.SameMemBut x pb 5517) ∧
      (op = 12 → let w := c.arg 16 4
        (w < 1200 ∨ 4800 < w ∨ w % 50 ≠ 0 → refused (.pcap seq)) ∧
        (1200 ≤ w → w ≤ 4800 → w % 50 = 0 → done (.pcap seq) { s with morhan := { s.morhan with cap := w } } (word s.morhan.average))) ∧
      (op = 13 → ∀ j, (95 ≤ j ∨ (∃ k : Fin 12, 92 ≤ s.hbmStacks[k.val].hottest) → refused (.reset seq j)) ∧
        (j < 95 → (∀ k : Fin 12, s.hbmStacks[k.val].hottest < 92) → ∃ x, done (.reset seq j) x 0 ∧ x.host = m ∧ x.harts = [] ∧ x.tasks = [] ∧ x.launches = [] ∧
          x.dies = State.reset.dies ∧ x.tiles = [] ∧ (∀ p, (x.link p).down = decide (p < 24)) ∧ x.asidTab = 0 ∧ x.queues = [] ∧ x.morhan.shutdown = false ∧
          ∀ pa d, spaceOf pa = .hbm d → Memory.get x.mem pa = Memory.get s.mem pa)) ∧
      (op = 14 → ∃ x, done (.sqreplay seq) x (word (m.kept.headD {}).sseq) ∧ { x with host := m } = s ∧
        x.host = (m.kept.filter fun r => decide (a ≤ r.sseq)).foldl (fun h r => h.post r) m)

/-- R41 step 5, R411, R412, R413 and R414; how much the second level holds is R414's 16,384 entries,
and that the permission bits of a non-leaf entry are ignored log entry 12 (DEDUCED). -/
def Obligations.PageTableWalk : Prop :=
  ∀ (s : State) (asid va : Nat),
    let at_ := s.asidTab + asid % 1024 * 16
    let root := s.valueAt at_ 8
    let next (e : Nat) : Nat := e / 256 % 2 ^ 50 * 256
    let entry (t l : Nat) : Nat := s.valueAt (t + 8 * (if l = 4 then va / 2 ^ 16 % 32 else va / 2 ^ (48 - 9 * l) % 512)) 8
    let placed (t l : Nat) : Prop := t % (if l = 4 then 256 else 4096) = 0 ∧ isHbm t = true
    let sound (e l : Nat) : Prop := e / 2 ^ 58 = 0 ∧ e.testBit 7 = false ∧ (e.testBit 6 = true → l = 2 ∨ l = 3)
    let leads (t l u : Nat) : Prop := placed t l ∧ (entry t l).testBit 0 = true ∧ sound (entry t l) l ∧ (entry t l).testBit 6 = false ∧ u = next (entry t l)
    let leaf (e k : Nat) : Prop :=
      let dies := next e / 256 % 64
      let base := if e.testBit 5 = true then next e - dies * 256 else next e
      let set := (List.range 6).filter fun d => dies.testBit d
      let one := isHbm base = true ∧ 2 ≤ set.length ∧ set.head? = some (homeDie base).val
      (base % 2 ^ k ≠ 0 → s.walk asid va = .error (.access, 1)) ∧
      (base % 2 ^ k = 0 → e.testBit 5 = true → ¬ one → s.walk asid va = .error (.access, 2)) ∧
      (base % 2 ^ k = 0 → (e.testBit 5 = true → one) → ∃ x : TlbEntry, s.walk asid va = .ok x ∧
        x = ⟨asid, va % 2 ^ 57 / 2 ^ k * 2 ^ k, 2 ^ k, base, e.testBit 1, e.testBit 2, e.testBit 3, e.testBit 4, if e.testBit 5 = true then some dies else none⟩ ∧
        ∀ d : Fin 6, (x.addrFor d va : Int) =
          base + va % 2 ^ k + if e.testBit 5 = true ∧ dies.testBit d.val = true then ((d.val : Int) - (homeDie base).val) * 2 ^ 38 else 0)
    let stands (t l : Nat) : Prop :=
      let e := entry t l
      (¬ placed t l → s.walk asid va = .error (.access, 1)) ∧
      (placed t l → e.testBit 0 = false → s.walk asid va = .error (.pagefault, 0)) ∧
      (placed t l → e.testBit 0 = true → ¬ sound e l → s.walk asid va = .error (.access, 1)) ∧
      (placed t l → e.testBit 0 = true → sound e l → e.testBit 6 = true → leaf e (if l = 2 then 30 else 21)) ∧
      (placed t l → e.testBit 0 = true → sound e l → l = 4 → leaf e 16)
    (root.testBit 0 = false → s.walk asid va = .error (.pagefault, 0)) ∧
    (root.testBit 0 = true → s.valueAt (at_ + 8) 8 ≠ 0 → s.walk asid va = .error (.access, 1)) ∧
    (root.testBit 0 = true → s.valueAt (at_ + 8) 8 = 0 →
      stands (root - 1) 0 ∧
      ∀ t1, leads (root - 1) 0 t1 → stands t1 1 ∧ ∀ t2, leads t1 1 t2 → stands t2 2 ∧ ∀ t3, leads t2 2 t3 → stands t3 3 ∧ ∀ t4, leads t3 3 t4 → stands t4 4) ∧
    ∀ d : Fin 6,
      (∀ x, (s.getDie d).tlb.find? (·.covers asid va) = some x → s.translate d asid va = (s, .ok x)) ∧
      ((s.getDie d).tlb.find? (·.covers asid va) = none →
        (∀ f, s.walk asid va = .error f → s.translate d asid va = (s, .error f)) ∧
        ∀ x, s.walk asid va = .ok x → (s.translate d asid va).2 = .ok x ∧ ((s.translate d asid va).1.getDie d).tlb.getLast? = some x) ∧
      ∀ (sys : Bool) (use : Use) (v : Word) (n : Nat) (x : TlbEntry),
        ((sys = false ∧ x.prog = false) ∨ (use = .load ∧ x.r = false) ∨ (use = .store ∧ x.w = false) ∨ (use = .fetch ∧ x.x = false)) →
        s.judge d sys use v n x = .error (.access, 0, 0)

/-- R64, R65, R71, R261 and R268. The zero of two zeros of unlike sign is log entry 84 (DESIGN CHOICE), the flags of a clamp log entry 85 (DEDUCED). -/
def Obligations.NumberFunctions : Prop :=
  let le (x y : ExNum) : Prop := ExNum.cmp x y = some .lt ∨ ExNum.cmp x y = some .eq
  let mag (x : ExNum) : ExNum := match x with
    | .fin _ m e => .fin false m e
    | y => y
  let gap (x y : ExNum) : ExNum := mag (ExNum.add .rne x y.neg).num
  let finite (x : ExNum) : Prop := x.isNan = false ∧ x.isInf = false
  let int (n : Bool) (m : Nat) : Int := if n then -(m : Int) else m
  (∀ (rm : RMode) (a b : Bool) (m n : Nat) (i j : Int),
    let x := ExNum.fin a m i
    let y := ExNum.fin b n j
    (∃ c k l, ExNum.add rm x y = ⟨.fin c k l, false, 0⟩ ∧
      (∀ z : Int, z ≤ i → z ≤ j → z ≤ l → int c k * (2 : Int) ^ (l - z).toNat = int a m * (2 : Int) ^ (i - z).toNat + int b n * (2 : Int) ^ (j - z).toNat) ∧
      (k = 0 → c = if m = 0 ∧ n = 0 ∧ a = b then a else decide (rm = .rd))) ∧
    ExNum.mul x y = ⟨.fin (a != b) (m * n) (i + j), false, 0⟩ ∧
    (m ≠ 0 → n ≠ 0 → ∃ k q : Nat, ExNum.div x y = ⟨.fin (a != b) q (i - j - (k : Int)), decide (q * n ≠ m * 2 ^ k), 0⟩ ∧ q * n ≤ m * 2 ^ k ∧ m * 2 ^ k < (q + 1) * n ∧ 2 ^ 63 ≤ q) ∧
    (m ≠ 0 → ∃ (k q : Nat) (h : Int), ExNum.sqrt (.fin false m i) = ⟨.fin false q h, decide (q * q ≠ m * 2 ^ k), 0⟩ ∧ q * q ≤ m * 2 ^ k ∧ m * 2 ^ k < (q + 1) * (q + 1) ∧
      2 * h + k = i ∧ 2 ^ 39 ≤ q)) ∧
  (∀ (rm : RMode) (x y : ExNum),
    let minus := x.isNeg = true ∧ x.isZero = false
    ((ExNum.add rm x y).fl = if x.isInf = true ∧ y.isInf = true ∧ x.isNeg ≠ y.isNeg then Fl.nv else 0) ∧
    ((ExNum.mul x y).fl = if (x.isInf = true ∧ y.isZero = true) ∨ (x.isZero = true ∧ y.isInf = true) then Fl.nv else 0) ∧
    ((ExNum.div x y).fl = if (x.isZero = true ∧ y.isZero = true) ∨ (x.isInf = true ∧ y.isInf = true) then Fl.nv
      else if finite x ∧ x.isZero = false ∧ y.isZero = true then Fl.fdz else 0) ∧
    ((ExNum.sqrt x).fl = if minus then Fl.nv else 0) ∧ ((ExNum.log2 x).fl.toNat.testBit 0 = true ↔ minus) ∧ ((ExNum.rsqrt x).fl.toNat.testBit 0 = true ↔ minus)) ∧
  (∀ (f : Fmt) (sp : FpSpec) (rm : RMode) (d : Bool), (f = .f32 ∨ f = .bf16 ∨ f = .f16) → f.fp? = some sp →
    let top := sp.decode sp.maxCode
    (∀ c, c < 2 ^ f.width → (f.value c).isNan = false → roundIeee f rm true ⟨f.value c, false, 0⟩ = (c, 0)) ∧
    (∀ t fl, roundIeee f rm d ⟨.nan, t, fl⟩ = (sp.nanCode, fl)) ∧
    ∀ (a : Bool) (m : Nat) (e : Int),
      let v := ExNum.fin a m e
      let r := roundIeee f rm true ⟨v, false, 0⟩
      let u := f.value r.1
      let codes (P : Nat → Prop) : Prop := ∀ c, c < 2 ^ f.width → finite (f.value c) → P c
      let below : Prop := le u v ∧ codes fun c => le (f.value c) v → le (f.value c) u
      let above : Prop := le v u ∧ codes fun c => le v (f.value c) → le u (f.value c)
      (le (mag v) top → r.1 < 2 ^ f.width ∧ finite u ∧
        (rm = .rd → below) ∧ (rm = .ru → above) ∧ (rm = .rz → if a then above else below) ∧
        (rm = .rne → codes fun c => ExNum.cmp (gap v u) (gap v (f.value c)) ≠ some .gt ∧
          (ExNum.cmp (gap v u) (gap v (f.value c)) = some .eq → ExNum.cmp (f.value c) u ≠ some .eq → r.1 % 2 = 0)) ∧
        (r.2.toNat.testBit 4 = true ↔ ExNum.cmp u v ≠ some .eq)) ∧
      (ExNum.cmp (mag v) top = some .gt →
        let big := sp.signBit a + sp.maxCode
        let inf := sp.signBit a + (2 ^ sp.eb - 1) * 2 ^ sp.mb
        (rm = .rz → r.1 = big) ∧ (rm = .ru → r.1 = if a then big else inf) ∧ (rm = .rd → r.1 = if a then inf else big)) ∧
      roundIeee f rm false ⟨v, false, 0⟩ = if r.1 % 2 ^ (f.width - 1) < 2 ^ sp.mb ∧ r.1 % 2 ^ (f.width - 1) ≠ 0 then (sp.signBit a, Fl.uf ||| Fl.nx) else r) ∧
  (∀ (f : Fmt) (sp : FpSpec) (seed : Word) (a : Bool) (m : Nat) (e : Int), (f = .e4m3 ∨ f = .e5m2 ∨ f = .e2m1) → f.fp? = some sp → m ≠ 0 →
    let v := ExNum.fin a m e
    let y := (roundFp sp .rz false .saturate ⟨v, false, 0⟩).1
    let q := sp.ulp (e + bitLen m - 1)
    let r := roundStoch sp seed a m e
    le (mag v) (sp.decode sp.maxCode) →
    (ExNum.cmp (sp.decode y) v = some .eq → r = (y, 0, seed)) ∧
    (ExNum.cmp (sp.decode y) v ≠ some .eq → r.2.2 = nextSeed seed ∧ ∃ b, le (.fin false b (q - 16)) (gap v (sp.decode y)) ∧
      ExNum.cmp (gap v (sp.decode y)) (.fin false (b + 1) (q - 16)) = some .lt ∧ r.1 = if 2 ^ 16 ≤ b + (nextSeed seed).toNat % 2 ^ 16 then y + 1 else y)) ∧
  ∀ (lo hi : Int) (rm : RMode) (a : Bool) (m : Nat) (e : Int), lo ≤ hi →
    let v := ExNum.fin a m e
    let r := toInteger lo hi rm ⟨v, false, 0⟩
    lo ≤ r.1 ∧ r.1 ≤ hi ∧ (r.2.toNat.testBit 4 = true ↔ ExNum.cmp (.ofInt r.1) v ≠ some .eq) ∧ (r.2.toNat.testBit 5 = true → r.1 = lo ∨ r.1 = hi) ∧
    (rm = .rne → ∀ i, lo ≤ i → i ≤ hi → ExNum.cmp (gap v (.ofInt r.1)) (gap v (.ofInt i)) ≠ some .gt) ∧
    (rm = .rd → le (.ofInt lo) v → le (.ofInt r.1) v ∧ ∀ i, lo ≤ i → i ≤ hi → le (.ofInt i) v → i ≤ r.1) ∧
    (rm = .ru → le v (.ofInt hi) → le v (.ofInt r.1) ∧ ∀ i, lo ≤ i → i ≤ hi → le v (.ofInt i) → r.1 ≤ i)
end

