-- ==== Sys2Proof/Laws/State.lean ====
section
/-!
SUPPORT. One lemma for each update of the state and each field it leaves alone.
-/
namespace Sys2Proof.Machine

/-! `State.put` changes `mem` and no other field. -/

@[simp] theorem State.put_turns (s : State) (pa : Nat) (l : List Byte) : (s.put pa l).turns = s.turns := rfl
@[simp] theorem State.put_cur (s : State) (pa : Nat) (l : List Byte) : (s.put pa l).cur = s.cur := rfl
@[simp] theorem State.put_focus (s : State) (pa : Nat) (l : List Byte) : (s.put pa l).focus = s.focus := rfl
@[simp] theorem State.put_free (s : State) (pa : Nat) (l : List Byte) : (s.put pa l).free = s.free := rfl
@[simp] theorem State.put_cycle (s : State) (pa : Nat) (l : List Byte) : (s.put pa l).cycle = s.cycle := rfl
@[simp] theorem State.put_poison (s : State) (pa : Nat) (l : List Byte) : (s.put pa l).poison = s.poison := rfl
@[simp] theorem State.put_l1 (s : State) (pa : Nat) (l : List Byte) : (s.put pa l).l1 = s.l1 := rfl
@[simp] theorem State.put_il1 (s : State) (pa : Nat) (l : List Byte) : (s.put pa l).il1 = s.il1 := rfl
@[simp] theorem State.put_casts (s : State) (pa : Nat) (l : List Byte) : (s.put pa l).casts = s.casts := rfl
@[simp] theorem State.put_slow (s : State) (pa : Nat) (l : List Byte) : (s.put pa l).slow = s.slow := rfl
@[simp] theorem State.put_later (s : State) (pa : Nat) (l : List Byte) : (s.put pa l).later = s.later := rfl
@[simp] theorem State.put_olds (s : State) (pa : Nat) (l : List Byte) : (s.put pa l).olds = s.olds := rfl
@[simp] theorem State.put_harts (s : State) (pa : Nat) (l : List Byte) : (s.put pa l).harts = s.harts := rfl
@[simp] theorem State.put_dies (s : State) (pa : Nat) (l : List Byte) : (s.put pa l).dies = s.dies := rfl
@[simp] theorem State.put_traces (s : State) (pa : Nat) (l : List Byte) : (s.put pa l).traces = s.traces := rfl
@[simp] theorem State.put_seqs (s : State) (pa : Nat) (l : List Byte) : (s.put pa l).seqs = s.seqs := rfl
@[simp] theorem State.put_regions (s : State) (pa : Nat) (l : List Byte) : (s.put pa l).regions = s.regions := rfl
@[simp] theorem State.put_tiles (s : State) (pa : Nat) (l : List Byte) : (s.put pa l).tiles = s.tiles := rfl
@[simp] theorem State.put_current (s : State) (pa : Nat) (l : List Byte) : (s.put pa l).current = s.current := rfl
@[simp] theorem State.put_mtTlb (s : State) (pa : Nat) (l : List Byte) : (s.put pa l).mtTlb = s.mtTlb := rfl
@[simp] theorem State.put_tasks (s : State) (pa : Nat) (l : List Byte) : (s.put pa l).tasks = s.tasks := rfl
@[simp] theorem State.put_images (s : State) (pa : Nat) (l : List Byte) : (s.put pa l).images = s.images := rfl
@[simp] theorem State.put_queues (s : State) (pa : Nat) (l : List Byte) : (s.put pa l).queues = s.queues := rfl
@[simp] theorem State.put_launches (s : State) (pa : Nat) (l : List Byte) : (s.put pa l).launches = s.launches := rfl
@[simp] theorem State.put_nextLaunch (s : State) (pa : Nat) (l : List Byte) : (s.put pa l).nextLaunch = s.nextLaunch := rfl
@[simp] theorem State.put_rr (s : State) (pa : Nat) (l : List Byte) : (s.put pa l).rr = s.rr := rfl
@[simp] theorem State.put_nextCont (s : State) (pa : Nat) (l : List Byte) : (s.put pa l).nextCont = s.nextCont := rfl
@[simp] theorem State.put_period (s : State) (pa : Nat) (l : List Byte) : (s.put pa l).period = s.period := rfl
@[simp] theorem State.put_asidTab (s : State) (pa : Nat) (l : List Byte) : (s.put pa l).asidTab = s.asidTab := rfl
@[simp] theorem State.put_rounds (s : State) (pa : Nat) (l : List Byte) : (s.put pa l).rounds = s.rounds := rfl
@[simp] theorem State.put_membs (s : State) (pa : Nat) (l : List Byte) : (s.put pa l).membs = s.membs := rfl
@[simp] theorem State.put_collections (s : State) (pa : Nat) (l : List Byte) : (s.put pa l).collections = s.collections := rfl
@[simp] theorem State.put_early (s : State) (pa : Nat) (l : List Byte) : (s.put pa l).early = s.early := rfl
@[simp] theorem State.put_published (s : State) (pa : Nat) (l : List Byte) : (s.put pa l).published = s.published := rfl
@[simp] theorem State.put_epoch (s : State) (pa : Nat) (l : List Byte) : (s.put pa l).epoch = s.epoch := rfl
@[simp] theorem State.put_sent (s : State) (pa : Nat) (l : List Byte) : (s.put pa l).sent = s.sent := rfl
@[simp] theorem State.put_links (s : State) (pa : Nat) (l : List Byte) : (s.put pa l).links = s.links := rfl
@[simp] theorem State.put_reach (s : State) (pa : Nat) (l : List Byte) : (s.put pa l).reach = s.reach := rfl
@[simp] theorem State.put_portDown (s : State) (pa : Nat) (l : List Byte) : (s.put pa l).portDown = s.portDown := rfl
@[simp] theorem State.put_host (s : State) (pa : Nat) (l : List Byte) : (s.put pa l).host = s.host := rfl
@[simp] theorem State.put_morhan (s : State) (pa : Nat) (l : List Byte) : (s.put pa l).morhan = s.morhan := rfl
@[simp] theorem State.put_hbmStacks (s : State) (pa : Nat) (l : List Byte) : (s.put pa l).hbmStacks = s.hbmStacks := rfl

/-! `State.setHart` changes `harts` and no other field. -/

@[simp] theorem State.setHart_turns (s : State) (h : HartId) (x : Hart) : (s.setHart h x).turns = s.turns := rfl
@[simp] theorem State.setHart_cur (s : State) (h : HartId) (x : Hart) : (s.setHart h x).cur = s.cur := rfl
@[simp] theorem State.setHart_focus (s : State) (h : HartId) (x : Hart) : (s.setHart h x).focus = s.focus := rfl
@[simp] theorem State.setHart_free (s : State) (h : HartId) (x : Hart) : (s.setHart h x).free = s.free := rfl
@[simp] theorem State.setHart_cycle (s : State) (h : HartId) (x : Hart) : (s.setHart h x).cycle = s.cycle := rfl
@[simp] theorem State.setHart_mem (s : State) (h : HartId) (x : Hart) : (s.setHart h x).mem = s.mem := rfl
@[simp] theorem State.setHart_poison (s : State) (h : HartId) (x : Hart) : (s.setHart h x).poison = s.poison := rfl
@[simp] theorem State.setHart_l1 (s : State) (h : HartId) (x : Hart) : (s.setHart h x).l1 = s.l1 := rfl
@[simp] theorem State.setHart_il1 (s : State) (h : HartId) (x : Hart) : (s.setHart h x).il1 = s.il1 := rfl
@[simp] theorem State.setHart_casts (s : State) (h : HartId) (x : Hart) : (s.setHart h x).casts = s.casts := rfl
@[simp] theorem State.setHart_slow (s : State) (h : HartId) (x : Hart) : (s.setHart h x).slow = s.slow := rfl
@[simp] theorem State.setHart_later (s : State) (h : HartId) (x : Hart) : (s.setHart h x).later = s.later := rfl
@[simp] theorem State.setHart_olds (s : State) (h : HartId) (x : Hart) : (s.setHart h x).olds = s.olds := rfl
@[simp] theorem State.setHart_dies (s : State) (h : HartId) (x : Hart) : (s.setHart h x).dies = s.dies := rfl
@[simp] theorem State.setHart_traces (s : State) (h : HartId) (x : Hart) : (s.setHart h x).traces = s.traces := rfl
@[simp] theorem State.setHart_seqs (s : State) (h : HartId) (x : Hart) : (s.setHart h x).seqs = s.seqs := rfl
@[simp] theorem State.setHart_regions (s : State) (h : HartId) (x : Hart) : (s.setHart h x).regions = s.regions := rfl
@[simp] theorem State.setHart_tiles (s : State) (h : HartId) (x : Hart) : (s.setHart h x).tiles = s.tiles := rfl
@[simp] theorem State.setHart_current (s : State) (h : HartId) (x : Hart) : (s.setHart h x).current = s.current := rfl
@[simp] theorem State.setHart_mtTlb (s : State) (h : HartId) (x : Hart) : (s.setHart h x).mtTlb = s.mtTlb := rfl
@[simp] theorem State.setHart_tasks (s : State) (h : HartId) (x : Hart) : (s.setHart h x).tasks = s.tasks := rfl
@[simp] theorem State.setHart_images (s : State) (h : HartId) (x : Hart) : (s.setHart h x).images = s.images := rfl
@[simp] theorem State.setHart_queues (s : State) (h : HartId) (x : Hart) : (s.setHart h x).queues = s.queues := rfl
@[simp] theorem State.setHart_launches (s : State) (h : HartId) (x : Hart) : (s.setHart h x).launches = s.launches := rfl
@[simp] theorem State.setHart_nextLaunch (s : State) (h : HartId) (x : Hart) : (s.setHart h x).nextLaunch = s.nextLaunch := rfl
@[simp] theorem State.setHart_rr (s : State) (h : HartId) (x : Hart) : (s.setHart h x).rr = s.rr := rfl
@[simp] theorem State.setHart_nextCont (s : State) (h : HartId) (x : Hart) : (s.setHart h x).nextCont = s.nextCont := rfl
@[simp] theorem State.setHart_period (s : State) (h : HartId) (x : Hart) : (s.setHart h x).period = s.period := rfl
@[simp] theorem State.setHart_asidTab (s : State) (h : HartId) (x : Hart) : (s.setHart h x).asidTab = s.asidTab := rfl
@[simp] theorem State.setHart_rounds (s : State) (h : HartId) (x : Hart) : (s.setHart h x).rounds = s.rounds := rfl
@[simp] theorem State.setHart_membs (s : State) (h : HartId) (x : Hart) : (s.setHart h x).membs = s.membs := rfl
@[simp] theorem State.setHart_collections (s : State) (h : HartId) (x : Hart) : (s.setHart h x).collections = s.collections := rfl
@[simp] theorem State.setHart_early (s : State) (h : HartId) (x : Hart) : (s.setHart h x).early = s.early := rfl
@[simp] theorem State.setHart_published (s : State) (h : HartId) (x : Hart) : (s.setHart h x).published = s.published := rfl
@[simp] theorem State.setHart_epoch (s : State) (h : HartId) (x : Hart) : (s.setHart h x).epoch = s.epoch := rfl
@[simp] theorem State.setHart_sent (s : State) (h : HartId) (x : Hart) : (s.setHart h x).sent = s.sent := rfl
@[simp] theorem State.setHart_links (s : State) (h : HartId) (x : Hart) : (s.setHart h x).links = s.links := rfl
@[simp] theorem State.setHart_reach (s : State) (h : HartId) (x : Hart) : (s.setHart h x).reach = s.reach := rfl
@[simp] theorem State.setHart_portDown (s : State) (h : HartId) (x : Hart) : (s.setHart h x).portDown = s.portDown := rfl
@[simp] theorem State.setHart_host (s : State) (h : HartId) (x : Hart) : (s.setHart h x).host = s.host := rfl
@[simp] theorem State.setHart_morhan (s : State) (h : HartId) (x : Hart) : (s.setHart h x).morhan = s.morhan := rfl
@[simp] theorem State.setHart_hbmStacks (s : State) (h : HartId) (x : Hart) : (s.setHart h x).hbmStacks = s.hbmStacks := rfl

/-! `State.updHart` changes `harts` and no other field. -/

@[simp] theorem State.updHart_turns (s : State) (h : HartId) (f : Hart → Hart) : (s.updHart h f).turns = s.turns := rfl
@[simp] theorem State.updHart_cur (s : State) (h : HartId) (f : Hart → Hart) : (s.updHart h f).cur = s.cur := rfl
@[simp] theorem State.updHart_focus (s : State) (h : HartId) (f : Hart → Hart) : (s.updHart h f).focus = s.focus := rfl
@[simp] theorem State.updHart_free (s : State) (h : HartId) (f : Hart → Hart) : (s.updHart h f).free = s.free := rfl
@[simp] theorem State.updHart_cycle (s : State) (h : HartId) (f : Hart → Hart) : (s.updHart h f).cycle = s.cycle := rfl
@[simp] theorem State.updHart_mem (s : State) (h : HartId) (f : Hart → Hart) : (s.updHart h f).mem = s.mem := rfl
@[simp] theorem State.updHart_poison (s : State) (h : HartId) (f : Hart → Hart) : (s.updHart h f).poison = s.poison := rfl
@[simp] theorem State.updHart_l1 (s : State) (h : HartId) (f : Hart → Hart) : (s.updHart h f).l1 = s.l1 := rfl
@[simp] theorem State.updHart_il1 (s : State) (h : HartId) (f : Hart → Hart) : (s.updHart h f).il1 = s.il1 := rfl
@[simp] theorem State.updHart_casts (s : State) (h : HartId) (f : Hart → Hart) : (s.updHart h f).casts = s.casts := rfl
@[simp] theorem State.updHart_slow (s : State) (h : HartId) (f : Hart → Hart) : (s.updHart h f).slow = s.slow := rfl
@[simp] theorem State.updHart_later (s : State) (h : HartId) (f : Hart → Hart) : (s.updHart h f).later = s.later := rfl
@[simp] theorem State.updHart_olds (s : State) (h : HartId) (f : Hart → Hart) : (s.updHart h f).olds = s.olds := rfl
@[simp] theorem State.updHart_dies (s : State) (h : HartId) (f : Hart → Hart) : (s.updHart h f).dies = s.dies := rfl
@[simp] theorem State.updHart_traces (s : State) (h : HartId) (f : Hart → Hart) : (s.updHart h f).traces = s.traces := rfl
@[simp] theorem State.updHart_seqs (s : State) (h : HartId) (f : Hart → Hart) : (s.updHart h f).seqs = s.seqs := rfl
@[simp] theorem State.updHart_regions (s : State) (h : HartId) (f : Hart → Hart) : (s.updHart h f).regions = s.regions := rfl
@[simp] theorem State.updHart_tiles (s : State) (h : HartId) (f : Hart → Hart) : (s.updHart h f).tiles = s.tiles := rfl
@[simp] theorem State.updHart_current (s : State) (h : HartId) (f : Hart → Hart) : (s.updHart h f).current = s.current := rfl
@[simp] theorem State.updHart_mtTlb (s : State) (h : HartId) (f : Hart → Hart) : (s.updHart h f).mtTlb = s.mtTlb := rfl
@[simp] theorem State.updHart_tasks (s : State) (h : HartId) (f : Hart → Hart) : (s.updHart h f).tasks = s.tasks := rfl
@[simp] theorem State.updHart_images (s : State) (h : HartId) (f : Hart → Hart) : (s.updHart h f).images = s.images := rfl
@[simp] theorem State.updHart_queues (s : State) (h : HartId) (f : Hart → Hart) : (s.updHart h f).queues = s.queues := rfl
@[simp] theorem State.updHart_launches (s : State) (h : HartId) (f : Hart → Hart) : (s.updHart h f).launches = s.launches := rfl
@[simp] theorem State.updHart_nextLaunch (s : State) (h : HartId) (f : Hart → Hart) : (s.updHart h f).nextLaunch = s.nextLaunch := rfl
@[simp] theorem State.updHart_rr (s : State) (h : HartId) (f : Hart → Hart) : (s.updHart h f).rr = s.rr := rfl
@[simp] theorem State.updHart_nextCont (s : State) (h : HartId) (f : Hart → Hart) : (s.updHart h f).nextCont = s.nextCont := rfl
@[simp] theorem State.updHart_period (s : State) (h : HartId) (f : Hart → Hart) : (s.updHart h f).period = s.period := rfl
@[simp] theorem State.updHart_asidTab (s : State) (h : HartId) (f : Hart → Hart) : (s.updHart h f).asidTab = s.asidTab := rfl
@[simp] theorem State.updHart_rounds (s : State) (h : HartId) (f : Hart → Hart) : (s.updHart h f).rounds = s.rounds := rfl
@[simp] theorem State.updHart_membs (s : State) (h : HartId) (f : Hart → Hart) : (s.updHart h f).membs = s.membs := rfl
@[simp] theorem State.updHart_collections (s : State) (h : HartId) (f : Hart → Hart) : (s.updHart h f).collections = s.collections := rfl
@[simp] theorem State.updHart_early (s : State) (h : HartId) (f : Hart → Hart) : (s.updHart h f).early = s.early := rfl
@[simp] theorem State.updHart_published (s : State) (h : HartId) (f : Hart → Hart) : (s.updHart h f).published = s.published := rfl
@[simp] theorem State.updHart_epoch (s : State) (h : HartId) (f : Hart → Hart) : (s.updHart h f).epoch = s.epoch := rfl
@[simp] theorem State.updHart_sent (s : State) (h : HartId) (f : Hart → Hart) : (s.updHart h f).sent = s.sent := rfl
@[simp] theorem State.updHart_links (s : State) (h : HartId) (f : Hart → Hart) : (s.updHart h f).links = s.links := rfl
@[simp] theorem State.updHart_reach (s : State) (h : HartId) (f : Hart → Hart) : (s.updHart h f).reach = s.reach := rfl
@[simp] theorem State.updHart_portDown (s : State) (h : HartId) (f : Hart → Hart) : (s.updHart h f).portDown = s.portDown := rfl
@[simp] theorem State.updHart_host (s : State) (h : HartId) (f : Hart → Hart) : (s.updHart h f).host = s.host := rfl
@[simp] theorem State.updHart_morhan (s : State) (h : HartId) (f : Hart → Hart) : (s.updHart h f).morhan = s.morhan := rfl
@[simp] theorem State.updHart_hbmStacks (s : State) (h : HartId) (f : Hart → Hart) : (s.updHart h f).hbmStacks = s.hbmStacks := rfl

/-! `State.updMe` changes `harts` and no other field. -/

@[simp] theorem State.updMe_turns (s : State) (f : Hart → Hart) : (s.updMe f).turns = s.turns := rfl
@[simp] theorem State.updMe_cur (s : State) (f : Hart → Hart) : (s.updMe f).cur = s.cur := rfl
@[simp] theorem State.updMe_focus (s : State) (f : Hart → Hart) : (s.updMe f).focus = s.focus := rfl
@[simp] theorem State.updMe_free (s : State) (f : Hart → Hart) : (s.updMe f).free = s.free := rfl
@[simp] theorem State.updMe_cycle (s : State) (f : Hart → Hart) : (s.updMe f).cycle = s.cycle := rfl
@[simp] theorem State.updMe_mem (s : State) (f : Hart → Hart) : (s.updMe f).mem = s.mem := rfl
@[simp] theorem State.updMe_poison (s : State) (f : Hart → Hart) : (s.updMe f).poison = s.poison := rfl
@[simp] theorem State.updMe_l1 (s : State) (f : Hart → Hart) : (s.updMe f).l1 = s.l1 := rfl
@[simp] theorem State.updMe_il1 (s : State) (f : Hart → Hart) : (s.updMe f).il1 = s.il1 := rfl
@[simp] theorem State.updMe_casts (s : State) (f : Hart → Hart) : (s.updMe f).casts = s.casts := rfl
@[simp] theorem State.updMe_slow (s : State) (f : Hart → Hart) : (s.updMe f).slow = s.slow := rfl
@[simp] theorem State.updMe_later (s : State) (f : Hart → Hart) : (s.updMe f).later = s.later := rfl
@[simp] theorem State.updMe_olds (s : State) (f : Hart → Hart) : (s.updMe f).olds = s.olds := rfl
@[simp] theorem State.updMe_dies (s : State) (f : Hart → Hart) : (s.updMe f).dies = s.dies := rfl
@[simp] theorem State.updMe_traces (s : State) (f : Hart → Hart) : (s.updMe f).traces = s.traces := rfl
@[simp] theorem State.updMe_seqs (s : State) (f : Hart → Hart) : (s.updMe f).seqs = s.seqs := rfl
@[simp] theorem State.updMe_regions (s : State) (f : Hart → Hart) : (s.updMe f).regions = s.regions := rfl
@[simp] theorem State.updMe_tiles (s : State) (f : Hart → Hart) : (s.updMe f).tiles = s.tiles := rfl
@[simp] theorem State.updMe_current (s : State) (f : Hart → Hart) : (s.updMe f).current = s.current := rfl
@[simp] theorem State.updMe_mtTlb (s : State) (f : Hart → Hart) : (s.updMe f).mtTlb = s.mtTlb := rfl
@[simp] theorem State.updMe_tasks (s : State) (f : Hart → Hart) : (s.updMe f).tasks = s.tasks := rfl
@[simp] theorem State.updMe_images (s : State) (f : Hart → Hart) : (s.updMe f).images = s.images := rfl
@[simp] theorem State.updMe_queues (s : State) (f : Hart → Hart) : (s.updMe f).queues = s.queues := rfl
@[simp] theorem State.updMe_launches (s : State) (f : Hart → Hart) : (s.updMe f).launches = s.launches := rfl
@[simp] theorem State.updMe_nextLaunch (s : State) (f : Hart → Hart) : (s.updMe f).nextLaunch = s.nextLaunch := rfl
@[simp] theorem State.updMe_rr (s : State) (f : Hart → Hart) : (s.updMe f).rr = s.rr := rfl
@[simp] theorem State.updMe_nextCont (s : State) (f : Hart → Hart) : (s.updMe f).nextCont = s.nextCont := rfl
@[simp] theorem State.updMe_period (s : State) (f : Hart → Hart) : (s.updMe f).period = s.period := rfl
@[simp] theorem State.updMe_asidTab (s : State) (f : Hart → Hart) : (s.updMe f).asidTab = s.asidTab := rfl
@[simp] theorem State.updMe_rounds (s : State) (f : Hart → Hart) : (s.updMe f).rounds = s.rounds := rfl
@[simp] theorem State.updMe_membs (s : State) (f : Hart → Hart) : (s.updMe f).membs = s.membs := rfl
@[simp] theorem State.updMe_collections (s : State) (f : Hart → Hart) : (s.updMe f).collections = s.collections := rfl
@[simp] theorem State.updMe_early (s : State) (f : Hart → Hart) : (s.updMe f).early = s.early := rfl
@[simp] theorem State.updMe_published (s : State) (f : Hart → Hart) : (s.updMe f).published = s.published := rfl
@[simp] theorem State.updMe_epoch (s : State) (f : Hart → Hart) : (s.updMe f).epoch = s.epoch := rfl
@[simp] theorem State.updMe_sent (s : State) (f : Hart → Hart) : (s.updMe f).sent = s.sent := rfl
@[simp] theorem State.updMe_links (s : State) (f : Hart → Hart) : (s.updMe f).links = s.links := rfl
@[simp] theorem State.updMe_reach (s : State) (f : Hart → Hart) : (s.updMe f).reach = s.reach := rfl
@[simp] theorem State.updMe_portDown (s : State) (f : Hart → Hart) : (s.updMe f).portDown = s.portDown := rfl
@[simp] theorem State.updMe_host (s : State) (f : Hart → Hart) : (s.updMe f).host = s.host := rfl
@[simp] theorem State.updMe_morhan (s : State) (f : Hart → Hart) : (s.updMe f).morhan = s.morhan := rfl
@[simp] theorem State.updMe_hbmStacks (s : State) (f : Hart → Hart) : (s.updMe f).hbmStacks = s.hbmStacks := rfl

/-! `State.updCtx` changes `harts` and no other field. -/

@[simp] theorem State.updCtx_turns (s : State) (f : Ctx → Ctx) : (s.updCtx f).turns = s.turns := rfl
@[simp] theorem State.updCtx_cur (s : State) (f : Ctx → Ctx) : (s.updCtx f).cur = s.cur := rfl
@[simp] theorem State.updCtx_focus (s : State) (f : Ctx → Ctx) : (s.updCtx f).focus = s.focus := rfl
@[simp] theorem State.updCtx_free (s : State) (f : Ctx → Ctx) : (s.updCtx f).free = s.free := rfl
@[simp] theorem State.updCtx_cycle (s : State) (f : Ctx → Ctx) : (s.updCtx f).cycle = s.cycle := rfl
@[simp] theorem State.updCtx_mem (s : State) (f : Ctx → Ctx) : (s.updCtx f).mem = s.mem := rfl
@[simp] theorem State.updCtx_poison (s : State) (f : Ctx → Ctx) : (s.updCtx f).poison = s.poison := rfl
@[simp] theorem State.updCtx_l1 (s : State) (f : Ctx → Ctx) : (s.updCtx f).l1 = s.l1 := rfl
@[simp] theorem State.updCtx_il1 (s : State) (f : Ctx → Ctx) : (s.updCtx f).il1 = s.il1 := rfl
@[simp] theorem State.updCtx_casts (s : State) (f : Ctx → Ctx) : (s.updCtx f).casts = s.casts := rfl
@[simp] theorem State.updCtx_slow (s : State) (f : Ctx → Ctx) : (s.updCtx f).slow = s.slow := rfl
@[simp] theorem State.updCtx_later (s : State) (f : Ctx → Ctx) : (s.updCtx f).later = s.later := rfl
@[simp] theorem State.updCtx_olds (s : State) (f : Ctx → Ctx) : (s.updCtx f).olds = s.olds := rfl
@[simp] theorem State.updCtx_dies (s : State) (f : Ctx → Ctx) : (s.updCtx f).dies = s.dies := rfl
@[simp] theorem State.updCtx_traces (s : State) (f : Ctx → Ctx) : (s.updCtx f).traces = s.traces := rfl
@[simp] theorem State.updCtx_seqs (s : State) (f : Ctx → Ctx) : (s.updCtx f).seqs = s.seqs := rfl
@[simp] theorem State.updCtx_regions (s : State) (f : Ctx → Ctx) : (s.updCtx f).regions = s.regions := rfl
@[simp] theorem State.updCtx_tiles (s : State) (f : Ctx → Ctx) : (s.updCtx f).tiles = s.tiles := rfl
@[simp] theorem State.updCtx_current (s : State) (f : Ctx → Ctx) : (s.updCtx f).current = s.current := rfl
@[simp] theorem State.updCtx_mtTlb (s : State) (f : Ctx → Ctx) : (s.updCtx f).mtTlb = s.mtTlb := rfl
@[simp] theorem State.updCtx_tasks (s : State) (f : Ctx → Ctx) : (s.updCtx f).tasks = s.tasks := rfl
@[simp] theorem State.updCtx_images (s : State) (f : Ctx → Ctx) : (s.updCtx f).images = s.images := rfl
@[simp] theorem State.updCtx_queues (s : State) (f : Ctx → Ctx) : (s.updCtx f).queues = s.queues := rfl
@[simp] theorem State.updCtx_launches (s : State) (f : Ctx → Ctx) : (s.updCtx f).launches = s.launches := rfl
@[simp] theorem State.updCtx_nextLaunch (s : State) (f : Ctx → Ctx) : (s.updCtx f).nextLaunch = s.nextLaunch := rfl
@[simp] theorem State.updCtx_rr (s : State) (f : Ctx → Ctx) : (s.updCtx f).rr = s.rr := rfl
@[simp] theorem State.updCtx_nextCont (s : State) (f : Ctx → Ctx) : (s.updCtx f).nextCont = s.nextCont := rfl
@[simp] theorem State.updCtx_period (s : State) (f : Ctx → Ctx) : (s.updCtx f).period = s.period := rfl
@[simp] theorem State.updCtx_asidTab (s : State) (f : Ctx → Ctx) : (s.updCtx f).asidTab = s.asidTab := rfl
@[simp] theorem State.updCtx_rounds (s : State) (f : Ctx → Ctx) : (s.updCtx f).rounds = s.rounds := rfl
@[simp] theorem State.updCtx_membs (s : State) (f : Ctx → Ctx) : (s.updCtx f).membs = s.membs := rfl
@[simp] theorem State.updCtx_collections (s : State) (f : Ctx → Ctx) : (s.updCtx f).collections = s.collections := rfl
@[simp] theorem State.updCtx_early (s : State) (f : Ctx → Ctx) : (s.updCtx f).early = s.early := rfl
@[simp] theorem State.updCtx_published (s : State) (f : Ctx → Ctx) : (s.updCtx f).published = s.published := rfl
@[simp] theorem State.updCtx_epoch (s : State) (f : Ctx → Ctx) : (s.updCtx f).epoch = s.epoch := rfl
@[simp] theorem State.updCtx_sent (s : State) (f : Ctx → Ctx) : (s.updCtx f).sent = s.sent := rfl
@[simp] theorem State.updCtx_links (s : State) (f : Ctx → Ctx) : (s.updCtx f).links = s.links := rfl
@[simp] theorem State.updCtx_reach (s : State) (f : Ctx → Ctx) : (s.updCtx f).reach = s.reach := rfl
@[simp] theorem State.updCtx_portDown (s : State) (f : Ctx → Ctx) : (s.updCtx f).portDown = s.portDown := rfl
@[simp] theorem State.updCtx_host (s : State) (f : Ctx → Ctx) : (s.updCtx f).host = s.host := rfl
@[simp] theorem State.updCtx_morhan (s : State) (f : Ctx → Ctx) : (s.updCtx f).morhan = s.morhan := rfl
@[simp] theorem State.updCtx_hbmStacks (s : State) (f : Ctx → Ctx) : (s.updCtx f).hbmStacks = s.hbmStacks := rfl

/-! `State.setPc` changes `harts` and no other field. -/

@[simp] theorem State.setPc_turns (s : State) (a : Word) : (s.setPc a).turns = s.turns := rfl
@[simp] theorem State.setPc_cur (s : State) (a : Word) : (s.setPc a).cur = s.cur := rfl
@[simp] theorem State.setPc_focus (s : State) (a : Word) : (s.setPc a).focus = s.focus := rfl
@[simp] theorem State.setPc_free (s : State) (a : Word) : (s.setPc a).free = s.free := rfl
@[simp] theorem State.setPc_cycle (s : State) (a : Word) : (s.setPc a).cycle = s.cycle := rfl
@[simp] theorem State.setPc_mem (s : State) (a : Word) : (s.setPc a).mem = s.mem := rfl
@[simp] theorem State.setPc_poison (s : State) (a : Word) : (s.setPc a).poison = s.poison := rfl
@[simp] theorem State.setPc_l1 (s : State) (a : Word) : (s.setPc a).l1 = s.l1 := rfl
@[simp] theorem State.setPc_il1 (s : State) (a : Word) : (s.setPc a).il1 = s.il1 := rfl
@[simp] theorem State.setPc_casts (s : State) (a : Word) : (s.setPc a).casts = s.casts := rfl
@[simp] theorem State.setPc_slow (s : State) (a : Word) : (s.setPc a).slow = s.slow := rfl
@[simp] theorem State.setPc_later (s : State) (a : Word) : (s.setPc a).later = s.later := rfl
@[simp] theorem State.setPc_olds (s : State) (a : Word) : (s.setPc a).olds = s.olds := rfl
@[simp] theorem State.setPc_dies (s : State) (a : Word) : (s.setPc a).dies = s.dies := rfl
@[simp] theorem State.setPc_traces (s : State) (a : Word) : (s.setPc a).traces = s.traces := rfl
@[simp] theorem State.setPc_seqs (s : State) (a : Word) : (s.setPc a).seqs = s.seqs := rfl
@[simp] theorem State.setPc_regions (s : State) (a : Word) : (s.setPc a).regions = s.regions := rfl
@[simp] theorem State.setPc_tiles (s : State) (a : Word) : (s.setPc a).tiles = s.tiles := rfl
@[simp] theorem State.setPc_current (s : State) (a : Word) : (s.setPc a).current = s.current := rfl
@[simp] theorem State.setPc_mtTlb (s : State) (a : Word) : (s.setPc a).mtTlb = s.mtTlb := rfl
@[simp] theorem State.setPc_tasks (s : State) (a : Word) : (s.setPc a).tasks = s.tasks := rfl
@[simp] theorem State.setPc_images (s : State) (a : Word) : (s.setPc a).images = s.images := rfl
@[simp] theorem State.setPc_queues (s : State) (a : Word) : (s.setPc a).queues = s.queues := rfl
@[simp] theorem State.setPc_launches (s : State) (a : Word) : (s.setPc a).launches = s.launches := rfl
@[simp] theorem State.setPc_nextLaunch (s : State) (a : Word) : (s.setPc a).nextLaunch = s.nextLaunch := rfl
@[simp] theorem State.setPc_rr (s : State) (a : Word) : (s.setPc a).rr = s.rr := rfl
@[simp] theorem State.setPc_nextCont (s : State) (a : Word) : (s.setPc a).nextCont = s.nextCont := rfl
@[simp] theorem State.setPc_period (s : State) (a : Word) : (s.setPc a).period = s.period := rfl
@[simp] theorem State.setPc_asidTab (s : State) (a : Word) : (s.setPc a).asidTab = s.asidTab := rfl
@[simp] theorem State.setPc_rounds (s : State) (a : Word) : (s.setPc a).rounds = s.rounds := rfl
@[simp] theorem State.setPc_membs (s : State) (a : Word) : (s.setPc a).membs = s.membs := rfl
@[simp] theorem State.setPc_collections (s : State) (a : Word) : (s.setPc a).collections = s.collections := rfl
@[simp] theorem State.setPc_early (s : State) (a : Word) : (s.setPc a).early = s.early := rfl
@[simp] theorem State.setPc_published (s : State) (a : Word) : (s.setPc a).published = s.published := rfl
@[simp] theorem State.setPc_epoch (s : State) (a : Word) : (s.setPc a).epoch = s.epoch := rfl
@[simp] theorem State.setPc_sent (s : State) (a : Word) : (s.setPc a).sent = s.sent := rfl
@[simp] theorem State.setPc_links (s : State) (a : Word) : (s.setPc a).links = s.links := rfl
@[simp] theorem State.setPc_reach (s : State) (a : Word) : (s.setPc a).reach = s.reach := rfl
@[simp] theorem State.setPc_portDown (s : State) (a : Word) : (s.setPc a).portDown = s.portDown := rfl
@[simp] theorem State.setPc_host (s : State) (a : Word) : (s.setPc a).host = s.host := rfl
@[simp] theorem State.setPc_morhan (s : State) (a : Word) : (s.setPc a).morhan = s.morhan := rfl
@[simp] theorem State.setPc_hbmStacks (s : State) (a : Word) : (s.setPc a).hbmStacks = s.hbmStacks := rfl

/-! `State.wr` changes `harts` and no other field. -/

@[simp] theorem State.wr_turns (s : State) (d : SReg) (v : Word) : (s.wr d v).turns = s.turns := rfl
@[simp] theorem State.wr_cur (s : State) (d : SReg) (v : Word) : (s.wr d v).cur = s.cur := rfl
@[simp] theorem State.wr_focus (s : State) (d : SReg) (v : Word) : (s.wr d v).focus = s.focus := rfl
@[simp] theorem State.wr_free (s : State) (d : SReg) (v : Word) : (s.wr d v).free = s.free := rfl
@[simp] theorem State.wr_cycle (s : State) (d : SReg) (v : Word) : (s.wr d v).cycle = s.cycle := rfl
@[simp] theorem State.wr_mem (s : State) (d : SReg) (v : Word) : (s.wr d v).mem = s.mem := rfl
@[simp] theorem State.wr_poison (s : State) (d : SReg) (v : Word) : (s.wr d v).poison = s.poison := rfl
@[simp] theorem State.wr_l1 (s : State) (d : SReg) (v : Word) : (s.wr d v).l1 = s.l1 := rfl
@[simp] theorem State.wr_il1 (s : State) (d : SReg) (v : Word) : (s.wr d v).il1 = s.il1 := rfl
@[simp] theorem State.wr_casts (s : State) (d : SReg) (v : Word) : (s.wr d v).casts = s.casts := rfl
@[simp] theorem State.wr_slow (s : State) (d : SReg) (v : Word) : (s.wr d v).slow = s.slow := rfl
@[simp] theorem State.wr_later (s : State) (d : SReg) (v : Word) : (s.wr d v).later = s.later := rfl
@[simp] theorem State.wr_olds (s : State) (d : SReg) (v : Word) : (s.wr d v).olds = s.olds := rfl
@[simp] theorem State.wr_dies (s : State) (d : SReg) (v : Word) : (s.wr d v).dies = s.dies := rfl
@[simp] theorem State.wr_traces (s : State) (d : SReg) (v : Word) : (s.wr d v).traces = s.traces := rfl
@[simp] theorem State.wr_seqs (s : State) (d : SReg) (v : Word) : (s.wr d v).seqs = s.seqs := rfl
@[simp] theorem State.wr_regions (s : State) (d : SReg) (v : Word) : (s.wr d v).regions = s.regions := rfl
@[simp] theorem State.wr_tiles (s : State) (d : SReg) (v : Word) : (s.wr d v).tiles = s.tiles := rfl
@[simp] theorem State.wr_current (s : State) (d : SReg) (v : Word) : (s.wr d v).current = s.current := rfl
@[simp] theorem State.wr_mtTlb (s : State) (d : SReg) (v : Word) : (s.wr d v).mtTlb = s.mtTlb := rfl
@[simp] theorem State.wr_tasks (s : State) (d : SReg) (v : Word) : (s.wr d v).tasks = s.tasks := rfl
@[simp] theorem State.wr_images (s : State) (d : SReg) (v : Word) : (s.wr d v).images = s.images := rfl
@[simp] theorem State.wr_queues (s : State) (d : SReg) (v : Word) : (s.wr d v).queues = s.queues := rfl
@[simp] theorem State.wr_launches (s : State) (d : SReg) (v : Word) : (s.wr d v).launches = s.launches := rfl
@[simp] theorem State.wr_nextLaunch (s : State) (d : SReg) (v : Word) : (s.wr d v).nextLaunch = s.nextLaunch := rfl
@[simp] theorem State.wr_rr (s : State) (d : SReg) (v : Word) : (s.wr d v).rr = s.rr := rfl
@[simp] theorem State.wr_nextCont (s : State) (d : SReg) (v : Word) : (s.wr d v).nextCont = s.nextCont := rfl
@[simp] theorem State.wr_period (s : State) (d : SReg) (v : Word) : (s.wr d v).period = s.period := rfl
@[simp] theorem State.wr_asidTab (s : State) (d : SReg) (v : Word) : (s.wr d v).asidTab = s.asidTab := rfl
@[simp] theorem State.wr_rounds (s : State) (d : SReg) (v : Word) : (s.wr d v).rounds = s.rounds := rfl
@[simp] theorem State.wr_membs (s : State) (d : SReg) (v : Word) : (s.wr d v).membs = s.membs := rfl
@[simp] theorem State.wr_collections (s : State) (d : SReg) (v : Word) : (s.wr d v).collections = s.collections := rfl
@[simp] theorem State.wr_early (s : State) (d : SReg) (v : Word) : (s.wr d v).early = s.early := rfl
@[simp] theorem State.wr_published (s : State) (d : SReg) (v : Word) : (s.wr d v).published = s.published := rfl
@[simp] theorem State.wr_epoch (s : State) (d : SReg) (v : Word) : (s.wr d v).epoch = s.epoch := rfl
@[simp] theorem State.wr_sent (s : State) (d : SReg) (v : Word) : (s.wr d v).sent = s.sent := rfl
@[simp] theorem State.wr_links (s : State) (d : SReg) (v : Word) : (s.wr d v).links = s.links := rfl
@[simp] theorem State.wr_reach (s : State) (d : SReg) (v : Word) : (s.wr d v).reach = s.reach := rfl
@[simp] theorem State.wr_portDown (s : State) (d : SReg) (v : Word) : (s.wr d v).portDown = s.portDown := rfl
@[simp] theorem State.wr_host (s : State) (d : SReg) (v : Word) : (s.wr d v).host = s.host := rfl
@[simp] theorem State.wr_morhan (s : State) (d : SReg) (v : Word) : (s.wr d v).morhan = s.morhan := rfl
@[simp] theorem State.wr_hbmStacks (s : State) (d : SReg) (v : Word) : (s.wr d v).hbmStacks = s.hbmStacks := rfl

/-! `State.wrV` changes `harts` and no other field. -/

@[simp] theorem State.wrV_turns (s : State) (d : Fin 32) (x : Line) : (s.wrV d x).turns = s.turns := rfl
@[simp] theorem State.wrV_cur (s : State) (d : Fin 32) (x : Line) : (s.wrV d x).cur = s.cur := rfl
@[simp] theorem State.wrV_focus (s : State) (d : Fin 32) (x : Line) : (s.wrV d x).focus = s.focus := rfl
@[simp] theorem State.wrV_free (s : State) (d : Fin 32) (x : Line) : (s.wrV d x).free = s.free := rfl
@[simp] theorem State.wrV_cycle (s : State) (d : Fin 32) (x : Line) : (s.wrV d x).cycle = s.cycle := rfl
@[simp] theorem State.wrV_mem (s : State) (d : Fin 32) (x : Line) : (s.wrV d x).mem = s.mem := rfl
@[simp] theorem State.wrV_poison (s : State) (d : Fin 32) (x : Line) : (s.wrV d x).poison = s.poison := rfl
@[simp] theorem State.wrV_l1 (s : State) (d : Fin 32) (x : Line) : (s.wrV d x).l1 = s.l1 := rfl
@[simp] theorem State.wrV_il1 (s : State) (d : Fin 32) (x : Line) : (s.wrV d x).il1 = s.il1 := rfl
@[simp] theorem State.wrV_casts (s : State) (d : Fin 32) (x : Line) : (s.wrV d x).casts = s.casts := rfl
@[simp] theorem State.wrV_slow (s : State) (d : Fin 32) (x : Line) : (s.wrV d x).slow = s.slow := rfl
@[simp] theorem State.wrV_later (s : State) (d : Fin 32) (x : Line) : (s.wrV d x).later = s.later := rfl
@[simp] theorem State.wrV_olds (s : State) (d : Fin 32) (x : Line) : (s.wrV d x).olds = s.olds := rfl
@[simp] theorem State.wrV_dies (s : State) (d : Fin 32) (x : Line) : (s.wrV d x).dies = s.dies := rfl
@[simp] theorem State.wrV_traces (s : State) (d : Fin 32) (x : Line) : (s.wrV d x).traces = s.traces := rfl
@[simp] theorem State.wrV_seqs (s : State) (d : Fin 32) (x : Line) : (s.wrV d x).seqs = s.seqs := rfl
@[simp] theorem State.wrV_regions (s : State) (d : Fin 32) (x : Line) : (s.wrV d x).regions = s.regions := rfl
@[simp] theorem State.wrV_tiles (s : State) (d : Fin 32) (x : Line) : (s.wrV d x).tiles = s.tiles := rfl
@[simp] theorem State.wrV_current (s : State) (d : Fin 32) (x : Line) : (s.wrV d x).current = s.current := rfl
@[simp] theorem State.wrV_mtTlb (s : State) (d : Fin 32) (x : Line) : (s.wrV d x).mtTlb = s.mtTlb := rfl
@[simp] theorem State.wrV_tasks (s : State) (d : Fin 32) (x : Line) : (s.wrV d x).tasks = s.tasks := rfl
@[simp] theorem State.wrV_images (s : State) (d : Fin 32) (x : Line) : (s.wrV d x).images = s.images := rfl
@[simp] theorem State.wrV_queues (s : State) (d : Fin 32) (x : Line) : (s.wrV d x).queues = s.queues := rfl
@[simp] theorem State.wrV_launches (s : State) (d : Fin 32) (x : Line) : (s.wrV d x).launches = s.launches := rfl
@[simp] theorem State.wrV_nextLaunch (s : State) (d : Fin 32) (x : Line) : (s.wrV d x).nextLaunch = s.nextLaunch := rfl
@[simp] theorem State.wrV_rr (s : State) (d : Fin 32) (x : Line) : (s.wrV d x).rr = s.rr := rfl
@[simp] theorem State.wrV_nextCont (s : State) (d : Fin 32) (x : Line) : (s.wrV d x).nextCont = s.nextCont := rfl
@[simp] theorem State.wrV_period (s : State) (d : Fin 32) (x : Line) : (s.wrV d x).period = s.period := rfl
@[simp] theorem State.wrV_asidTab (s : State) (d : Fin 32) (x : Line) : (s.wrV d x).asidTab = s.asidTab := rfl
@[simp] theorem State.wrV_rounds (s : State) (d : Fin 32) (x : Line) : (s.wrV d x).rounds = s.rounds := rfl
@[simp] theorem State.wrV_membs (s : State) (d : Fin 32) (x : Line) : (s.wrV d x).membs = s.membs := rfl
@[simp] theorem State.wrV_collections (s : State) (d : Fin 32) (x : Line) : (s.wrV d x).collections = s.collections := rfl
@[simp] theorem State.wrV_early (s : State) (d : Fin 32) (x : Line) : (s.wrV d x).early = s.early := rfl
@[simp] theorem State.wrV_published (s : State) (d : Fin 32) (x : Line) : (s.wrV d x).published = s.published := rfl
@[simp] theorem State.wrV_epoch (s : State) (d : Fin 32) (x : Line) : (s.wrV d x).epoch = s.epoch := rfl
@[simp] theorem State.wrV_sent (s : State) (d : Fin 32) (x : Line) : (s.wrV d x).sent = s.sent := rfl
@[simp] theorem State.wrV_links (s : State) (d : Fin 32) (x : Line) : (s.wrV d x).links = s.links := rfl
@[simp] theorem State.wrV_reach (s : State) (d : Fin 32) (x : Line) : (s.wrV d x).reach = s.reach := rfl
@[simp] theorem State.wrV_portDown (s : State) (d : Fin 32) (x : Line) : (s.wrV d x).portDown = s.portDown := rfl
@[simp] theorem State.wrV_host (s : State) (d : Fin 32) (x : Line) : (s.wrV d x).host = s.host := rfl
@[simp] theorem State.wrV_morhan (s : State) (d : Fin 32) (x : Line) : (s.wrV d x).morhan = s.morhan := rfl
@[simp] theorem State.wrV_hbmStacks (s : State) (d : Fin 32) (x : Line) : (s.wrV d x).hbmStacks = s.hbmStacks := rfl

/-! `State.wrM` changes `harts` and no other field. -/

@[simp] theorem State.wrM_turns (s : State) (d : MReg) (x : Word) : (s.wrM d x).turns = s.turns := rfl
@[simp] theorem State.wrM_cur (s : State) (d : MReg) (x : Word) : (s.wrM d x).cur = s.cur := rfl
@[simp] theorem State.wrM_focus (s : State) (d : MReg) (x : Word) : (s.wrM d x).focus = s.focus := rfl
@[simp] theorem State.wrM_free (s : State) (d : MReg) (x : Word) : (s.wrM d x).free = s.free := rfl
@[simp] theorem State.wrM_cycle (s : State) (d : MReg) (x : Word) : (s.wrM d x).cycle = s.cycle := rfl
@[simp] theorem State.wrM_mem (s : State) (d : MReg) (x : Word) : (s.wrM d x).mem = s.mem := rfl
@[simp] theorem State.wrM_poison (s : State) (d : MReg) (x : Word) : (s.wrM d x).poison = s.poison := rfl
@[simp] theorem State.wrM_l1 (s : State) (d : MReg) (x : Word) : (s.wrM d x).l1 = s.l1 := rfl
@[simp] theorem State.wrM_il1 (s : State) (d : MReg) (x : Word) : (s.wrM d x).il1 = s.il1 := rfl
@[simp] theorem State.wrM_casts (s : State) (d : MReg) (x : Word) : (s.wrM d x).casts = s.casts := rfl
@[simp] theorem State.wrM_slow (s : State) (d : MReg) (x : Word) : (s.wrM d x).slow = s.slow := rfl
@[simp] theorem State.wrM_later (s : State) (d : MReg) (x : Word) : (s.wrM d x).later = s.later := rfl
@[simp] theorem State.wrM_olds (s : State) (d : MReg) (x : Word) : (s.wrM d x).olds = s.olds := rfl
@[simp] theorem State.wrM_dies (s : State) (d : MReg) (x : Word) : (s.wrM d x).dies = s.dies := rfl
@[simp] theorem State.wrM_traces (s : State) (d : MReg) (x : Word) : (s.wrM d x).traces = s.traces := rfl
@[simp] theorem State.wrM_seqs (s : State) (d : MReg) (x : Word) : (s.wrM d x).seqs = s.seqs := rfl
@[simp] theorem State.wrM_regions (s : State) (d : MReg) (x : Word) : (s.wrM d x).regions = s.regions := rfl
@[simp] theorem State.wrM_tiles (s : State) (d : MReg) (x : Word) : (s.wrM d x).tiles = s.tiles := rfl
@[simp] theorem State.wrM_current (s : State) (d : MReg) (x : Word) : (s.wrM d x).current = s.current := rfl
@[simp] theorem State.wrM_mtTlb (s : State) (d : MReg) (x : Word) : (s.wrM d x).mtTlb = s.mtTlb := rfl
@[simp] theorem State.wrM_tasks (s : State) (d : MReg) (x : Word) : (s.wrM d x).tasks = s.tasks := rfl
@[simp] theorem State.wrM_images (s : State) (d : MReg) (x : Word) : (s.wrM d x).images = s.images := rfl
@[simp] theorem State.wrM_queues (s : State) (d : MReg) (x : Word) : (s.wrM d x).queues = s.queues := rfl
@[simp] theorem State.wrM_launches (s : State) (d : MReg) (x : Word) : (s.wrM d x).launches = s.launches := rfl
@[simp] theorem State.wrM_nextLaunch (s : State) (d : MReg) (x : Word) : (s.wrM d x).nextLaunch = s.nextLaunch := rfl
@[simp] theorem State.wrM_rr (s : State) (d : MReg) (x : Word) : (s.wrM d x).rr = s.rr := rfl
@[simp] theorem State.wrM_nextCont (s : State) (d : MReg) (x : Word) : (s.wrM d x).nextCont = s.nextCont := rfl
@[simp] theorem State.wrM_period (s : State) (d : MReg) (x : Word) : (s.wrM d x).period = s.period := rfl
@[simp] theorem State.wrM_asidTab (s : State) (d : MReg) (x : Word) : (s.wrM d x).asidTab = s.asidTab := rfl
@[simp] theorem State.wrM_rounds (s : State) (d : MReg) (x : Word) : (s.wrM d x).rounds = s.rounds := rfl
@[simp] theorem State.wrM_membs (s : State) (d : MReg) (x : Word) : (s.wrM d x).membs = s.membs := rfl
@[simp] theorem State.wrM_collections (s : State) (d : MReg) (x : Word) : (s.wrM d x).collections = s.collections := rfl
@[simp] theorem State.wrM_early (s : State) (d : MReg) (x : Word) : (s.wrM d x).early = s.early := rfl
@[simp] theorem State.wrM_published (s : State) (d : MReg) (x : Word) : (s.wrM d x).published = s.published := rfl
@[simp] theorem State.wrM_epoch (s : State) (d : MReg) (x : Word) : (s.wrM d x).epoch = s.epoch := rfl
@[simp] theorem State.wrM_sent (s : State) (d : MReg) (x : Word) : (s.wrM d x).sent = s.sent := rfl
@[simp] theorem State.wrM_links (s : State) (d : MReg) (x : Word) : (s.wrM d x).links = s.links := rfl
@[simp] theorem State.wrM_reach (s : State) (d : MReg) (x : Word) : (s.wrM d x).reach = s.reach := rfl
@[simp] theorem State.wrM_portDown (s : State) (d : MReg) (x : Word) : (s.wrM d x).portDown = s.portDown := rfl
@[simp] theorem State.wrM_host (s : State) (d : MReg) (x : Word) : (s.wrM d x).host = s.host := rfl
@[simp] theorem State.wrM_morhan (s : State) (d : MReg) (x : Word) : (s.wrM d x).morhan = s.morhan := rfl
@[simp] theorem State.wrM_hbmStacks (s : State) (d : MReg) (x : Word) : (s.wrM d x).hbmStacks = s.hbmStacks := rfl

/-! `State.setDz` changes `harts` and no other field. -/

@[simp] theorem State.setDz_turns (s : State) : (s.setDz).turns = s.turns := rfl
@[simp] theorem State.setDz_cur (s : State) : (s.setDz).cur = s.cur := rfl
@[simp] theorem State.setDz_focus (s : State) : (s.setDz).focus = s.focus := rfl
@[simp] theorem State.setDz_free (s : State) : (s.setDz).free = s.free := rfl
@[simp] theorem State.setDz_cycle (s : State) : (s.setDz).cycle = s.cycle := rfl
@[simp] theorem State.setDz_mem (s : State) : (s.setDz).mem = s.mem := rfl
@[simp] theorem State.setDz_poison (s : State) : (s.setDz).poison = s.poison := rfl
@[simp] theorem State.setDz_l1 (s : State) : (s.setDz).l1 = s.l1 := rfl
@[simp] theorem State.setDz_il1 (s : State) : (s.setDz).il1 = s.il1 := rfl
@[simp] theorem State.setDz_casts (s : State) : (s.setDz).casts = s.casts := rfl
@[simp] theorem State.setDz_slow (s : State) : (s.setDz).slow = s.slow := rfl
@[simp] theorem State.setDz_later (s : State) : (s.setDz).later = s.later := rfl
@[simp] theorem State.setDz_olds (s : State) : (s.setDz).olds = s.olds := rfl
@[simp] theorem State.setDz_dies (s : State) : (s.setDz).dies = s.dies := rfl
@[simp] theorem State.setDz_traces (s : State) : (s.setDz).traces = s.traces := rfl
@[simp] theorem State.setDz_seqs (s : State) : (s.setDz).seqs = s.seqs := rfl
@[simp] theorem State.setDz_regions (s : State) : (s.setDz).regions = s.regions := rfl
@[simp] theorem State.setDz_tiles (s : State) : (s.setDz).tiles = s.tiles := rfl
@[simp] theorem State.setDz_current (s : State) : (s.setDz).current = s.current := rfl
@[simp] theorem State.setDz_mtTlb (s : State) : (s.setDz).mtTlb = s.mtTlb := rfl
@[simp] theorem State.setDz_tasks (s : State) : (s.setDz).tasks = s.tasks := rfl
@[simp] theorem State.setDz_images (s : State) : (s.setDz).images = s.images := rfl
@[simp] theorem State.setDz_queues (s : State) : (s.setDz).queues = s.queues := rfl
@[simp] theorem State.setDz_launches (s : State) : (s.setDz).launches = s.launches := rfl
@[simp] theorem State.setDz_nextLaunch (s : State) : (s.setDz).nextLaunch = s.nextLaunch := rfl
@[simp] theorem State.setDz_rr (s : State) : (s.setDz).rr = s.rr := rfl
@[simp] theorem State.setDz_nextCont (s : State) : (s.setDz).nextCont = s.nextCont := rfl
@[simp] theorem State.setDz_period (s : State) : (s.setDz).period = s.period := rfl
@[simp] theorem State.setDz_asidTab (s : State) : (s.setDz).asidTab = s.asidTab := rfl
@[simp] theorem State.setDz_rounds (s : State) : (s.setDz).rounds = s.rounds := rfl
@[simp] theorem State.setDz_membs (s : State) : (s.setDz).membs = s.membs := rfl
@[simp] theorem State.setDz_collections (s : State) : (s.setDz).collections = s.collections := rfl
@[simp] theorem State.setDz_early (s : State) : (s.setDz).early = s.early := rfl
@[simp] theorem State.setDz_published (s : State) : (s.setDz).published = s.published := rfl
@[simp] theorem State.setDz_epoch (s : State) : (s.setDz).epoch = s.epoch := rfl
@[simp] theorem State.setDz_sent (s : State) : (s.setDz).sent = s.sent := rfl
@[simp] theorem State.setDz_links (s : State) : (s.setDz).links = s.links := rfl
@[simp] theorem State.setDz_reach (s : State) : (s.setDz).reach = s.reach := rfl
@[simp] theorem State.setDz_portDown (s : State) : (s.setDz).portDown = s.portDown := rfl
@[simp] theorem State.setDz_host (s : State) : (s.setDz).host = s.host := rfl
@[simp] theorem State.setDz_morhan (s : State) : (s.setDz).morhan = s.morhan := rfl
@[simp] theorem State.setDz_hbmStacks (s : State) : (s.setDz).hbmStacks = s.hbmStacks := rfl

/-! `State.complete` changes `harts` and no other field. -/

@[simp] theorem State.complete_turns (s : State) : (s.complete).turns = s.turns := rfl
@[simp] theorem State.complete_cur (s : State) : (s.complete).cur = s.cur := rfl
@[simp] theorem State.complete_focus (s : State) : (s.complete).focus = s.focus := rfl
@[simp] theorem State.complete_free (s : State) : (s.complete).free = s.free := rfl
@[simp] theorem State.complete_cycle (s : State) : (s.complete).cycle = s.cycle := rfl
@[simp] theorem State.complete_mem (s : State) : (s.complete).mem = s.mem := rfl
@[simp] theorem State.complete_poison (s : State) : (s.complete).poison = s.poison := rfl
@[simp] theorem State.complete_l1 (s : State) : (s.complete).l1 = s.l1 := rfl
@[simp] theorem State.complete_il1 (s : State) : (s.complete).il1 = s.il1 := rfl
@[simp] theorem State.complete_casts (s : State) : (s.complete).casts = s.casts := rfl
@[simp] theorem State.complete_slow (s : State) : (s.complete).slow = s.slow := rfl
@[simp] theorem State.complete_later (s : State) : (s.complete).later = s.later := rfl
@[simp] theorem State.complete_olds (s : State) : (s.complete).olds = s.olds := rfl
@[simp] theorem State.complete_dies (s : State) : (s.complete).dies = s.dies := rfl
@[simp] theorem State.complete_traces (s : State) : (s.complete).traces = s.traces := rfl
@[simp] theorem State.complete_seqs (s : State) : (s.complete).seqs = s.seqs := rfl
@[simp] theorem State.complete_regions (s : State) : (s.complete).regions = s.regions := rfl
@[simp] theorem State.complete_tiles (s : State) : (s.complete).tiles = s.tiles := rfl
@[simp] theorem State.complete_current (s : State) : (s.complete).current = s.current := rfl
@[simp] theorem State.complete_mtTlb (s : State) : (s.complete).mtTlb = s.mtTlb := rfl
@[simp] theorem State.complete_tasks (s : State) : (s.complete).tasks = s.tasks := rfl
@[simp] theorem State.complete_images (s : State) : (s.complete).images = s.images := rfl
@[simp] theorem State.complete_queues (s : State) : (s.complete).queues = s.queues := rfl
@[simp] theorem State.complete_launches (s : State) : (s.complete).launches = s.launches := rfl
@[simp] theorem State.complete_nextLaunch (s : State) : (s.complete).nextLaunch = s.nextLaunch := rfl
@[simp] theorem State.complete_rr (s : State) : (s.complete).rr = s.rr := rfl
@[simp] theorem State.complete_nextCont (s : State) : (s.complete).nextCont = s.nextCont := rfl
@[simp] theorem State.complete_period (s : State) : (s.complete).period = s.period := rfl
@[simp] theorem State.complete_asidTab (s : State) : (s.complete).asidTab = s.asidTab := rfl
@[simp] theorem State.complete_rounds (s : State) : (s.complete).rounds = s.rounds := rfl
@[simp] theorem State.complete_membs (s : State) : (s.complete).membs = s.membs := rfl
@[simp] theorem State.complete_collections (s : State) : (s.complete).collections = s.collections := rfl
@[simp] theorem State.complete_early (s : State) : (s.complete).early = s.early := rfl
@[simp] theorem State.complete_published (s : State) : (s.complete).published = s.published := rfl
@[simp] theorem State.complete_epoch (s : State) : (s.complete).epoch = s.epoch := rfl
@[simp] theorem State.complete_sent (s : State) : (s.complete).sent = s.sent := rfl
@[simp] theorem State.complete_links (s : State) : (s.complete).links = s.links := rfl
@[simp] theorem State.complete_reach (s : State) : (s.complete).reach = s.reach := rfl
@[simp] theorem State.complete_portDown (s : State) : (s.complete).portDown = s.portDown := rfl
@[simp] theorem State.complete_host (s : State) : (s.complete).host = s.host := rfl
@[simp] theorem State.complete_morhan (s : State) : (s.complete).morhan = s.morhan := rfl
@[simp] theorem State.complete_hbmStacks (s : State) : (s.complete).hbmStacks = s.hbmStacks := rfl

/-! `State.result` changes `harts` and no other field. -/

@[simp] theorem State.result_turns (s : State) (d : SReg) (v : Word) : (s.result d v).turns = s.turns := rfl
@[simp] theorem State.result_cur (s : State) (d : SReg) (v : Word) : (s.result d v).cur = s.cur := rfl
@[simp] theorem State.result_focus (s : State) (d : SReg) (v : Word) : (s.result d v).focus = s.focus := rfl
@[simp] theorem State.result_free (s : State) (d : SReg) (v : Word) : (s.result d v).free = s.free := rfl
@[simp] theorem State.result_cycle (s : State) (d : SReg) (v : Word) : (s.result d v).cycle = s.cycle := rfl
@[simp] theorem State.result_mem (s : State) (d : SReg) (v : Word) : (s.result d v).mem = s.mem := rfl
@[simp] theorem State.result_poison (s : State) (d : SReg) (v : Word) : (s.result d v).poison = s.poison := rfl
@[simp] theorem State.result_l1 (s : State) (d : SReg) (v : Word) : (s.result d v).l1 = s.l1 := rfl
@[simp] theorem State.result_il1 (s : State) (d : SReg) (v : Word) : (s.result d v).il1 = s.il1 := rfl
@[simp] theorem State.result_casts (s : State) (d : SReg) (v : Word) : (s.result d v).casts = s.casts := rfl
@[simp] theorem State.result_slow (s : State) (d : SReg) (v : Word) : (s.result d v).slow = s.slow := rfl
@[simp] theorem State.result_later (s : State) (d : SReg) (v : Word) : (s.result d v).later = s.later := rfl
@[simp] theorem State.result_olds (s : State) (d : SReg) (v : Word) : (s.result d v).olds = s.olds := rfl
@[simp] theorem State.result_dies (s : State) (d : SReg) (v : Word) : (s.result d v).dies = s.dies := rfl
@[simp] theorem State.result_traces (s : State) (d : SReg) (v : Word) : (s.result d v).traces = s.traces := rfl
@[simp] theorem State.result_seqs (s : State) (d : SReg) (v : Word) : (s.result d v).seqs = s.seqs := rfl
@[simp] theorem State.result_regions (s : State) (d : SReg) (v : Word) : (s.result d v).regions = s.regions := rfl
@[simp] theorem State.result_tiles (s : State) (d : SReg) (v : Word) : (s.result d v).tiles = s.tiles := rfl
@[simp] theorem State.result_current (s : State) (d : SReg) (v : Word) : (s.result d v).current = s.current := rfl
@[simp] theorem State.result_mtTlb (s : State) (d : SReg) (v : Word) : (s.result d v).mtTlb = s.mtTlb := rfl
@[simp] theorem State.result_tasks (s : State) (d : SReg) (v : Word) : (s.result d v).tasks = s.tasks := rfl
@[simp] theorem State.result_images (s : State) (d : SReg) (v : Word) : (s.result d v).images = s.images := rfl
@[simp] theorem State.result_queues (s : State) (d : SReg) (v : Word) : (s.result d v).queues = s.queues := rfl
@[simp] theorem State.result_launches (s : State) (d : SReg) (v : Word) : (s.result d v).launches = s.launches := rfl
@[simp] theorem State.result_nextLaunch (s : State) (d : SReg) (v : Word) : (s.result d v).nextLaunch = s.nextLaunch := rfl
@[simp] theorem State.result_rr (s : State) (d : SReg) (v : Word) : (s.result d v).rr = s.rr := rfl
@[simp] theorem State.result_nextCont (s : State) (d : SReg) (v : Word) : (s.result d v).nextCont = s.nextCont := rfl
@[simp] theorem State.result_period (s : State) (d : SReg) (v : Word) : (s.result d v).period = s.period := rfl
@[simp] theorem State.result_asidTab (s : State) (d : SReg) (v : Word) : (s.result d v).asidTab = s.asidTab := rfl
@[simp] theorem State.result_rounds (s : State) (d : SReg) (v : Word) : (s.result d v).rounds = s.rounds := rfl
@[simp] theorem State.result_membs (s : State) (d : SReg) (v : Word) : (s.result d v).membs = s.membs := rfl
@[simp] theorem State.result_collections (s : State) (d : SReg) (v : Word) : (s.result d v).collections = s.collections := rfl
@[simp] theorem State.result_early (s : State) (d : SReg) (v : Word) : (s.result d v).early = s.early := rfl
@[simp] theorem State.result_published (s : State) (d : SReg) (v : Word) : (s.result d v).published = s.published := rfl
@[simp] theorem State.result_epoch (s : State) (d : SReg) (v : Word) : (s.result d v).epoch = s.epoch := rfl
@[simp] theorem State.result_sent (s : State) (d : SReg) (v : Word) : (s.result d v).sent = s.sent := rfl
@[simp] theorem State.result_links (s : State) (d : SReg) (v : Word) : (s.result d v).links = s.links := rfl
@[simp] theorem State.result_reach (s : State) (d : SReg) (v : Word) : (s.result d v).reach = s.reach := rfl
@[simp] theorem State.result_portDown (s : State) (d : SReg) (v : Word) : (s.result d v).portDown = s.portDown := rfl
@[simp] theorem State.result_host (s : State) (d : SReg) (v : Word) : (s.result d v).host = s.host := rfl
@[simp] theorem State.result_morhan (s : State) (d : SReg) (v : Word) : (s.result d v).morhan = s.morhan := rfl
@[simp] theorem State.result_hbmStacks (s : State) (d : SReg) (v : Word) : (s.result d v).hbmStacks = s.hbmStacks := rfl

/-! `State.updDie` changes `dies` and no other field. -/

@[simp] theorem State.updDie_turns (s : State) (d : Fin 6) (f : Die → Die) : (s.updDie d f).turns = s.turns := rfl
@[simp] theorem State.updDie_cur (s : State) (d : Fin 6) (f : Die → Die) : (s.updDie d f).cur = s.cur := rfl
@[simp] theorem State.updDie_focus (s : State) (d : Fin 6) (f : Die → Die) : (s.updDie d f).focus = s.focus := rfl
@[simp] theorem State.updDie_free (s : State) (d : Fin 6) (f : Die → Die) : (s.updDie d f).free = s.free := rfl
@[simp] theorem State.updDie_cycle (s : State) (d : Fin 6) (f : Die → Die) : (s.updDie d f).cycle = s.cycle := rfl
@[simp] theorem State.updDie_mem (s : State) (d : Fin 6) (f : Die → Die) : (s.updDie d f).mem = s.mem := rfl
@[simp] theorem State.updDie_poison (s : State) (d : Fin 6) (f : Die → Die) : (s.updDie d f).poison = s.poison := rfl
@[simp] theorem State.updDie_l1 (s : State) (d : Fin 6) (f : Die → Die) : (s.updDie d f).l1 = s.l1 := rfl
@[simp] theorem State.updDie_il1 (s : State) (d : Fin 6) (f : Die → Die) : (s.updDie d f).il1 = s.il1 := rfl
@[simp] theorem State.updDie_casts (s : State) (d : Fin 6) (f : Die → Die) : (s.updDie d f).casts = s.casts := rfl
@[simp] theorem State.updDie_slow (s : State) (d : Fin 6) (f : Die → Die) : (s.updDie d f).slow = s.slow := rfl
@[simp] theorem State.updDie_later (s : State) (d : Fin 6) (f : Die → Die) : (s.updDie d f).later = s.later := rfl
@[simp] theorem State.updDie_olds (s : State) (d : Fin 6) (f : Die → Die) : (s.updDie d f).olds = s.olds := rfl
@[simp] theorem State.updDie_harts (s : State) (d : Fin 6) (f : Die → Die) : (s.updDie d f).harts = s.harts := rfl
@[simp] theorem State.updDie_traces (s : State) (d : Fin 6) (f : Die → Die) : (s.updDie d f).traces = s.traces := rfl
@[simp] theorem State.updDie_seqs (s : State) (d : Fin 6) (f : Die → Die) : (s.updDie d f).seqs = s.seqs := rfl
@[simp] theorem State.updDie_regions (s : State) (d : Fin 6) (f : Die → Die) : (s.updDie d f).regions = s.regions := rfl
@[simp] theorem State.updDie_tiles (s : State) (d : Fin 6) (f : Die → Die) : (s.updDie d f).tiles = s.tiles := rfl
@[simp] theorem State.updDie_current (s : State) (d : Fin 6) (f : Die → Die) : (s.updDie d f).current = s.current := rfl
@[simp] theorem State.updDie_mtTlb (s : State) (d : Fin 6) (f : Die → Die) : (s.updDie d f).mtTlb = s.mtTlb := rfl
@[simp] theorem State.updDie_tasks (s : State) (d : Fin 6) (f : Die → Die) : (s.updDie d f).tasks = s.tasks := rfl
@[simp] theorem State.updDie_images (s : State) (d : Fin 6) (f : Die → Die) : (s.updDie d f).images = s.images := rfl
@[simp] theorem State.updDie_queues (s : State) (d : Fin 6) (f : Die → Die) : (s.updDie d f).queues = s.queues := rfl
@[simp] theorem State.updDie_launches (s : State) (d : Fin 6) (f : Die → Die) : (s.updDie d f).launches = s.launches := rfl
@[simp] theorem State.updDie_nextLaunch (s : State) (d : Fin 6) (f : Die → Die) : (s.updDie d f).nextLaunch = s.nextLaunch := rfl
@[simp] theorem State.updDie_rr (s : State) (d : Fin 6) (f : Die → Die) : (s.updDie d f).rr = s.rr := rfl
@[simp] theorem State.updDie_nextCont (s : State) (d : Fin 6) (f : Die → Die) : (s.updDie d f).nextCont = s.nextCont := rfl
@[simp] theorem State.updDie_period (s : State) (d : Fin 6) (f : Die → Die) : (s.updDie d f).period = s.period := rfl
@[simp] theorem State.updDie_asidTab (s : State) (d : Fin 6) (f : Die → Die) : (s.updDie d f).asidTab = s.asidTab := rfl
@[simp] theorem State.updDie_rounds (s : State) (d : Fin 6) (f : Die → Die) : (s.updDie d f).rounds = s.rounds := rfl
@[simp] theorem State.updDie_membs (s : State) (d : Fin 6) (f : Die → Die) : (s.updDie d f).membs = s.membs := rfl
@[simp] theorem State.updDie_collections (s : State) (d : Fin 6) (f : Die → Die) : (s.updDie d f).collections = s.collections := rfl
@[simp] theorem State.updDie_early (s : State) (d : Fin 6) (f : Die → Die) : (s.updDie d f).early = s.early := rfl
@[simp] theorem State.updDie_published (s : State) (d : Fin 6) (f : Die → Die) : (s.updDie d f).published = s.published := rfl
@[simp] theorem State.updDie_epoch (s : State) (d : Fin 6) (f : Die → Die) : (s.updDie d f).epoch = s.epoch := rfl
@[simp] theorem State.updDie_sent (s : State) (d : Fin 6) (f : Die → Die) : (s.updDie d f).sent = s.sent := rfl
@[simp] theorem State.updDie_links (s : State) (d : Fin 6) (f : Die → Die) : (s.updDie d f).links = s.links := rfl
@[simp] theorem State.updDie_reach (s : State) (d : Fin 6) (f : Die → Die) : (s.updDie d f).reach = s.reach := rfl
@[simp] theorem State.updDie_portDown (s : State) (d : Fin 6) (f : Die → Die) : (s.updDie d f).portDown = s.portDown := rfl
@[simp] theorem State.updDie_host (s : State) (d : Fin 6) (f : Die → Die) : (s.updDie d f).host = s.host := rfl
@[simp] theorem State.updDie_morhan (s : State) (d : Fin 6) (f : Die → Die) : (s.updDie d f).morhan = s.morhan := rfl
@[simp] theorem State.updDie_hbmStacks (s : State) (d : Fin 6) (f : Die → Die) : (s.updDie d f).hbmStacks = s.hbmStacks := rfl

/-! `State.mapDies` changes `dies` and no other field. -/

@[simp] theorem State.mapDies_turns (s : State) (f : Die → Die) : (s.mapDies f).turns = s.turns := rfl
@[simp] theorem State.mapDies_cur (s : State) (f : Die → Die) : (s.mapDies f).cur = s.cur := rfl
@[simp] theorem State.mapDies_focus (s : State) (f : Die → Die) : (s.mapDies f).focus = s.focus := rfl
@[simp] theorem State.mapDies_free (s : State) (f : Die → Die) : (s.mapDies f).free = s.free := rfl
@[simp] theorem State.mapDies_cycle (s : State) (f : Die → Die) : (s.mapDies f).cycle = s.cycle := rfl
@[simp] theorem State.mapDies_mem (s : State) (f : Die → Die) : (s.mapDies f).mem = s.mem := rfl
@[simp] theorem State.mapDies_poison (s : State) (f : Die → Die) : (s.mapDies f).poison = s.poison := rfl
@[simp] theorem State.mapDies_l1 (s : State) (f : Die → Die) : (s.mapDies f).l1 = s.l1 := rfl
@[simp] theorem State.mapDies_il1 (s : State) (f : Die → Die) : (s.mapDies f).il1 = s.il1 := rfl
@[simp] theorem State.mapDies_casts (s : State) (f : Die → Die) : (s.mapDies f).casts = s.casts := rfl
@[simp] theorem State.mapDies_slow (s : State) (f : Die → Die) : (s.mapDies f).slow = s.slow := rfl
@[simp] theorem State.mapDies_later (s : State) (f : Die → Die) : (s.mapDies f).later = s.later := rfl
@[simp] theorem State.mapDies_olds (s : State) (f : Die → Die) : (s.mapDies f).olds = s.olds := rfl
@[simp] theorem State.mapDies_harts (s : State) (f : Die → Die) : (s.mapDies f).harts = s.harts := rfl
@[simp] theorem State.mapDies_traces (s : State) (f : Die → Die) : (s.mapDies f).traces = s.traces := rfl
@[simp] theorem State.mapDies_seqs (s : State) (f : Die → Die) : (s.mapDies f).seqs = s.seqs := rfl
@[simp] theorem State.mapDies_regions (s : State) (f : Die → Die) : (s.mapDies f).regions = s.regions := rfl
@[simp] theorem State.mapDies_tiles (s : State) (f : Die → Die) : (s.mapDies f).tiles = s.tiles := rfl
@[simp] theorem State.mapDies_current (s : State) (f : Die → Die) : (s.mapDies f).current = s.current := rfl
@[simp] theorem State.mapDies_mtTlb (s : State) (f : Die → Die) : (s.mapDies f).mtTlb = s.mtTlb := rfl
@[simp] theorem State.mapDies_tasks (s : State) (f : Die → Die) : (s.mapDies f).tasks = s.tasks := rfl
@[simp] theorem State.mapDies_images (s : State) (f : Die → Die) : (s.mapDies f).images = s.images := rfl
@[simp] theorem State.mapDies_queues (s : State) (f : Die → Die) : (s.mapDies f).queues = s.queues := rfl
@[simp] theorem State.mapDies_launches (s : State) (f : Die → Die) : (s.mapDies f).launches = s.launches := rfl
@[simp] theorem State.mapDies_nextLaunch (s : State) (f : Die → Die) : (s.mapDies f).nextLaunch = s.nextLaunch := rfl
@[simp] theorem State.mapDies_rr (s : State) (f : Die → Die) : (s.mapDies f).rr = s.rr := rfl
@[simp] theorem State.mapDies_nextCont (s : State) (f : Die → Die) : (s.mapDies f).nextCont = s.nextCont := rfl
@[simp] theorem State.mapDies_period (s : State) (f : Die → Die) : (s.mapDies f).period = s.period := rfl
@[simp] theorem State.mapDies_asidTab (s : State) (f : Die → Die) : (s.mapDies f).asidTab = s.asidTab := rfl
@[simp] theorem State.mapDies_rounds (s : State) (f : Die → Die) : (s.mapDies f).rounds = s.rounds := rfl
@[simp] theorem State.mapDies_membs (s : State) (f : Die → Die) : (s.mapDies f).membs = s.membs := rfl
@[simp] theorem State.mapDies_collections (s : State) (f : Die → Die) : (s.mapDies f).collections = s.collections := rfl
@[simp] theorem State.mapDies_early (s : State) (f : Die → Die) : (s.mapDies f).early = s.early := rfl
@[simp] theorem State.mapDies_published (s : State) (f : Die → Die) : (s.mapDies f).published = s.published := rfl
@[simp] theorem State.mapDies_epoch (s : State) (f : Die → Die) : (s.mapDies f).epoch = s.epoch := rfl
@[simp] theorem State.mapDies_sent (s : State) (f : Die → Die) : (s.mapDies f).sent = s.sent := rfl
@[simp] theorem State.mapDies_links (s : State) (f : Die → Die) : (s.mapDies f).links = s.links := rfl
@[simp] theorem State.mapDies_reach (s : State) (f : Die → Die) : (s.mapDies f).reach = s.reach := rfl
@[simp] theorem State.mapDies_portDown (s : State) (f : Die → Die) : (s.mapDies f).portDown = s.portDown := rfl
@[simp] theorem State.mapDies_host (s : State) (f : Die → Die) : (s.mapDies f).host = s.host := rfl
@[simp] theorem State.mapDies_morhan (s : State) (f : Die → Die) : (s.mapDies f).morhan = s.morhan := rfl
@[simp] theorem State.mapDies_hbmStacks (s : State) (f : Die → Die) : (s.mapDies f).hbmStacks = s.hbmStacks := rfl

/-! `State.updTask` changes `tasks` and no other field. -/

@[simp] theorem State.updTask_turns (s : State) (t : TaskId) (f : Task → Task) : (s.updTask t f).turns = s.turns := rfl
@[simp] theorem State.updTask_cur (s : State) (t : TaskId) (f : Task → Task) : (s.updTask t f).cur = s.cur := rfl
@[simp] theorem State.updTask_focus (s : State) (t : TaskId) (f : Task → Task) : (s.updTask t f).focus = s.focus := rfl
@[simp] theorem State.updTask_free (s : State) (t : TaskId) (f : Task → Task) : (s.updTask t f).free = s.free := rfl
@[simp] theorem State.updTask_cycle (s : State) (t : TaskId) (f : Task → Task) : (s.updTask t f).cycle = s.cycle := rfl
@[simp] theorem State.updTask_mem (s : State) (t : TaskId) (f : Task → Task) : (s.updTask t f).mem = s.mem := rfl
@[simp] theorem State.updTask_poison (s : State) (t : TaskId) (f : Task → Task) : (s.updTask t f).poison = s.poison := rfl
@[simp] theorem State.updTask_l1 (s : State) (t : TaskId) (f : Task → Task) : (s.updTask t f).l1 = s.l1 := rfl
@[simp] theorem State.updTask_il1 (s : State) (t : TaskId) (f : Task → Task) : (s.updTask t f).il1 = s.il1 := rfl
@[simp] theorem State.updTask_casts (s : State) (t : TaskId) (f : Task → Task) : (s.updTask t f).casts = s.casts := rfl
@[simp] theorem State.updTask_slow (s : State) (t : TaskId) (f : Task → Task) : (s.updTask t f).slow = s.slow := rfl
@[simp] theorem State.updTask_later (s : State) (t : TaskId) (f : Task → Task) : (s.updTask t f).later = s.later := rfl
@[simp] theorem State.updTask_olds (s : State) (t : TaskId) (f : Task → Task) : (s.updTask t f).olds = s.olds := rfl
@[simp] theorem State.updTask_harts (s : State) (t : TaskId) (f : Task → Task) : (s.updTask t f).harts = s.harts := rfl
@[simp] theorem State.updTask_dies (s : State) (t : TaskId) (f : Task → Task) : (s.updTask t f).dies = s.dies := rfl
@[simp] theorem State.updTask_traces (s : State) (t : TaskId) (f : Task → Task) : (s.updTask t f).traces = s.traces := rfl
@[simp] theorem State.updTask_seqs (s : State) (t : TaskId) (f : Task → Task) : (s.updTask t f).seqs = s.seqs := rfl
@[simp] theorem State.updTask_regions (s : State) (t : TaskId) (f : Task → Task) : (s.updTask t f).regions = s.regions := rfl
@[simp] theorem State.updTask_tiles (s : State) (t : TaskId) (f : Task → Task) : (s.updTask t f).tiles = s.tiles := rfl
@[simp] theorem State.updTask_current (s : State) (t : TaskId) (f : Task → Task) : (s.updTask t f).current = s.current := rfl
@[simp] theorem State.updTask_mtTlb (s : State) (t : TaskId) (f : Task → Task) : (s.updTask t f).mtTlb = s.mtTlb := rfl
@[simp] theorem State.updTask_images (s : State) (t : TaskId) (f : Task → Task) : (s.updTask t f).images = s.images := rfl
@[simp] theorem State.updTask_queues (s : State) (t : TaskId) (f : Task → Task) : (s.updTask t f).queues = s.queues := rfl
@[simp] theorem State.updTask_launches (s : State) (t : TaskId) (f : Task → Task) : (s.updTask t f).launches = s.launches := rfl
@[simp] theorem State.updTask_nextLaunch (s : State) (t : TaskId) (f : Task → Task) : (s.updTask t f).nextLaunch = s.nextLaunch := rfl
@[simp] theorem State.updTask_rr (s : State) (t : TaskId) (f : Task → Task) : (s.updTask t f).rr = s.rr := rfl
@[simp] theorem State.updTask_nextCont (s : State) (t : TaskId) (f : Task → Task) : (s.updTask t f).nextCont = s.nextCont := rfl
@[simp] theorem State.updTask_period (s : State) (t : TaskId) (f : Task → Task) : (s.updTask t f).period = s.period := rfl
@[simp] theorem State.updTask_asidTab (s : State) (t : TaskId) (f : Task → Task) : (s.updTask t f).asidTab = s.asidTab := rfl
@[simp] theorem State.updTask_rounds (s : State) (t : TaskId) (f : Task → Task) : (s.updTask t f).rounds = s.rounds := rfl
@[simp] theorem State.updTask_membs (s : State) (t : TaskId) (f : Task → Task) : (s.updTask t f).membs = s.membs := rfl
@[simp] theorem State.updTask_collections (s : State) (t : TaskId) (f : Task → Task) : (s.updTask t f).collections = s.collections := rfl
@[simp] theorem State.updTask_early (s : State) (t : TaskId) (f : Task → Task) : (s.updTask t f).early = s.early := rfl
@[simp] theorem State.updTask_published (s : State) (t : TaskId) (f : Task → Task) : (s.updTask t f).published = s.published := rfl
@[simp] theorem State.updTask_epoch (s : State) (t : TaskId) (f : Task → Task) : (s.updTask t f).epoch = s.epoch := rfl
@[simp] theorem State.updTask_sent (s : State) (t : TaskId) (f : Task → Task) : (s.updTask t f).sent = s.sent := rfl
@[simp] theorem State.updTask_links (s : State) (t : TaskId) (f : Task → Task) : (s.updTask t f).links = s.links := rfl
@[simp] theorem State.updTask_reach (s : State) (t : TaskId) (f : Task → Task) : (s.updTask t f).reach = s.reach := rfl
@[simp] theorem State.updTask_portDown (s : State) (t : TaskId) (f : Task → Task) : (s.updTask t f).portDown = s.portDown := rfl
@[simp] theorem State.updTask_host (s : State) (t : TaskId) (f : Task → Task) : (s.updTask t f).host = s.host := rfl
@[simp] theorem State.updTask_morhan (s : State) (t : TaskId) (f : Task → Task) : (s.updTask t f).morhan = s.morhan := rfl
@[simp] theorem State.updTask_hbmStacks (s : State) (t : TaskId) (f : Task → Task) : (s.updTask t f).hbmStacks = s.hbmStacks := rfl

/-! `State.updTc` changes `tiles` and no other field. -/

@[simp] theorem State.updTc_turns (s : State) (d t c : Nat) (f : TileCtx → TileCtx) : (s.updTc d t c f).turns = s.turns := rfl
@[simp] theorem State.updTc_cur (s : State) (d t c : Nat) (f : TileCtx → TileCtx) : (s.updTc d t c f).cur = s.cur := rfl
@[simp] theorem State.updTc_focus (s : State) (d t c : Nat) (f : TileCtx → TileCtx) : (s.updTc d t c f).focus = s.focus := rfl
@[simp] theorem State.updTc_free (s : State) (d t c : Nat) (f : TileCtx → TileCtx) : (s.updTc d t c f).free = s.free := rfl
@[simp] theorem State.updTc_cycle (s : State) (d t c : Nat) (f : TileCtx → TileCtx) : (s.updTc d t c f).cycle = s.cycle := rfl
@[simp] theorem State.updTc_mem (s : State) (d t c : Nat) (f : TileCtx → TileCtx) : (s.updTc d t c f).mem = s.mem := rfl
@[simp] theorem State.updTc_poison (s : State) (d t c : Nat) (f : TileCtx → TileCtx) : (s.updTc d t c f).poison = s.poison := rfl
@[simp] theorem State.updTc_l1 (s : State) (d t c : Nat) (f : TileCtx → TileCtx) : (s.updTc d t c f).l1 = s.l1 := rfl
@[simp] theorem State.updTc_il1 (s : State) (d t c : Nat) (f : TileCtx → TileCtx) : (s.updTc d t c f).il1 = s.il1 := rfl
@[simp] theorem State.updTc_casts (s : State) (d t c : Nat) (f : TileCtx → TileCtx) : (s.updTc d t c f).casts = s.casts := rfl
@[simp] theorem State.updTc_slow (s : State) (d t c : Nat) (f : TileCtx → TileCtx) : (s.updTc d t c f).slow = s.slow := rfl
@[simp] theorem State.updTc_later (s : State) (d t c : Nat) (f : TileCtx → TileCtx) : (s.updTc d t c f).later = s.later := rfl
@[simp] theorem State.updTc_olds (s : State) (d t c : Nat) (f : TileCtx → TileCtx) : (s.updTc d t c f).olds = s.olds := rfl
@[simp] theorem State.updTc_harts (s : State) (d t c : Nat) (f : TileCtx → TileCtx) : (s.updTc d t c f).harts = s.harts := rfl
@[simp] theorem State.updTc_dies (s : State) (d t c : Nat) (f : TileCtx → TileCtx) : (s.updTc d t c f).dies = s.dies := rfl
@[simp] theorem State.updTc_traces (s : State) (d t c : Nat) (f : TileCtx → TileCtx) : (s.updTc d t c f).traces = s.traces := rfl
@[simp] theorem State.updTc_seqs (s : State) (d t c : Nat) (f : TileCtx → TileCtx) : (s.updTc d t c f).seqs = s.seqs := rfl
@[simp] theorem State.updTc_regions (s : State) (d t c : Nat) (f : TileCtx → TileCtx) : (s.updTc d t c f).regions = s.regions := rfl
@[simp] theorem State.updTc_current (s : State) (d t c : Nat) (f : TileCtx → TileCtx) : (s.updTc d t c f).current = s.current := rfl
@[simp] theorem State.updTc_mtTlb (s : State) (d t c : Nat) (f : TileCtx → TileCtx) : (s.updTc d t c f).mtTlb = s.mtTlb := rfl
@[simp] theorem State.updTc_tasks (s : State) (d t c : Nat) (f : TileCtx → TileCtx) : (s.updTc d t c f).tasks = s.tasks := rfl
@[simp] theorem State.updTc_images (s : State) (d t c : Nat) (f : TileCtx → TileCtx) : (s.updTc d t c f).images = s.images := rfl
@[simp] theorem State.updTc_queues (s : State) (d t c : Nat) (f : TileCtx → TileCtx) : (s.updTc d t c f).queues = s.queues := rfl
@[simp] theorem State.updTc_launches (s : State) (d t c : Nat) (f : TileCtx → TileCtx) : (s.updTc d t c f).launches = s.launches := rfl
@[simp] theorem State.updTc_nextLaunch (s : State) (d t c : Nat) (f : TileCtx → TileCtx) : (s.updTc d t c f).nextLaunch = s.nextLaunch := rfl
@[simp] theorem State.updTc_rr (s : State) (d t c : Nat) (f : TileCtx → TileCtx) : (s.updTc d t c f).rr = s.rr := rfl
@[simp] theorem State.updTc_nextCont (s : State) (d t c : Nat) (f : TileCtx → TileCtx) : (s.updTc d t c f).nextCont = s.nextCont := rfl
@[simp] theorem State.updTc_period (s : State) (d t c : Nat) (f : TileCtx → TileCtx) : (s.updTc d t c f).period = s.period := rfl
@[simp] theorem State.updTc_asidTab (s : State) (d t c : Nat) (f : TileCtx → TileCtx) : (s.updTc d t c f).asidTab = s.asidTab := rfl
@[simp] theorem State.updTc_rounds (s : State) (d t c : Nat) (f : TileCtx → TileCtx) : (s.updTc d t c f).rounds = s.rounds := rfl
@[simp] theorem State.updTc_membs (s : State) (d t c : Nat) (f : TileCtx → TileCtx) : (s.updTc d t c f).membs = s.membs := rfl
@[simp] theorem State.updTc_collections (s : State) (d t c : Nat) (f : TileCtx → TileCtx) : (s.updTc d t c f).collections = s.collections := rfl
@[simp] theorem State.updTc_early (s : State) (d t c : Nat) (f : TileCtx → TileCtx) : (s.updTc d t c f).early = s.early := rfl
@[simp] theorem State.updTc_published (s : State) (d t c : Nat) (f : TileCtx → TileCtx) : (s.updTc d t c f).published = s.published := rfl
@[simp] theorem State.updTc_epoch (s : State) (d t c : Nat) (f : TileCtx → TileCtx) : (s.updTc d t c f).epoch = s.epoch := rfl
@[simp] theorem State.updTc_sent (s : State) (d t c : Nat) (f : TileCtx → TileCtx) : (s.updTc d t c f).sent = s.sent := rfl
@[simp] theorem State.updTc_links (s : State) (d t c : Nat) (f : TileCtx → TileCtx) : (s.updTc d t c f).links = s.links := rfl
@[simp] theorem State.updTc_reach (s : State) (d t c : Nat) (f : TileCtx → TileCtx) : (s.updTc d t c f).reach = s.reach := rfl
@[simp] theorem State.updTc_portDown (s : State) (d t c : Nat) (f : TileCtx → TileCtx) : (s.updTc d t c f).portDown = s.portDown := rfl
@[simp] theorem State.updTc_host (s : State) (d t c : Nat) (f : TileCtx → TileCtx) : (s.updTc d t c f).host = s.host := rfl
@[simp] theorem State.updTc_morhan (s : State) (d t c : Nat) (f : TileCtx → TileCtx) : (s.updTc d t c f).morhan = s.morhan := rfl
@[simp] theorem State.updTc_hbmStacks (s : State) (d t c : Nat) (f : TileCtx → TileCtx) : (s.updTc d t c f).hbmStacks = s.hbmStacks := rfl

/-! `State.updLaunch` changes `launches` and no other field. -/

@[simp] theorem State.updLaunch_turns (s : State) (l : Nat) (f : Launch → Launch) : (s.updLaunch l f).turns = s.turns := rfl
@[simp] theorem State.updLaunch_cur (s : State) (l : Nat) (f : Launch → Launch) : (s.updLaunch l f).cur = s.cur := rfl
@[simp] theorem State.updLaunch_focus (s : State) (l : Nat) (f : Launch → Launch) : (s.updLaunch l f).focus = s.focus := rfl
@[simp] theorem State.updLaunch_free (s : State) (l : Nat) (f : Launch → Launch) : (s.updLaunch l f).free = s.free := rfl
@[simp] theorem State.updLaunch_cycle (s : State) (l : Nat) (f : Launch → Launch) : (s.updLaunch l f).cycle = s.cycle := rfl
@[simp] theorem State.updLaunch_mem (s : State) (l : Nat) (f : Launch → Launch) : (s.updLaunch l f).mem = s.mem := rfl
@[simp] theorem State.updLaunch_poison (s : State) (l : Nat) (f : Launch → Launch) : (s.updLaunch l f).poison = s.poison := rfl
@[simp] theorem State.updLaunch_l1 (s : State) (l : Nat) (f : Launch → Launch) : (s.updLaunch l f).l1 = s.l1 := rfl
@[simp] theorem State.updLaunch_il1 (s : State) (l : Nat) (f : Launch → Launch) : (s.updLaunch l f).il1 = s.il1 := rfl
@[simp] theorem State.updLaunch_casts (s : State) (l : Nat) (f : Launch → Launch) : (s.updLaunch l f).casts = s.casts := rfl
@[simp] theorem State.updLaunch_slow (s : State) (l : Nat) (f : Launch → Launch) : (s.updLaunch l f).slow = s.slow := rfl
@[simp] theorem State.updLaunch_later (s : State) (l : Nat) (f : Launch → Launch) : (s.updLaunch l f).later = s.later := rfl
@[simp] theorem State.updLaunch_olds (s : State) (l : Nat) (f : Launch → Launch) : (s.updLaunch l f).olds = s.olds := rfl
@[simp] theorem State.updLaunch_harts (s : State) (l : Nat) (f : Launch → Launch) : (s.updLaunch l f).harts = s.harts := rfl
@[simp] theorem State.updLaunch_dies (s : State) (l : Nat) (f : Launch → Launch) : (s.updLaunch l f).dies = s.dies := rfl
@[simp] theorem State.updLaunch_traces (s : State) (l : Nat) (f : Launch → Launch) : (s.updLaunch l f).traces = s.traces := rfl
@[simp] theorem State.updLaunch_seqs (s : State) (l : Nat) (f : Launch → Launch) : (s.updLaunch l f).seqs = s.seqs := rfl
@[simp] theorem State.updLaunch_regions (s : State) (l : Nat) (f : Launch → Launch) : (s.updLaunch l f).regions = s.regions := rfl
@[simp] theorem State.updLaunch_tiles (s : State) (l : Nat) (f : Launch → Launch) : (s.updLaunch l f).tiles = s.tiles := rfl
@[simp] theorem State.updLaunch_current (s : State) (l : Nat) (f : Launch → Launch) : (s.updLaunch l f).current = s.current := rfl
@[simp] theorem State.updLaunch_mtTlb (s : State) (l : Nat) (f : Launch → Launch) : (s.updLaunch l f).mtTlb = s.mtTlb := rfl
@[simp] theorem State.updLaunch_tasks (s : State) (l : Nat) (f : Launch → Launch) : (s.updLaunch l f).tasks = s.tasks := rfl
@[simp] theorem State.updLaunch_images (s : State) (l : Nat) (f : Launch → Launch) : (s.updLaunch l f).images = s.images := rfl
@[simp] theorem State.updLaunch_queues (s : State) (l : Nat) (f : Launch → Launch) : (s.updLaunch l f).queues = s.queues := rfl
@[simp] theorem State.updLaunch_nextLaunch (s : State) (l : Nat) (f : Launch → Launch) : (s.updLaunch l f).nextLaunch = s.nextLaunch := rfl
@[simp] theorem State.updLaunch_rr (s : State) (l : Nat) (f : Launch → Launch) : (s.updLaunch l f).rr = s.rr := rfl
@[simp] theorem State.updLaunch_nextCont (s : State) (l : Nat) (f : Launch → Launch) : (s.updLaunch l f).nextCont = s.nextCont := rfl
@[simp] theorem State.updLaunch_period (s : State) (l : Nat) (f : Launch → Launch) : (s.updLaunch l f).period = s.period := rfl
@[simp] theorem State.updLaunch_asidTab (s : State) (l : Nat) (f : Launch → Launch) : (s.updLaunch l f).asidTab = s.asidTab := rfl
@[simp] theorem State.updLaunch_rounds (s : State) (l : Nat) (f : Launch → Launch) : (s.updLaunch l f).rounds = s.rounds := rfl
@[simp] theorem State.updLaunch_membs (s : State) (l : Nat) (f : Launch → Launch) : (s.updLaunch l f).membs = s.membs := rfl
@[simp] theorem State.updLaunch_collections (s : State) (l : Nat) (f : Launch → Launch) : (s.updLaunch l f).collections = s.collections := rfl
@[simp] theorem State.updLaunch_early (s : State) (l : Nat) (f : Launch → Launch) : (s.updLaunch l f).early = s.early := rfl
@[simp] theorem State.updLaunch_published (s : State) (l : Nat) (f : Launch → Launch) : (s.updLaunch l f).published = s.published := rfl
@[simp] theorem State.updLaunch_epoch (s : State) (l : Nat) (f : Launch → Launch) : (s.updLaunch l f).epoch = s.epoch := rfl
@[simp] theorem State.updLaunch_sent (s : State) (l : Nat) (f : Launch → Launch) : (s.updLaunch l f).sent = s.sent := rfl
@[simp] theorem State.updLaunch_links (s : State) (l : Nat) (f : Launch → Launch) : (s.updLaunch l f).links = s.links := rfl
@[simp] theorem State.updLaunch_reach (s : State) (l : Nat) (f : Launch → Launch) : (s.updLaunch l f).reach = s.reach := rfl
@[simp] theorem State.updLaunch_portDown (s : State) (l : Nat) (f : Launch → Launch) : (s.updLaunch l f).portDown = s.portDown := rfl
@[simp] theorem State.updLaunch_host (s : State) (l : Nat) (f : Launch → Launch) : (s.updLaunch l f).host = s.host := rfl
@[simp] theorem State.updLaunch_morhan (s : State) (l : Nat) (f : Launch → Launch) : (s.updLaunch l f).morhan = s.morhan := rfl
@[simp] theorem State.updLaunch_hbmStacks (s : State) (l : Nat) (f : Launch → Launch) : (s.updLaunch l f).hbmStacks = s.hbmStacks := rfl

/-! `State.record` changes `traces` and no other field. -/

@[simp] theorem State.record_turns (s : State) (c t b h w : Nat) : (s.record c t b h w).turns = s.turns := rfl
@[simp] theorem State.record_cur (s : State) (c t b h w : Nat) : (s.record c t b h w).cur = s.cur := rfl
@[simp] theorem State.record_focus (s : State) (c t b h w : Nat) : (s.record c t b h w).focus = s.focus := rfl
@[simp] theorem State.record_free (s : State) (c t b h w : Nat) : (s.record c t b h w).free = s.free := rfl
@[simp] theorem State.record_cycle (s : State) (c t b h w : Nat) : (s.record c t b h w).cycle = s.cycle := rfl
@[simp] theorem State.record_mem (s : State) (c t b h w : Nat) : (s.record c t b h w).mem = s.mem := rfl
@[simp] theorem State.record_poison (s : State) (c t b h w : Nat) : (s.record c t b h w).poison = s.poison := rfl
@[simp] theorem State.record_l1 (s : State) (c t b h w : Nat) : (s.record c t b h w).l1 = s.l1 := rfl
@[simp] theorem State.record_il1 (s : State) (c t b h w : Nat) : (s.record c t b h w).il1 = s.il1 := rfl
@[simp] theorem State.record_casts (s : State) (c t b h w : Nat) : (s.record c t b h w).casts = s.casts := rfl
@[simp] theorem State.record_slow (s : State) (c t b h w : Nat) : (s.record c t b h w).slow = s.slow := rfl
@[simp] theorem State.record_later (s : State) (c t b h w : Nat) : (s.record c t b h w).later = s.later := rfl
@[simp] theorem State.record_olds (s : State) (c t b h w : Nat) : (s.record c t b h w).olds = s.olds := rfl
@[simp] theorem State.record_harts (s : State) (c t b h w : Nat) : (s.record c t b h w).harts = s.harts := rfl
@[simp] theorem State.record_dies (s : State) (c t b h w : Nat) : (s.record c t b h w).dies = s.dies := rfl
@[simp] theorem State.record_seqs (s : State) (c t b h w : Nat) : (s.record c t b h w).seqs = s.seqs := rfl
@[simp] theorem State.record_regions (s : State) (c t b h w : Nat) : (s.record c t b h w).regions = s.regions := rfl
@[simp] theorem State.record_tiles (s : State) (c t b h w : Nat) : (s.record c t b h w).tiles = s.tiles := rfl
@[simp] theorem State.record_current (s : State) (c t b h w : Nat) : (s.record c t b h w).current = s.current := rfl
@[simp] theorem State.record_mtTlb (s : State) (c t b h w : Nat) : (s.record c t b h w).mtTlb = s.mtTlb := rfl
@[simp] theorem State.record_tasks (s : State) (c t b h w : Nat) : (s.record c t b h w).tasks = s.tasks := rfl
@[simp] theorem State.record_images (s : State) (c t b h w : Nat) : (s.record c t b h w).images = s.images := rfl
@[simp] theorem State.record_queues (s : State) (c t b h w : Nat) : (s.record c t b h w).queues = s.queues := rfl
@[simp] theorem State.record_launches (s : State) (c t b h w : Nat) : (s.record c t b h w).launches = s.launches := rfl
@[simp] theorem State.record_nextLaunch (s : State) (c t b h w : Nat) : (s.record c t b h w).nextLaunch = s.nextLaunch := rfl
@[simp] theorem State.record_rr (s : State) (c t b h w : Nat) : (s.record c t b h w).rr = s.rr := rfl
@[simp] theorem State.record_nextCont (s : State) (c t b h w : Nat) : (s.record c t b h w).nextCont = s.nextCont := rfl
@[simp] theorem State.record_period (s : State) (c t b h w : Nat) : (s.record c t b h w).period = s.period := rfl
@[simp] theorem State.record_asidTab (s : State) (c t b h w : Nat) : (s.record c t b h w).asidTab = s.asidTab := rfl
@[simp] theorem State.record_rounds (s : State) (c t b h w : Nat) : (s.record c t b h w).rounds = s.rounds := rfl
@[simp] theorem State.record_membs (s : State) (c t b h w : Nat) : (s.record c t b h w).membs = s.membs := rfl
@[simp] theorem State.record_collections (s : State) (c t b h w : Nat) : (s.record c t b h w).collections = s.collections := rfl
@[simp] theorem State.record_early (s : State) (c t b h w : Nat) : (s.record c t b h w).early = s.early := rfl
@[simp] theorem State.record_published (s : State) (c t b h w : Nat) : (s.record c t b h w).published = s.published := rfl
@[simp] theorem State.record_epoch (s : State) (c t b h w : Nat) : (s.record c t b h w).epoch = s.epoch := rfl
@[simp] theorem State.record_sent (s : State) (c t b h w : Nat) : (s.record c t b h w).sent = s.sent := rfl
@[simp] theorem State.record_links (s : State) (c t b h w : Nat) : (s.record c t b h w).links = s.links := rfl
@[simp] theorem State.record_reach (s : State) (c t b h w : Nat) : (s.record c t b h w).reach = s.reach := rfl
@[simp] theorem State.record_portDown (s : State) (c t b h w : Nat) : (s.record c t b h w).portDown = s.portDown := rfl
@[simp] theorem State.record_host (s : State) (c t b h w : Nat) : (s.record c t b h w).host = s.host := rfl
@[simp] theorem State.record_morhan (s : State) (c t b h w : Nat) : (s.record c t b h w).morhan = s.morhan := rfl
@[simp] theorem State.record_hbmStacks (s : State) (c t b h w : Nat) : (s.record c t b h w).hbmStacks = s.hbmStacks := rfl

/-! A trace record changes `traces` alone. -/

@[simp] theorem State.traceEvent_turns (s : State) (t h w : Nat) : (s.traceEvent t h w).turns = s.turns := by
  unfold State.traceEvent; split <;> rfl
@[simp] theorem State.traceEvent_cur (s : State) (t h w : Nat) : (s.traceEvent t h w).cur = s.cur := by
  unfold State.traceEvent; split <;> rfl
@[simp] theorem State.traceEvent_focus (s : State) (t h w : Nat) : (s.traceEvent t h w).focus = s.focus := by
  unfold State.traceEvent; split <;> rfl
@[simp] theorem State.traceEvent_free (s : State) (t h w : Nat) : (s.traceEvent t h w).free = s.free := by
  unfold State.traceEvent; split <;> rfl
@[simp] theorem State.traceEvent_cycle (s : State) (t h w : Nat) : (s.traceEvent t h w).cycle = s.cycle := by
  unfold State.traceEvent; split <;> rfl
@[simp] theorem State.traceEvent_mem (s : State) (t h w : Nat) : (s.traceEvent t h w).mem = s.mem := by
  unfold State.traceEvent; split <;> rfl
@[simp] theorem State.traceEvent_poison (s : State) (t h w : Nat) : (s.traceEvent t h w).poison = s.poison := by
  unfold State.traceEvent; split <;> rfl
@[simp] theorem State.traceEvent_l1 (s : State) (t h w : Nat) : (s.traceEvent t h w).l1 = s.l1 := by
  unfold State.traceEvent; split <;> rfl
@[simp] theorem State.traceEvent_il1 (s : State) (t h w : Nat) : (s.traceEvent t h w).il1 = s.il1 := by
  unfold State.traceEvent; split <;> rfl
@[simp] theorem State.traceEvent_casts (s : State) (t h w : Nat) : (s.traceEvent t h w).casts = s.casts := by
  unfold State.traceEvent; split <;> rfl
@[simp] theorem State.traceEvent_slow (s : State) (t h w : Nat) : (s.traceEvent t h w).slow = s.slow := by
  unfold State.traceEvent; split <;> rfl
@[simp] theorem State.traceEvent_later (s : State) (t h w : Nat) : (s.traceEvent t h w).later = s.later := by
  unfold State.traceEvent; split <;> rfl
@[simp] theorem State.traceEvent_olds (s : State) (t h w : Nat) : (s.traceEvent t h w).olds = s.olds := by
  unfold State.traceEvent; split <;> rfl
@[simp] theorem State.traceEvent_harts (s : State) (t h w : Nat) : (s.traceEvent t h w).harts = s.harts := by
  unfold State.traceEvent; split <;> rfl
@[simp] theorem State.traceEvent_dies (s : State) (t h w : Nat) : (s.traceEvent t h w).dies = s.dies := by
  unfold State.traceEvent; split <;> rfl
@[simp] theorem State.traceEvent_seqs (s : State) (t h w : Nat) : (s.traceEvent t h w).seqs = s.seqs := by
  unfold State.traceEvent; split <;> rfl
@[simp] theorem State.traceEvent_regions (s : State) (t h w : Nat) : (s.traceEvent t h w).regions = s.regions := by
  unfold State.traceEvent; split <;> rfl
@[simp] theorem State.traceEvent_tiles (s : State) (t h w : Nat) : (s.traceEvent t h w).tiles = s.tiles := by
  unfold State.traceEvent; split <;> rfl
@[simp] theorem State.traceEvent_current (s : State) (t h w : Nat) : (s.traceEvent t h w).current = s.current := by
  unfold State.traceEvent; split <;> rfl
@[simp] theorem State.traceEvent_mtTlb (s : State) (t h w : Nat) : (s.traceEvent t h w).mtTlb = s.mtTlb := by
  unfold State.traceEvent; split <;> rfl
@[simp] theorem State.traceEvent_tasks (s : State) (t h w : Nat) : (s.traceEvent t h w).tasks = s.tasks := by
  unfold State.traceEvent; split <;> rfl
@[simp] theorem State.traceEvent_images (s : State) (t h w : Nat) : (s.traceEvent t h w).images = s.images := by
  unfold State.traceEvent; split <;> rfl
@[simp] theorem State.traceEvent_queues (s : State) (t h w : Nat) : (s.traceEvent t h w).queues = s.queues := by
  unfold State.traceEvent; split <;> rfl
@[simp] theorem State.traceEvent_launches (s : State) (t h w : Nat) : (s.traceEvent t h w).launches = s.launches := by
  unfold State.traceEvent; split <;> rfl
@[simp] theorem State.traceEvent_nextLaunch (s : State) (t h w : Nat) : (s.traceEvent t h w).nextLaunch = s.nextLaunch := by
  unfold State.traceEvent; split <;> rfl
@[simp] theorem State.traceEvent_rr (s : State) (t h w : Nat) : (s.traceEvent t h w).rr = s.rr := by
  unfold State.traceEvent; split <;> rfl
@[simp] theorem State.traceEvent_nextCont (s : State) (t h w : Nat) : (s.traceEvent t h w).nextCont = s.nextCont := by
  unfold State.traceEvent; split <;> rfl
@[simp] theorem State.traceEvent_period (s : State) (t h w : Nat) : (s.traceEvent t h w).period = s.period := by
  unfold State.traceEvent; split <;> rfl
@[simp] theorem State.traceEvent_asidTab (s : State) (t h w : Nat) : (s.traceEvent t h w).asidTab = s.asidTab := by
  unfold State.traceEvent; split <;> rfl
@[simp] theorem State.traceEvent_rounds (s : State) (t h w : Nat) : (s.traceEvent t h w).rounds = s.rounds := by
  unfold State.traceEvent; split <;> rfl
@[simp] theorem State.traceEvent_membs (s : State) (t h w : Nat) : (s.traceEvent t h w).membs = s.membs := by
  unfold State.traceEvent; split <;> rfl
@[simp] theorem State.traceEvent_collections (s : State) (t h w : Nat) : (s.traceEvent t h w).collections = s.collections := by
  unfold State.traceEvent; split <;> rfl
@[simp] theorem State.traceEvent_early (s : State) (t h w : Nat) : (s.traceEvent t h w).early = s.early := by
  unfold State.traceEvent; split <;> rfl
@[simp] theorem State.traceEvent_published (s : State) (t h w : Nat) : (s.traceEvent t h w).published = s.published := by
  unfold State.traceEvent; split <;> rfl
@[simp] theorem State.traceEvent_epoch (s : State) (t h w : Nat) : (s.traceEvent t h w).epoch = s.epoch := by
  unfold State.traceEvent; split <;> rfl
@[simp] theorem State.traceEvent_sent (s : State) (t h w : Nat) : (s.traceEvent t h w).sent = s.sent := by
  unfold State.traceEvent; split <;> rfl
@[simp] theorem State.traceEvent_links (s : State) (t h w : Nat) : (s.traceEvent t h w).links = s.links := by
  unfold State.traceEvent; split <;> rfl
@[simp] theorem State.traceEvent_reach (s : State) (t h w : Nat) : (s.traceEvent t h w).reach = s.reach := by
  unfold State.traceEvent; split <;> rfl
@[simp] theorem State.traceEvent_portDown (s : State) (t h w : Nat) : (s.traceEvent t h w).portDown = s.portDown := by
  unfold State.traceEvent; split <;> rfl
@[simp] theorem State.traceEvent_host (s : State) (t h w : Nat) : (s.traceEvent t h w).host = s.host := by
  unfold State.traceEvent; split <;> rfl
@[simp] theorem State.traceEvent_morhan (s : State) (t h w : Nat) : (s.traceEvent t h w).morhan = s.morhan := by
  unfold State.traceEvent; split <;> rfl
@[simp] theorem State.traceEvent_hbmStacks (s : State) (t h w : Nat) : (s.traceEvent t h w).hbmStacks = s.hbmStacks := by
  unfold State.traceEvent; split <;> rfl

end Sys2Proof.Machine
end

