-- ==== Sys2Proof/Laws/Memory.lean ====
section
/-!
SUPPORT. Memory: a write keeps the canonical form, gives back what it wrote, and leaves every other byte alone.
-/
namespace Sys2Proof.Machine

namespace Memory

/-- The canonical form as an inductive reading: every address listed lies at or above a bound, rising, and no zero is listed. -/
def above : Nat → List Host.Cell → Prop
  | _, [] => True
  | n, (a, b) :: t => n ≤ a ∧ b ≠ 0#8 ∧ above (a + 1) t

theorem above_mono {n m : Nat} (h : m ≤ n) : ∀ {l : List Host.Cell}, above n l → above m l
  | [], _ => trivial
  | _ :: _, ⟨h1, h2, h3⟩ => ⟨Nat.le_trans h h1, h2, h3⟩

theorem wf_iff_above (l : List Host.Cell) : wf l = true ↔ above 0 l := by
  suffices h : ∀ (n : Nat) (l : List Host.Cell), above n l ↔ (wf l = true ∧ ∀ c ∈ l.head?, n ≤ c.1) by
    simpa using (h 0 l).symm
  intro n l
  induction l generalizing n with
  | nil => simp [above, wf]
  | cons c t ih =>
    obtain ⟨a, b⟩ := c
    cases t with
    | nil => simp [above, wf, and_comm]
    | cons d t =>
      obtain ⟨c, d⟩ := d
      rw [above, ih (a + 1)]
      simp only [wf, Bool.and_eq_true, bne_iff_ne, decide_eq_true_eq, List.head?_cons, Option.mem_def, Option.some.injEq,
        forall_eq']
      constructor
      · rintro ⟨h1, h2, h3, h4⟩; exact ⟨⟨⟨h2, h4⟩, h3⟩, h1⟩
      · rintro ⟨⟨⟨h2, h4⟩, h3⟩, h1⟩; exact ⟨h1, h2, h3, h4⟩

theorem above_append {n k : Nat} : ∀ {l r : List Host.Cell}, above n l → (∀ c ∈ l, c.1 < k) → n ≤ k → above k r → above n (l ++ r)
  | [], _, _, _, hk, hr => above_mono hk hr
  | c :: _, _, ⟨h1, h2, h3⟩, hl, _, hr =>
    ⟨h1, h2, above_append h3 (fun x hx => hl x (List.mem_cons_of_mem _ hx)) (hl c List.mem_cons_self) hr⟩

theorem above_filter (p : Host.Cell → Bool) : ∀ {n : Nat} {l : List Host.Cell}, above n l → above n (l.filter p)
  | _, [], _ => trivial
  | n, (a, b) :: t, ⟨h1, h2, h3⟩ => by
    rw [List.filter_cons]
    split
    · exact ⟨h1, h2, above_filter p h3⟩
    · exact above_mono (Nat.le_succ_of_le h1) (above_filter p h3)

theorem above_filter_ge (k : Nat) : ∀ {n : Nat} {l : List Host.Cell}, above n l → above k (l.filter fun c => k ≤ c.1)
  | _, [], _ => trivial
  | n, (a, b) :: t, ⟨h1, h2, h3⟩ => by
    rw [List.filter_cons]
    split
    · rename_i h
      refine ⟨by simpa using h, h2, above_filter _ h3⟩
    · exact above_filter_ge k h3

theorem above_cells : ∀ (a : Nat) (l : List Byte), above a (cells a l)
  | _, [] => trivial
  | a, b :: t => by
    unfold cells
    split
    · exact above_mono (Nat.le_succ a) (above_cells (a + 1) t)
    · rename_i h; exact ⟨Nat.le_refl a, h, above_cells (a + 1) t⟩

theorem cells_lt : ∀ (a : Nat) (l : List Byte), ∀ c ∈ cells a l, a ≤ c.1 ∧ c.1 < a + l.length
  | _, [], c, h => by simp [cells] at h
  | a, b :: t, c, h => by
    unfold cells at h
    have key : ∀ c ∈ cells (a + 1) t, a ≤ c.1 ∧ c.1 < a + (b :: t).length := fun c hc => by
      have := cells_lt (a + 1) t c hc; simp only [List.length_cons]; omega
    split at h
    · exact key c h
    · rcases List.mem_cons.mp h with rfl | h
      · simp
      · exact key c h

/-- A write keeps the canonical form. -/
theorem wf_write (m : List Host.Cell) (a : Nat) (l : List Byte) (h : wf m = true) : wf (write m a l) = true := by
  rw [wf_iff_above] at *
  unfold write
  have h1 : above 0 (m.filter fun c => c.1 < a) := above_filter _ h
  have h2 : above a (cells a l ++ m.filter fun c => a + l.length ≤ c.1) :=
    above_append (above_cells a l) (fun c hc => (cells_lt a l c hc).2) (Nat.le_add_right _ _) (above_filter_ge _ h)
  rw [List.append_assoc]
  exact above_append h1 (fun c hc => by simpa using (List.mem_filter.mp hc).2) (Nat.zero_le _) h2

theorem get_append (l r : List Host.Cell) (x : Nat) :
    get (l ++ r) x = if l.any (fun c => c.1 == x) then get l x else get r x := by
  induction l with
  | nil => simp
  | cons c t ih =>
    obtain ⟨k, b⟩ := c
    by_cases h : k = x
    · simp [get, h]
    · simp [get, h, ih]

theorem get_of_not_mem (l : List Host.Cell) (x : Nat) (h : l.any (fun c => c.1 == x) = false) : get l x = 0#8 := by
  induction l with
  | nil => rfl
  | cons c t ih =>
    obtain ⟨k, b⟩ := c
    simp only [List.any_cons, Bool.or_eq_false_iff, beq_eq_false_iff_ne] at h
    simp [get, h.1, ih h.2]

theorem get_filter (p : Host.Cell → Bool) (x : Nat) (hp : ∀ b, p (x, b) = true) (l : List Host.Cell) :
    get (l.filter p) x = get l x := by
  induction l with
  | nil => rfl
  | cons c t ih =>
    obtain ⟨k, b⟩ := c
    rw [List.filter_cons]
    by_cases h : k = x
    · subst h; simp [hp, get]
    · split <;> simp [get, h, ih]

theorem get_filter_none (p : Host.Cell → Bool) (x : Nat) (hp : ∀ b, p (x, b) = false) (l : List Host.Cell) :
    (l.filter p).any (fun c => c.1 == x) = false := by
  simp only [List.any_eq_false, List.mem_filter, beq_iff_eq, and_imp]
  rintro ⟨k, b⟩ _ hb rfl
  simp [hp] at hb

theorem get_cells (x : Nat) : ∀ (a : Nat) (l : List Byte), get (cells a l) x = if a ≤ x then l.getD (x - a) 0#8 else 0#8
  | a, [] => by simp [cells, get]
  | a, b :: t => by
    have ih := get_cells x (a + 1) t
    unfold cells
    by_cases h : a = x
    · subst h
      split
      · rename_i hb; rw [ih]; simp [hb, show ¬ a + 1 ≤ a by omega]
      · simp [get]
    · have e : (if a + 1 ≤ x then t.getD (x - (a + 1)) 0#8 else 0#8) = if a ≤ x then (b :: t).getD (x - a) 0#8 else 0#8 := by
        by_cases h2 : a + 1 ≤ x
        · have h3 : x - a = (x - (a + 1)) + 1 := by omega
          simp [h2, Nat.le_of_succ_le h2, h3]
        · have h3 : ¬ a ≤ x := by omega
          simp [h2, h3]
      split
      · rw [ih, e]
      · simp only [get, h, if_false]; rw [ih, e]

/-- A byte inside a write reads as written. -/
theorem get_write_in (m : List Host.Cell) (a : Nat) (l : List Byte) (x : Nat) (h1 : a ≤ x) (h2 : x < a + l.length) :
    get (write m a l) x = l.getD (x - a) 0#8 := by
  unfold write
  rw [List.append_assoc, get_append, get_filter_none _ x (by simp; omega)]
  simp only [Bool.false_eq_true, if_false]
  rw [get_append]
  have hr := get_filter_none (fun c : Host.Cell => decide (a + l.length ≤ c.1)) x (by simp; omega) m
  split
  · rw [get_cells]; simp [h1]
  · rename_i hc
    have hc' : (cells a l).any (fun c => c.1 == x) = false := Bool.eq_false_iff.mpr hc
    have := get_of_not_mem _ x hc'
    rw [get_cells, if_pos h1] at this
    rw [get_of_not_mem _ x hr, this]

/-- A byte outside a write reads as before. -/
theorem get_write_out (m : List Host.Cell) (a : Nat) (l : List Byte) (x : Nat) (h : x < a ∨ a + l.length ≤ x) :
    get (write m a l) x = get m x := by
  unfold write
  have hc : (cells a l).any (fun c => c.1 == x) = false := by
    simp only [List.any_eq_false, beq_iff_eq]
    intro c hc e
    have := cells_lt a l c hc; omega
  rw [List.append_assoc, get_append]
  rcases h with h | h
  · split
    · exact get_filter _ x (by simp; omega) m
    · rename_i hn
      have hn' : (m.filter fun c => decide (c.1 < a)).any (fun c => c.1 == x) = false := Bool.eq_false_iff.mpr hn
      have e := get_of_not_mem _ x hn'
      rw [get_filter _ x (by simp; omega)] at e
      rw [get_append, hc, e]
      simp only [Bool.false_eq_true, if_false]
      exact get_of_not_mem _ x (get_filter_none _ x (by simp; omega) m)
  · rw [get_filter_none _ x (by simp; omega) m, get_append, hc]
    simp only [Bool.false_eq_true, if_false]
    exact get_filter _ x (by simp; omega) m

end Memory

/-- Memory after reset lists nothing. -/
theorem State.reset_memOk : State.reset.memOk := rfl

/-- Writing bytes keeps the canonical form. -/
theorem State.put_memOk (s : State) (pa : Nat) (l : List Byte) (h : s.memOk) : (s.put pa l).memOk := Memory.wf_write _ _ _ h

/-- Writing bytes changes those bytes alone. -/
theorem State.put_sameMemBut (s : State) (pa : Nat) (l : List Byte) : s.SameMemBut (s.put pa l) pa l.length :=
  fun x h => Memory.get_write_out _ _ _ x h

end Sys2Proof.Machine
end

