-- ==== Sys2Proof/Laws/Regs.lean ====
section
/-!
SUPPORT. Tables, harts and registers: what a read gives after a write.
-/
namespace Sys2Proof.Machine

/-! ## Tables -/

theorem Tbl.find?_set {α : Type} (t : Tbl α) (n m : Nat) (a : α) :
    Tbl.find? (Tbl.set t n a) m = if m = n then some a else Tbl.find? t m := by
  induction t with
  | nil =>
    by_cases h : m = n
    · simp [Tbl.set, Tbl.find?, h]
    · simp [Tbl.set, Tbl.find?, h, Ne.symm h]
  | cons p t ih =>
    obtain ⟨k, b⟩ := p
    by_cases h1 : n < k
    · by_cases h : m = n
      · simp [Tbl.set, h1, Tbl.find?, h]
      · simp [Tbl.set, h1, Tbl.find?, h, Ne.symm h]
    · by_cases h2 : n = k
      · subst h2
        by_cases h : m = n
        · simp [Tbl.set, Tbl.find?, h]
        · simp [Tbl.set, Tbl.find?, h, Ne.symm h]
      · by_cases hk : k = m
        · subst hk; simp [Tbl.set, h1, h2, Tbl.find?, Ne.symm h2]
        · simp [Tbl.set, h1, h2, Tbl.find?, hk, ih]

@[simp] theorem Tbl.getD_set_same {α : Type} (t : Tbl α) (n : Nat) (a d : α) : Tbl.getD (Tbl.set t n a) n d = a := by
  simp [Tbl.getD, Tbl.find?_set]

theorem Tbl.getD_set_other {α : Type} (t : Tbl α) {n m : Nat} (a d : α) (h : m ≠ n) :
    Tbl.getD (Tbl.set t n a) m d = Tbl.getD t m d := by
  simp [Tbl.getD, Tbl.find?_set, h]

theorem Tbl.set_set {α : Type} (t : Tbl α) (n : Nat) (a b : α) : Tbl.set (Tbl.set t n a) n b = Tbl.set t n b := by
  induction t with
  | nil => simp [Tbl.set]
  | cons p t ih =>
    obtain ⟨k, c⟩ := p
    by_cases h1 : n < k
    · simp [Tbl.set, h1]
    · by_cases h2 : n = k
      · simp [Tbl.set, h2]
      · simp [Tbl.set, h1, h2, ih]

/-! ## Harts -/

@[simp] theorem State.hart_setHart (s : State) (h : HartId) (x : Hart) : (s.setHart h x).hart h = x := by
  simp [State.hart, State.setHart]

theorem State.hart_setHart_other (s : State) {h k : HartId} (x : Hart) (hk : k ≠ h) : (s.setHart h x).hart k = s.hart k := by
  simp only [State.hart, State.setHart]
  exact Tbl.getD_set_other _ _ _ fun e => hk (Fin.ext e)

theorem State.setHart_setHart (s : State) (h : HartId) (x y : Hart) : (s.setHart h x).setHart h y = s.setHart h y := by
  simp [State.setHart, Tbl.set_set]

@[simp] theorem State.me_updMe (s : State) (f : Hart → Hart) : (s.updMe f).me = f s.me := by
  simp [State.updMe, State.updHart, State.me]

@[simp] theorem State.me_updCtx (s : State) (f : Ctx → Ctx) : (s.updCtx f).me = { s.me with ctx := f s.me.ctx } := by
  simp [State.updCtx]

@[simp] theorem State.ctx_updCtx (s : State) (f : Ctx → Ctx) : (s.updCtx f).ctx = f s.ctx := by
  simp [State.ctx]

theorem State.hart_updCtx_other (s : State) (f : Ctx → Ctx) {k : HartId} (hk : k ≠ s.cur) : (s.updCtx f).hart k = s.hart k :=
  State.hart_setHart_other s _ hk

theorem State.updCtx_updCtx (s : State) (f g : Ctx → Ctx) : (s.updCtx f).updCtx g = s.updCtx fun c => g (f c) := by
  simp [State.updCtx, State.updMe, State.updHart, State.setHart_setHart]

/-! ## Registers -/

theorem Ctx.rd_wr (c : Ctx) (d r : SReg) (v : Word) : (c.wr d v).rd r = if r = d ∧ r ≠ 0 then v else c.rd r := by
  unfold Ctx.rd Ctx.wr
  by_cases hd : d = 0
  · by_cases hr : r = 0 <;> simp [hd, hr]
  · by_cases hr : r = 0
    · simp [hr]
    · by_cases e : r = d
      · subst e; simp [hr]
      · have e' : (d : Nat) ≠ r := fun h => e (Fin.ext h.symm)
        simp [hd, hr, e, Vector.getElem_set_ne _ _ e']

@[simp] theorem Ctx.rd_zero (c : Ctx) : c.rd 0 = 0 := by simp [Ctx.rd]

@[simp] theorem State.rd_zero (s : State) : s.rd 0 = 0 := by simp [State.rd]

theorem State.rd_wr (s : State) (d r : SReg) (v : Word) : (s.wr d v).rd r = if r = d ∧ r ≠ 0 then v else s.rd r := by
  simp [State.rd, State.wr, Ctx.rd_wr]

/-! ## Completion -/

theorem Ctx.loop0Back_still (c : Ctx) : c.loop0Back.1.still = c.still := by
  unfold Ctx.loop0Back Ctx.still; split
  · split <;> rfl
  · rfl

theorem Ctx.loop1Back_still (c : Ctx) : c.loop1Back.1.still = c.still := by
  unfold Ctx.loop1Back Ctx.still; split
  · split <;> rfl
  · rfl

theorem Ctx.still_setPc (c : Ctx) (a : Word) : ({ c with pc := a } : Ctx).still = c.still := rfl

theorem Ctx.fallThrough_still (c : Ctx) : c.fallThrough.still = c.still := by
  unfold Ctx.fallThrough
  cases c.last1 <;> dsimp only <;> (repeat' split) <;> simp_all [Ctx.still_setPc, Ctx.loop0Back_still, Ctx.loop1Back_still]

/-- Which fields of a continuation completion leaves as they are (R49, R52). -/
theorem Ctx.finish_still (c : Ctx) : c.finish.still = c.still := by
  unfold Ctx.finish
  dsimp only
  split
  · split
    · rw [Ctx.fallThrough_still]; rfl
    · rfl
  · rw [Ctx.fallThrough_still]; rfl

@[simp] theorem Ctx.loop0Back_bad (c : Ctx) : c.loop0Back.1.bad = c.bad := by
  unfold Ctx.loop0Back; split
  · split <;> rfl
  · rfl

@[simp] theorem Ctx.loop1Back_bad (c : Ctx) : c.loop1Back.1.bad = c.bad := by
  unfold Ctx.loop1Back; split
  · split <;> rfl
  · rfl

@[simp] theorem Ctx.fallThrough_bad (c : Ctx) : c.fallThrough.bad = c.bad := by
  unfold Ctx.fallThrough
  cases c.last1 <;> dsimp only <;> (repeat' split) <;> simp

/-- Completion strikes and mends no register. -/
@[simp] theorem Ctx.finish_bad (c : Ctx) : c.finish.bad = c.bad := by
  unfold Ctx.finish
  dsimp only
  split
  · split <;> simp
  · simp

end Sys2Proof.Machine
end

