-- ==== Sys2Proof/Laws/Ops.lean ====
section
/-!
SUPPORT. What the shared operations do: completion, a result, a vector or mask result, a transfer, and how a meaning ends.
-/
namespace Sys2Proof.Machine

/-- What completion reads of a continuation (R49, R50, R52). -/
def Ctx.sameFlow (c d : Ctx) : Prop :=
  d.pc = c.pc ∧ d.lc0 = c.lc0 ∧ d.lc1 = c.lc1 ∧ d.loop0 = c.loop0 ∧ d.loop1 = c.loop1 ∧ d.last1 = c.last1 ∧ d.rep = c.rep

theorem Ctx.loop0Back_flow {c d : Ctx} (h : c.sameFlow d) :
    c.loop0Back.1.sameFlow d.loop0Back.1 ∧ d.loop0Back.2 = c.loop0Back.2 := by
  obtain ⟨h1, h2, h3, h4, h5, h6, h7⟩ := h
  unfold Ctx.loop0Back; rw [h1, h2, h4]
  split
  · split <;> simp [Ctx.sameFlow, *]
  · simp [Ctx.sameFlow, *]

theorem Ctx.loop1Back_flow {c d : Ctx} (h : c.sameFlow d) :
    c.loop1Back.1.sameFlow d.loop1Back.1 ∧ d.loop1Back.2 = c.loop1Back.2 := by
  obtain ⟨h1, h2, h3, h4, h5, h6, h7⟩ := h
  unfold Ctx.loop1Back; rw [h1, h3, h5]
  split
  · split <;> simp [Ctx.sameFlow, *]
  · simp [Ctx.sameFlow, *]

theorem Ctx.fallThrough_flow {c d : Ctx} (h : c.sameFlow d) : c.fallThrough.sameFlow d.fallThrough := by
  have h' := h
  obtain ⟨h1, h2, h3, h4, h5, h6, h7⟩ := h'
  unfold Ctx.fallThrough
  rw [h6]
  cases c.last1 with
  | true =>
    obtain ⟨a, b⟩ := Ctx.loop1Back_flow h
    obtain ⟨a', b'⟩ := Ctx.loop0Back_flow a
    dsimp only
    simp only [if_true, b]
    split
    · exact a
    · simp only [b']
      split
      · exact a'
      · obtain ⟨g1, g2, g3, g4, g5, g6, g7⟩ := a'
        exact ⟨by simp [h1], g2, g3, g4, g5, g6, g7⟩
  | false =>
    obtain ⟨a, b⟩ := Ctx.loop0Back_flow h
    obtain ⟨a', b'⟩ := Ctx.loop1Back_flow a
    dsimp only
    simp only [b, Bool.false_eq_true, if_false]
    split
    · exact a
    · simp only [b']
      split
      · exact a'
      · obtain ⟨g1, g2, g3, g4, g5, g6, g7⟩ := a'
        exact ⟨by simp [h1], g2, g3, g4, g5, g6, g7⟩

/-- Completion depends on the pc, the loops and the repeat alone. -/
theorem Ctx.finish_flow {c d : Ctx} (h : c.sameFlow d) : c.finish.sameFlow d.finish := by
  have h' := h
  obtain ⟨h1, h2, h3, h4, h5, h6, h7⟩ := h'
  unfold Ctx.finish
  dsimp only
  rw [h7]
  split
  · split
    · exact Ctx.fallThrough_flow ⟨h1, h2, h3, h4, h5, h6, rfl⟩
    · exact ⟨h1, h2, h3, h4, h5, h6, rfl⟩
  · exact Ctx.fallThrough_flow ⟨h1, h2, h3, h4, h5, h6, rfl⟩

/-- A change of the continuation that leaves its flow alone, and completion: everything else of the package is as before. -/
theorem State.complete_updCtx (s : State) (f : Ctx → Ctx) (g : Ctx → Ctx → Ctx) (hf : s.ctx.sameFlow (f s.ctx))
    (hb : ∀ r ∈ (f s.ctx).bad, r ∈ s.ctx.bad) (hg : g s.ctx.still (f s.ctx).still = s.ctx.still) : s.Only (s.updCtx f).complete g := by
  unfold State.complete
  rw [State.updCtx_updCtx]
  refine ⟨⟨rfl, ⟨rfl, fun _ => rfl⟩, fun h hh => State.hart_updCtx_other s _ hh, ?_, fun _ => rfl⟩, ?_, ?_⟩
  · simp [State.SameHartRegs]
  · obtain ⟨a, b, c, d, e, _, k⟩ := Ctx.finish_flow hf
    simp only [State.ctx_updCtx]
    exact ⟨a, b, c, d, e, k, by simpa using hb⟩
  · simp only [State.ctx_updCtx, Ctx.finish_still]; exact hg

/-- An instruction without a result completes (R57). -/
theorem State.complete_idles (s : State) : s.Idles s.complete := by
  have h := State.complete_updCtx s (fun c => c) (fun _ new => new) ⟨rfl, rfl, rfl, rfl, rfl, rfl, rfl⟩ (fun _ h => h) rfl
  have e : (s.updCtx (fun c => c)).complete = s.complete := by
    unfold State.complete; rw [State.updCtx_updCtx]
  rwa [e] at h

theorem Ctx.wr_flow (c : Ctx) (d : SReg) (v : Word) : c.sameFlow (c.wr d v) := by
  unfold Ctx.wr; split <;> exact ⟨rfl, rfl, rfl, rfl, rfl, rfl, rfl⟩

@[simp] theorem Ctx.rd_finish (c : Ctx) (r : SReg) : c.finish.rd r = c.rd r := by
  have h := congrArg Ctx.s (Ctx.finish_still c)
  simp only [Ctx.still] at h
  unfold Ctx.rd; rw [h]

@[simp] theorem State.rd_complete (s : State) (r : SReg) : s.complete.rd r = s.rd r := by
  simp [State.rd, State.complete]

/-- A result in a scalar register (R20, R36). -/
theorem State.result_computes (s : State) (d : SReg) (v : Word) : s.Computes (s.result d v) d v := by
  refine ⟨?_, fun r hr => ?_, ?_⟩
  · simp only [State.result, State.rd_complete, State.rd_wr]
    by_cases h : d = 0 <;> simp [h]
  · simp [State.result, State.rd_wr, hr]
  · refine State.complete_updCtx s (fun c => c.wr d v) _ (Ctx.wr_flow _ _ _) ?_ ?_
    · unfold Ctx.wr; split
      · exact fun _ h => h
      · exact fun _ h => (List.mem_filter.mp h).1
    · unfold Ctx.wr; split <;> rfl

theorem Ctx.v_finish (c : Ctx) : c.finish.v = c.v := by
  have h := congrArg Ctx.v (Ctx.finish_still c); simpa [Ctx.still] using h

theorem Ctx.m_finish (c : Ctx) : c.finish.m = c.m := by
  have h := congrArg Ctx.m (Ctx.finish_still c); simpa [Ctx.still] using h

@[simp] theorem State.rdV_complete (s : State) (r : Fin 32) : s.complete.rdV r = s.rdV r := by
  simp [State.rdV, State.complete, Ctx.v_finish]

@[simp] theorem State.rdM_complete (s : State) (r : MReg) : s.complete.rdM r = s.rdM r := by
  simp [State.rdM, State.complete, Ctx.m_finish]

theorem State.rdV_wrV (s : State) (d r : Fin 32) (x : Line) : (s.wrV d x).rdV r = if r = d then x else s.rdV r := by
  simp only [State.rdV, State.wrV, State.ctx_updCtx]
  by_cases e : r = d
  · subst e; simp
  · have e' : (d : Nat) ≠ r := fun h => e (Fin.ext h.symm)
    simp [e, Vector.getElem_set_ne _ _ e']

/-- A result in a vector register. -/
theorem State.wrV_computes (s : State) (d : Fin 32) (x : Line) : s.ComputesV (s.wrV d x).complete d x := by
  refine ⟨?_, fun r hr => ?_, ?_⟩
  · simp [State.rdV_wrV]
  · simp [State.rdV_wrV, hr]
  · exact State.complete_updCtx s _ _ ⟨rfl, rfl, rfl, rfl, rfl, rfl, rfl⟩ (fun _ h => (List.mem_filter.mp h).1) rfl

/-- How a meaning ends is a next state, always (R7). -/
theorem ends_next (s : State) (m : M Unit) : ends s m = .next (s.runM m) := rfl

/-- A meaning that gives a value ends with its completion. -/
theorem State.runM_ok {s t : State} {m : M Unit} (h : m s = .ok () t) : s.runM m = t.complete := by
  simp [State.runM, h]

/-- A meaning that stops with a trap takes it (R400). -/
theorem State.runM_trap {s t : State} {m : M Unit} {p : PendTrap} (h : m s = .error (.trap p) t) :
    s.runM m = t.enter t.cur p := by
  simp [State.runM, h]

/-- A meaning that transfers control ends there (R46). -/
theorem State.runM_done {s t : State} {m : M Unit} (h : m s = .error .done t) : s.runM m = t := by
  simp [State.runM, h]

end Sys2Proof.Machine
end

