-- ==== Sys2Proof/Laws/PerInstr.lean ====
section
/-!
SUPPORT. The statements made of each instruction: its word fits in 32 bits (R10).
-/
namespace Sys2Proof.Laws.Encoding

/-- The word of an instruction, where it has one, is a 32-bit word. -/
def Statement (i : Instr) : Prop := ∀ w, encode i = some w → w < 2 ^ 32

theorem fits {x w : Nat} (h : some x = some w) (hx : x < 2 ^ 32) : w < 2 ^ 32 := Option.some.inj h ▸ hx

theorem ldSize (x : LdSize) : x.toNat < 8 := by cases x <;> decide
theorem stSize (x : StSize) : x.toNat < 4 := by cases x <;> decide
theorem cond (x : Cond) : x.toNat < 8 := by cases x <;> decide
theorem sysReg (x : SysReg) : x.toNat < 4096 := by cases x <;> decide
theorem vsrcEnc (x : VSrc) : x.enc < 65536 := by cases x <;> simp only [VSrc.enc] <;> omega

theorem add (d : SReg) (a : SReg) (b : SReg) : Statement (.add d a b) := by intro w' he; exact fits (x := 0x04000000 + d.val * 1048576 + a.val * 16384 + b.val * 256) he (by omega)
theorem sub (d : SReg) (a : SReg) (b : SReg) : Statement (.sub d a b) := by intro w' he; exact fits (x := 0x04000001 + d.val * 1048576 + a.val * 16384 + b.val * 256) he (by omega)
theorem and (d : SReg) (a : SReg) (b : SReg) : Statement (.and d a b) := by intro w' he; exact fits (x := 0x04000002 + d.val * 1048576 + a.val * 16384 + b.val * 256) he (by omega)
theorem or (d : SReg) (a : SReg) (b : SReg) : Statement (.or d a b) := by intro w' he; exact fits (x := 0x04000003 + d.val * 1048576 + a.val * 16384 + b.val * 256) he (by omega)
theorem xor (d : SReg) (a : SReg) (b : SReg) : Statement (.xor d a b) := by intro w' he; exact fits (x := 0x04000004 + d.val * 1048576 + a.val * 16384 + b.val * 256) he (by omega)
theorem andn (d : SReg) (a : SReg) (b : SReg) : Statement (.andn d a b) := by intro w' he; exact fits (x := 0x04000005 + d.val * 1048576 + a.val * 16384 + b.val * 256) he (by omega)
theorem shl (d : SReg) (a : SReg) (b : SReg) : Statement (.shl d a b) := by intro w' he; exact fits (x := 0x04000006 + d.val * 1048576 + a.val * 16384 + b.val * 256) he (by omega)
theorem shr (d : SReg) (a : SReg) (b : SReg) : Statement (.shr d a b) := by intro w' he; exact fits (x := 0x04000007 + d.val * 1048576 + a.val * 16384 + b.val * 256) he (by omega)
theorem sra (d : SReg) (a : SReg) (b : SReg) : Statement (.sra d a b) := by intro w' he; exact fits (x := 0x04000008 + d.val * 1048576 + a.val * 16384 + b.val * 256) he (by omega)
theorem ror (d : SReg) (a : SReg) (b : SReg) : Statement (.ror d a b) := by intro w' he; exact fits (x := 0x04000009 + d.val * 1048576 + a.val * 16384 + b.val * 256) he (by omega)
theorem mul (d : SReg) (a : SReg) (b : SReg) : Statement (.mul d a b) := by intro w' he; exact fits (x := 0x0400000A + d.val * 1048576 + a.val * 16384 + b.val * 256) he (by omega)
theorem mulh (d : SReg) (a : SReg) (b : SReg) : Statement (.mulh d a b) := by intro w' he; exact fits (x := 0x0400000B + d.val * 1048576 + a.val * 16384 + b.val * 256) he (by omega)
theorem mulhz (d : SReg) (a : SReg) (b : SReg) : Statement (.mulhz d a b) := by intro w' he; exact fits (x := 0x0400000C + d.val * 1048576 + a.val * 16384 + b.val * 256) he (by omega)
theorem div (d : SReg) (a : SReg) (b : SReg) : Statement (.div d a b) := by intro w' he; exact fits (x := 0x0400000D + d.val * 1048576 + a.val * 16384 + b.val * 256) he (by omega)
theorem divz (d : SReg) (a : SReg) (b : SReg) : Statement (.divz d a b) := by intro w' he; exact fits (x := 0x0400000E + d.val * 1048576 + a.val * 16384 + b.val * 256) he (by omega)
theorem rem (d : SReg) (a : SReg) (b : SReg) : Statement (.rem d a b) := by intro w' he; exact fits (x := 0x0400000F + d.val * 1048576 + a.val * 16384 + b.val * 256) he (by omega)
theorem remz (d : SReg) (a : SReg) (b : SReg) : Statement (.remz d a b) := by intro w' he; exact fits (x := 0x04000010 + d.val * 1048576 + a.val * 16384 + b.val * 256) he (by omega)
theorem min (d : SReg) (a : SReg) (b : SReg) : Statement (.min d a b) := by intro w' he; exact fits (x := 0x04000011 + d.val * 1048576 + a.val * 16384 + b.val * 256) he (by omega)
theorem max (d : SReg) (a : SReg) (b : SReg) : Statement (.max d a b) := by intro w' he; exact fits (x := 0x04000012 + d.val * 1048576 + a.val * 16384 + b.val * 256) he (by omega)
theorem minz (d : SReg) (a : SReg) (b : SReg) : Statement (.minz d a b) := by intro w' he; exact fits (x := 0x04000013 + d.val * 1048576 + a.val * 16384 + b.val * 256) he (by omega)
theorem maxz (d : SReg) (a : SReg) (b : SReg) : Statement (.maxz d a b) := by intro w' he; exact fits (x := 0x04000014 + d.val * 1048576 + a.val * 16384 + b.val * 256) he (by omega)
theorem slt (d : SReg) (a : SReg) (b : SReg) : Statement (.slt d a b) := by intro w' he; exact fits (x := 0x04000015 + d.val * 1048576 + a.val * 16384 + b.val * 256) he (by omega)
theorem sltz (d : SReg) (a : SReg) (b : SReg) : Statement (.sltz d a b) := by intro w' he; exact fits (x := 0x04000016 + d.val * 1048576 + a.val * 16384 + b.val * 256) he (by omega)
theorem seq (d : SReg) (a : SReg) (b : SReg) : Statement (.seq d a b) := by intro w' he; exact fits (x := 0x04000017 + d.val * 1048576 + a.val * 16384 + b.val * 256) he (by omega)
theorem clz (d : SReg) (a : SReg) : Statement (.clz d a) := by intro w' he; exact fits (x := 0x04000018 + d.val * 1048576 + a.val * 16384) he (by omega)
theorem ctz (d : SReg) (a : SReg) : Statement (.ctz d a) := by intro w' he; exact fits (x := 0x04000019 + d.val * 1048576 + a.val * 16384) he (by omega)
theorem popc (d : SReg) (a : SReg) : Statement (.popc d a) := by intro w' he; exact fits (x := 0x0400001A + d.val * 1048576 + a.val * 16384) he (by omega)
theorem bext (d : SReg) (a : SReg) (b : SReg) : Statement (.bext d a b) := by intro w' he; exact fits (x := 0x0400001B + d.val * 1048576 + a.val * 16384 + b.val * 256) he (by omega)
theorem bins (d : SReg) (a : SReg) (b : SReg) : Statement (.bins d a b) := by intro w' he; exact fits (x := 0x0400001C + d.val * 1048576 + a.val * 16384 + b.val * 256) he (by omega)
theorem selnz (d : SReg) (a : SReg) (b : SReg) : Statement (.selnz d a b) := by intro w' he; exact fits (x := 0x0400001D + d.val * 1048576 + a.val * 16384 + b.val * 256) he (by omega)
theorem addi (d : SReg) (a : SReg) (i : BitVec 14) : Statement (.addi d a i) := by intro w' he; exact fits (x := 0x08000000 + d.val * 1048576 + a.val * 16384 + i.toNat) he (by omega)
theorem andi (d : SReg) (a : SReg) (i : BitVec 14) : Statement (.andi d a i) := by intro w' he; exact fits (x := 0x0C000000 + d.val * 1048576 + a.val * 16384 + i.toNat) he (by omega)
theorem ori (d : SReg) (a : SReg) (i : BitVec 14) : Statement (.ori d a i) := by intro w' he; exact fits (x := 0x10000000 + d.val * 1048576 + a.val * 16384 + i.toNat) he (by omega)
theorem xori (d : SReg) (a : SReg) (i : BitVec 14) : Statement (.xori d a i) := by intro w' he; exact fits (x := 0x14000000 + d.val * 1048576 + a.val * 16384 + i.toNat) he (by omega)
theorem shli (d : SReg) (a : SReg) (n : BitVec 6) : Statement (.shli d a n) := by intro w' he; exact fits (x := 0x18000000 + d.val * 1048576 + a.val * 16384 + n.toNat) he (by omega)
theorem shri (d : SReg) (a : SReg) (n : BitVec 6) : Statement (.shri d a n) := by intro w' he; exact fits (x := 0x18001000 + d.val * 1048576 + a.val * 16384 + n.toNat) he (by omega)
theorem srai (d : SReg) (a : SReg) (n : BitVec 6) : Statement (.srai d a n) := by intro w' he; exact fits (x := 0x18002000 + d.val * 1048576 + a.val * 16384 + n.toNat) he (by omega)
theorem rori (d : SReg) (a : SReg) (n : BitVec 6) : Statement (.rori d a n) := by intro w' he; exact fits (x := 0x18003000 + d.val * 1048576 + a.val * 16384 + n.toNat) he (by omega)
theorem slti (d : SReg) (a : SReg) (i : BitVec 14) : Statement (.slti d a i) := by intro w' he; exact fits (x := 0x1C000000 + d.val * 1048576 + a.val * 16384 + i.toNat) he (by omega)
theorem sltzi (d : SReg) (a : SReg) (i : BitVec 14) : Statement (.sltzi d a i) := by intro w' he; exact fits (x := 0x20000000 + d.val * 1048576 + a.val * 16384 + i.toNat) he (by omega)
theorem lui (d : SReg) (i : BitVec 20) : Statement (.lui d i) := by intro w' he; exact fits (x := 0x24000000 + d.val * 1048576 + i.toNat) he (by omega)
theorem auipc (d : SReg) (i : BitVec 20) : Statement (.auipc d i) := by intro w' he; exact fits (x := 0x28000000 + d.val * 1048576 + i.toNat) he (by omega)
theorem ld (d : SReg) (a : SReg) (s : LdSize) (o : BitVec 11) : Statement (.ld d a s o) := by intro w' he; have := ldSize s; exact fits (x := 0x2C000000 + d.val * 1048576 + a.val * 16384 + s.toNat * 2048 + o.toNat) he (by omega)
theorem st (d : SReg) (a : SReg) (s : StSize) (o : BitVec 11) : Statement (.st d a s o) := by intro w' he; have := stSize s; exact fits (x := 0x30000000 + d.val * 1048576 + a.val * 16384 + s.toNat * 2048 + o.toNat) he (by omega)
theorem ldx (d : SReg) (a : SReg) (b : SReg) (s : LdSize) : Statement (.ldx d a b s) := by intro w' he; have := ldSize s; exact fits (x := 0x34000000 + d.val * 1048576 + a.val * 16384 + b.val * 256 + s.toNat) he (by omega)
theorem stx (d : SReg) (a : SReg) (b : SReg) (s : StSize) : Statement (.stx d a b s) := by intro w' he; have := stSize s; exact fits (x := 0x38000000 + d.val * 1048576 + a.val * 16384 + b.val * 256 + s.toNat) he (by omega)
theorem lea (d : SReg) (a : SReg) (i : BitVec 14) : Statement (.lea d a i) := by intro w' he; exact fits (x := 0x3C000000 + d.val * 1048576 + a.val * 16384 + i.toNat) he (by omega)
theorem pfch (a : SReg) (i : BitVec 14) : Statement (.pfch a i) := by intro w' he; exact fits (x := 0x40000000 + a.val * 16384 + i.toNat) he (by omega)
theorem br (a : SReg) (c : Cond) (o : BitVec 17) : Statement (.br a c o) := by intro w' he; have := cond c; exact fits (x := 0x44000000 + a.val * 1048576 + c.toNat * 131072 + o.toNat) he (by omega)
theorem jmp (o : BitVec 26) : Statement (.jmp o) := by intro w' he; exact fits (x := 0x48000000 + o.toNat) he (by omega)
theorem call (o : BitVec 26) : Statement (.call o) := by intro w' he; exact fits (x := 0x4C000000 + o.toNat) he (by omega)
theorem jr (a : SReg) : Statement (.jr a) := by intro w' he; exact fits (x := 0x50000000 + a.val * 16384) he (by omega)
theorem callr (a : SReg) : Statement (.callr a) := by intro w' he; exact fits (x := 0x50000001 + a.val * 16384) he (by omega)
theorem ret : Statement .ret := by intro w' he; exact fits (x := 0x50000002) he (by omega)
theorem loop (c : Fin 2) (a : SReg) (l : BitVec 9) : Statement (.loop c a l) := by intro w' he; exact fits (x := 0x54000000 + c.val * 33554432 + a.val * 524288 + l.toNat * 1024) he (by omega)
theorem loopi (c : Fin 2) (n : BitVec 15) (l : BitVec 9) : Statement (.loopi c n l) := by intro w' he; exact fits (x := 0x58000000 + c.val * 33554432 + n.toNat * 1024 + l.toNat * 2) he (by omega)
theorem rep (d : SReg) (a : SReg) : Statement (.rep d a) := by intro w' he; exact fits (x := 0x5C000000 + d.val * 1048576 + a.val * 16384) he (by omega)
theorem repi (d : SReg) (n : BitVec 12) : Statement (.repi d n) := by intro w' he; exact fits (x := 0x5C000001 + d.val * 1048576 + n.toNat * 256) he (by omega)
theorem jtab (d : SReg) (a : SReg) (i : BitVec 14) : Statement (.jtab d a i) := by intro w' he; exact fits (x := 0x60000000 + d.val * 1048576 + a.val * 16384 + i.toNat) he (by omega)
theorem nop : Statement .nop := by intro w' he; exact fits (x := 0x64000000) he (by omega)
theorem vadd (d : Fin 32) (a : Fin 32) (b : VSrc) (m : MReg) (e : Fin 4) : Statement (.vadd d a b m e) := by intro w' he; have := vsrcEnc b; exact fits (x := 0x80000000 + d.val * 2097152 + a.val * 65536 + b.enc + m.val * 256 + e.val * 64) he (by omega)
theorem vsub (d : Fin 32) (a : Fin 32) (b : VSrc) (m : MReg) (e : Fin 4) : Statement (.vsub d a b m e) := by intro w' he; have := vsrcEnc b; exact fits (x := 0x80000001 + d.val * 2097152 + a.val * 65536 + b.enc + m.val * 256 + e.val * 64) he (by omega)
theorem vmul (d : Fin 32) (a : Fin 32) (b : VSrc) (m : MReg) (e : Fin 4) : Statement (.vmul d a b m e) := by intro w' he; have := vsrcEnc b; exact fits (x := 0x80000002 + d.val * 2097152 + a.val * 65536 + b.enc + m.val * 256 + e.val * 64) he (by omega)
theorem vmulh (d : Fin 32) (a : Fin 32) (b : VSrc) (m : MReg) (e : Fin 4) : Statement (.vmulh d a b m e) := by intro w' he; have := vsrcEnc b; exact fits (x := 0x80000003 + d.val * 2097152 + a.val * 65536 + b.enc + m.val * 256 + e.val * 64) he (by omega)
theorem vmin (d : Fin 32) (a : Fin 32) (b : VSrc) (m : MReg) (e : Fin 4) : Statement (.vmin d a b m e) := by intro w' he; have := vsrcEnc b; exact fits (x := 0x80000004 + d.val * 2097152 + a.val * 65536 + b.enc + m.val * 256 + e.val * 64) he (by omega)
theorem vmax (d : Fin 32) (a : Fin 32) (b : VSrc) (m : MReg) (e : Fin 4) : Statement (.vmax d a b m e) := by intro w' he; have := vsrcEnc b; exact fits (x := 0x80000005 + d.val * 2097152 + a.val * 65536 + b.enc + m.val * 256 + e.val * 64) he (by omega)
theorem vminz (d : Fin 32) (a : Fin 32) (b : VSrc) (m : MReg) (e : Fin 4) : Statement (.vminz d a b m e) := by intro w' he; have := vsrcEnc b; exact fits (x := 0x80000006 + d.val * 2097152 + a.val * 65536 + b.enc + m.val * 256 + e.val * 64) he (by omega)
theorem vmaxz (d : Fin 32) (a : Fin 32) (b : VSrc) (m : MReg) (e : Fin 4) : Statement (.vmaxz d a b m e) := by intro w' he; have := vsrcEnc b; exact fits (x := 0x80000007 + d.val * 2097152 + a.val * 65536 + b.enc + m.val * 256 + e.val * 64) he (by omega)
theorem vand (d : Fin 32) (a : Fin 32) (b : VSrc) (m : MReg) (e : Fin 4) : Statement (.vand d a b m e) := by intro w' he; have := vsrcEnc b; exact fits (x := 0x80000008 + d.val * 2097152 + a.val * 65536 + b.enc + m.val * 256 + e.val * 64) he (by omega)
theorem vor (d : Fin 32) (a : Fin 32) (b : VSrc) (m : MReg) (e : Fin 4) : Statement (.vor d a b m e) := by intro w' he; have := vsrcEnc b; exact fits (x := 0x80000009 + d.val * 2097152 + a.val * 65536 + b.enc + m.val * 256 + e.val * 64) he (by omega)
theorem vxor (d : Fin 32) (a : Fin 32) (b : VSrc) (m : MReg) (e : Fin 4) : Statement (.vxor d a b m e) := by intro w' he; have := vsrcEnc b; exact fits (x := 0x8000000A + d.val * 2097152 + a.val * 65536 + b.enc + m.val * 256 + e.val * 64) he (by omega)
theorem vshl (d : Fin 32) (a : Fin 32) (b : VSrc) (m : MReg) (e : Fin 4) : Statement (.vshl d a b m e) := by intro w' he; have := vsrcEnc b; exact fits (x := 0x8000000B + d.val * 2097152 + a.val * 65536 + b.enc + m.val * 256 + e.val * 64) he (by omega)
theorem vshr (d : Fin 32) (a : Fin 32) (b : VSrc) (m : MReg) (e : Fin 4) : Statement (.vshr d a b m e) := by intro w' he; have := vsrcEnc b; exact fits (x := 0x8000000C + d.val * 2097152 + a.val * 65536 + b.enc + m.val * 256 + e.val * 64) he (by omega)
theorem vsra (d : Fin 32) (a : Fin 32) (b : VSrc) (m : MReg) (e : Fin 4) : Statement (.vsra d a b m e) := by intro w' he; have := vsrcEnc b; exact fits (x := 0x8000000D + d.val * 2097152 + a.val * 65536 + b.enc + m.val * 256 + e.val * 64) he (by omega)
theorem vadds (d : Fin 32) (a : Fin 32) (b : VSrc) (m : MReg) (e : Fin 4) : Statement (.vadds d a b m e) := by intro w' he; have := vsrcEnc b; exact fits (x := 0x8000000E + d.val * 2097152 + a.val * 65536 + b.enc + m.val * 256 + e.val * 64) he (by omega)
theorem vsubs (d : Fin 32) (a : Fin 32) (b : VSrc) (m : MReg) (e : Fin 4) : Statement (.vsubs d a b m e) := by intro w' he; have := vsrcEnc b; exact fits (x := 0x8000000F + d.val * 2097152 + a.val * 65536 + b.enc + m.val * 256 + e.val * 64) he (by omega)
theorem vfadd (d : Fin 32) (a : Fin 32) (b : VSrc) (m : MReg) (e : Fin 4) : Statement (.vfadd d a b m e) := by intro w' he; have := vsrcEnc b; exact fits (x := 0x84000000 + d.val * 2097152 + a.val * 65536 + b.enc + m.val * 256 + e.val * 64) he (by omega)
theorem vfsub (d : Fin 32) (a : Fin 32) (b : VSrc) (m : MReg) (e : Fin 4) : Statement (.vfsub d a b m e) := by intro w' he; have := vsrcEnc b; exact fits (x := 0x84000001 + d.val * 2097152 + a.val * 65536 + b.enc + m.val * 256 + e.val * 64) he (by omega)
theorem vfmul (d : Fin 32) (a : Fin 32) (b : VSrc) (m : MReg) (e : Fin 4) : Statement (.vfmul d a b m e) := by intro w' he; have := vsrcEnc b; exact fits (x := 0x84000002 + d.val * 2097152 + a.val * 65536 + b.enc + m.val * 256 + e.val * 64) he (by omega)
theorem vfma (d : Fin 32) (a : Fin 32) (b : VSrc) (m : MReg) (e : Fin 4) : Statement (.vfma d a b m e) := by intro w' he; have := vsrcEnc b; exact fits (x := 0x84000003 + d.val * 2097152 + a.val * 65536 + b.enc + m.val * 256 + e.val * 64) he (by omega)
theorem vfnma (d : Fin 32) (a : Fin 32) (b : VSrc) (m : MReg) (e : Fin 4) : Statement (.vfnma d a b m e) := by intro w' he; have := vsrcEnc b; exact fits (x := 0x84000004 + d.val * 2097152 + a.val * 65536 + b.enc + m.val * 256 + e.val * 64) he (by omega)
theorem vfmin (d : Fin 32) (a : Fin 32) (b : VSrc) (m : MReg) (e : Fin 4) : Statement (.vfmin d a b m e) := by intro w' he; have := vsrcEnc b; exact fits (x := 0x84000005 + d.val * 2097152 + a.val * 65536 + b.enc + m.val * 256 + e.val * 64) he (by omega)
theorem vfmax (d : Fin 32) (a : Fin 32) (b : VSrc) (m : MReg) (e : Fin 4) : Statement (.vfmax d a b m e) := by intro w' he; have := vsrcEnc b; exact fits (x := 0x84000006 + d.val * 2097152 + a.val * 65536 + b.enc + m.val * 256 + e.val * 64) he (by omega)
theorem vfabs (d : Fin 32) (a : Fin 32) (m : MReg) (e : Fin 4) : Statement (.vfabs d a m e) := by intro w' he; exact fits (x := 0x84000007 + d.val * 2097152 + a.val * 65536 + m.val * 256 + e.val * 64) he (by omega)
theorem vfneg (d : Fin 32) (a : Fin 32) (m : MReg) (e : Fin 4) : Statement (.vfneg d a m e) := by intro w' he; exact fits (x := 0x84000008 + d.val * 2097152 + a.val * 65536 + m.val * 256 + e.val * 64) he (by omega)
theorem vfdiv (d : Fin 32) (a : Fin 32) (b : VSrc) (m : MReg) (e : Fin 4) : Statement (.vfdiv d a b m e) := by intro w' he; have := vsrcEnc b; exact fits (x := 0x84000009 + d.val * 2097152 + a.val * 65536 + b.enc + m.val * 256 + e.val * 64) he (by omega)
theorem vfsqrt (d : Fin 32) (a : Fin 32) (m : MReg) (e : Fin 4) : Statement (.vfsqrt d a m e) := by intro w' he; exact fits (x := 0x8400000A + d.val * 2097152 + a.val * 65536 + m.val * 256 + e.val * 64) he (by omega)
theorem vfrsq (d : Fin 32) (a : Fin 32) (m : MReg) (e : Fin 4) : Statement (.vfrsq d a m e) := by intro w' he; exact fits (x := 0x8400000B + d.val * 2097152 + a.val * 65536 + m.val * 256 + e.val * 64) he (by omega)
theorem vfexp2 (d : Fin 32) (a : Fin 32) (m : MReg) (e : Fin 4) : Statement (.vfexp2 d a m e) := by intro w' he; exact fits (x := 0x8400000C + d.val * 2097152 + a.val * 65536 + m.val * 256 + e.val * 64) he (by omega)
theorem vflog2 (d : Fin 32) (a : Fin 32) (m : MReg) (e : Fin 4) : Statement (.vflog2 d a m e) := by intro w' he; exact fits (x := 0x8400000D + d.val * 2097152 + a.val * 65536 + m.val * 256 + e.val * 64) he (by omega)
theorem vceq (d : MReg) (a : Fin 32) (b : VSrc) (m : MReg) (e : Fin 4) : Statement (.vceq d a b m e) := by intro w' he; have := vsrcEnc b; exact fits (x := 0x88000000 + d.val * 2097152 + a.val * 65536 + b.enc + m.val * 256 + e.val * 64) he (by omega)
theorem vclt (d : MReg) (a : Fin 32) (b : VSrc) (m : MReg) (e : Fin 4) : Statement (.vclt d a b m e) := by intro w' he; have := vsrcEnc b; exact fits (x := 0x88000001 + d.val * 2097152 + a.val * 65536 + b.enc + m.val * 256 + e.val * 64) he (by omega)
theorem vcltz (d : MReg) (a : Fin 32) (b : VSrc) (m : MReg) (e : Fin 4) : Statement (.vcltz d a b m e) := by intro w' he; have := vsrcEnc b; exact fits (x := 0x88000002 + d.val * 2097152 + a.val * 65536 + b.enc + m.val * 256 + e.val * 64) he (by omega)
theorem vcle (d : MReg) (a : Fin 32) (b : VSrc) (m : MReg) (e : Fin 4) : Statement (.vcle d a b m e) := by intro w' he; have := vsrcEnc b; exact fits (x := 0x88000003 + d.val * 2097152 + a.val * 65536 + b.enc + m.val * 256 + e.val * 64) he (by omega)
theorem vfceq (d : MReg) (a : Fin 32) (b : VSrc) (m : MReg) (e : Fin 4) : Statement (.vfceq d a b m e) := by intro w' he; have := vsrcEnc b; exact fits (x := 0x88000004 + d.val * 2097152 + a.val * 65536 + b.enc + m.val * 256 + e.val * 64) he (by omega)
theorem vfclt (d : MReg) (a : Fin 32) (b : VSrc) (m : MReg) (e : Fin 4) : Statement (.vfclt d a b m e) := by intro w' he; have := vsrcEnc b; exact fits (x := 0x88000005 + d.val * 2097152 + a.val * 65536 + b.enc + m.val * 256 + e.val * 64) he (by omega)
theorem vfcle (d : MReg) (a : Fin 32) (b : VSrc) (m : MReg) (e : Fin 4) : Statement (.vfcle d a b m e) := by intro w' he; have := vsrcEnc b; exact fits (x := 0x88000006 + d.val * 2097152 + a.val * 65536 + b.enc + m.val * 256 + e.val * 64) he (by omega)
theorem vfcun (d : MReg) (a : Fin 32) (b : VSrc) (m : MReg) (e : Fin 4) : Statement (.vfcun d a b m e) := by intro w' he; have := vsrcEnc b; exact fits (x := 0x88000007 + d.val * 2097152 + a.val * 65536 + b.enc + m.val * 256 + e.val * 64) he (by omega)
theorem vcvt (d : Fin 32) (a : Fin 32) (c : Fin 32) (m : MReg) : Statement (.vcvt d a c m) := by intro w' he; exact fits (x := 0x8C000000 + d.val * 2097152 + a.val * 65536 + c.val * 2048 + m.val * 256) he (by omega)
theorem vld (d : Fin 32) (a : Fin 32) (m : MReg) (e : Fin 4) : Statement (.vld d a m e) := by intro w' he; exact fits (x := 0x90000000 + d.val * 2097152 + a.val * 65536 + m.val * 256 + e.val * 64) he (by omega)
theorem vst (d : Fin 32) (a : Fin 32) (m : MReg) (e : Fin 4) : Statement (.vst d a m e) := by intro w' he; exact fits (x := 0x90000001 + d.val * 2097152 + a.val * 65536 + m.val * 256 + e.val * 64) he (by omega)
theorem vlds (d : Fin 32) (a : Fin 32) (b : Fin 32) (m : MReg) (e : Fin 4) : Statement (.vlds d a b m e) := by intro w' he; exact fits (x := 0x90000022 + d.val * 2097152 + a.val * 65536 + b.val * 2048 + m.val * 256 + e.val * 64) he (by omega)
theorem vsts (d : Fin 32) (a : Fin 32) (b : Fin 32) (m : MReg) (e : Fin 4) : Statement (.vsts d a b m e) := by intro w' he; exact fits (x := 0x90000023 + d.val * 2097152 + a.val * 65536 + b.val * 2048 + m.val * 256 + e.val * 64) he (by omega)
theorem vgth (d : Fin 32) (a : Fin 32) (b : Fin 32) (m : MReg) (e : Fin 4) : Statement (.vgth d a b m e) := by intro w' he; exact fits (x := 0x90000004 + d.val * 2097152 + a.val * 65536 + b.val * 2048 + m.val * 256 + e.val * 64) he (by omega)
theorem vsct (d : Fin 32) (a : Fin 32) (b : Fin 32) (m : MReg) (e : Fin 4) : Statement (.vsct d a b m e) := by intro w' he; exact fits (x := 0x90000005 + d.val * 2097152 + a.val * 65536 + b.val * 2048 + m.val * 256 + e.val * 64) he (by omega)
theorem vldb (d : Fin 32) (a : Fin 32) (m : MReg) (e : Fin 4) : Statement (.vldb d a m e) := by intro w' he; exact fits (x := 0x90000006 + d.val * 2097152 + a.val * 65536 + m.val * 256 + e.val * 64) he (by omega)
theorem vldq (d : Fin 32) (a : QReg) (b : Fin 32) : Statement (.vldq d a b) := by intro w' he; exact fits (x := 0x900000A7 + d.val * 2097152 + a.val * 65536 + b.val * 2048) he (by omega)
theorem vstq (d : Fin 32) (a : QReg) (b : Fin 32) : Statement (.vstq d a b) := by intro w' he; exact fits (x := 0x900000A8 + d.val * 2097152 + a.val * 65536 + b.val * 2048) he (by omega)
theorem updv (d : Fin 32) (a : Fin 32) (b : Fin 32) (m : MReg) (e : Fin 4) : Statement (.updv d a b m e) := by intro w' he; exact fits (x := 0x90000009 + d.val * 2097152 + a.val * 65536 + b.val * 2048 + m.val * 256 + e.val * 64) he (by omega)
theorem vperm (d : Fin 32) (a : Fin 32) (b : Fin 32) (m : MReg) (e : Fin 4) : Statement (.vperm d a b m e) := by intro w' he; exact fits (x := 0x94000000 + d.val * 2097152 + a.val * 65536 + b.val * 2048 + m.val * 256 + e.val * 64) he (by omega)
theorem vslup (d : Fin 32) (a : Fin 32) (b : Fin 32) (m : MReg) (e : Fin 4) : Statement (.vslup d a b m e) := by intro w' he; exact fits (x := 0x94000021 + d.val * 2097152 + a.val * 65536 + b.val * 2048 + m.val * 256 + e.val * 64) he (by omega)
theorem vsldn (d : Fin 32) (a : Fin 32) (b : Fin 32) (m : MReg) (e : Fin 4) : Statement (.vsldn d a b m e) := by intro w' he; exact fits (x := 0x94000022 + d.val * 2097152 + a.val * 65536 + b.val * 2048 + m.val * 256 + e.val * 64) he (by omega)
theorem vreda (d : Fin 32) (a : Fin 32) (m : MReg) (e : Fin 4) : Statement (.vreda d a m e) := by intro w' he; exact fits (x := 0x94000003 + d.val * 2097152 + a.val * 65536 + m.val * 256 + e.val * 64) he (by omega)
theorem vredx (d : Fin 32) (a : Fin 32) (m : MReg) (e : Fin 4) : Statement (.vredx d a m e) := by intro w' he; exact fits (x := 0x94000004 + d.val * 2097152 + a.val * 65536 + m.val * 256 + e.val * 64) he (by omega)
theorem vredn (d : Fin 32) (a : Fin 32) (m : MReg) (e : Fin 4) : Statement (.vredn d a m e) := by intro w' he; exact fits (x := 0x94000005 + d.val * 2097152 + a.val * 65536 + m.val * 256 + e.val * 64) he (by omega)
theorem vfreda (d : Fin 32) (a : Fin 32) (m : MReg) (e : Fin 4) : Statement (.vfreda d a m e) := by intro w' he; exact fits (x := 0x94000006 + d.val * 2097152 + a.val * 65536 + m.val * 256 + e.val * 64) he (by omega)
theorem vcmpr (d : Fin 32) (a : Fin 32) (m : MReg) (e : Fin 4) : Statement (.vcmpr d a m e) := by intro w' he; exact fits (x := 0x94000007 + d.val * 2097152 + a.val * 65536 + m.val * 256 + e.val * 64) he (by omega)
theorem vexpd (d : Fin 32) (a : Fin 32) (m : MReg) (e : Fin 4) : Statement (.vexpd d a m e) := by intro w' he; exact fits (x := 0x94000008 + d.val * 2097152 + a.val * 65536 + m.val * 256 + e.val * 64) he (by omega)
theorem vmrg (d : Fin 32) (a : Fin 32) (b : VSrc) (m : MReg) (e : Fin 4) : Statement (.vmrg d a b m e) := by intro w' he; have := vsrcEnc b; exact fits (x := 0x94000009 + d.val * 2097152 + a.val * 65536 + b.enc + m.val * 256 + e.val * 64) he (by omega)
theorem vsplat (d : Fin 32) (b : Fin 32) (m : MReg) (e : Fin 4) : Statement (.vsplat d b m e) := by intro w' he; exact fits (x := 0x98000020 + d.val * 2097152 + b.val * 2048 + m.val * 256 + e.val * 64) he (by omega)
theorem vins (d : Fin 32) (a : Fin 32) (b : Fin 32) (e : Fin 4) : Statement (.vins d a b e) := by intro w' he; exact fits (x := 0x98000021 + d.val * 2097152 + a.val * 65536 + b.val * 2048 + e.val * 64) he (by omega)
theorem vext (d : Fin 32) (a : Fin 32) (b : Fin 32) (e : Fin 4) : Statement (.vext d a b e) := by intro w' he; exact fits (x := 0x98000022 + d.val * 2097152 + a.val * 65536 + b.val * 2048 + e.val * 64) he (by omega)
theorem viota (d : Fin 32) (m : MReg) (e : Fin 4) : Statement (.viota d m e) := by intro w' he; exact fits (x := 0x98000003 + d.val * 2097152 + m.val * 256 + e.val * 64) he (by omega)
theorem mand (d : MReg) (a : MReg) (b : MReg) : Statement (.mand d a b) := by intro w' he; exact fits (x := 0x9C000000 + d.val * 2097152 + a.val * 65536 + b.val * 2048) he (by omega)
theorem mor (d : MReg) (a : MReg) (b : MReg) : Statement (.mor d a b) := by intro w' he; exact fits (x := 0x9C000001 + d.val * 2097152 + a.val * 65536 + b.val * 2048) he (by omega)
theorem mxor (d : MReg) (a : MReg) (b : MReg) : Statement (.mxor d a b) := by intro w' he; exact fits (x := 0x9C000002 + d.val * 2097152 + a.val * 65536 + b.val * 2048) he (by omega)
theorem mnot (d : MReg) (a : MReg) : Statement (.mnot d a) := by intro w' he; exact fits (x := 0x9C000003 + d.val * 2097152 + a.val * 65536) he (by omega)
theorem mpopc (d : Fin 32) (a : MReg) : Statement (.mpopc d a) := by intro w' he; exact fits (x := 0x9C000004 + d.val * 2097152 + a.val * 65536) he (by omega)
theorem mmov (d : MReg) (a : MReg) : Statement (.mmov d a) := by intro w' he; exact fits (x := 0x9C000005 + d.val * 2097152 + a.val * 65536) he (by omega)
theorem mmovScalar (d : MReg) (b : Fin 32) : Statement (.mmovScalar d b) := by intro w' he; exact fits (x := 0x9C000025 + d.val * 2097152 + b.val * 2048) he (by omega)
theorem vpiv (d : Fin 32) (a : Fin 32) (b : MReg) (m : MReg) : Statement (.vpiv d a b m) := by intro w' he; exact fits (x := 0xA0000080 + d.val * 2097152 + a.val * 65536 + b.val * 2048 + m.val * 256) he (by omega)
theorem vprcp (d : Fin 32) (a : Fin 32) (b : MReg) (m : MReg) : Statement (.vprcp d a b m) := by intro w' he; exact fits (x := 0xA0000081 + d.val * 2097152 + a.val * 65536 + b.val * 2048 + m.val * 256) he (by omega)
theorem vfman (d : Fin 32) (a : Fin 32) (b : VSrc) (m : MReg) (e : Fin 4) : Statement (.vfman d a b m e) := by intro w' he; have := vsrcEnc b; exact fits (x := 0xA0000002 + d.val * 2097152 + a.val * 65536 + b.enc + m.val * 256 + e.val * 64) he (by omega)
theorem vpstat (d : Fin 32) : Statement (.vpstat d) := by intro w' he; exact fits (x := 0xA0000003 + d.val * 2097152) he (by omega)
theorem vbdot (d : Fin 32) (a : Fin 32) (b : VSrc) (m : MReg) (e : Fin 2) : Statement (.vbdot d a b m e) := by intro w' he; have := vsrcEnc b; exact fits (x := 0xA4000080 + d.val * 2097152 + a.val * 65536 + b.enc + m.val * 256 + e.val * 64) he (by omega)
theorem fload (d : SReg) (a : SReg) (b : SReg) : Statement (.fload d a b) := by intro w' he; exact fits (x := 0xC0000000 + d.val * 1048576 + a.val * 16384 + b.val * 256) he (by omega)
theorem farm (a : SReg) (b : SReg) : Statement (.farm a b) := by intro w' he; exact fits (x := 0xC0000001 + a.val * 16384 + b.val * 256) he (by omega)
theorem fsel (a : SReg) (b : SReg) : Statement (.fsel a b) := by intro w' he; exact fits (x := 0xC0000002 + a.val * 16384 + b.val * 256) he (by omega)
theorem fstat (d : SReg) (a : SReg) : Statement (.fstat d a) := by intro w' he; exact fits (x := 0xC0000003 + d.val * 1048576 + a.val * 16384) he (by omega)
theorem fkill (a : SReg) : Statement (.fkill a) := by intro w' he; exact fits (x := 0xC0000004 + a.val * 16384) he (by omega)
theorem fckpt (a : SReg) (b : SReg) : Statement (.fckpt a b) := by intro w' he; exact fits (x := 0xC0000005 + a.val * 16384 + b.val * 256) he (by omega)
theorem fdrain (a : SReg) : Statement (.fdrain a) := by intro w' he; exact fits (x := 0xC0000006 + a.val * 16384) he (by omega)
theorem fbind (d : QReg) (a : SReg) (b : SReg) : Statement (.fbind d a b) := by intro w' he; exact fits (x := 0xC0000007 + d.val * 1048576 + a.val * 16384 + b.val * 256) he (by omega)
theorem qpush (d : QReg) (a : SReg) (b : SReg) : Statement (.qpush d a b) := by intro w' he; exact fits (x := 0xC0000008 + d.val * 1048576 + a.val * 16384 + b.val * 256) he (by omega)
theorem qpop (d : SReg) (a : QReg) (b : SReg) : Statement (.qpop d a b) := by intro w' he; exact fits (x := 0xC0000009 + d.val * 1048576 + a.val * 16384 + b.val * 256) he (by omega)
theorem qstop (d : QReg) (a : SReg) : Statement (.qstop d a) := by intro w' he; exact fits (x := 0xC000000A + d.val * 1048576 + a.val * 16384) he (by omega)
theorem qdone (d : QReg) : Statement (.qdone d) := by intro w' he; exact fits (x := 0xC000000B + d.val * 1048576) he (by omega)
theorem cpy (d : SReg) (a : SReg) : Statement (.cpy d a) := by intro w' he; exact fits (x := 0xC4000000 + d.val * 1048576 + a.val * 16384) he (by omega)
theorem cpwp (d : SReg) (a : SReg) : Statement (.cpwp d a) := by intro w' he; exact fits (x := 0xC4000001 + d.val * 1048576 + a.val * 16384) he (by omega)
theorem cpwait (d : SReg) (a : SReg) (b : SReg) : Statement (.cpwait d a b) := by intro w' he; exact fits (x := 0xC4000002 + d.val * 1048576 + a.val * 16384 + b.val * 256) he (by omega)
theorem cpcan (a : SReg) : Statement (.cpcan a) := by intro w' he; exact fits (x := 0xC4000003 + a.val * 16384) he (by omega)
theorem gath (d : SReg) (a : SReg) : Statement (.gath d a) := by intro w' he; exact fits (x := 0xC4000004 + d.val * 1048576 + a.val * 16384) he (by omega)
theorem cpcode (a : SReg) (b : SReg) : Statement (.cpcode a b) := by intro w' he; exact fits (x := 0xC4000005 + a.val * 16384 + b.val * 256) he (by omega)
theorem upd (a : SReg) (b : SReg) : Statement (.upd a b) := by intro w' he; exact fits (x := 0xC8000000 + a.val * 16384 + b.val * 256) he (by omega)
theorem ufence (a : SReg) : Statement (.ufence a) := by intro w' he; exact fits (x := 0xC8000001 + a.val * 16384) he (by omega)
theorem uapply (a : SReg) (b : SReg) : Statement (.uapply a b) := by intro w' he; exact fits (x := 0xC8000002 + a.val * 16384 + b.val * 256) he (by omega)
theorem uregion (d : SReg) (a : SReg) : Statement (.uregion d a) := by intro w' he; exact fits (x := 0xC8000003 + d.val * 1048576 + a.val * 16384) he (by omega)
theorem ufree (a : SReg) : Statement (.ufree a) := by intro w' he; exact fits (x := 0xC8000004 + a.val * 16384) he (by omega)
theorem ustat (d : SReg) (a : SReg) : Statement (.ustat d a) := by intro w' he; exact fits (x := 0xC8000005 + d.val * 1048576 + a.val * 16384) he (by omega)
theorem cas (d : SReg) (a : SReg) (b : SReg) : Statement (.cas d a b) := by intro w' he; exact fits (x := 0xCC000000 + d.val * 1048576 + a.val * 16384 + b.val * 256) he (by omega)
theorem dcas (d : SReg) (a : SReg) (b : SReg) : Statement (.dcas d a b) := by intro w' he; exact fits (x := 0xCC000001 + d.val * 1048576 + a.val * 16384 + b.val * 256) he (by omega)
theorem amove (d : SReg) (a : SReg) (b : SReg) : Statement (.amove d a b) := by intro w' he; exact fits (x := 0xCC000002 + d.val * 1048576 + a.val * 16384 + b.val * 256) he (by omega)
theorem swap (d : SReg) (a : SReg) (b : SReg) : Statement (.swap d a b) := by intro w' he; exact fits (x := 0xCC000003 + d.val * 1048576 + a.val * 16384 + b.val * 256) he (by omega)
theorem ldaq (d : SReg) (a : SReg) : Statement (.ldaq d a) := by intro w' he; exact fits (x := 0xCC000004 + d.val * 1048576 + a.val * 16384) he (by omega)
theorem strl (a : SReg) (b : SReg) : Statement (.strl a b) := by intro w' he; exact fits (x := 0xCC000005 + a.val * 16384 + b.val * 256) he (by omega)
theorem binit (d : SReg) (a : SReg) (b : SReg) : Statement (.binit d a b) := by intro w' he; exact fits (x := 0xD0000000 + d.val * 1048576 + a.val * 16384 + b.val * 256) he (by omega)
theorem barr (d : SReg) (a : SReg) : Statement (.barr d a) := by intro w' he; exact fits (x := 0xD0000001 + d.val * 1048576 + a.val * 16384) he (by omega)
theorem bwait (d : SReg) (a : SReg) (b : SReg) : Statement (.bwait d a b) := by intro w' he; exact fits (x := 0xD0000002 + d.val * 1048576 + a.val * 16384 + b.val * 256) he (by omega)
theorem barw (d : SReg) (a : SReg) : Statement (.barw d a) := by intro w' he; exact fits (x := 0xD0000003 + d.val * 1048576 + a.val * 16384) he (by omega)
theorem badj (d : SReg) (a : SReg) (b : SReg) : Statement (.badj d a b) := by intro w' he; exact fits (x := 0xD0000004 + d.val * 1048576 + a.val * 16384 + b.val * 256) he (by omega)
theorem babort (a : SReg) : Statement (.babort a) := by intro w' he; exact fits (x := 0xD0000005 + a.val * 16384) he (by omega)
theorem lkacq (d : SReg) (a : SReg) : Statement (.lkacq d a) := by intro w' he; exact fits (x := 0xD0000006 + d.val * 1048576 + a.val * 16384) he (by omega)
theorem lktry (d : SReg) (a : SReg) : Statement (.lktry d a) := by intro w' he; exact fits (x := 0xD0000007 + d.val * 1048576 + a.val * 16384) he (by omega)
theorem lkrel (a : SReg) : Statement (.lkrel a) := by intro w' he; exact fits (x := 0xD0000008 + a.val * 16384) he (by omega)
theorem wobj (a : SReg) (b : SReg) : Statement (.wobj a b) := by intro w' he; exact fits (x := 0xD4000000 + a.val * 16384 + b.val * 256) he (by omega)
theorem whold (a : SReg) : Statement (.whold a) := by intro w' he; exact fits (x := 0xD4000001 + a.val * 16384) he (by omega)
theorem wdrop (a : SReg) : Statement (.wdrop a) := by intro w' he; exact fits (x := 0xD4000002 + a.val * 16384) he (by omega)
theorem wwait (d : SReg) (a : SReg) (b : SReg) : Statement (.wwait d a b) := by intro w' he; exact fits (x := 0xD4000003 + d.val * 1048576 + a.val * 16384 + b.val * 256) he (by omega)
theorem wquery (d : SReg) (a : SReg) : Statement (.wquery d a) := by intro w' he; exact fits (x := 0xD4000004 + d.val * 1048576 + a.val * 16384) he (by omega)
theorem wcycle (d : SReg) (a : SReg) : Statement (.wcycle d a) := by intro w' he; exact fits (x := 0xD4000005 + d.val * 1048576 + a.val * 16384) he (by omega)
theorem spawn (d : SReg) (a : SReg) (b : SReg) : Statement (.spawn d a b) := by intro w' he; exact fits (x := 0xD8000000 + d.val * 1048576 + a.val * 16384 + b.val * 256) he (by omega)
theorem join (d : SReg) (a : SReg) : Statement (.join d a) := by intro w' he; exact fits (x := 0xD8000001 + d.val * 1048576 + a.val * 16384) he (by omega)
theorem yield : Statement .yield := by intro w' he; exact fits (x := 0xD8000002) he (by omega)
theorem exit : Statement .exit := by intro w' he; exact fits (x := 0xD8000003) he (by omega)
theorem launch (d : SReg) (a : SReg) (b : SReg) : Statement (.launch d a b) := by intro w' he; exact fits (x := 0xD8000004 + d.val * 1048576 + a.val * 16384 + b.val * 256) he (by omega)
theorem prio (d : SReg) (a : SReg) : Statement (.prio d a) := by intro w' he; exact fits (x := 0xD8000005 + d.val * 1048576 + a.val * 16384) he (by omega)
theorem estim (a : SReg) (b : SReg) : Statement (.estim a b) := by intro w' he; exact fits (x := 0xD8000006 + a.val * 16384 + b.val * 256) he (by omega)
theorem self (d : SReg) : Statement (.self d) := by intro w' he; exact fits (x := 0xD8000007 + d.val * 1048576) he (by omega)
theorem fence (s : Fin 16) (k : Fin 4) : Statement (.fence s k) := by intro w' he; exact fits (x := 0xDC000000 + s.val * 1024 + k.val * 256) he (by omega)
theorem sbar (u : Bool) (g : Bool) (c : Bool) (t : Bool) : Statement (.sbar u g c t) := by intro w' he; have := Bool.toNat_lt u; have := Bool.toNat_lt g; have := Bool.toNat_lt c; have := Bool.toNat_lt t; exact fits (x := 0xDC000001 + u.toNat * 2048 + g.toNat * 1024 + c.toNat * 512 + t.toNat * 256) he (by omega)
theorem drainw (d : SReg) (a : SReg) : Statement (.drainw d a) := by intro w' he; exact fits (x := 0xDC000002 + d.val * 1048576 + a.val * 16384) he (by omega)
theorem colls (d : SReg) (a : SReg) : Statement (.colls d a) := by intro w' he; exact fits (x := 0xE0000000 + d.val * 1048576 + a.val * 16384) he (by omega)
theorem collw (d : SReg) (a : SReg) : Statement (.collw d a) := by intro w' he; exact fits (x := 0xE0000001 + d.val * 1048576 + a.val * 16384) he (by omega)
theorem collst (d : SReg) (a : SReg) : Statement (.collst d a) := by intro w' he; exact fits (x := 0xE0000002 + d.val * 1048576 + a.val * 16384) he (by omega)
theorem collabt (a : SReg) : Statement (.collabt a) := by intro w' he; exact fits (x := 0xE0000003 + a.val * 16384) he (by omega)
theorem memb (d : SReg) (a : SReg) (b : SReg) : Statement (.memb d a b) := by intro w' he; exact fits (x := 0xE0000004 + d.val * 1048576 + a.val * 16384 + b.val * 256) he (by omega)
theorem sysr (d : SReg) (n : SysReg) : Statement (.sysr d n) := by intro w' he; have := sysReg n; exact fits (x := 0xE4000000 + d.val * 1048576 + n.toNat * 256) he (by omega)
theorem sysw (d : SReg) (n : SysReg) : Statement (.sysw d n) := by intro w' he; have := sysReg n; exact fits (x := 0xE4000001 + d.val * 1048576 + n.toNat * 256) he (by omega)
theorem sysset (d : SReg) (n : SysReg) : Statement (.sysset d n) := by intro w' he; have := sysReg n; exact fits (x := 0xE4000002 + d.val * 1048576 + n.toNat * 256) he (by omega)
theorem sysclr (d : SReg) (n : SysReg) : Statement (.sysclr d n) := by intro w' he; have := sysReg n; exact fits (x := 0xE4000003 + d.val * 1048576 + n.toNat * 256) he (by omega)
theorem xlinv (a : SReg) (b : SReg) : Statement (.xlinv a b) := by intro w' he; exact fits (x := 0xE4000004 + a.val * 16384 + b.val * 256) he (by omega)
theorem trap (n : BitVec 12) : Statement (.trap n) := by intro w' he; exact fits (x := 0xE8000000 + n.toNat * 256) he (by omega)
theorem tret : Statement .tret := by intro w' he; exact fits (x := 0xE8000001) he (by omega)
theorem bkpt : Statement .bkpt := by intro w' he; exact fits (x := 0xE8000002) he (by omega)
theorem halt : Statement .halt := by intro w' he; exact fits (x := 0xE8000003) he (by omega)
theorem trcon : Statement .trcon := by intro w' he; exact fits (x := 0xEC000000) he (by omega)
theorem trcoff : Statement .trcoff := by intro w' he; exact fits (x := 0xEC000001) he (by omega)
theorem trcmark (d : SReg) (n : BitVec 12) : Statement (.trcmark d n) := by intro w' he; exact fits (x := 0xEC000002 + d.val * 1048576 + n.toNat * 256) he (by omega)
theorem wpset (d : SReg) (a : SReg) (b : SReg) : Statement (.wpset d a b) := by intro w' he; exact fits (x := 0xEC000003 + d.val * 1048576 + a.val * 16384 + b.val * 256) he (by omega)
theorem wpclr (a : SReg) : Statement (.wpclr a) := by intro w' he; exact fits (x := 0xEC000004 + a.val * 16384) he (by omega)
theorem eadd (p : Fin 4) (a : Fin 16) (b : Fin 16) (f : Fin 16) (m : Fin 4) : Statement (.eadd p a b f m) := by intro w' he; exact fits (x := (0x01) * 2 ^ 26 + (p.val) * 2 ^ 24 + (a.val) * 2 ^ 20 + (b.val) * 2 ^ 16 + (0) * 2 ^ 12 + (f.val) * 2 ^ 8 + (m.val * 64)) he (by omega)
theorem esub (p : Fin 4) (a : Fin 16) (b : Fin 16) (f : Fin 16) (m : Fin 4) : Statement (.esub p a b f m) := by intro w' he; exact fits (x := (0x02) * 2 ^ 26 + (p.val) * 2 ^ 24 + (a.val) * 2 ^ 20 + (b.val) * 2 ^ 16 + (0) * 2 ^ 12 + (f.val) * 2 ^ 8 + (m.val * 64)) he (by omega)
theorem emul (p : Fin 4) (a : Fin 16) (b : Fin 16) (f : Fin 16) (m : Fin 4) : Statement (.emul p a b f m) := by intro w' he; exact fits (x := (0x03) * 2 ^ 26 + (p.val) * 2 ^ 24 + (a.val) * 2 ^ 20 + (b.val) * 2 ^ 16 + (0) * 2 ^ 12 + (f.val) * 2 ^ 8 + (m.val * 64)) he (by omega)
theorem efma (p : Fin 4) (a : Fin 16) (b : Fin 16) (c : Fin 16) (f : Fin 16) (m : Fin 4) (x : Bool) : Statement (.efma p a b c f m x) := by intro w' he; have := Bool.toNat_lt x; exact fits (x := (0x04) * 2 ^ 26 + (p.val) * 2 ^ 24 + (a.val) * 2 ^ 20 + (b.val) * 2 ^ 16 + (c.val) * 2 ^ 12 + (f.val) * 2 ^ 8 + (m.val * 64 + x.toNat)) he (by omega)
theorem emin (p : Fin 4) (a : Fin 16) (b : Fin 16) (f : Fin 16) (m : Fin 4) : Statement (.emin p a b f m) := by intro w' he; exact fits (x := (0x05) * 2 ^ 26 + (p.val) * 2 ^ 24 + (a.val) * 2 ^ 20 + (b.val) * 2 ^ 16 + (0) * 2 ^ 12 + (f.val) * 2 ^ 8 + (m.val * 64)) he (by omega)
theorem emax (p : Fin 4) (a : Fin 16) (b : Fin 16) (f : Fin 16) (m : Fin 4) : Statement (.emax p a b f m) := by intro w' he; exact fits (x := (0x06) * 2 ^ 26 + (p.val) * 2 ^ 24 + (a.val) * 2 ^ 20 + (b.val) * 2 ^ 16 + (0) * 2 ^ 12 + (f.val) * 2 ^ 8 + (m.val * 64)) he (by omega)
theorem eabs (a : Fin 16) (f : Fin 16) (m : Fin 4) : Statement (.eabs a f m) := by intro w' he; exact fits (x := (0x07) * 2 ^ 26 + (0) * 2 ^ 24 + (a.val) * 2 ^ 20 + (0) * 2 ^ 16 + (0) * 2 ^ 12 + (f.val) * 2 ^ 8 + (m.val * 64)) he (by omega)
theorem ecmp (a : Fin 16) (b : Fin 16) (f : Fin 16) (z : Bool) (r : Fin 4) (l : Fin 8) : Statement (.ecmp a b f z r l) := by intro w' he; have := Bool.toNat_lt z; exact fits (x := (0x08) * 2 ^ 26 + (2) * 2 ^ 24 + (a.val) * 2 ^ 20 + (b.val) * 2 ^ 16 + (0) * 2 ^ 12 + (f.val) * 2 ^ 8 + (z.toNat * 32 + r.val * 8 + l.val)) he (by omega)
theorem esel (a : Fin 16) (b : Fin 16) (c : Fin 16) (f : Fin 16) (m : Fin 4) : Statement (.esel a b c f m) := by intro w' he; exact fits (x := (0x09) * 2 ^ 26 + (0) * 2 ^ 24 + (a.val) * 2 ^ 20 + (b.val) * 2 ^ 16 + (c.val) * 2 ^ 12 + (f.val) * 2 ^ 8 + (m.val * 64)) he (by omega)
theorem ecvt (a : Fin 16) (f : Fin 16) (m : Fin 4) (k : Fin 32) : Statement (.ecvt a f m k) := by intro w' he; exact fits (x := (0x0A) * 2 ^ 26 + (0) * 2 ^ 24 + (a.val) * 2 ^ 20 + (0) * 2 ^ 16 + (0) * 2 ^ 12 + (f.val) * 2 ^ 8 + (m.val * 64 + k.val)) he (by omega)
theorem escale (p : Fin 4) (a : Fin 16) (b : Fin 16) (f : Fin 16) (m : Fin 4) (x : Bool) : Statement (.escale p a b f m x) := by intro w' he; have := Bool.toNat_lt x; exact fits (x := (0x0B) * 2 ^ 26 + (p.val) * 2 ^ 24 + (a.val) * 2 ^ 20 + (b.val) * 2 ^ 16 + (0) * 2 ^ 12 + (f.val) * 2 ^ 8 + (m.val * 64 + x.toNat)) he (by omega)
theorem ebdot (a : Fin 16) (b : Fin 16) (x : Bool) : Statement (.ebdot a b x) := by intro w' he; have := Bool.toNat_lt x; exact fits (x := (0x0C) * 2 ^ 26 + (0) * 2 ^ 24 + (a.val) * 2 ^ 20 + (b.val) * 2 ^ 16 + (0) * 2 ^ 12 + (0) * 2 ^ 8 + (x.toNat)) he (by omega)
theorem ecsadd (a : Fin 16) (b : Fin 16) (k : Fin 16) (x : Bool) : Statement (.ecsadd a b k x) := by intro w' he; have := Bool.toNat_lt x; exact fits (x := (0x0D) * 2 ^ 26 + (0) * 2 ^ 24 + (a.val) * 2 ^ 20 + (b.val) * 2 ^ 16 + (0) * 2 ^ 12 + (0) * 2 ^ 8 + (k.val * 2 + x.toNat)) he (by omega)
theorem enorm (a : Fin 16) (f : Fin 16) (x : Bool) : Statement (.enorm a f x) := by intro w' he; have := Bool.toNat_lt x; exact fits (x := (0x0E) * 2 ^ 26 + (0) * 2 ^ 24 + (a.val) * 2 ^ 20 + (0) * 2 ^ 16 + (0) * 2 ^ 12 + (f.val) * 2 ^ 8 + (x.toNat)) he (by omega)
theorem ecfwd (a : Fin 16) (b : Fin 16) (f : Fin 16) (r : Bool) (x : Bool) : Statement (.ecfwd a b f r x) := by intro w' he; have := Bool.toNat_lt r; have := Bool.toNat_lt x; exact fits (x := (0x0F) * 2 ^ 26 + (0) * 2 ^ 24 + (a.val) * 2 ^ 20 + (b.val) * 2 ^ 16 + (0) * 2 ^ 12 + (f.val) * 2 ^ 8 + (r.toNat * 2 + x.toNat)) he (by omega)
theorem econst (p : Fin 4) (a : Fin 16) (b : Fin 16) (f : Fin 16) (m : Fin 256) : Statement (.econst p a b f m) := by intro w' he; exact fits (x := (0x10) * 2 ^ 26 + (p.val) * 2 ^ 24 + (a.val) * 2 ^ 20 + (b.val) * 2 ^ 16 + (0) * 2 ^ 12 + (f.val) * 2 ^ 8 + (m.val)) he (by omega)
theorem eidx (p : Fin 4) (a : Fin 16) (b : Fin 16) (f : Fin 16) (k : Bool) (n : Fin 8) : Statement (.eidx p a b f k n) := by intro w' he; have := Bool.toNat_lt k; exact fits (x := (0x11) * 2 ^ 26 + (p.val) * 2 ^ 24 + (a.val) * 2 ^ 20 + (b.val) * 2 ^ 16 + (0) * 2 ^ 12 + (f.val) * 2 ^ 8 + (k.toNat * 8 + n.val)) he (by omega)
theorem epiv (a : Fin 16) (f : Fin 16) (m : Fin 4) : Statement (.epiv a f m) := by intro w' he; exact fits (x := (0x12) * 2 ^ 26 + (0) * 2 ^ 24 + (a.val) * 2 ^ 20 + (0) * 2 ^ 16 + (0) * 2 ^ 12 + (f.val) * 2 ^ 8 + (m.val * 64)) he (by omega)
theorem ercp (a : Fin 16) (f : Fin 16) (m : Fin 4) (x : Bool) : Statement (.ercp a f m x) := by intro w' he; have := Bool.toNat_lt x; exact fits (x := (0x13) * 2 ^ 26 + (0) * 2 ^ 24 + (a.val) * 2 ^ 20 + (0) * 2 ^ 16 + (0) * 2 ^ 12 + (f.val) * 2 ^ 8 + (m.val * 64 + x.toNat)) he (by omega)
theorem epop (a : Fin 16) (f : Fin 16) (x : Bool) : Statement (.epop a f x) := by intro w' he; have := Bool.toNat_lt x; exact fits (x := (0x14) * 2 ^ 26 + (0) * 2 ^ 24 + (a.val) * 2 ^ 20 + (0) * 2 ^ 16 + (0) * 2 ^ 12 + (f.val) * 2 ^ 8 + (x.toNat)) he (by omega)
theorem eand (p : Fin 4) (a : Fin 16) (b : Fin 16) (f : Fin 16) (m : Fin 4) : Statement (.eand p a b f m) := by intro w' he; exact fits (x := (0x15) * 2 ^ 26 + (p.val) * 2 ^ 24 + (a.val) * 2 ^ 20 + (b.val) * 2 ^ 16 + (0) * 2 ^ 12 + (f.val) * 2 ^ 8 + (m.val * 64)) he (by omega)
theorem eor (p : Fin 4) (a : Fin 16) (b : Fin 16) (f : Fin 16) (m : Fin 4) : Statement (.eor p a b f m) := by intro w' he; exact fits (x := (0x16) * 2 ^ 26 + (p.val) * 2 ^ 24 + (a.val) * 2 ^ 20 + (b.val) * 2 ^ 16 + (0) * 2 ^ 12 + (f.val) * 2 ^ 8 + (m.val * 64)) he (by omega)
theorem exor (p : Fin 4) (a : Fin 16) (b : Fin 16) (f : Fin 16) (m : Fin 4) : Statement (.exor p a b f m) := by intro w' he; exact fits (x := (0x17) * 2 ^ 26 + (p.val) * 2 ^ 24 + (a.val) * 2 ^ 20 + (b.val) * 2 ^ 16 + (0) * 2 ^ 12 + (f.val) * 2 ^ 8 + (m.val * 64)) he (by omega)
theorem mdense (a : Fin 16) (b : Fin 16) (f : Fin 16) (h : Bool) (o : Fin 4) : Statement (.mdense a b f h o) := by intro w' he; have := Bool.toNat_lt h; exact fits (x := (0x18) * 2 ^ 26 + (0) * 2 ^ 24 + (a.val) * 2 ^ 20 + (b.val) * 2 ^ 16 + (0) * 2 ^ 12 + (f.val) * 2 ^ 8 + (h.toNat * 4 + o.val)) he (by omega)
theorem mnm2 (a : Fin 16) (b : Fin 16) (c : Fin 16) (f : Fin 16) (h : Bool) (o : Fin 4) : Statement (.mnm2 a b c f h o) := by intro w' he; have := Bool.toNat_lt h; exact fits (x := (0x19) * 2 ^ 26 + (0) * 2 ^ 24 + (a.val) * 2 ^ 20 + (b.val) * 2 ^ 16 + (c.val) * 2 ^ 12 + (f.val) * 2 ^ 8 + (h.toNat * 4 + o.val)) he (by omega)
theorem mmatch (a : Fin 16) (b : Fin 16) (f : Fin 16) (h : Bool) (o : Fin 4) : Statement (.mmatch a b f h o) := by intro w' he; have := Bool.toNat_lt h; exact fits (x := (0x1A) * 2 ^ 26 + (0) * 2 ^ 24 + (a.val) * 2 ^ 20 + (b.val) * 2 ^ 16 + (0) * 2 ^ 12 + (f.val) * 2 ^ 8 + (h.toNat * 4 + o.val)) he (by omega)
theorem mbxor (a : Fin 16) (b : Fin 16) (f : Fin 16) (h : Bool) (o : Fin 4) : Statement (.mbxor a b f h o) := by intro w' he; have := Bool.toNat_lt h; exact fits (x := (0x1B) * 2 ^ 26 + (0) * 2 ^ 24 + (a.val) * 2 ^ 20 + (b.val) * 2 ^ 16 + (0) * 2 ^ 12 + (f.val) * 2 ^ 8 + (h.toNat * 4 + o.val)) he (by omega)
theorem mband (a : Fin 16) (b : Fin 16) (f : Fin 16) (h : Bool) (o : Fin 4) : Statement (.mband a b f h o) := by intro w' he; have := Bool.toNat_lt h; exact fits (x := (0x1C) * 2 ^ 26 + (0) * 2 ^ 24 + (a.val) * 2 ^ 20 + (b.val) * 2 ^ 16 + (0) * 2 ^ 12 + (f.val) * 2 ^ 8 + (h.toNat * 4 + o.val)) he (by omega)
theorem mpp8 (a : Fin 16) (b : Fin 16) (f : Fin 16) (h : Bool) (o : Fin 4) : Statement (.mpp8 a b f h o) := by intro w' he; have := Bool.toNat_lt h; exact fits (x := (0x1D) * 2 ^ 26 + (0) * 2 ^ 24 + (a.val) * 2 ^ 20 + (b.val) * 2 ^ 16 + (0) * 2 ^ 12 + (f.val) * 2 ^ 8 + (h.toNat * 4 + o.val)) he (by omega)
theorem mexpert (a : Fin 16) (b : Fin 16) (c : Fin 16) (f : Fin 16) (h : Bool) (o : Fin 4) : Statement (.mexpert a b c f h o) := by intro w' he; have := Bool.toNat_lt h; exact fits (x := (0x1E) * 2 ^ 26 + (0) * 2 ^ 24 + (a.val) * 2 ^ 20 + (b.val) * 2 ^ 16 + (c.val) * 2 ^ 12 + (f.val) * 2 ^ 8 + (h.toNat * 4 + o.val)) he (by omega)
theorem mpred (a : Fin 16) (b : Fin 16) (f : Fin 16) (x : Bool) (h : Bool) : Statement (.mpred a b f x h) := by intro w' he; have := Bool.toNat_lt x; have := Bool.toNat_lt h; exact fits (x := (0x1F) * 2 ^ 26 + (0) * 2 ^ 24 + (a.val) * 2 ^ 20 + (b.val) * 2 ^ 16 + (0) * 2 ^ 12 + (f.val) * 2 ^ 8 + (x.toNat * 8 + h.toNat * 4)) he (by omega)
theorem scanc (a : Fin 16) (b : Fin 16) (r : Bool) (d : Fin 16) : Statement (.scanc a b r d) := by intro w' he; have := Bool.toNat_lt r; exact fits (x := (0x20) * 2 ^ 26 + (0) * 2 ^ 24 + (a.val) * 2 ^ 20 + (b.val) * 2 ^ 16 + (0) * 2 ^ 12 + (0) * 2 ^ 8 + (r.toNat * 16 + d.val)) he (by omega)
theorem scanb (a : Fin 16) (b : Fin 16) (r : Bool) (d : Fin 16) : Statement (.scanb a b r d) := by intro w' he; have := Bool.toNat_lt r; exact fits (x := (0x21) * 2 ^ 26 + (0) * 2 ^ 24 + (a.val) * 2 ^ 20 + (b.val) * 2 ^ 16 + (0) * 2 ^ 12 + (0) * 2 ^ 8 + (r.toNat * 16 + d.val)) he (by omega)
theorem scand (a : Fin 16) (b : Fin 16) (r : Bool) (d : Fin 16) : Statement (.scand a b r d) := by intro w' he; have := Bool.toNat_lt r; exact fits (x := (0x22) * 2 ^ 26 + (0) * 2 ^ 24 + (a.val) * 2 ^ 20 + (b.val) * 2 ^ 16 + (0) * 2 ^ 12 + (0) * 2 ^ 8 + (r.toNat * 16 + d.val)) he (by omega)
theorem lwc (a : Fin 16) (f : Fin 16) (d : Fin 16) : Statement (.lwc a f d) := by intro w' he; exact fits (x := (0x23) * 2 ^ 26 + (0) * 2 ^ 24 + (a.val) * 2 ^ 20 + (0) * 2 ^ 16 + (0) * 2 ^ 12 + (f.val) * 2 ^ 8 + (d.val)) he (by omega)
theorem lwb (a : Fin 16) (f : Fin 16) (d : Fin 16) : Statement (.lwb a f d) := by intro w' he; exact fits (x := (0x24) * 2 ^ 26 + (0) * 2 ^ 24 + (a.val) * 2 ^ 20 + (0) * 2 ^ 16 + (0) * 2 ^ 12 + (f.val) * 2 ^ 8 + (d.val)) he (by omega)
theorem lwd (a : Fin 16) (f : Fin 16) (z : Bool) (d : Fin 16) : Statement (.lwd a f z d) := by intro w' he; have := Bool.toNat_lt z; exact fits (x := (0x25) * 2 ^ 26 + (0) * 2 ^ 24 + (a.val) * 2 ^ 20 + (0) * 2 ^ 16 + (0) * 2 ^ 12 + (f.val) * 2 ^ 8 + (z.toNat * 16 + d.val)) he (by omega)
theorem isect (a : Fin 16) (b : Fin 16) (y : Bool) (x : Bool) : Statement (.isect a b y x) := by intro w' he; have := Bool.toNat_lt y; have := Bool.toNat_lt x; exact fits (x := (0x26) * 2 ^ 26 + (0) * 2 ^ 24 + (a.val) * 2 ^ 20 + (b.val) * 2 ^ 16 + (0) * 2 ^ 12 + (0) * 2 ^ 8 + (y.toNat * 2 + x.toNat)) he (by omega)
theorem union (a : Fin 16) (b : Fin 16) : Statement (.union a b) := by intro w' he; exact fits (x := (0x27) * 2 ^ 26 + (0) * 2 ^ 24 + (a.val) * 2 ^ 20 + (b.val) * 2 ^ 16 + (0) * 2 ^ 12 + (0) * 2 ^ 8 + (0)) he (by omega)
theorem rept (a : Fin 16) (b : Fin 16) : Statement (.rept a b) := by intro w' he; exact fits (x := (0x28) * 2 ^ 26 + (0) * 2 ^ 24 + (a.val) * 2 ^ 20 + (b.val) * 2 ^ 16 + (0) * 2 ^ 12 + (0) * 2 ^ 8 + (0)) he (by omega)
theorem redc (a : Fin 16) (f : Fin 16) (o : Fin 4) (n : Bool) : Statement (.redc a f o n) := by intro w' he; have := Bool.toNat_lt n; exact fits (x := (0x29) * 2 ^ 26 + (0) * 2 ^ 24 + (a.val) * 2 ^ 20 + (0) * 2 ^ 16 + (0) * 2 ^ 12 + (f.val) * 2 ^ 8 + (o.val * 2 + n.toNat)) he (by omega)
theorem arrd (a : Fin 16) (f : Fin 16) (d : Fin 16) : Statement (.arrd a f d) := by intro w' he; exact fits (x := (0x2A) * 2 ^ 26 + (0) * 2 ^ 24 + (a.val) * 2 ^ 20 + (0) * 2 ^ 16 + (0) * 2 ^ 12 + (f.val) * 2 ^ 8 + (d.val)) he (by omega)
theorem upsink (a : Fin 16) (b : Fin 16) (f : Fin 16) (w : Fin 4) : Statement (.upsink a b f w) := by intro w' he; exact fits (x := (0x2B) * 2 ^ 26 + (0) * 2 ^ 24 + (a.val) * 2 ^ 20 + (b.val) * 2 ^ 16 + (0) * 2 ^ 12 + (f.val) * 2 ^ 8 + (w.val)) he (by omega)
theorem crop (a : Fin 16) (b : Fin 16) (f : Fin 16) (x : Bool) : Statement (.crop a b f x) := by intro w' he; have := Bool.toNat_lt x; exact fits (x := (0x2C) * 2 ^ 26 + (0) * 2 ^ 24 + (a.val) * 2 ^ 20 + (b.val) * 2 ^ 16 + (0) * 2 ^ 12 + (f.val) * 2 ^ 8 + (x.toNat)) he (by omega)
theorem cmerge (a : Fin 16) (b : Fin 16) (f : Fin 16) (o : Fin 4) : Statement (.cmerge a b f o) := by intro w' he; exact fits (x := (0x2D) * 2 ^ 26 + (0) * 2 ^ 24 + (a.val) * 2 ^ 20 + (b.val) * 2 ^ 16 + (0) * 2 ^ 12 + (f.val) * 2 ^ 8 + (o.val)) he (by omega)
theorem agen (a : Fin 16) (d : Fin 16) : Statement (.agen a d) := by intro w' he; exact fits (x := (0x30) * 2 ^ 26 + (0) * 2 ^ 24 + (a.val) * 2 ^ 20 + (0) * 2 ^ 16 + (0) * 2 ^ 12 + (0) * 2 ^ 8 + (d.val)) he (by omega)
theorem opst (a : Fin 16) (b : Fin 16) (d : Fin 16) : Statement (.opst a b d) := by intro w' he; exact fits (x := (0x31) * 2 ^ 26 + (0) * 2 ^ 24 + (a.val) * 2 ^ 20 + (b.val) * 2 ^ 16 + (0) * 2 ^ 12 + (0) * 2 ^ 8 + (d.val)) he (by omega)
theorem fifo (a : Fin 16) (d : Fin 16) : Statement (.fifo a d) := by intro w' he; exact fits (x := (0x32) * 2 ^ 26 + (0) * 2 ^ 24 + (a.val) * 2 ^ 20 + (0) * 2 ^ 16 + (0) * 2 ^ 12 + (0) * 2 ^ 8 + (d.val)) he (by omega)
theorem lbuf (a : Fin 16) (b : Fin 16) (d : Fin 16) : Statement (.lbuf a b d) := by intro w' he; exact fits (x := (0x33) * 2 ^ 26 + (0) * 2 ^ 24 + (a.val) * 2 ^ 20 + (b.val) * 2 ^ 16 + (0) * 2 ^ 12 + (0) * 2 ^ 8 + (d.val)) he (by omega)
theorem mld (a : Fin 16) (d : Fin 16) : Statement (.mld a d) := by intro w' he; exact fits (x := (0x34) * 2 ^ 26 + (0) * 2 ^ 24 + (a.val) * 2 ^ 20 + (0) * 2 ^ 16 + (0) * 2 ^ 12 + (0) * 2 ^ 8 + (d.val)) he (by omega)
theorem mst (a : Fin 16) (b : Fin 16) (d : Fin 16) : Statement (.mst a b d) := by intro w' he; exact fits (x := (0x35) * 2 ^ 26 + (0) * 2 ^ 24 + (a.val) * 2 ^ 20 + (b.val) * 2 ^ 16 + (0) * 2 ^ 12 + (0) * 2 ^ 8 + (d.val)) he (by omega)
theorem steer (p : Fin 4) (a : Fin 16) (b : Fin 16) (i : Bool) : Statement (.steer p a b i) := by intro w' he; have := Bool.toNat_lt i; exact fits (x := (0x38) * 2 ^ 26 + (p.val) * 2 ^ 24 + (a.val) * 2 ^ 20 + (b.val) * 2 ^ 16 + (0) * 2 ^ 12 + (0) * 2 ^ 8 + (i.toNat)) he (by omega)
theorem merge (p : Fin 4) (a : Fin 16) (b : Fin 16) (c : Fin 16) : Statement (.merge p a b c) := by intro w' he; exact fits (x := (0x39) * 2 ^ 26 + (p.val) * 2 ^ 24 + (a.val) * 2 ^ 20 + (b.val) * 2 ^ 16 + (c.val) * 2 ^ 12 + (0) * 2 ^ 8 + (0)) he (by omega)
theorem carry (a : Fin 16) (b : Fin 16) (c : Fin 16) : Statement (.carry a b c) := by intro w' he; exact fits (x := (0x3A) * 2 ^ 26 + (1) * 2 ^ 24 + (a.val) * 2 ^ 20 + (b.val) * 2 ^ 16 + (c.val) * 2 ^ 12 + (0) * 2 ^ 8 + (0)) he (by omega)
theorem invar (p : Fin 4) (a : Fin 16) (b : Fin 16) : Statement (.invar p a b) := by intro w' he; exact fits (x := (0x3B) * 2 ^ 26 + (p.val) * 2 ^ 24 + (a.val) * 2 ^ 20 + (b.val) * 2 ^ 16 + (0) * 2 ^ 12 + (0) * 2 ^ 8 + (0)) he (by omega)
theorem cand (a : Fin 16) (b : Fin 16) : Statement (.cand a b) := by intro w' he; exact fits (x := (0x3C) * 2 ^ 26 + (2) * 2 ^ 24 + (a.val) * 2 ^ 20 + (b.val) * 2 ^ 16 + (0) * 2 ^ 12 + (0) * 2 ^ 8 + (0)) he (by omega)
theorem cnot (a : Fin 16) : Statement (.cnot a) := by intro w' he; exact fits (x := (0x3D) * 2 ^ 26 + (2) * 2 ^ 24 + (a.val) * 2 ^ 20 + (0) * 2 ^ 16 + (0) * 2 ^ 12 + (0) * 2 ^ 8 + (0)) he (by omega)
theorem emit (tag : BitVec 16) : Statement (.emit tag) := fun w' he => nomatch (show (none : Option Nat) = some w' from he)
theorem emitfree (tag : BitVec 16) : Statement (.emitfree tag) := fun w' he => nomatch (show (none : Option Nat) = some w' from he)
theorem evict (slot : Fin 16) : Statement (.evict slot) := fun w' he => nomatch (show (none : Option Nat) = some w' from he)
theorem skipToken : Statement .skipToken := fun w' he => nomatch (show (none : Option Nat) = some w' from he)
theorem beatHop (o : OriginRef) : Statement (.beatHop o) := fun w' he => nomatch (show (none : Option Nat) = some w' from he)
theorem pendingBeatTimeout (holder : Nat × Nat) (q : QReg) : Statement (.pendingBeatTimeout holder q) := fun w' he => nomatch (show (none : Option Nat) = some w' from he)
theorem regionCommit (t : TaskId) : Statement (.regionCommit t) := fun w' he => nomatch (show (none : Option Nat) = some w' from he)
theorem regionPark (t : TaskId) : Statement (.regionPark t) := fun w' he => nomatch (show (none : Option Nat) = some w' from he)
theorem regionUnpark (t : TaskId) : Statement (.regionUnpark t) := fun w' he => nomatch (show (none : Option Nat) = some w' from he)
theorem countExhausted (t : TaskId) : Statement (.countExhausted t) := fun w' he => nomatch (show (none : Option Nat) = some w' from he)
theorem drainEmit (o : OriginRef) : Statement (.drainEmit o) := fun w' he => nomatch (show (none : Option Nat) = some w' from he)
theorem phaseEnd (t : TaskId) : Statement (.phaseEnd t) := fun w' he => nomatch (show (none : Option Nat) = some w' from he)
theorem checkpointComplete (t : TaskId) : Statement (.checkpointComplete t) := fun w' he => nomatch (show (none : Option Nat) = some w' from he)
theorem regionStall (t : TaskId) : Statement (.regionStall t) := fun w' he => nomatch (show (none : Option Nat) = some w' from he)
theorem copyRowIssue (c : CopyId) : Statement (.copyRowIssue c) := fun w' he => nomatch (show (none : Option Nat) = some w' from he)
theorem copyRowLand (c : CopyId) (row : Nat) : Statement (.copyRowLand c row) := fun w' he => nomatch (show (none : Option Nat) = some w' from he)
theorem tokenConsume (c : CopyId) : Statement (.tokenConsume c) := fun w' he => nomatch (show (none : Option Nat) = some w' from he)
theorem remoteRowFault (f : RowFault) (row : Nat) : Statement (.remoteRowFault f row) := fun w' he => nomatch (show (none : Option Nat) = some w' from he)
theorem heldRowRetry (c : CopyId) : Statement (.heldRowRetry c) := fun w' he => nomatch (show (none : Option Nat) = some w' from he)
theorem ingressClose (die : Fin 6) (n : Nat) : Statement (.ingressClose die n) := fun w' he => nomatch (show (none : Option Nat) = some w' from he)
theorem precombineExpiry (die : Fin 6) (idx : Nat) : Statement (.precombineExpiry die idx) := fun w' he => nomatch (show (none : Option Nat) = some w' from he)
theorem binMerge (die : Fin 6) (idx : Nat) : Statement (.binMerge die idx) := fun w' he => nomatch (show (none : Option Nat) = some w' from he)
theorem backgroundApply (line : Nat) : Statement (.backgroundApply line) := fun w' he => nomatch (show (none : Option Nat) = some w' from he)
theorem hashpcWrite (h : HartId) (v : BitVec 64) : Statement (.hashpcWrite h v) := fun w' he => nomatch (show (none : Option Nat) = some w' from he)
theorem rehashComplete (die : Fin 6) : Statement (.rehashComplete die) := fun w' he => nomatch (show (none : Option Nat) = some w' from he)
theorem ubinthreshWrite (h : HartId) (v : BitVec 64) : Statement (.ubinthreshWrite h v) := fun w' he => nomatch (show (none : Option Nat) = some w' from he)
theorem wextsizeWrite (h : HartId) (v : BitVec 64) : Statement (.wextsizeWrite h v) := fun w' he => nomatch (show (none : Option Nat) = some w' from he)
theorem belvedereSweep (die : Fin 6) : Statement (.belvedereSweep die) := fun w' he => nomatch (show (none : Option Nat) = some w' from he)
theorem inheritanceUpdate : Statement .inheritanceUpdate := fun w' he => nomatch (show (none : Option Nat) = some w' from he)
theorem launchDequeue : Statement .launchDequeue := fun w' he => nomatch (show (none : Option Nat) = some w' from he)
theorem hartDispatch (h : HartId) : Statement (.hartDispatch h) := fun w' he => nomatch (show (none : Option Nat) = some w' from he)
theorem switchOut (h : HartId) : Statement (.switchOut h) := fun w' he => nomatch (show (none : Option Nat) = some w' from he)
theorem memoryQueuePromote (die : Fin 6) : Statement (.memoryQueuePromote die) := fun w' he => nomatch (show (none : Option Nat) = some w' from he)
theorem preemptionEvaluation (n : Newcomer) : Statement (.preemptionEvaluation n) := fun w' he => nomatch (show (none : Option Nat) = some w' from he)
theorem taskRearm (t : TaskId) : Statement (.taskRearm t) := fun w' he => nomatch (show (none : Option Nat) = some w' from he)
theorem periodStart : Statement .periodStart := fun w' he => nomatch (show (none : Option Nat) = some w' from he)
theorem graphEnd (l : Nat) : Statement (.graphEnd l) := fun w' he => nomatch (show (none : Option Nat) = some w' from he)
theorem graphRun (l : Nat) : Statement (.graphRun l) := fun w' he => nomatch (show (none : Option Nat) = some w' from he)
theorem graphIf (l : Nat) : Statement (.graphIf l) := fun w' he => nomatch (show (none : Option Nat) = some w' from he)
theorem graphLoop (l : Nat) : Statement (.graphLoop l) := fun w' he => nomatch (show (none : Option Nat) = some w' from he)
theorem graphSwitch (l : Nat) : Statement (.graphSwitch l) := fun w' he => nomatch (show (none : Option Nat) = some w' from he)
theorem watchDelivery (h : HartId) : Statement (.watchDelivery h) := fun w' he => nomatch (show (none : Option Nat) = some w' from he)
theorem translationWalkComplete (u : UnitRef) : Statement (.translationWalkComplete u) := fun w' he => nomatch (show (none : Option Nat) = some w' from he)
theorem ringPartial (msg : CollMsg) : Statement (.ringPartial msg) := fun w' he => nomatch (show (none : Option Nat) = some w' from he)
theorem ringTotal (msg : CollMsg) : Statement (.ringTotal msg) := fun w' he => nomatch (show (none : Option Nat) = some w' from he)
theorem treeValue (msg : CollMsg) : Statement (.treeValue msg) := fun w' he => nomatch (show (none : Option Nat) = some w' from he)
theorem collectiveDone (msg : CollMsg) : Statement (.collectiveDone msg) := fun w' he => nomatch (show (none : Option Nat) = some w' from he)
theorem abort (msg : CollMsg) : Statement (.abort msg) := fun w' he => nomatch (show (none : Option Nat) = some w' from he)
theorem collectiveTimeout (r : Nat) : Statement (.collectiveTimeout r) := fun w' he => nomatch (show (none : Option Nat) = some w' from he)
theorem probe (msg : CollMsg) : Statement (.probe msg) := fun w' he => nomatch (show (none : Option Nat) = some w' from he)
theorem probeWindowEnd (r : Nat) (answered : List (Nat × Bool)) : Statement (.probeWindowEnd r answered) := fun w' he => nomatch (show (none : Option Nat) = some w' from he)
theorem membCollect (msg : CollMsg) : Statement (.membCollect msg) := fun w' he => nomatch (show (none : Option Nat) = some w' from he)
theorem membPublish (r : Nat) : Statement (.membPublish r) := fun w' he => nomatch (show (none : Option Nat) = some w' from he)
theorem membPublication (msg : CollMsg) : Statement (.membPublication msg) := fun w' he => nomatch (show (none : Option Nat) = some w' from he)
theorem membReprobe (r : Nat) (first : Nat) : Statement (.membReprobe r first) := fun w' he => nomatch (show (none : Option Nat) = some w' from he)
theorem dataFlit (port : Nat) (f : FlitBits) : Statement (.dataFlit port f) := fun w' he => nomatch (show (none : Option Nat) = some w' from he)
theorem acknowledgeFlit (port : Nat) (f : FlitBits) : Statement (.acknowledgeFlit port f) := fun w' he => nomatch (show (none : Option Nat) = some w' from he)
theorem negativeAcknowledge (port : Nat) (f : FlitBits) : Statement (.negativeAcknowledge port f) := fun w' he => nomatch (show (none : Option Nat) = some w' from he)
theorem auditTimer (port : Nat) : Statement (.auditTimer port) := fun w' he => nomatch (show (none : Option Nat) = some w' from he)
theorem auditFlit (port : Nat) (f : FlitBits) : Statement (.auditFlit port f) := fun w' he => nomatch (show (none : Option Nat) = some w' from he)
theorem occupancyReport (port : Nat) (occ : Nat) (freed : Nat) : Statement (.occupancyReport port occ freed) := fun w' he => nomatch (show (none : Option Nat) = some w' from he)
theorem linkRetrain (port : Nat) : Statement (.linkRetrain port) := fun w' he => nomatch (show (none : Option Nat) = some w' from he)
theorem resyncFlit (port : Nat) (f : FlitBits) : Statement (.resyncFlit port f) := fun w' he => nomatch (show (none : Option Nat) = some w' from he)
theorem linkDown (port : Nat) : Statement (.linkDown port) := fun w' he => nomatch (show (none : Option Nat) = some w' from he)
theorem doorbell (seq : BitVec 64) (writes : List (Fin 256 × BitVec 512)) : Statement (.doorbell seq writes) := fun w' he => nomatch (show (none : Option Nat) = some w' from he)
theorem sqhead (v : BitVec 64) : Statement (.sqhead v) := fun w' he => nomatch (show (none : Option Nat) = some w' from he)
theorem hostRegisterWrite (size : Bool) (v : BitVec 64) : Statement (.hostRegisterWrite size v) := fun w' he => nomatch (show (none : Option Nat) = some w' from he)
theorem launchCommand (seq : Nat) : Statement (.launchCommand seq) := fun w' he => nomatch (show (none : Option Nat) = some w' from he)
theorem cancel (seq : Nat) : Statement (.cancel seq) := fun w' he => nomatch (show (none : Option Nat) = some w' from he)
theorem wrmem (seq : Nat) : Statement (.wrmem seq) := fun w' he => nomatch (show (none : Option Nat) = some w' from he)
theorem rdmem (seq : Nat) : Statement (.rdmem seq) := fun w' he => nomatch (show (none : Option Nat) = some w' from he)
theorem qcfg (seq : Nat) : Statement (.qcfg seq) := fun w' he => nomatch (show (none : Option Nat) = some w' from he)
theorem asidtab (seq : Nat) : Statement (.asidtab seq) := fun w' he => nomatch (show (none : Option Nat) = some w' from he)
theorem trace (seq : Nat) : Statement (.trace seq) := fun w' he => nomatch (show (none : Option Nat) = some w' from he)
theorem errcnt (seq : Nat) : Statement (.errcnt seq) := fun w' he => nomatch (show (none : Option Nat) = some w' from he)
theorem hartrst (seq : Nat) : Statement (.hartrst seq) := fun w' he => nomatch (show (none : Option Nat) = some w' from he)
theorem linkup (seq : Nat) : Statement (.linkup seq) := fun w' he => nomatch (show (none : Option Nat) = some w' from he)
theorem attest (seq : Nat) : Statement (.attest seq) := fun w' he => nomatch (show (none : Option Nat) = some w' from he)
theorem pcap (seq : Nat) : Statement (.pcap seq) := fun w' he => nomatch (show (none : Option Nat) = some w' from he)
theorem reset (seq : Nat) (junction : Nat) : Statement (.reset seq junction) := fun w' he => nomatch (show (none : Option Nat) = some w' from he)
theorem sqreplay (seq : Nat) : Statement (.sqreplay seq) := fun w' he => nomatch (show (none : Option Nat) = some w' from he)
theorem boot : Statement .boot := fun w' he => nomatch (show (none : Option Nat) = some w' from he)
theorem bootStage (e : StageEnd) : Statement (.bootStage e) := fun w' he => nomatch (show (none : Option Nat) = some w' from he)
theorem refresh (stack : Fin 12) (group : Nat) : Statement (.refresh stack group) := fun w' he => nomatch (show (none : Option Nat) = some w' from he)
theorem temperatureThreshold (stack : Fin 12) (layer : Fin 16) (deg : Nat) : Statement (.temperatureThreshold stack layer deg) := fun w' he => nomatch (show (none : Option Nat) = some w' from he)
theorem catastrophicTemperature (junction : Nat) : Statement (.catastrophicTemperature junction) := fun w' he => nomatch (show (none : Option Nat) = some w' from he)
theorem powerWindow (watts : Nat) : Statement (.powerWindow watts) := fun w' he => nomatch (show (none : Option Nat) = some w' from he)
theorem illegalInstruction (w : BitVec 32) : Statement (.illegalInstruction w) := fun w' he => nomatch (show (none : Option Nat) = some w' from he)
theorem instructionFetchFault (c : Cause) (va : BitVec 64) (detail : Nat) : Statement (.instructionFetchFault c va detail) := fun w' he => nomatch (show (none : Option Nat) = some w' from he)
theorem loadDataReturn (h : HartId) (err : Bool) : Statement (.loadDataReturn h err) := fun w' he => nomatch (show (none : Option Nat) = some w' from he)
theorem writePerformed (h : HartId) (idx : Nat) : Statement (.writePerformed h idx) := fun w' he => nomatch (show (none : Option Nat) = some w' from he)
theorem l1LineEviction (core : Fin 192) (line : Nat) : Statement (.l1LineEviction core line) := fun w' he => nomatch (show (none : Option Nat) = some w' from he)
theorem linkRetrainComplete (port : Nat) : Statement (.linkRetrainComplete port) := fun w' he => nomatch (show (none : Option Nat) = some w' from he)
theorem secondTierPortFailure (port : Fin 16) : Statement (.secondTierPortFailure port) := fun w' he => nomatch (show (none : Option Nat) = some w' from he)

end Sys2Proof.Laws.Encoding
end

