-- ==== Sys2Proof/Tests/Slice0.lean ====
section
/-!
SUPPORT. The author's own tests: words written from the tables of R11 to R24, ill-formed terms, one step of an instruction with
the result a rule gives, and for each statement a state and operands that meet its hypotheses.
-/
namespace Sys2Proof.Tests

open Sys2Proof Sys2Proof.Machine

set_option Elab.async false

/-! ## Small states -/

/-- One page of die 0's memory, 0x10000 up, at the same virtual address, open to every access at program level. -/
def page : TlbEntry := ⟨0, 0x10000, 0x10000, 0x10000, true, true, true, true, none⟩

/-- Hart 0 running a continuation, with the page in die 0's second level. -/
def st (c : Ctx) : State :=
  { harts := [(0, { run := .running, ctx := c })], dies := State.reset.dies.set 0 { tlb := [page] } }

/-- A continuation at 0x10000 with the named scalar registers. -/
def regs (l : List (Nat × Word)) : Ctx :=
  { pc := 0x10000, s := Vector.ofFn fun i => (Tbl.find? l i.val).getD 0 }

/-- The same with vector registers. -/
def vregs (l : List (Nat × Line)) : Ctx :=
  { pc := 0x10000, v := Vector.ofFn fun i => (Tbl.find? l i.val).getD 0 }

/-- What holds of the next state. -/
def after (o : Host.Outcome State Fault Refusal) (p : State → Bool) : Bool :=
  match o with
  | .next t => p t
  | _ => false

/-- What holds of a check's answer, of a value that may be missing, of a meaning's result. -/
def okE {ε α : Type} (r : Except ε α) (p : α → Bool) : Bool :=
  match r with
  | .ok a => p a
  | .error _ => false

def errE {ε α : Type} (r : Except ε α) (p : ε → Bool) : Bool :=
  match r with
  | .ok _ => false
  | .error e => p e

def okM {ε σ α : Type} (r : EStateM.Result ε σ α) (p : α → σ → Bool) : Bool :=
  match r with
  | .ok a t => p a t
  | .error _ _ => false

/-- No write on its way and no entry of the Belvedere in memory; room in die 0's table. -/
def calmB (s : State) : Bool := s.ctx.stores.isEmpty && s.casts.isEmpty && s.allEntries.all (·.slot.isNone)
def roomB (s : State) (n : Nat) : Bool := decide (n ≤ (s.getDie 0).chipFree)

/-- A ready record. -/
def readyRec : Rec :=
  { uid := 9, launch := 0, code := 0x10000, frame := 0, join := 0, prio := 0, seed := 0, node := false, time := 0, saved := none }

/-- A control word and an element word read back as an instruction. -/
def reads (w : Nat) (i : Instr) : Bool := (decodeControl w).toOption == some i
noncomputable def readsE (w : Nat) (i : Instr) : Bool := (decodeElement w).toOption == some i

/-! ## Decoding: one word or more for each family, fields from R11 to R24 -/

/-- Majors 0x01 to 0x0A: format A `op d a b fn`, B `op d a imm14`, C `op d imm20` (R11, R16). -/
theorem test_decode_alu :
    reads 0b000001_000001_000010_000011_00011101 (.selnz 1 2 3) = true ∧
    reads 0b000001_000001_000010_000000_00011010 (.popc 1 2) = true ∧
    reads 0b000010_111111_000001_11111111111111 (.addi 63 1 0x3FFF) = true ∧
    reads 0b000110_000101_000110_11_000000_111111 (.rori 5 6 63) = true ∧
    reads 0b001000_000101_000110_10000000000000 (.sltzi 5 6 0x2000) = true ∧
    reads 0b001001_000111_10000000000000000001 (.lui 7 0x80001) = true ∧
    reads 0b001010_000111_00000000000000000001 (.auipc 7 1) = true := by decide +kernel

/-- Majors 0x0B to 0x19 (R11, R16): sizes in imm14[13:11] or fn, D `op a cond off17`, L with its counter bit. -/
theorem test_decode_memory_and_control :
    reads 0b001011_000011_000100_101_11111111111 (.ld 3 4 .z32 0x7FF) = true ∧
    reads 0b001100_000011_000100_010_00000000001 (.st 3 4 .b4 1) = true ∧
    reads 0b001101_000011_000100_000101_00000110 (.ldx 3 4 5 .d64) = true ∧
    reads 0b001111_000011_000100_00000000000001 (.lea 3 4 1) = true ∧
    reads 0b010000_000000_000100_00000000000001 (.pfch 4 1) = true ∧
    reads 0b010001_000111_110_11111111111111111 (.br 7 .bit0 0x1FFFF) = true ∧
    reads 0b010010_11111111111111111111111111 (.jmp 0x3FFFFFF) = true ∧
    reads 0b010011_00000000000000000000000001 (.call 1) = true ∧
    reads 0b010100_000000_000111_000000_00000001 (.callr 7) = true ∧
    reads 0b010101_1_000111_111111111_0000000000 (.loop 1 7 511) = true ∧
    reads 0b010110_1_111111111111111_000000001_0 (.loopi 1 0x7FFF 1) = true ∧
    reads 0b010111_000001_000010_000000_00000000 (.rep 1 2) = true := by decide +kernel

/-- Majors 0x20 to 0x29: format V `op vd va vb m ew S fn` (R11, R17). -/
theorem test_decode_vector :
    reads 0b100000_00001_00010_00011_001_00_0_01101 (.vsra 1 2 (.v 3) 1 0) = true ∧
    reads 0b100001_00001_00010_00011_000_01_1_00000 (.vfadd 1 2 (.s 3) 0 1) = true ∧
    reads 0b100010_00111_00010_00011_000_10_0_00111 (.vfcun 7 2 (.v 3) 0 2) = true ∧
    reads 0b100011_00001_00010_11110_000_00_0_00000 (.vcvt 1 2 30 0) = true ∧
    reads 0b100100_00001_00010_00011_010_11_0_00100 (.vgth 1 2 3 2 3) = true ∧
    reads 0b100101_00001_00010_00011_000_10_1_01001 (.vmrg 1 2 (.s 3) 0 2) = true ∧
    reads 0b100111_00001_00010_00011_000_00_0_00000 (.mand 1 2 3) = true ∧
    reads 0b101001_00001_00010_00011_000_11_0_00000 (.vbdot 1 2 (.v 3) 0 1) = true := by decide +kernel

/-- Majors 0x30 to 0x3B: format A, or A12 for those the map marks (R18). -/
theorem test_decode_system :
    reads 0b110000_000001_000010_000011_00000000 (.fload 1 2 3) = true ∧
    reads 0b110001_000001_000010_000000_00000100 (.gath 1 2) = true ∧
    reads 0b110010_000000_000010_000011_00000000 (.upd 2 3) = true ∧
    reads 0b110011_000001_000010_000011_00000011 (.swap 1 2 3) = true ∧
    reads 0b110100_000001_000010_000000_00000011 (.barw 1 2) = true ∧
    reads 0b110101_000001_000010_000011_00000011 (.wwait 1 2 3) = true ∧
    reads 0b110110_000001_000010_000011_00000000 (.spawn 1 2 3) = true ∧
    reads 0b110111_000001_000010_000000_00000010 (.drainw 1 2) = true ∧
    reads 0b111000_000001_000010_000011_00000100 (.memb 1 2 3) = true ∧
    reads 0b111010_000000_000000_000000_00000001 .tret = true ∧
    reads 0b111011_000001_000010_000011_00000011 (.wpset 1 2 3) = true := by decide +kernel

/-- Element words: `eop plane pa pb pc fmt mode` (R21, R22). -/
theorem test_decode_element :
    readsE 0b000001_00_0000_0001_0000_0001_00000000 (.eadd 0 0 1 1 0) = true ∧
    readsE 0b011000_00_0010_0011_0000_1011_00000110 (.mdense 2 3 11 true 2) = true ∧
    readsE 0b100110_00_0000_0001_0000_0000_00000011 (.isect 0 1 true true) = true ∧
    readsE 0b101011_00_0000_0001_0000_0001_00000000 (.upsink 0 1 1 0) = true ∧
    readsE 0b110100_00_0011_0000_0000_0000_00001111 (.mld 3 15) = true ∧
    readsE 0b111001_10_0001_0010_0011_0000_00000000 (.merge 2 1 2 3) = true := by decide +kernel

/-- Words that R15 and R23 refuse: zero, an unassigned major, fn beyond a list, a reserved cond, a len of 0, a field not used,
s64 of a pair, a reserved eop, a port field not read. -/
theorem test_decode_refuses :
    (decodeControl 0).toOption = none ∧
    (decodeControl 0b011010_00000000000000000000000001).toOption = none ∧
    (decodeControl 0b000001_000001_000010_000011_00011110).toOption = none ∧
    (decodeControl 0b010001_000111_111_00000000000000001).toOption = none ∧
    (decodeControl 0b010101_1_000111_000000000_0000000000).toOption = none ∧
    (decodeControl 0b000001_000001_000010_000011_00011010).toOption = none ∧
    (decodeControl 0b011001_000000_00000000000000000001).toOption = none ∧
    (decodeControl 0b110011_000010_000100_000101_00000001).toOption = none ∧
    (decodeElement 0b101110_00_0000_0001_0000_0001_00000000).toOption = none ∧
    (decodeElement 0b000001_00_0000_0001_0001_0001_00000000).toOption = none := by decide +kernel

/-! ## Ill-formed terms, one for each check -/

/-- The control checks (R12, R15, R20, R60, R113, R123). -/
theorem test_control_checks_refuse :
    [Instr.loop 0 1 0, .loopi 0 1 0, .vfadd 1 2 (.v 3) 0 3, .vfsub 1 2 (.v 3) 0 3, .vfmul 1 2 (.v 3) 0 3, .vfma 1 2 (.v 3) 0 3,
      .vfnma 1 2 (.v 3) 0 3, .vfmin 1 2 (.v 3) 0 3, .vfmax 1 2 (.v 3) 0 3, .vfabs 1 2 0 3, .vfneg 1 2 0 3, .vfdiv 1 2 (.v 3) 0 3,
      .vfsqrt 1 2 0 3, .vfrsq 1 2 0 3, .vfexp2 1 2 0 3, .vflog2 1 2 0 3].all (fun i => !wellFormed i) = true ∧
    [Instr.vceq 0 1 (.v 2) 0 0, .vclt 0 1 (.v 2) 0 0, .vcltz 0 1 (.v 2) 0 0, .vcle 0 1 (.v 2) 0 0, .vfceq 0 1 (.v 2) 0 0,
      .vfclt 1 1 (.v 2) 0 3, .vfcle 0 1 (.v 2) 0 0, .vfcun 1 1 (.v 2) 0 3, .vcvt 1 2 31 0, .updv 1 2 3 0 0, .vfreda 1 2 0 3,
      .mand 0 1 2, .mor 0 1 2, .mxor 0 1 2, .mnot 0 1, .mmov 0 1, .mmovScalar 0 1, .vfman 1 2 (.v 3) 0 3,
      .dcas 1 2 4, .dcas 2 3 4, .dcas 2 4 5, .dcas 62 2 4, .sbar false false false false].all (fun i => !wellFormed i) = true := by
  decide +kernel

/-- The element checks (R23): a plane, a format, a port and mode bits that an operation does not take. -/
theorem test_element_checks_refuse :
    [Instr.eadd 1 0 1 1 0, .eadd 0 0 1 4 0, .ecmp 0 1 1 true 0 0, .eadd 0 0 1 1 2, .mdense 0 1 2 false 0, .mdense 0 1 1 false 3,
      .mbxor 0 1 1 false 0, .redc 0 1 3 false, .upsink 0 1 1 1, .crop 0 1 0 false, .opst 0 1 0, .steer 0 0 1 false, .scanc 1 2 true 0,
      .lwc 0 14 0].all (fun i => !wellFormed i) = true := by decide +kernel

/-! ## Scalar arithmetic: one step each, results worked out from R36 to R39 -/

/-- What a register-only instruction leaves in s1, with s2 and s3 as its sources; the pc moves one word. -/
def gives (i : Instr) (x y v : Word) : Bool :=
  after (exec i (st (regs [(1, 0x55), (2, x), (3, y)]))) fun t => t.rd 1 == v && t.pc == 0x10004 && t.rd 2 == x

theorem test_alu_results :
    gives (.add 1 2 3) (-1) 1 0 = true ∧
    gives (.sub 1 2 3) 0 1 (-1) = true ∧
    gives (.andn 1 2 3) 0xFF 0x0F 0xF0 = true ∧
    gives (.shl 1 2 3) 1 63 0x8000000000000000#64 = true ∧
    gives (.shl 1 2 3) 1 64 1 = true ∧
    gives (.sra 1 2 3) 0x8000000000000000#64 63 (-1) = true ∧
    gives (.ror 1 2 3) 1 1 0x8000000000000000#64 = true ∧
    gives (.mulh 1 2 3) (-1) (-1) 0 = true ∧
    gives (.mulhz 1 2 3) (-1) (-1) (-2) = true ∧
    gives (.min 1 2 3) (-1) 1 (-1) = true ∧
    gives (.minz 1 2 3) (-1) 1 1 = true ∧
    gives (.clz 1 2) 0 0 64 = true ∧
    gives (.ctz 1 2) 0x8000000000000000#64 0 63 = true ∧
    gives (.popc 1 2) (-1) 0 64 = true := by decide +kernel

theorem test_division_results :
    gives (.div 1 2 3) (-7) 2 (-3) = true ∧
    gives (.rem 1 2 3) (-7) 2 (-1) = true ∧
    gives (.divz 1 2 3) (-7) 2 0x7FFFFFFFFFFFFFFC#64 = true ∧
    gives (.div 1 2 3) 0x8000000000000000#64 (-1) 0x8000000000000000#64 = true ∧
    gives (.rem 1 2 3) 0x8000000000000000#64 (-1) 0 = true ∧
    gives (.remz 1 2 3) 7 0 7 = true := by decide +kernel

theorem test_fields_and_immediates :
    gives (.bext 1 2 3) 0xABCD 0x0404 0xC = true ∧
    gives (.bins 1 2 3) 0xF 0x0404 0xF5 = true ∧
    gives (.selnz 1 2 3) 7 0 0x55 = true ∧
    gives (.addi 1 2 0x3FFF) 0 0 (-1) = true ∧
    gives (.andi 1 2 0x3FFF) (-1) 0 0x3FFF = true ∧
    gives (.ori 1 2 0x2000) 0 0 0xFFFFFFFFFFFFE000#64 = true ∧
    gives (.sltzi 1 2 0x3FFF) 0x3FFE 0 1 = true ∧
    gives (.lui 1 0x80000) 0 0 0xFFFFFFFF80000000#64 = true ∧
    gives (.auipc 1 1) 0 0 0x11000 = true ∧
    gives (.lea 1 2 0x3FFF) 0x100 0 0xC0 = true ∧
    gives (.add 0 2 3) 1 1 0x55 = true := by decide +kernel

/-! ## States that meet the hypotheses of the statements -/

/-- EncodingRoundTrip, DecodingIsExact: a control word and an element word with every field at its last value. -/
theorem witness_encoding :
    (wellFormed (.addi 63 63 0x3FFF) && encode (.addi 63 63 0x3FFF) == some 0x0BFFFFFF) = true ∧
    (wellFormed (.econst 0 15 0 11 255) && (encode (.econst 0 15 0 11 255)).isSome) = true ∧
    (reads 0x0BFFFFFF (.addi 63 63 0x3FFF) && readsE 0b000001_11_1111_1111_0000_1011_01000000 (.eadd 3 15 15 11 1)) = true := by
  decide +kernel

/-- UnassignedMajorsIllegal: the first and last word of each range. -/
theorem witness_unassigned_majors :
    [0, 0x03FFFFFF, 0x68000000, 0x7FFFFFFF, 0xA8000000, 0xBFFFFFFF, 0xF0000000, 0xFFFFFFFF].all (fun w => decide (w < 2 ^ 32) &&
      decide (w / 2 ^ 26 = 0 ∨ (0x1A ≤ w / 2 ^ 26 ∧ w / 2 ^ 26 ≤ 0x1F) ∨ (0x2A ≤ w / 2 ^ 26 ∧ w / 2 ^ 26 ≤ 0x2F) ∨ 0x3C ≤ w / 2 ^ 26))
      = true := by decide +kernel

/-- What a passed check answers, and a failed one. -/
def passes (r : State × Checked) (p : State → Acc → Bool) : Bool :=
  match r with
  | (t, .ok a) => p t a
  | _ => false
def refuses (r : State × Checked) (p : State → Cause × Nat × Nat → Bool) : Bool :=
  match r with
  | (t, .error e) => p t e
  | _ => false

/-- Bytes of memory, from an address on. -/
def withBytes (s : State) (a : Nat) (n v : Nat) : State := s.put a (leBytes n v)

/-- The state after the cycle that a step lets pass, ready to fetch. -/
def ready0 (s : State) : State := (s.tick 1).updHart s.cur fun x => { x with late := s.me.late }

/-- The hypotheses of the first clause of StepRunsTheDecodedInstruction, for a word in memory at the pc. -/
def fetches (s : State) (w : BitVec 32) : Bool :=
  let s0 := ready0 s
  s.turns.isEmpty && s0.cur == s.cur && s0.me.run == .running && !s0.throttled s0.myself s0.ctx.cont.launch 0 && s0.ctx.pend.isEmpty
    && !s0.ctx.rep.active
    && passes (s0.check s0.die s0.me.asid.toNat s0.me.pl .fetch s0.pc 4) fun s1 a => !s1.broken a.pa
      && BitVec.ofNat 32 ((s1.touch a.pa 4).valueAt a.pa 4) == w && (s1.touch a.pa 4).ctx.replay.isEmpty

/-- A slot that holds a word: die 0, tile (0, 0), context 0, slot 0 of a running task. -/
def slotState (w : BitVec 32) : State :=
  { turns := [.unit ⟨⟨0, 0, 0⟩, 0, 0⟩], tiles := [(0, { ops := [(0, w)] })], current := [(0, 0)],
    tasks := [(0, { state := .running, w1 := 0, h1 := 0 })] }

theorem witness_step :
    fetches (withBytes (st (regs [])) 0x10000 4 0x64000000) 0x64000000 = true ∧ reads 0x64000000 .nop = true ∧
    fetches (withBytes (st (regs [])) 0x10000 4 0) 0 = true ∧ (decodeControl 0).toOption = none ∧
    (let s := slotState 0b000001_00_0000_0001_0000_0001_00000000
     (({ ({ s with turns := [] } : State).tick 1 with focus := ⟨⟨0, 0, 0⟩, 0, 0⟩ } : State).slotWord ⟨⟨0, 0, 0⟩, 0, 0⟩).isSome) = true ∧
    isEvent .skipToken = true := by decide +kernel

/-- Divisions: a divisor that is not 0, the one overflow, a divisor of 0 with each instruction named. -/
theorem witness_divisions :
    (st (regs [(2, 7), (3, 0x8000000000000000#64)])).rd 3 ≠ 0 ∧
    (let s := st (regs [(2, 0x8000000000000000#64), (3, 0xFFFFFFFFFFFFFFFF#64)])
     s.rd 2 = 0x8000000000000000#64 ∧ s.rd 3 = 0xFFFFFFFFFFFFFFFF#64) ∧
    (st (regs [(2, 7)])).rd 3 = 0 := by decide +kernel

/-- Loops at the end address: 0 and 1 armed or not, counters at 1 and 2, either armed last; a repeat with 2 and 1 left. -/
def looped (a0 a1 last : Bool) (n0 n1 : Word) : Ctx :=
  { pc := 0x10008, lc0 := n0, lc1 := n1, loop0 := ⟨0x10000, 0x10008, a0⟩, loop1 := ⟨0x10004, 0x10008, a1⟩, last1 := last }

theorem witness_completion :
    (let at0 (c : Ctx) := c.loop0.active && c.loop0.stop == c.pc
     let at1 (c : Ctx) := c.loop1.active && c.loop1.stop == c.pc
     (let c := looped false false false 0 0; !c.rep.active && !at0 c && !at1 c) &&
     (let c := looped true false false 2 0; at0 c && !at1 c && decide (1 < c.lc0.toNat)) &&
     (let c := looped true true false 2 0; at0 c && at1 c && !c.last1 && decide (1 < c.lc0.toNat)) &&
     (let c := looped false true false 0 2; at1 c && !at0 c && decide (1 < c.lc1.toNat)) &&
     (let c := looped true true true 0 2; at1 c && c.last1 && decide (1 < c.lc1.toNat)) &&
     (let c := looped true false false 1 0; at0 c && !at1 c && decide (c.lc0.toNat ≤ 1)) &&
     (let c := looped false true false 0 1; at1 c && !at0 c && decide (c.lc1.toNat ≤ 1)) &&
     (let c := looped true true false 1 2; at0 c && at1 c && !c.last1 && decide (c.lc0.toNat ≤ 1) && decide (1 < c.lc1.toNat)) &&
     (let c := looped true true true 2 1; at0 c && at1 c && c.last1 && decide (c.lc1.toNat ≤ 1) && decide (1 < c.lc0.toNat)) &&
     (let c := looped true true false 1 1; at0 c && at1 c && decide (c.lc0.toNat ≤ 1) && decide (c.lc1.toNat ≤ 1)) &&
     (let c : Ctx := { rep := { active := true, left := 2 } }; c.rep.active && decide (1 < c.rep.left.toNat)) &&
     (let c : Ctx := { rep := { active := true, left := 1 } }; c.rep.active && decide (c.rep.left.toNat ≤ 1))) = true := by
  decide +kernel

/-- LoadResults and LoadedBytesAndPrefetch: an aligned load that passes its check, at the page's first and last bytes, with its line
in L1 and not, cached and not (a replicated page). -/
def loads (s : State) (va : Word) (n : Nat) : Bool :=
  !s.me.late && va.toNat % n == 0 && passes (s.check s.die s.me.asid.toNat s.me.pl .load va n) fun s1 a =>
    !s1.portHeld s1.myself s1.ctx.cont.launch a.pa && !s1.broken a.pa && s1.ctx.stores.isEmpty && decide (a.pa % 64 + n ≤ 64)

theorem witness_loads :
    (let s := st (regs [(2, 0x10000)]); s.rd 2 + BitVec.ofInt 64 ((0 : BitVec 11).toInt * 8) == 0x10000 && loads s 0x10000 8) = true ∧
    (let s := st (regs [(2, 0x10000), (3, 0xFFFF)]); s.rd 2 + s.rd 3 * BitVec.ofNat 64 1 == 0x1FFFF && loads s 0x1FFFF 1) = true ∧
    passes ((st {}).check 0 0 false .load 0x10000 8) (fun t a => a.cached && (t.l1Of 0).isEmpty) = true ∧
    (let s := { st {} with l1 := [(0, [(0x400, (5 : Line))])] }
     passes (s.check 0 0 false .load 0x10000 8) fun t a => a.cached && ((t.l1Of 0).find? fun y => y.1 == a.pa / 64).isSome) = true ∧
    (let s := { st {} with dies := State.reset.dies.set 0 { tlb := [{ page with repl := some 3 }] } }
     passes (s.check 0 0 false .load 0x10000 8) fun _ a => !a.cached) = true := by decide +kernel

/-- StoreResults: an aligned store that passes its check, by a hart whose stores are performed at once and by one whose are not. -/
def stores (s : State) (va : Word) (n : Nat) : Bool :=
  va.toNat % n == 0 && passes (s.check s.die s.me.asid.toNat s.me.pl .store va n) fun s1 a =>
    a.pas.all fun q => !s1.protectedAt q n && (linesOf q n).all fun ln => !s.pendingLine ln

theorem witness_stores :
    (let s := st (regs [(2, 0x10000)]); !s.me.late && s.ctx.stores.isEmpty && stores s 0x10000 8) = true ∧
    (let s := (st (regs [(2, 0x10000), (3, 0xFFFF)])).updMe fun h => { h with late := true }
     s.me.late && stores s 0x1FFFF 1) = true := by decide +kernel

/-- AccessChecks: an odd address, one that is not canonical, no translation, a page that may not be read, a package that no link
reaches. -/
theorem witness_access_checks :
    ((st (regs [(2, 0x10001)])).rd 2).toNat % 2 ≠ 0 ∧
    (let v : Word := 0x0100000000000000#64; v.toNat % 8 = 0 ∧ v.toNat / 2 ^ 56 ≠ 0 ∧ v.toNat / 2 ^ 56 ≠ 255) ∧
    (match (st {}).translate 0 0 0x20000 with | (_, .error (c, _)) => c != .link | _ => false) = true ∧
    (match (st {}).translate 0 0 0x10000 with
      | (s1, .ok e) => errE (s1.judge 0 false .load 0x10000 8 { e with r := false }) fun x => x.1 == .access
      | _ => false) = true ∧
    (let s := { st {} with dies := State.reset.dies.set 0 { tlb := [{ page with pa := page.pa + 2 ^ 46 }] } }
     match s.translate 0 0 0x10000 with
      | (s1, .ok e) => errE (s1.judge 0 false .load 0x10000 8 e) fun x => x.1 == .link
      | _ => false) = true := by decide +kernel

/-- A launch that has used its budget of HBM transfers, and hart 0 in it. -/
def spent (s : State) : State :=
  { s with launches := [(1, { budget := [0, 0, 1, 0, 0], period := [0, 0, 2 ^ 40, 0, 0], conts := 1 })] }.updMe fun h => { h with ctx := { h.ctx with cont := { launch := 1 } } }

/-- AccessChecks, past the checks: a protected byte, a stopped stack, a poisoned line, a launch that is held, a line whose data is bad. -/
theorem witness_access_past_checks :
    (let ok (s : State) (use : Use) (p : State → Acc → Bool) := passes (s.check 0 0 false use 0x10040 8) p
     let held (s : State) (q : Nat) := s.portHeld s.myself s.ctx.cont.launch q
     let lost (s : State) (q : Nat) := s.stopped q || s.poison.contains (q / 64)
     let barrier := (st {}).updDie 0 fun d => { d with wft := [{ typ := .obj, kind := 3, pkg := 0, agent := 0, key := .mem 0x10040, vaddr := 0, time := 0, prio := 0, bprio := 0 }] }
     let hot := { st {} with hbmStacks := State.reset.hbmStacks.map fun x => { x with stopped := true } }
     let bad := { st {} with poison := [0x401] }
     ok barrier .store (fun t a => a.pas.any fun q => t.protectedAt q 8) &&
     ok hot .store (fun t a => a.pas.any (lost t) && !a.pas.any fun q => t.protectedAt q 8) && ok bad .store (fun t a => a.pas.any (lost t)) &&
     ok (spent (st {})) .store (fun t a => a.pas.any (held t) && !a.pas.any (lost t)) && ok (st {}) .store (fun t a => !a.pas.any (held t)) &&
     ok (spent (st {})) .load (fun t a => held t a.pa && !t.hitsL1 a) &&
     ok bad .load (fun t a => !held t a.pa && !t.hitsL1 a && (t.arrive a.pa 8).broken a.pa)) = true := by decide +kernel

theorem test_memory_steps :
    (let s := withBytes (st (regs [(2, 0x10040), (3, 2)])) 0x10040 8 0x8899AABBCCDDEEFF
     after (exec (.ld 1 2 .s8 0x7FF) s) (fun t => t.rd 1 == 0) &&
     after (exec (.ld 1 2 .s16 1) s) (fun t => t.rd 1 == 0xFFFFFFFFFFFFCCDD#64) &&
     after (exec (.ldx 1 2 3 .z16) s) (fun t => t.rd 1 == 0xAABB) &&
     after (exec (.st 3 2 .b2 0x7FF) s) (fun t => t.valueAt 0x1003E 2 == 2 && t.valueAt 0x10040 8 == 0x8899AABBCCDDEEFF) &&
     after (exec (.stx 2 2 3 .b8) s) (fun t => t.valueAt 0x10050 8 == 0x10040) &&
     after (exec (.ld 1 3 .d64 0) s) (fun t => t.me.run == .idle)) = true := by decide +kernel

/-- BranchesJumpsAndCalls: each test taken and not at its edge, targets aligned and not. -/
theorem witness_branches :
    (let x (v : Word) := ((st (regs [(1, v)])).rd 1).toInt
     decide (x 0 = 0) && decide (x 1 ≠ 0) && decide (x (-1) < 0) && decide (0 ≤ x 0) && decide (0 < x 1) && decide (x 0 ≤ 0) && decide (x (-1) % 2 = 1)
       && decide (¬ x 0 < 0) && decide (¬ 0 < x 0) && decide (¬ x 2 % 2 = 1)
       && ((st (regs [(1, 0x10004)])).rd 1).toNat % 4 == 0 && ((st (regs [(1, 0x10003)])).rd 1).toNat % 4 != 0
       && ((st (regs [(62, 0x10004)])).rd 62).toNat % 4 == 0 && ((st (regs [(62, 0x10002)])).rd 62).toNat % 4 != 0) = true := by
  decide +kernel

theorem test_branch_steps :
    (let s := st (regs [(1, 0xFFFFFFFFFFFFFFFF#64), (2, 0x10101)])
     after (exec (.br 1 .bit0 0x1FFFD) s) (fun t => t.pc == 0xFFF4) &&
     after (exec (.br 1 .gez 2) s) (fun t => t.pc == 0x10004) &&
     after (exec (.call 0x3FFFFFF) s) (fun t => t.pc == 0xFFFC && t.rd 62 == 0x10004) &&
     after (exec (.jr 2) s) (fun t => t.me.run == .idle) &&
     after (exec .ret (st (regs [(62, 0x10010)]))) (fun t => t.pc == 0x10010)) = true := by decide +kernel

/-- LoopsArmed, RepeatsArmedAndRun: counts 0 and 1; at the end of an active loop and not; the word after a REP barred, unassigned or
neither. -/
theorem witness_loops_and_repeats :
    (looped true false false 1 0).atLoopEnd = true ∧ (regs []).atLoopEnd = false ∧
    (st (regs [(1, 1)])).rd 1 ≠ 0 ∧ (st (regs [])).rd 1 = 0 ∧ (1 : BitVec 9) ≠ 0 ∧
    [0x64000000, 0x48000000, 0].all (fun w =>
      let s := withBytes (st (regs [(1, 1)])) 0x10004 4 w
      match s.fetch 0 (s.pc + 4) with | (_, .ok x) => x.toNat == w | _ => false) = true ∧
    (0x64000000 / 2 ^ 26 = 0x19 ∧ 0x48000000 / 2 ^ 26 = 0x12) ∧
    (let c : Ctx := { pc := 0x10004, rep := { active := true, next := 3, left := 1, d := 5, t := 0x10004, word := 0x64000000 } }
     let s0 := (st c).updHart 0 fun x => { x with late := false }
     s0.me.run == .running && !s0.throttled s0.myself s0.ctx.cont.launch 0 && s0.ctx.pend.isEmpty && s0.ctx.rep.active
       && s0.ctx.replay.isEmpty) = true := by decide +kernel

theorem test_loop_steps :
    (after (exec (.loopi 1 3 2) (st (regs []))) (fun t => t.ctx.lc1 == 3 && t.ctx.loop1 == ⟨0x10004, 0x10008, true⟩ && t.ctx.last1 && t.pc == 0x10004) &&
     after (exec (.loop 0 1 2) (st (regs []))) (fun t => t.pc == 0x1000C && !t.ctx.loop0.active) &&
     after (exec .nop (st (looped true false false 2 0))) (fun t => t.pc == 0x10000 && t.ctx.lc0 == 1) &&
     after (exec (.repi 5 2) (withBytes (st (regs [])) 0x10004 4 0x04310500)) (fun t => t.ctx.rep == ⟨true, 0, 2, 5, 0x10004, 0x04310500⟩)) = true := by
  decide +kernel

/-- JumpTable: a table of one entry, two entries out of order, a count of 0, a value in range and one beyond. -/
def table (n : Nat) (l : List (Nat × Nat)) (v : Word) : State :=
  (l.zipIdx.foldl (fun s x => withBytes (withBytes s (0x10108 + 8 * x.2) 4 x.1.1) (0x1010C + 8 * x.2) 4 x.1.2)
    (withBytes (st (regs [(2, v)])) 0x10100 8 n))

theorem witness_jump_table :
    (let hd (s : State) (p : List Byte → State → Bool) := okM (readRecordM .fetch (s.pc + 0x100) 8 s) p
     hd (table 0 [] 0) (fun h _ => fieldOf h 0 4 == 0) &&
     hd (table 2 [(5, 8), (3, 8)] 0) (fun h s1 => fieldOf h 0 4 == 2 && fieldOf h 4 4 == 0 &&
       okM (readRecordM .fetch (s1.pc + 0x108) 16 s1) fun b _ => !decide (fieldOf b 0 4 < fieldOf b 8 4)) &&
     hd (table 1 [(5, 8)] 5) (fun h s1 => fieldOf h 0 4 == 1 && okM (readRecordM .fetch (s1.pc + 0x108) 8 s1) fun b _ => decide ((s1.rd 2).toNat ≤ fieldOf b 0 4)) &&
     hd (table 1 [(5, 8)] 6) (fun h s1 => fieldOf h 0 4 == 1 && okM (readRecordM .fetch (s1.pc + 0x108) 8 s1) fun b _ => decide (fieldOf b 0 4 < (s1.rd 2).toNat)))
      = true := by decide +kernel

theorem test_jump_table :
    (after (exec (.jtab 1 2 0x40) (table 2 [(5, 8), (9, 0xFFFFFFFF)] 6)) (fun t => t.rd 1 == 9 && t.pc == 0x100FC) &&
     after (exec (.jtab 1 2 0x40) (table 1 [(5, 8)] 6)) (fun t => t.rd 1 == 6 && t.pc == 0x10004)) = true := by decide +kernel

/-! ## System registers and traps -/

/-- Hart 0 as a function of its usual state. -/
def stH (f : Hart → Hart) (c : Ctx) : State := (st c).updMe f
/-- Die 0 as a function of its usual state. -/
def stD (f : Die → Die) (c : Ctx) : State := (st c).updDie 0 f

/-- SystemRegisterWrites: a system-written register at program level; any of the others at either level. -/
theorem witness_system_register_writes :
    (SysOnly .trapvec && !(st {}).me.pl) = true ∧ (SysOnly .status || false) = false ∧
    ((stH (fun h => { h with pl := true }) {}).me.pl && SysOnly .asid) = true ∧
    [SysReg.trapvec, .status, .lc0, .hashch4].all (fun n => n != .hashpc && n != .wextbase && n != .wextsize && n != .ubinthresh) = true := by
  decide +kernel

/-- CheckedRegistersAndRehash: values that pass and fail each check. -/
theorem witness_checked_registers :
    (let e := (st {}).getDie 0
     let hash (v : Word) := independent (stackMask :: (e.staged.toList ++ [v &&& 0x3FFFFFFFC0#64]).map (·.toNat))
     let fits (v : Word) := let bin : Word := v &&& 0xFFFFFFFC00003F#64
       decide (1 ≤ bin.toNat % 64 ∧ bin.toNat % 64 ≤ 32) && (wfld bin 26 12 == 0 || decide (wfld bin 38 18 * 2 ^ 20 + wfld bin 26 12 * 2 ^ 24 ≤ 0x3000000000))
         && e.par.runs.isEmpty
     let inside (base size : Nat) := e.extUsed == 0 && (size == 0 || decide (base + size * 65536 ≤ 0x3000000000))
     (stH (fun h => { h with pl := true }) {}).me.pl && (stH (fun h => { h with pl := true }) {}).me.run == .running
       && !e.busy && hash 0x100 && !hash 0 && !hash 0x200 && fits 1 && fits 32 && !fits 0 && !fits 33
       && inside 0 0 && inside 0 0x300000 && !inside 0x10000 0x300000) = true := by decide +kernel

theorem test_system_registers :
    (let s := stH (fun h => { h with pl := true, eprio := 5, trc := true }) { (regs [(1, 0xFFFFFFFFFFFFFFFF#64)]) with fpstat := 0x3F, bprio := 3, dz := true }
     after (exec (.sysr 2 .status) s) (fun t => t.rd 2 == 0x5319) &&
     after (exec (.sysw 1 .fpstat) s) (fun t => t.ctx.fpstat == 0x3F00) &&
     after (exec (.sysw 1 .trapvec) s) (fun t => t.me.trapvec == 0xFFFFFFFFFFFFFFFC#64) &&
     after (exec (.sysclr 1 .round) s) (fun t => t.ctx.round == 0) &&
     after (exec (.sysset 1 .round) s) (fun t => t.ctx.round == 7)) = true := by decide +kernel

/-- A hart with a trap vector, frames at 0x12000 and a machine vector. -/
def armed (f : Hart → Hart) (c : Ctx) : State :=
  stH (fun h => f { h with trapvec := 0x10200, machvec := 0x10300, frameBase := 0x12000 }) c

/-- What a store of the frame answers. -/
def framed (s : State) (off : Word) (fw : Bool) : Bool :=
  okE (s.sysStore 0 ((s.hart 0).frameBase + off) ((s.hart 0).frame ⟨.illegal, 0, 0, 0, [], none⟩ fw)) fun _ => true

/-- TrapEntry: every case of R400. -/
theorem witness_trap_entry :
    ((armed (fun h => { h with mact := true }) {}).hart 0).mact = true ∧
    (let x := (stH (fun h => { h with hm := true }) {}).hart 0; !x.mact && x.hm && vecAddr x.machvec == 0) = true ∧
    (let s := armed (fun h => { h with hm := true }) {}; (s.hart 0).hm && framed s 4096 false) = true ∧
    (let s := armed (fun h => { h with hm := true, frameBase := 0x40000 }) {}; (s.hart 0).hm && !framed s 4096 false) = true ∧
    (let x := (st {}).hart 0; !x.mact && !x.hm && vecAddr x.trapvec == 0) = true ∧
    (let s := armed id {}; !(s.hart 0).hm && framed s 0 false) = true ∧
    (let s := armed (fun h => { h with frameBase := 0xF000 }) {}; !framed s 0 false && framed s 4096 true) = true ∧
    (let s := armed (fun h => { h with frameBase := 0x40000 }) {}; !framed s 0 false && !framed s 4096 true) = true ∧
    (let s := stH (fun h => { h with trapvec := 0x10200, frameBase := 0x40000 }) {}; !framed s 0 false && vecAddr (s.hart 0).machvec == 0) = true := by
  decide +kernel

/-- FrameLayout: a full replay queue and a full record; TrapInstructionsAndReturn: each mode, and a frame of zeros that TRET takes. -/
theorem witness_frames :
    (decide ((List.replicate 16 ({ pc := 0, word := 0, err := false, opa := 0, opb := 0 } : Replay)).length ≤ 16) && decide ((List.replicate 272 (0 : Byte)).length ≤ 272)) = true ∧
    ((st {}).me.pl || (st {}).me.hm) = false ∧ (armed (fun h => { h with pl := true, hm := true }) {}).me.pl = true ∧
    (let s := armed (fun h => { h with hm := true }) {}
     okE (s.sysLoad s.cur s.me.frameBase 4096) fun x => (x.2.frameFlaw x.1).isNone && fieldOf x.1 0x10 8 % 4 == 0 && !(fieldOf x.1 0x20 8).testBit 20
       && fieldOf x.1 0x20 8 % 32 == 0 && x.2.ctx.q.toList.all (fun q => !q.bound) && (List.range 16).all fun k => fieldOf x.1 (0x2C0 + 8 * k) 8 == 0) = true := by
  decide +kernel

/-- TrapInstructionsAndReturn: a fetch from a poisoned line; a word that reads a struck register. -/
theorem witness_struck :
    (let s := { st (regs []) with poison := [0x400] }
     !s.me.late && passes (s.check s.die s.me.asid.toNat s.me.pl .fetch s.pc 4) fun t a => (t.touch a.pa 4).broken a.pa) = true ∧
    (let s := withBytes (st { (regs []) with bad := [2] }) 0x10000 4 0x04108300
     let s0 := ready0 s
     s.turns.isEmpty && s0.cur == s.cur && s0.me.run == .running && !s0.throttled s0.myself s0.ctx.cont.launch 0 && s0.ctx.pend.isEmpty && !s0.ctx.rep.active
       && match s0.fetch s0.cur s0.pc with
         | (s2, .ok w) => s2.ctx.replay.isEmpty && s2.ctx.bad.contains 2 && (sourcesOf w).contains 2
         | _ => false) = true := by decide +kernel

theorem test_trap_and_return :
    (after (exec (.trap 42) (armed id (regs [(5, 9)]))) (fun t => t.pc == 0x10200 && t.me.trapcause == 0x2A0E && t.me.trappc == 0x10000 && t.me.pl && t.me.hm
        && t.valueAt 0x12010 8 == 0x10004 && t.valueAt 0x120A8 8 == 9) &&
     after (exec .bkpt (armed id (regs []))) (fun t => t.valueAt 0x12010 8 == 0x10000 && t.me.trapcause == 0x0D) &&
     after (exec .tret (withBytes (withBytes (armed (fun h => { h with hm := true, pl := true }) {}) 0x12010 8 0x10010) 0x120A8 8 7))
       (fun t => t.pc == 0x10010 && t.rd 5 == 7 && !t.me.hm && !t.me.pl)) = true := by decide +kernel

/-- TraceWatchAndInvalidate: parameters of WPSET at each edge, a watchpoint of the same ASID and of another, XLINV's three scopes, a
pending WATCH, a load waiting to return. -/
theorem witness_trace_and_watch :
    (let bad (w : Word) := decide (wfld w 6 2 = 0 ∨ wfld w 12 2 = 3 ∨ wfld w 0 6 < 3 ∨ 12 < wfld w 0 6 ∨ wfld w 14 50 ≠ 0)
     bad 0x03 && bad 0x3043 && bad 0x42 && bad 0x4D && bad 0x4043 && !bad 0x43 && !bad 0x2FCC) = true ∧
    (Tbl.getD (st {}).traces (hartCore 0) {}).frozen = false ∧
    passes ((st {}).check 0 0 false .load 0x10000 8) (fun t _ => (Tbl.find? (t.getDie 0).watches 0).isNone) = true ∧
    ((st {}).me.pl || false) = false ∧
    ([(3 : Nat), 0x3FF0017, 0x27].all fun n => let w := word n
      decide (3 ≤ wfld w 0 4 ∧ wfld w 0 4 ≤ 7 ∧ wfld w 26 38 = 0 ∧ wfld w 6 10 = 0) &&
      decide (wfld w 4 2 = 0 ∧ wfld w 16 10 = 0 ∨ wfld w 4 2 = 1 ∨ wfld w 4 2 = 2 ∧ wfld w 16 10 = 0)) = true ∧
    (let s := st { (regs []) with pend := [⟨.watch, 0, 0, 0, [], none⟩] }
     (s.hart 0).run == .running && (s.hart 0).ctx.pend.map (·.cause) == [.watch]) = true ∧
    (let s := st { (regs []) with replay := [{ pc := 0x10000, word := 0x2C312003, err := false, opa := 0x10000, opb := 0, served := some (0x10000, true) }] }
     (s.hart 0).ctx.replay.length == 1 && reads 0x2C312003 (.ld 3 4 .s32 3) && s.ctx.replay.all fun r => okM ((lateLoadM r (LdBytes .s32)).run s) fun _ _ => true) = true := by
  decide +kernel

theorem test_watch :
    (let s := st (regs [(2, 0x10008), (3, 0x43), (4, 5)])
     after (exec (.wpset 1 2 3) s) (fun t => t.rd 1 == 0 && (t.getDie 0).watches == [(0, ⟨0, 0, 0x10008, 8, 1, 0, 0⟩)]) &&
     after (exec (.wpset 1 2 4) s) (fun t => t.rd 1 == 0xFFFFFFFFFFFFFFFF#64)) = true := by decide +kernel

/-! ## Synchronisation -/

/-- An aligned object that passes its check, and what holds of where it lies. -/
def object (s : State) (va : Word) (n align : Nat) (w : Bool) (p : State → Nat → Bool) : Bool :=
  va.toNat % align == 0 && passes (s.check s.die s.me.asid.toNat s.me.pl (.object w) va n) fun t a => p t a.pa

/-- Entries of the table about an address. -/
def entry (typ : EntryType) (kind agent pa : Nat) (arrived : Bool) : WEntry :=
  { typ := typ, kind := kind, pkg := 0, agent := agent, key := .mem pa, vaddr := word pa, time := 0, prio := 0, bprio := 0, arrived := arrived }
def withEntries (s : State) (l : List WEntry) : State := s.updDie 0 fun d => { d with wft := l }

/-- Atomics: a line open and one that a lock protects; two words apart, one word twice. -/
theorem witness_atomics :
    (let s := st (regs [(2, 0x10000), (3, 0x10008), (4, 0x10010), (5, 0x10010)])
     calmB s && object s (s.rd 2) 8 8 true (fun t p => !t.broken p && !t.protectedAt p 8) &&
     object s (s.rd 3) 8 8 false (fun t q => !t.broken q && !t.protectedAt q 8 && q == 0x10008) &&
     object s (s.rd 4) 8 8 true (fun t q => q == 0x10010 && !t.broken q)) = true ∧
    (let s := withEntries (st (regs [(2, 0x10000)])) [entry .obj 4 0 0x10000 false, entry .hold 4 0 0x10000 false]
     calmB s && object s (s.rd 2) 8 8 true fun t p => t.protectedAt p 8 && !t.broken p) = true ∧
    ((2 : Fin 64).val % 2 = 0 ∧ (0x10000 + 8 ≤ 0x10008)) := by decide +kernel

/-- ObjectFaults: an address off by one, one that is not canonical, one not mapped; a page that may not be read, a region, a tile's store, another
package, and a poisoned line. -/
theorem witness_object_faults :
    (let va : Word := 0x10040
     let paged (e : TlbEntry) : State := st (regs [(2, va)]) |>.updDie 0 fun d => { d with tlb := [e] }
     let past (s : State) (p : State → TlbEntry → Nat → Bool) : Bool := match s.translate 0 0 0x10040 with
       | (s1, .ok e) => p s1 e (e.addrFor 0 0x10040)
       | _ => false
     let denied (s1 : State) (e : TlbEntry) (pa : Nat) := !e.r || !e.prog || decide (2304 ≤ pkgOf pa) || s1.closedArea pa 8
     let shared (s1 : State) (e : TlbEntry) (pa : Nat) := e.repl.isSome || s1.aliased pa
     va.toNat % 8 == 0 && (va + 1).toNat % 8 != 0 && (0x0100000000000000#64).toNat / 2 ^ 56 == 1 &&
     (match (st {}).translate 0 0 0x20000 with | (_, .error (c, _)) => c != .link | _ => false) &&
     past (paged { page with r := false }) denied &&
     past { paged page with regions := [(1, { base := 0x10000, size := 0x10000, etype := 0, op := 0, asid := 0, segs := [(0x10000, 0x10000, 0x10000)] })] }
       (fun t e pa => !denied t e pa && (t.regionAt pa).isSome) &&
     past (paged { page with pa := 2 ^ 44 }) (fun t e pa => !denied t e pa && (t.regionAt pa).isNone && !isHbm pa) &&
     past (paged { page with repl := some 1 }) (fun t e pa => !denied t e pa && shared t e pa) &&
     past (paged { page with pa := page.pa + 2 ^ 46 }) (fun t e pa => !denied t e pa && (t.regionAt pa).isNone && isHbm pa && !shared t e pa && !t.reaches 0 pa) &&
     past { paged page with poison := [0x401] } (fun t e pa => !denied t e pa && (t.regionAt pa).isNone && isHbm pa && !shared t e pa && t.reaches 0 pa && t.broken pa)) = true := by
  decide +kernel

theorem test_atomics :
    (let s := withBytes (st (regs [(1, 7), (2, 0x10040), (3, 9), (4, 0x10048)])) 0x10040 8 7
     after (exec (.cas 1 2 3) s) (fun t => t.rd 1 == 7 && t.valueAt 0x10040 8 == 9) &&
     after (exec (.cas 3 2 1) s) (fun t => t.rd 3 == 7 && t.valueAt 0x10040 8 == 7) &&
     after (exec (.amove 1 4 2) s) (fun t => t.rd 1 == 0 && t.valueAt 0x10048 8 == 7) &&
     after (exec (.swap 1 2 3) s) (fun t => t.rd 1 == 7 && t.valueAt 0x10040 8 == 9) &&
     after (exec (.strl 2 3) s) (fun t => t.valueAt 0x10040 8 == 9)) = true := by decide +kernel

/-- A barrier at 0x10040: expected, arrived, generation, state. -/
def barrier (e a g z : Nat) (l : List WEntry) (n : Word) : State :=
  withEntries (withBytes (st (regs [(2, 0x10040), (3, n)])) 0x10040 16 (e + a * 2 ^ 32 + g * 2 ^ 64 + z * 2 ^ 96)) l

/-- Barriers: counts at their edges, with waiters and without, aborted or not, a party that has arrived, that arrives last, that does not. -/
theorem witness_barriers :
    (let obj := entry .obj 3 0 0x10040 false
     let key := ObjKey.mem 0x10040
     let ok (s : State) (p : State → Bool) := calmB s && s.ctx.grant.isNone && s.ctx.arrived.isNone && object s (s.rd 2) 16 16 true fun t q => q == 0x10040 && !t.broken q && p t
     let n (s : State) := (s.rd 3).toNat % 2 ^ 32
     let m (s t : State) : Int := t.barExpected 0x10040 + signed 32 (s.rd 3).toNat
     (let s := barrier 0 0 0 0 [] 0; ok s fun _ => decide (n s < 1)) &&
     (let s := barrier 0 0 0 0 [] 0x80000000; ok s fun _ => decide (2 ^ 31 - 1 < n s)) &&
     (let s := barrier 2 1 0 0 [obj, entry .wait 3 1 0x10040 false] 1; ok s fun t => decide (1 ≤ n s) && !(t.waiters key).isEmpty) &&
     (let s := barrier 0 0 0 0 [] 0x7FFFFFFF; ok s fun t => decide (n s ≤ 2 ^ 31 - 1) && (t.waiters key).isEmpty && roomB t 1) &&
     (let s := barrier 2 1 5 1 [obj] 1; ok s fun t => (t.barState 0x10040).testBit 0) &&
     (let s := barrier 2 1 5 0 [obj, entry .hold 3 0 0x10040 true] 1; ok s fun t => !(t.barState 0x10040).testBit 0 && (t.myHold key 3).any (·.arrived)) &&
     (let s := barrier 2 1 5 0 [obj, entry .hold 3 0 0x10040 false] 1; ok s fun t => (t.myHold key 3).any (!·.arrived) && t.barArrived 0x10040 + 1 == t.barExpected 0x10040) &&
     (let s := barrier 2 0 5 0 [obj, entry .hold 3 0 0x10040 false] 1; ok s fun t => (t.myHold key 3).any (!·.arrived) && decide (t.barArrived 0x10040 + 1 < t.barExpected 0x10040)
       && t.barGen 0x10040 != n s) &&
     (let s := barrier 1 0 0 0 [obj] 0xFFFFFFFF; ok s fun t => decide (m s t < 1)) &&
     (let s := barrier 0x7FFFFFFF 0 0 0 [obj] 1; ok s fun t => decide (2 ^ 31 - 1 < m s t)) &&
     (let s := barrier 2 1 0 0 [obj] 0xFFFFFFFF; ok s fun t => decide (1 ≤ m s t) && decide (m s t ≤ t.barArrived 0x10040)) &&
     (let s := barrier 2 1 0 0 [obj] 0; ok s fun t => decide ((t.barArrived 0x10040 : Int) < m s t))) = true := by decide +kernel

theorem test_barriers :
    (after (exec (.binit 1 2 3) (barrier 0 0 0xFFFFFFFF 3 [] 4)) (fun t => t.rd 1 == 0 && t.barExpected 0x10040 == 4 && t.barGen 0x10040 == 0 && t.barState 0x10040 == 0) &&
     after (exec (.barr 1 2) (barrier 2 1 5 0 [entry .obj 3 0 0x10040 false, entry .hold 3 0 0x10040 false] 0))
       (fun t => t.rd 1 == 5 && t.barArrived 0x10040 == 0 && t.barGen 0x10040 == 6) &&
     after (exec (.babort 2) (barrier 2 1 5 0 [] 0)) (fun t => t.barState 0x10040 % 2 == 1 && t.barGen 0x10040 == 5)) = true := by decide +kernel

/-- A lock word at 0x10040. -/
def lock (w : Nat) (l : List WEntry) : State := withEntries (withBytes (st (regs [(2, 0x10040), (3, word w)])) 0x10040 8 w) l

/-- Locks: free, abandoned, held by this party and by another; with a waiter and without. -/
theorem witness_locks :
    (let key := ObjKey.mem 0x10040
     let obj := entry .obj 4 0 0x10040 false
     let ok (s : State) (p : State → Bool) := calmB s && s.ctx.grant.isNone && object s (s.rd 2) 8 8 true fun t q => q == 0x10040 && !t.broken q && p t
     (let s := lock 0 []; ok s fun t => !(t.valueAt 0x10040 8).testBit 63 && roomB t 2) &&
     (let s := lock (2 ^ 62) []; ok s fun t => !(t.valueAt 0x10040 8).testBit 63 && (t.valueAt 0x10040 8).testBit 62) &&
     (let s := lock (2 ^ 63 + 1) [obj, entry .hold 4 1 0x10040 false]; ok s fun t => (t.valueAt 0x10040 8).testBit 63 && !t.holdsLock 0x10040) &&
     (let s := lock (2 ^ 63) [obj, entry .hold 4 0 0x10040 false]; ok s fun t => (t.valueAt 0x10040 8).testBit 63 && t.holdsLock 0x10040 && (t.waiters key).isEmpty) &&
     (let s := lock (2 ^ 63) [obj, entry .hold 4 0 0x10040 false, entry .wait 4 1 0x10040 false]
      ok s fun t => t.holdsLock 0x10040 && (((t.flushHart t.cur).escape.dropEntries key fun x => x.typ == .hold).nextWaiter key).any fun e => decide (e.agent < 2 ^ 32))) = true := by
  decide +kernel

theorem test_locks :
    (after (exec (.lkacq 1 2) (lock (2 ^ 62) [])) (fun t => t.rd 1 == 1 && (t.valueAt 0x10040 8).testBit 63 && !(t.valueAt 0x10040 8).testBit 62) &&
     after (exec (.lktry 1 2) (lock (2 ^ 63 + 1) [entry .obj 4 0 0x10040 false, entry .hold 4 1 0x10040 false])) (fun t => t.rd 1 == 2) &&
     after (exec (.lkrel 2) (lock (2 ^ 63) [entry .obj 4 0 0x10040 false, entry .hold 4 0 0x10040 false])) (fun t => t.valueAt 0x10040 8 == 0)) = true := by
  decide +kernel

/-- WaitForTable: a record that exists and none; holdings of each kind; a word that differs and one that does not. -/
theorem witness_wait_for_table :
    (let key := ObjKey.mem 0x10040
     let obj := entry .obj 5 0 0x10040 false
     let ok (s : State) (p : State → Bool) := calmB s && s.ctx.grant.isNone && object s (s.rd 2) 8 8 false fun t q => q == 0x10040 && !t.broken q && roomB t 2 && p t
     (let s := lock 0 []; ok s fun t => (t.objOf key).isNone && (t.myHold key 3).isNone && (t.myHold key 5).isNone && !t.isLock key && !t.isBarrier key && !(word (t.valueAt 0x10040 8)).toNat.testBit 63) &&
     (let s := lock 0 [obj]; ok s fun t => (t.objOf key).isSome) &&
     (let s := lock 0 [obj, entry .hold 4 0 0x10040 false]; ok s fun t => t.isLock key && !t.isBarrier key) &&
     (let s := lock 0 [entry .obj 3 0 0x10040 false, entry .hold 3 0 0x10040 false]; ok s fun t => t.isBarrier key && !t.isLock key && (t.myHold key 3).isSome) &&
     (let s := lock 0 [obj, entry .hold 5 0 0x10040 false]; ok s fun t => !t.isLock key && (t.myHold key 3).isNone && (t.myHold key 5).isSome) &&
     (let s := lock 7 []; ok s fun t => word (t.valueAt 0x10040 8) != s.rd 2 && word (t.valueAt 0x10040 8) == s.rd 3
       && (let u := t.watch 0x10040 8 (s.rd 2) 2 .hart t.agent t.me.asid.toNat (some t.pc)
           (u.cycleOf (u.waitEntry .word key (s.rd 2) 0)).isNone))) = true := by decide +kernel

theorem test_wait_for_table :
    (after (exec (.wwait 1 2 3) (lock 7 [])) (fun t => t.me.run == .waiting ⟨.word, .mem 0x10040, 0, 0⟩ && (t.waiters (.mem 0x10040)).length == 1) &&
     after (exec (.wquery 1 2) (lock 0 [entry .obj 5 0 0x10040 false, entry .wait 5 1 0x10040 false])) (fun t => t.rd 1 == 0x0500010000000000#64)) = true := by
  decide +kernel

/-- A launch record at 0x10000. -/
def launchRec (c : Ctx) : State := withBytes (st c) 0x10000 4 0x00000001

/-- Scheduling: addresses aligned and not, a join record and none, a join whose count is 0, a rival of equal priority and none, handler
mode, a record to launch. -/
theorem witness_scheduling :
    (let s := st (regs [(1, 0x10040), (2, 0x10000), (3, 0x10040), (4, 0x10001), (5, 0x10004)])
     calmB s && s.ctx.grant.isNone && (s.rd 4).toNat % 4 != 0 && (s.rd 2).toNat % 4 == 0 && (s.rd 5).toNat % 64 != 0 && (s.rd 3).toNat % 64 == 0
       && decide (256 < (s.getDie s.die).poolFree) && s.rd 6 == 0 && object s (s.rd 1) 16 16 true (fun t p => t.valueAt p 8 == 0 && !t.broken p)
       && s.readyRecs.isEmpty && !s.me.hm && s.rd 6 == 0) = true ∧
    (let s := stD (fun d => { d with pool := [readyRec] }) (regs [])
     calmB s && s.readyRecs.any fun x => decide (s.me.eprio.toNat ≤ s.recPrio x.2)) = true ∧
    (stH (fun h => { h with hm := true }) {}).me.hm = true ∧
    (let s := launchRec (regs [(2, 0x10000)])
     (s.rd 2).toNat % 128 == 0 && okM ((readRecordM (.object false) (s.rd 2) 128).run s) fun r t => fieldOf r 2 2 % 1024 == 0 && t.ctx.stores.isEmpty && t.casts.isEmpty
       && decide ((Tbl.getD t.queues 0 {}).recs.length < 256)) = true := by decide +kernel

/-- A hart about to EXIT, its log released and closed, and what it holds. -/
def released (s : State) : State := allDies.foldl State.closeAll (s.flushHart s.cur).escape.releaseLog
def holds (s : State) : List WEntry := (released s).allEntries.filter fun e => e.typ == .hold && e.party.same s.myself

/-- Scheduling, EXIT: a lock held with no waiter and with one, a barrier it has not reached, a join count of 1. -/
theorem witness_exit :
    (let lk (l : List WEntry) := lock (2 ^ 63) ([entry .obj 4 0 0x10040 false, entry .hold 4 0 0x10040 false] ++ l)
     let s0 := lk []
     let s1 := (lk [entry .wait 4 1 0x10040 false]).updHart 1 fun h => { h with run := .waiting ⟨.lock, .mem 0x10040, 0, 0⟩ }
     let s2 := barrier 2 0 5 0 [entry .obj 3 0 0x10040 false, entry .hold 3 0 0x10040 false] 0
     let s3 := withBytes (st { (regs []) with cont := { join := 0x10040, joinPa := some 0x10040 } }) 0x10040 8 1
     let ok (s : State) := calmB s && s.ctx.grant.isNone && !s.me.hm && s.ctx.cont.launch == 0
     ok s0 && s0.ctx.cont.join == 0 && (holds s0).map (fun e => (e.key, e.kind)) == [(.mem 0x10040, 4)] && ((released s0).waiters (.mem 0x10040)).isEmpty &&
     ok s1 && (holds s1).length == 1 && ((released s1).waiters (.mem 0x10040)).map (fun x => (x.kind, x.party.same s1.myself, x.agent, (released s1).hartOfParty x.party)) == [(4, false, 1, some 1)] &&
     ok s2 && (holds s2).map (fun e => (e.key, e.kind, e.arrived)) == [(.mem 0x10040, 3, false)] && (released s2).barArrived 0x10040 == 0 &&
     ok s3 && s3.ctx.cont.join != 0 && let u := (released s3).depart (released s3).myself 0
       passes (u.check u.die (u.launch s3.ctx.cont.launch).asid true (.object true) s3.ctx.cont.join 8) fun t x => x.pa % 8 == 0 && t.valueAt x.pa 8 == 1) = true := by
  decide +kernel

theorem test_exit :
    (let lk (l : List WEntry) := lock (2 ^ 63) ([entry .obj 4 0 0x10040 false, entry .hold 4 0 0x10040 false] ++ l)
     after (exec .exit (lk [])) (fun t => t.valueAt 0x10040 8 == 2 ^ 62) &&
     after (exec .exit ((lk [entry .wait 4 1 0x10040 false]).updHart 1 fun h => { h with run := .waiting ⟨.lock, .mem 0x10040, 0, 0⟩ }))
       (fun t => t.valueAt 0x10040 8 % 2 ^ 32 == 1 && (t.hart 1).ctx.grant == some (.lock true)) &&
     after (exec .exit (barrier 2 0 5 0 [entry .obj 3 0 0x10040 false, entry .hold 3 0 0x10040 false] 0))
       (fun t => (t.getDie 0).departed.map (fun x => (x.gen, x.agent, x.how)) == [(5, 0, 0)])) = true := by decide +kernel

theorem test_scheduling :
    (after (exec (.spawn 0 2 3) (st (regs [(2, 0x10010), (3, 0x10040)]))) (fun t => ((t.getDie 0).pool.map fun r => (r.code, r.frame, r.join)) == [(0x10010, 0x10040, 0)]) &&
     after (exec (.join 1 2) (withBytes (st (regs [(2, 0x10040)])) 0x10040 8 1)) (fun t => t.me.run == .waiting ⟨.join, .mem 0x10040, 0, 0⟩) &&
     after (exec (.prio 1 2) (st (regs [(2, 0x1F)]))) (fun t => t.rd 1 == 0 && t.ctx.bprio == 15) &&
     after (exec .exit (st (regs []))) (fun t => t.me.run == .idle)) = true := by decide +kernel

/-- A task of one tile at the origin of die 0, and hart 0 beside it. -/
def withTask (k : Task) (c : Ctx) : State := { st c with tasks := [(0, k)], current := [(0, 0)], tiles := [(0, {})] }

/-- Ordering, a release with stores in flight: one store whose home is reached, one that no link carries, at once and late. -/
def inFlight (pa : Nat) (late : Bool) : State := stH (fun h => { h with late := late }) { (regs []) with stores := [{ pas := [pa], bytes := [7, 8], va := word pa }] }
theorem witness_release :
    (let cut (s : State) (f : Flight) := f.pas.any fun q => !s.reaches s.die q
     (let s := inFlight 0x10040 false
      !s.agentScope 8 && !s.me.late && (s.ctx.stores.find? (cut s)).isNone && s.casts.isEmpty && !s.stopped 0x10040 && (linesOf 0x10040 2).all (fun ln => !s.pendingLine ln)
        && s.allEntries.isEmpty && s.ctx.stores.map (fun f => (f.fence, f.pas)) == [(none, [0x10040])]) &&
     (let s := inFlight (2 ^ 46) false; (s.ctx.stores.find? (cut s)).isSome) &&
     (let s := inFlight 0x10040 true; s.me.late && s.ctx.stores != [] && (s.ctx.stores.find? (cut s)).isNone)) = true ∧
    (after (exec (.fence 8 1) (inFlight 0x10040 false)) (fun t => t.valueAt 0x10040 4 == 0x807 && t.ctx.stores.isEmpty) &&
     after (exec (.sbar false false false true) (inFlight 0x10040 false)) (fun t => t.valueAt 0x10040 4 == 0x807 && t.ctx.stores.isEmpty) &&
     after (exec (.fence 8 1) (inFlight 0x10040 true)) (fun t => t.ctx.stores.map (·.fence) == [none, some (false, 8)] && t.valueAt 0x10040 4 == 0)) = true := by
  decide +kernel

/-- Ordering: a scope of 0 and not, kind 1 and not, copies of the hart's own and none, DRAINW of a task in each state it answers. -/
theorem witness_ordering :
    (let s := st (regs [])
     calmB s && s.harts.all (·.2.ctx.stores.isEmpty) && s.agentScope 0 && !s.agentScope 8 && (s.myCopies false).isEmpty && (s.myCopies true).isEmpty && s.releaseLog.closeEach.allClosed s.myself) = true ∧
    [TaskState.loaded, .drained, .checkpointed, .killed].all (fun z =>
      let s := withTask { state := z } (regs [(2, regionWord 0 0 0)])
      calmB s && s.ctx.grant.isNone && okM ((taskM (s.rd 2)).run s) fun k t => okM ((heldFaultM k).run t) fun _ u => u.casts.isEmpty && (u.task k).state == z) = true := by decide +kernel

theorem test_ordering :
    (after (exec (.fence 9 0) { st (regs []) with l1 := [(0, [(1, 0)])], launches := [(0, { levels := [(1, 9, 0, 0, 1)] })] }) (fun t => t.l1.length == 1) &&
     after (exec (.fence 8 0) { st (regs []) with l1 := [(0, [(1, 0)])] }) (fun t => t.l1.isEmpty && t.pc == 0x10004) &&
     after (exec (.drainw 1 2) (withTask { state := .drained, count := 3 } (regs [(2, regionWord 0 0 0)]))) (fun t => t.rd 1 == 0x5000000000000003#64)) = true := by
  decide +kernel

/-! ## Vectors -/

/-- A vector whose lanes of w bits begin with the listed values. -/
def lanesOf (w : Nat) (l : List Nat) : Line := BitVec.ofNat 512 (l.foldr (fun x acc => x % 2 ^ w + 2 ^ w * acc) 0)

/-- The first lanes of v1 after an instruction whose sources are v2 and v3, v1 holding 7 in lane 0. -/
def vgives (i : Instr) (w : Nat) (x y z : List Nat) : Bool :=
  after (exec i (st (vregs [(1, lanesOf w [7]), (2, lanesOf w x), (3, lanesOf w y)])))
    fun t => (List.range z.length).map (lane (t.rdV 1) w) == z.map (· % 2 ^ w) && t.pc == 0x10004

theorem test_vector_integer :
    vgives (.vadd 1 2 (.v 3) 0 0) 8 [255, 1] [1, 2] [0, 3] = true ∧
    vgives (.vmulh 1 2 (.v 3) 0 1) 16 [0x8000, 0xFFFF] [0x8000, 1] [0x4000, 0xFFFF] = true ∧
    vgives (.vmin 1 2 (.v 3) 0 2) 32 [0xFFFFFFFF] [1] [0xFFFFFFFF] = true ∧
    vgives (.vshl 1 2 (.v 3) 0 2) 32 [1, 1] [32, 33] [1, 2] = true ∧
    vgives (.vsra 1 2 (.v 3) 0 3) 64 [0x8000000000000000] [63] [0xFFFFFFFFFFFFFFFF] = true ∧
    vgives (.vadd 1 2 (.v 3) 1 0) 8 [1] [1] [7] = true ∧
    after (exec (.vadds 1 2 (.v 3) 0 0) (st (vregs [(2, lanesOf 8 [0x7F, 0x80]), (3, lanesOf 8 [1, 0xFF])])))
      (fun t => lane (t.rdV 1) 8 0 == 0x7F && lane (t.rdV 1) 8 1 == 0x80 && t.ctx.fpstat == 0x20) = true ∧
    after (exec (.vclt 1 2 (.v 3) 0 3) (st (vregs [(2, lanesOf 64 [0xFFFFFFFFFFFFFFFF])]))) (fun t => t.rdM 1 == 1) = true := by
  decide +kernel

/-- VectorIntegerLanes: a sum that fits, one that does not with the trap off and on; a mask destination that is not m0. -/
theorem witness_vector_integer :
    (let lo : Int := -2 ^ 7
     let hi : Int := 2 ^ 7 - 1
     decide (¬ ((0x7F + 0 : Int) < lo ∨ hi < 0x7F + 0)) && decide (hi < (0x7F + 1 : Int)) && decide ((-0x80 - 1 : Int) < lo)
      && !(st {}).ctx.fpstat.toNat.testBit 13 && (st { (regs []) with fpstat := 0x2000 }).ctx.fpstat.toNat.testBit 13 && (1 : MReg) != 0
      && (st {}).rdM 0 == 0xFFFFFFFFFFFFFFFF#64) = true := by decide +kernel

theorem test_vector_float :
    vgives (.vfadd 1 2 (.v 3) 0 2) 32 [0x3F800000, 0x7F800000] [0x3F800000, 0xFF800000] [0x40000000, 0x7FC00000] = true ∧
    vgives (.vfma 1 2 (.v 3) 0 2) 32 [0x40000000, 0x40000000] [0x40400000, 0x40400000] [0x40C00000, 0x40C00000] = true ∧
    vgives (.vfdiv 1 2 (.v 3) 0 2) 32 [0x3F800000, 0x3F800000] [0x40400000, 0] [0x3EAAAAAB, 0x7F800000] = true ∧
    vgives (.vfsqrt 1 2 0 0) 16 [0x4400, 0xC400] [] [0x4000, 0x7E00] = true ∧
    vgives (.vfneg 1 2 0 1) 16 [0x3F80] [] [0xBF80, 0x8000] = true ∧
    after (exec (.vfdiv 1 2 (.v 3) 0 2) (st (vregs [(2, lanesOf 32 (List.replicate 16 0x3F800000)), (3, lanesOf 32 (List.replicate 15 0x3F800000))])))
      (fun t => t.ctx.fpstat == 2) = true ∧
    after (exec (.vfclt 1 2 (.v 3) 0 2) (st (vregs [(2, lanesOf 32 [0x7FC00000, 0x80000000]), (3, lanesOf 32 [0, 0])]))) (fun t => t.rdM 1 == 0 && t.ctx.fpstat == 1) = true := by
  decide +kernel

/-- VectorFloatLanes: flags that trap and flags that do not. -/
theorem witness_vector_float :
    (let traps (s : State) (fl : Fl) := fl.toNat &&& wfld s.ctx.fpstat 8 6 != 0
     traps (st { (regs []) with fpstat := 0x100 }) 1#6 && !traps (st (regs [])) 1#6 && !traps (st { (regs []) with fpstat := 0x200 }) 1#6) = true := by decide +kernel

theorem test_conversions_and_reductions :
    vgives (.vcvt 1 2 3 0) 16 [0x3C00, 0x4000] [] [0x0000, 0x3F80, 0x0000, 0x4000] = true ∧
    vgives (.vfreda 1 2 0 2) 32 [0x3F800000, 0x40000000] [] [0x40400000, 0] = true ∧
    vgives (.vpiv 1 2 0 0) 32 [0x3F800000, 0x80800000, 0x80000001] [] [0x3F800000, 0xB4000000, 0x34000000] = true ∧
    vgives (.vprcp 1 2 0 0) 32 [0x40000000] [] [0x3F000000] = true := by decide +kernel

/-- ConversionReductionAndPivots: a conversion row, a threshold that is valid and one that is not, active lanes and none. -/
theorem witness_conversions_and_pivots :
    ((convRow 0).isSome && (convRow 30).isSome && (pivTau 0).isNone && (pivTau 0x34000000#64).isSome && ((st {}).rdM 0).toNat.testBit 15
      && !((st {}).rdM 1).toNat.testBit 0 && (1 : MReg) != 0) = true := by decide +kernel

theorem test_permutations_and_masks :
    vgives (.vperm 1 2 3 0 2) 32 [10, 11, 12] [2, 17] [12, 11, 10] = true ∧
    (let s := st { (vregs [(1, lanesOf 32 [7, 7, 7]), (2, lanesOf 32 [10, 11, 12]), (3, lanesOf 32 [0xFFFFFFFF])]) with
        s := Vector.ofFn fun i => if i.val = 5 then 2 else 0
        m := Vector.ofFn fun i => if i.val = 1 then 5 else 0 }
     after (exec (.vslup 1 2 5 0 2) s) (fun t => lane (t.rdV 1) 32 1 == 0 && lane (t.rdV 1) 32 2 == 10) &&
     after (exec (.vsldn 1 2 5 0 2) s) (fun t => lane (t.rdV 1) 32 0 == 12) &&
     after (exec (.vreda 1 2 1 2) s) (fun t => lane (t.rdV 1) 32 0 == 22 && lane (t.rdV 1) 32 1 == 7) &&
     after (exec (.vcmpr 1 2 1 2) s) (fun t => lane (t.rdV 1) 32 0 == 10 && lane (t.rdV 1) 32 1 == 12 && lane (t.rdV 1) 32 2 == 0) &&
     after (exec (.vexpd 1 2 1 2) s) (fun t => lane (t.rdV 1) 32 0 == 10 && lane (t.rdV 1) 32 1 == 7 && lane (t.rdV 1) 32 2 == 11) &&
     after (exec (.vins 1 5 5 2) s) (fun t => lane (t.rdV 1) 32 2 == 2) &&
     after (exec (.vext 6 2 5 2) s) (fun t => t.rd 6 == 12) &&
     after (exec (.viota 1 1 2) s) (fun t => lane (t.rdV 1) 32 2 == 1) &&
     after (exec (.vbdot 1 2 (.v 3) 0 0) s) (fun t => lane (t.rdV 1) 32 0 == 2 ^ 32 - 21) &&
     after (exec (.mnot 2 1) s) (fun t => t.rdM 2 == 0xFFFFFFFFFFFFFFFA#64) &&
     after (exec (.mpopc 6 1) s) (fun t => t.rd 6 == 2)) = true := by decide +kernel

/-- VectorPermutations, MaskOperations: the two widths of VBDOT, a destination that is not m0, a word that decodes. -/
theorem witness_masks : ((2 : Fin 4) ≠ 3) ∧ (1 : MReg) ≠ 0 ∧ reads 0b100111_00001_00010_00011_000_00_0_00000 (.mand 1 2 3) = true := by decide +kernel

/-- VectorMemory: one active lane at the page's start and one at its end, unit stride, a stride, and an index. -/
theorem witness_vector_memory :
    (let s := st { (regs [(2, 0x10000), (3, 0xFFF8)]) with v := Vector.ofFn fun i => if i.val = 3 then 1 else 0, m := Vector.ofFn fun i => if i.val = 1 then 1 else if i.val = 2 then 2 else 0 }
     let ok (va : Nat) (u : Use) := va % 8 == 0 && passes (s.check s.die s.me.asid.toNat s.me.pl u (word va) 8) fun t a => a.pa == va && a.pa % 8 == 0
       && a.pas == [va] && !t.broken va && !t.protectedAt va 8 && (linesOf va 8).all (fun ln => !t.pendingLine ln) && !t.portHeld t.myself 0 va && (t.oldLine a).isNone && !t.stopped va && t.dies == s.dies
     calmB s && (s.l1Of 0).isEmpty && !s.me.late && ok 0x10000 .load && ok 0x10000 .store && ok 0x1FFF8 .load && ok 0x1FFF8 .store
       && (s.rdM 1).toNat.testBit 0 && !(s.rdM 1).toNat.testBit 1
       && s.rd 2 + BitVec.ofNat 64 1 * s.rd 3 == 0x1FFF8 && (s.rdM 2).toNat.testBit 1 && lane (s.rdV 3) 64 0 == 1) = true := by decide +kernel

theorem test_vector_memory :
    (let s := withBytes (st { (regs [(2, 0x10000), (3, 0x10)]) with
        v := (Vector.ofFn fun i => if i.val = 3 then lanesOf 64 [2, 0] else if i.val = 1 then lanesOf 64 [5, 6] else 0)
        m := (Vector.ofFn fun i => if i.val = 1 then 3 else 0) }) 0x10000 24 (1 + 2 * 2 ^ 64 + 3 * 2 ^ 128)
     after (exec (.vld 4 2 1 3) s) (fun t => (List.range 3).map (lane (t.rdV 4) 64) == [1, 2, 0]) &&
     after (exec (.vlds 4 2 3 1 3) s) (fun t => (List.range 3).map (lane (t.rdV 4) 64) == [1, 3, 0]) &&
     after (exec (.vgth 4 2 3 1 3) s) (fun t => (List.range 3).map (lane (t.rdV 4) 64) == [3, 1, 0]) &&
     after (exec (.vldb 4 2 1 3) s) (fun t => (List.range 3).map (lane (t.rdV 4) 64) == [1, 1, 0]) &&
     after (exec (.vst 1 2 1 3) s) (fun t => t.valueAt 0x10000 8 == 5 && t.valueAt 0x10008 8 == 6 && t.valueAt 0x10010 8 == 3) &&
     after (exec (.vsct 1 2 3 1 3) s) (fun t => t.valueAt 0x10010 8 == 5 && t.valueAt 0x10000 8 == 6)) = true := by decide +kernel

/-! ## Region tasks, handles, copies, updates -/

/-- A configuration block at 0x10000: one operation, EABS.f32 of the hart port in v0, or a word of a reserved eop. -/
def block (w : Nat) : State :=
  withBytes (withBytes (st (regs [(2, 0x10000), (3, regionWord 0 0 0), (4, 0x10001), (5, 0x17008000)])) 0x10000 2 0x101) 0x10040 6 (w + 2 ^ 40)

/-- The hypotheses of FLOAD's clause, and what holds of its flaw. -/
def loadsBlock (s : State) (p : Option Refused → Bool) : Bool :=
  (s.rd 2).toNat % 64 == 0 && match regionRef s.die.val (s.rd 3) with
  | none => false
  | some r => (s.overlapping r).all (fun k => !(s.task k).state.busy) && okM ((readRecordM .read (s.rd 2) 64).run s) fun h s1 =>
      fieldOf h 0 1 == 1 && hdrFields h r && zeroSpan h 18 46 && okM ((readRecordM .read (s.rd 2 + 64) (sectionBytes h)).run s1) fun l s2 =>
        calmB s2 && p (s2.blockFlaw r s2.ctx.pivtau (parseBlock h l))

def eabsWord : Nat := 0b000111_00_1111_0000_0000_0001_00000000

/-- RegionTasks: an address aligned and not, a region word that names no rectangle, a block that loads and one that is refused; a task
in each state, with and without a held fault; image addresses aligned and not. -/
theorem witness_region_tasks :
    ((block 0).rd 4).toNat % 64 ≠ 0 ∧ (regionRef 0 ((block 0).rd 5)).isNone = true ∧
    loadsBlock (block eabsWord) (·.isNone) = true ∧ loadsBlock (block 0) (·.isSome) = true ∧
    ([TaskState.loaded, .running, .parked, .drained, .killed, .checkpointing, .checkpointed, .draining].all fun z =>
      [none, some (Cause.ecc, (0 : Word))].all fun h =>
        let s := withTask { state := z, held := h } (regs [(2, regionWord 0 0 0), (3, 0x12000), (4, 0x12001)])
        okM ((taskM (s.rd 2)).run s) (fun k t => k == 0 && (t.task k).state == z) && s.myLaunch == (s.task 0).launch && (s.rd 3).toNat % 4096 == 0
          && (s.rd 4).toNat % 4096 != 0 && !(s.task 0).positive) = true ∧
    (let s := withTask { state := .running, positive := true } {}
     ((s.dueDrain 0).task 0).state == .draining) = true ∧
    (let s := withTask {} (regs [(2, regionWord 0 0 0)])
     (regionRef s.die.val (s.rd 2)).any fun r => (s.task r.task).state == .empty) = true ∧
    ((withTask { state := .running } {}).task 0).killable = true ∧ ((withTask { state := .killed } {}).task 0).killable = false ∧
    (withTask { state := .loaded, resume := 4 } {}).task 0 = { state := .loaded, resume := 4 } := by decide +kernel

theorem test_region_tasks :
    (after (exec (.fload 1 2 3) (block eabsWord)) (fun t => (t.task 0).state == .loaded && ((t.tc 0 0 0).ops.map (·.1)) == [1]) &&
     after (exec (.farm 2 3) (withTask { state := .loaded } (regs [(2, 0), (3, 5)]))) (fun t => (t.task 0).state == .running && (t.task 0).count == 5) &&
     after (exec (.fstat 1 2) (withTask { state := .parked, count := 2 } (regs []))) (fun t => t.rd 1 == 0x3000000000000002#64) &&
     after (exec (.fkill 2) (withTask { state := .running } (regs []))) (fun t => (t.task 0).state == .killed) &&
     after (exec (.fdrain 2) (withTask { state := .parked } (regs []))) (fun t => (t.task 0).state == .draining) &&
     after (exec (.fckpt 2 3) (withTask { state := .running } (regs [(3, 0x12000)]))) (fun t => (t.task 0).image == some 0x12000)) = true := by decide +kernel

/-- A running task whose hart ports a handle q0 names: the selection bits, and what stands at the port the handle reads. -/
def withHandle (sel : Nat) (h : Handle) (n : Nat) (l : List Beat) : State :=
  let s := withTask { state := .running } { (regs [(2, 0xE0000000), (3, word sel), (4, word n)]) with
    q := (Vector.replicate 16 {}).set 0 { h with bound := true, sel := BitVec.ofNat 10 sel } }
  { s with tiles := [(0, { ins := [(hartKey 0, { q := l }), (hartKey 1, { q := l })] })] }

/-- One token in lane 0 of a beat. -/
def oneTok (c v k : Nat) : Beat := ⟨BitVec.ofNat 512 (c + v * 2 ^ 32), BitVec.ofNat 32 (0xCCCCCCC0 + k)⟩

/-- StreamHandles: a bind that is taken and one that is refused; a handle bound, unbound, closed; lanes 0, 6 and 7; kinds at each edge;
a data port and a scalar port, for writing and for reading. -/
theorem witness_stream_handles :
    (let s := withHandle 0x2F0 {} 0 []
     let p := (s.ctx.q[(0 : Fin 16).val]).port
     calmB s && (s.rd 5 == 0 && s.rd 2 != 0) && okE (s.bindCheck s.myself s.die.val s.me.asid.toNat (s.rd 2) (s.rd 3)) (· == 0)
       && errE (s.bindCheck s.myself s.die.val s.me.asid.toNat (s.rd 2) 1) (· == .cfgrefuse)
       && errE (s.bindCheck s.myself s.die.val s.me.asid.toNat 1 (s.rd 3)) (· == .access)
       && p.write && p.plane == 0 && (s.standing p).q.isEmpty && !s.frozen p.task && (s.task p.task).state != .draining
       && (s.ctx.q[(0 : Fin 16).val]).pendN == 0 && (s.ctx.q[(0 : Fin 16).val]).sending.isNone && !(s.ctx.q[(0 : Fin 16).val]).closed
       && !(s.ctx.q[(1 : Fin 16).val]).bound
       && (⟨s.rdV 0, (s.rd (s5 0)).setWidth 32⟩ : Beat).pushable && !(⟨0, 0xFFFFFFFF#32⟩ : Beat).pushable) = true ∧
    ((withHandle 0x2F0 { closed := true, pendN := 7 } 0 []).ctx.q[(0 : Fin 16).val]).closed = true ∧
    ((withHandle 0x2F0 { pendN := 7 } 13 []).ctx.q[(0 : Fin 16).val]).pendN = 7 ∧
    [0, 8, 13, 9, 11, 14, 12].map (fun n => ((withHandle 0x2F0 {} n []).rd 4).toNat) = [0, 8, 13, 9, 11, 14, 12] ∧
    (let s := withHandle 0x3F0 {} 0 []
     let p := (s.ctx.q[(0 : Fin 16).val]).port
     p.write && p.plane == 1 && (s.standing p).q.isEmpty && !s.frozen p.task && s.rd 4 == 0) = true ∧
    (let s := withHandle 0xF0 {} 0 [oneTok 1 2 0]
     let p := (s.ctx.q[(0 : Fin 16).val]).port
     !p.write && p.plane == 0 && match s.popBuf p with | x :: _ => x.first == some 0 | [] => false) = true ∧
    (let s := withHandle 0xF0 {} 0 [oneTok 1 2 9]
     match s.popBuf (s.ctx.q[(0 : Fin 16).val]).port with | x :: _ => x.first == some 0 && (x.tok 0).k == 9 && x.kinds.contains 9 | [] => false) = true ∧
    (let s := withHandle 0x1F0 {} 0 [oneTok 1 2 0]
     let p := (s.ctx.q[(0 : Fin 16).val]).port
     !p.write && p.plane == 1 && !(s.popBuf p).isEmpty) = true := by decide +kernel

theorem test_stream_handles :
    (after (exec (.qpush 0 2 4) (withHandle 0x2F0 {} 3 [])) (fun t => (t.ctx.q[(0 : Fin 16).val]).pendN == 1 && (t.ctx.q[(0 : Fin 16).val]).pend == oneTok 0xE0000000 0 3) &&
     after (exec (.qpop 5 0 6) (withHandle 0xF0 {} 0 [oneTok 7 9 0])) (fun t => t.rd 5 == 0x900000007#64 && t.rd 6 == 0) &&
     after (exec (.fbind 1 2 3) (withHandle 0x2F0 {} 0 [])) (fun t => (t.ctx.q[(1 : Fin 16).val]).bound && !(t.ctx.q[(0 : Fin 16).val]).bound)) = true := by decide +kernel

/-- A command block at 0x10000: f32 rows of four, 0x11000 to 0x12000, on channel 3. -/
def cpyBlock (kind rows : Nat) : State :=
  withBytes (st (regs [(2, 0x10000), (3, 0x10001), (4, 16), (5, word 0x300000000)])) 0x10000 48
    (kind + 1 * 2 ^ 16 + 1 * 2 ^ 24 + 3 * 2 ^ 40 + 0x11000 * 2 ^ 64 + 0x12000 * 2 ^ 128 + rows * 2 ^ 192 + 4 * 2 ^ 224 + 16 * 2 ^ 256 + 16 * 2 ^ 288
      + rows * 2 ^ 320 + 4 * 2 ^ 352)

/-- A copy of two rows on channel 3, by its state. -/
def copy0 (f : Copy → Copy) : Copy :=
  f { id := 0x300000000, asid := 0, owner := 0, launch := 0
      blk := { kind := 1, sfmt := 1, dfmt := 1, chan := 3, source := 0x11000, dest := 0x12000, rows := 2, cols := 4, sstride := 16, dstride := 16, vrows := 2, vcols := 4 } }
def withCopy (x : Copy) : State :=
  (st (regs [(2, word 0x300000000), (3, word 0x300000001), (4, 32)])).updDie 0 fun d =>
    { d with chans := [(3, { cmds := [x], ticket := 1, issued := [(0, 0)] })], tokens := [(5, 2)] }

/-- CopyCommands: a block that is good, one that is not; a copy live with rows in flight and none, a copy that was not issued; WP at the
target; a slot number at its edge, a table at 0x10000. -/
theorem witness_copy_commands :
    ([(1, 2), (1, 0)].map fun x => let s := cpyBlock x.1 x.2
      okM ((readRecordM .read (s.rd 2) 64).run s) fun l t => calmB t && malformed l false == (x.2 == 0) &&
        let t2 := (t.flushHart t.cur).escape
        let b := copyBlk l
        !t2.aliasBad t2.die 0 b && !b.pred && !b.decode && b.waitsTok.isNone && decide ((t2.chan t2.die b.chan).cmds.length < 16)) = [true, true] ∧
    (let s := cpyBlock 2 2; okM ((readRecordM .read (s.rd 2) 64).run s) fun l _ => !malformed l true) = true ∧
    (let s := withCopy (copy0 fun c => { c with done := 2 })
     calmB s && okM ((copyIdM (s.rd 2)).run s) (fun id t => (t.copy id).isSome) && decide ((s.rd 4).toNat ≤ wfld (s.statusOf 0x300000000) 0 48)
       && !((s.chan 0 3).issued).contains (0, (s.rd 3).toNat % 2 ^ 32)) = true ∧
    (copy0 id).flying = [] ∧ (copy0 id).fail = 0 ∧ (copy0 fun c => { c with flying := [{ row := 0, bytes := [] }] }).flying ≠ [] ∧
    (let s := (st (regs [(2, word 0x300000000)])).updDie 0 fun d => { d with chans := [(3, { issued := [(0, 0)] })] }
     okM ((copyIdM (s.rd 2)).run s) fun id t => (t.copy id).isNone) = true ∧
    (let s := cpyBlock 1 2; 16 ≤ (s.rd 4).toNat ∧ (s.rd 6).toNat < 16 ∧ (s.rd 2).toNat % 4096 = 0) ∧
    (let s := cpyBlock 1 2; okM ((readRecordM .read (s.rd 2) 4096).run s) fun _ _ => true) = true := by decide +kernel

theorem test_copy_commands :
    (after (exec (.cpy 1 2) (cpyBlock 1 2)) (fun t => t.rd 1 == 0x300000000#64 && ((t.chan 0 3).cmds.map fun c => (c.id, c.state)) == [(0x300000000, 0)]) &&
     after (exec (.cpwp 1 2) (withCopy (copy0 fun c => { c with done := 1, state := 1 }))) (fun t => t.rd 1 == 0x1000000000000010#64) &&
     after (exec (.cpcan 2) (withCopy (copy0 id))) (fun t => ((t.chan 0 3).kept.map (·.status)) == [0x3000000000000000#64])) = true := by decide +kernel

/-- CopyChannelSteps: a first row to issue, a row that lands first and one that lands last, one whose destination has no translation, a
token with a count, a row for another package, held rows. -/
theorem witness_copy_steps :
    (let s := withCopy (copy0 id)
     let x := copy0 id
     calmB s && !x.cancelled && x.blk.waitsTok.isNone && !s.copyHeld x 0 && x.next == some 0 && (s.copyPort x).isNone && !x.blk.decode &&
       match s.rowBase x 0 with
       | (s2, .ok base) => (match s2.readElems x 0 base with | (_, .ok l) => l.length == 4 | _ => false)
       | _ => false) = true ∧
    ([(0, 0, false), (1, 1, false), (0, 0, true)].all fun (z : Nat × Nat × Bool) =>
      let r : CopyRow := { row := z.1, bytes := List.replicate 16 (0#8, 255#8) }
      let x := copy0 fun c => { c with state := 1, nextRow := 2, flying := [r], done := z.2.1, cancelled := z.2.2 }
      let s := withCopy x
      (s.copy 0x300000000).isSome && (x.flying.find? (·.row == z.1)).isSome && (s.portWindow x).isNone && !s.slow && (s.landRow x r).2.isNone && let t := (s.landRow x r).1
        calmB t &&
        match t.copy 0x300000000 with
        | some y => (landedUpTo (z.1 :: y.landed) (y.landed.length + 1) y.done == y.blk.drows) == (z.1 == 1) && y.cancelled == z.2.2 && y.fail == 0
        | none => false) = true ∧
    (let r : CopyRow := { row := 0, bytes := List.replicate 16 (0#8, 255#8) }
     let x := copy0 fun c => { c with state := 1, flying := [r], blk := { c.blk with dest := 0x40000 } }
     let s := withCopy x
     (x.flying.filter (·.row != 0)).isEmpty && (s.portWindow x).isNone && (s.landRow x r).2.any (· != 0)) = true ∧
    (let x := copy0 fun c => { c with blk := { c.blk with dtok := 5 } }
     x.blk.waitsTok == some 5 && !x.tokenTaken && Tbl.getD ((withCopy x).getDie (copyDie x.id)).tokens 5 0 != 0) = true ∧
    (let x := copy0 fun c => { c with flying := [{ row := 0, bytes := [] }] }
     let s := (withCopy x).updDie 0 fun d => { d with tlb := [{ page with pa := page.pa + 2 ^ 46 }] }
     (s.rowPkg x 0).any (· != Config.package)) = true ∧
    (let x := copy0 fun c => { c with state := 1, flying := [{ row := 0, bytes := [] }] }
     let s (e : TlbEntry) := (withCopy x).updDie 0 fun d => { d with tlb := [{ e with va := 0x10000, size := 0x10000 }] }
     let win : Nat := storeAddr 0 1 0x300000
     ((s { page with pa := win + 2304 * 2 ^ 46 }).portWindow x).any (fun w => decide (2304 ≤ w.1)) &&
     ((s { page with pa := win, w := false }).portWindow x).isSome && (s { page with pa := win, w := false }).destDenied x) = true ∧
    (match (st {}).walk 0 0x40000 with | .error (c, _) => c == .pagefault | .ok _ => false) = true := by decide +kernel

theorem test_copy_steps :
    (after (exec (.copyRowIssue 0x300000000) (withBytes (withCopy (copy0 id)) 0x11000 16 0x44332211)) (fun t => ((t.copy 0x300000000).map fun c =>
        (c.state, c.nextRow, c.flying.map fun r => (r.row, leValue (r.bytes.map (·.1))))) == some (1, 1, [(0, 0x44332211)])) &&
     after (exec (.copyRowLand 0x300000000 0) (withCopy (copy0 fun c => { c with state := 1, nextRow := 1, flying := [{ row := 0, bytes := [(7#8, 255#8)] }] })))
       (fun t => t.valueAt 0x12000 1 == 7 && (t.copy 0x300000000).any fun c => c.done == 1)) = true := by decide +kernel

/-- A region of u32 sums over the page's first 256 bytes, id 1; pairs of hart 0. -/
def withRegion (op : Nat) (f : Die → Die) (c : Ctx) : State :=
  { (stD f c) with regions := [(1, ⟨0x10000, 256, 0, op, 0, [(0x10000, 0x10000, 256)], false⟩)] }
def pair (pa : Nat) (v : Word) : Pair := { pa := pa, val := v, rid := 1, agent := 0, seq := 0 }

/-- UpdateInstructions: an element of a region and a misaligned one, no region, a size of 0 and not, a descriptor that is good, a region
named and none. -/
theorem witness_updates :
    (let s := withRegion 0 id (regs [(2, 0x10004), (3, 0x10001), (4, 4), (5, 0x11000), (6, 1), (7, 9)])
     (s.regionOf 0 (s.rd 2)).isSome && (s.rd 3).toNat % 4 != 0 && okM ((checkUpdM (s.rd 2) 4 none 0).run s) (fun _ _ => true)
       && (s.releaseLog.promise s.myself (s.agent, s.myLaunch, Fin.ofNat 16 (wfld (s.rd 2) 0 4))).closeEach.allClosed s.myself
       && !s.throttled s.myself s.myLaunch 4 && s.rd 8 == 0 && s.rd 4 != 0 && (s.regionOf 0 (s.rd 5)).isNone
       && (match s.regionOf 0 (s.rd 2) with
         | some (_, r) => decide ((s.rd 2).toNat + (s.rd 4).toNat ≤ r.base.toNat + r.size) && !r.throttled
         | none => false)
       && s.myLaunch == 0 && (s.regionNamed 0 (s.rd 6).toNat).isSome && (s.regionNamed 0 (s.rd 7).toNat).isNone && Tbl.getD s.seqs s.agent 0 == 0) = true ∧
    (let s := withRegion 0 id (regs [(2, 0x10000)])
     okM (((s.elemAddrs 0 16 fun i => s.rd 2 + word (lane (s.rdV 1) 32 i * 4)).mapM fun (x : Nat × Word) => checkUpdM x.2 4 (some 32) (word x.1)).run s)
       fun l t => l.length == 16 && decide (Tbl.getD t.seqs t.agent 0 < 2 ^ 48)) = true ∧
    (let s := withBytes (st (regs [(2, 0x10000), (3, 0x10001)])) 0x10000 18 (0x11000 + 512 * 2 ^ 64)
     (s.rd 3).toNat % 32 != 0 && (s.rd 2).toNat % 32 == 0 && okM ((readRecordM (.object false) (s.rd 2) 32).run s) fun l t =>
       fieldOf l 18 2 == 0 && zeroSpan l 20 12 && pairValid (fieldOf l 16 1) (fieldOf l 17 1) && fieldOf l 0 8 % 256 == 0 && fieldOf l 8 8 == 512
         && match t.segments t.die 0 t.me.pl 2 0x11000 512 with
           | some (g, u) => calmB u && u.regions.isEmpty && g.all fun x => pkgOf x.2.1 == Config.package
           | none => false) = true := by decide +kernel

theorem test_updates :
    (after (exec (.upd 2 3) (withRegion 0 id (regs [(2, 0x10004), (3, 7)]))) (fun t => t.ctx.log == [pair 0x10004 7]) &&
     after (exec (.uregion 1 2) (withBytes (st (regs [(2, 0x10000)])) 0x10000 18 (0x11000 + 512 * 2 ^ 64))) (fun t => t.regions.map (fun x => (x.2.base, x.2.size)) == [(0x11000, 512)]) &&
     after (exec (.ufree 2) (withRegion 0 id (regs [(2, 1)]))) (fun t => t.regions.isEmpty) &&
     after (exec (.ustat 1 0) (withRegion 0 (fun d => { d with par := { d.par with drops := 3 } }) (regs []))) (fun t => t.rd 1 == 3)) = true := by decide +kernel

/-- ParterreSteps: a pair before ingress, a pre-combined one, one in flight, one in a bin. -/
theorem witness_parterre :
    (let s := withRegion 0 (fun d => { d with par := { ingress := [pair 0x10004 7] } }) (regs [])
     calmB s && !s.heldBack (pair 0x10004 7) && (Tbl.find? s.regions 1).isSome && (s.getDie 0).par.pre.isEmpty && homeDie 0x10004 == 0 && !s.poison.contains (0x10004 / 64)) = true ∧
    (let s := withRegion 0 (fun d => { d with par := { pre := [⟨pair 0x10004 7, 0⟩] } }) (regs []); ((s.getDie 0).par.pre[0]?).isSome) = true ∧
    (let s := withRegion 0 (fun d => { d with par := { flight := [pair 0x10004 7] } }) (regs []); ((s.getDie 0).par.flight[0]?).isSome && (s.getDie 0).par.bins.isEmpty
       && (Tbl.find? s.regions 1).isSome && (Tbl.find? s.regions 2).isNone && !s.poison.contains (0x10004 / 64)) = true ∧
    ((pair 0x10004 7).tied (pair 0x10004 8) = true ∧ (pair 0x10004 7).tied (pair 0x10008 8) = false) ∧
    (let s := withRegion 0 (fun d => { d with par := { bins := [⟨0x400, 1, [{ pa := 0x10004, val := 7, agent := 0, seq := 0 }], false⟩] } }) (regs [])
     let p := (s.getDie (homeDie (0x400 * 64))).par
     s.applyNext 0x400 && !s.stopped (0x400 * 64) && (p.runs.filter (·.line == 0x400)).isEmpty && (p.bins.filter (·.line == 0x400)).length == 1
       && s.dies.toList.all fun d => (d.par.flight.all fun x => x.pa / 64 != 0x400) && d.par.pre.all fun x => x.pair.pa / 64 != 0x400) = true := by decide +kernel

theorem test_parterre :
    (after (exec (.ingressClose 0 1) (withRegion 0 (fun d => { d with par := { ingress := [pair 0x10004 7] } }) (regs []))) (fun t => (t.getDie 0).par.pre.length == 1) &&
     after (exec (.binMerge 0 0) (withRegion 0 (fun d => { d with par := { flight := [pair 0x10004 7], bins := [⟨0x400, 1, [{ pa := 0x10004, val := 8, agent := 0, seq := 0 }], false⟩] } }) (regs [])))
       (fun t => ((t.getDie 0).par.bins.flatMap fun b => b.entries.map (·.val)) == [15]) &&
     after (exec (.backgroundApply 0x400) (withBytes (withRegion 0 (fun d => { d with par := { bins := [⟨0x400, 1, [{ pa := 0x10004, val := 7, agent := 0, seq := 0 }], false⟩] } }) (regs [])) 0x10004 4 5))
       (fun t => t.valueAt 0x10004 4 == 12 && (t.getDie 0).par.bins.isEmpty)) = true := by decide +kernel

/-! ## The fabric -/

/-- A slot of tile (x, 0) of die 0 with its word, beats at its inputs, its unit's state and a descriptor 0, in a running task of that tile;
switch words read each of its outputs. An even x is a CT, an odd one an MT. -/
def cell (x : Fin 24) (slot : Fin 16) (w : Nat) (ins : List (Nat × List Beat)) (u : UnitSt) (k : Task → Task) (d : Nat) : State :=
  let n := slot.val
  let s : State :=
    { focus := ⟨⟨0, x, 0⟩, 0, slot⟩
      dies := State.reset.dies.set 0 { tlb := [page] }
      tasks := [(x.val, k { state := .running, pivtau := 0x34000000 })]
      mtTlb := [(x.val, [page])] }
  s.updTc 0 x.val 0 fun _ =>
    { ops := [(n, BitVec.ofNat 32 w)]
      sws := [BitVec.ofNat 16 (0xF00 + (n + 4) % 16 * 8), BitVec.ofNat 16 (0x100 + (n + 8) % 16 * 8), BitVec.ofNat 16 (0x4100 + (n + 6) % 16 * 8),
        BitVec.ofNat 16 (0x2F00 + (n + 7) % 16 * 8), BitVec.ofNat 16 (0x4200 + (n + 7) % 16 * 8)]
      descs := [(0, BitVec.ofNat 256 d)]
      ins := ins.map fun p => (inKey n p.1, { q := p.2 })
      units := [(n, u)] }

/-- What every statement about a slot supposes: a task that acts, its outputs empty and heard. -/
def readyB (s : State) (t : Nat) : Bool :=
  s.ownerOf s.focus.tile.die.val (TileNo s.focus.tile) s.focus.ctx.val == some t && s.taskActs t && s.focusTile.outs.isEmpty && s.casts.isEmpty
def heardB (s : State) (plane code : Nat) : Bool := !(s.focusTile.readers plane code).isEmpty

/-- Each consumer of the slot's output has room within the depth of its route. -/
def routeOpenB (s : State) : Bool :=
  (s.consumers s.focus.tile.die.val s.focus.ctx.val 0 64 (TileNo s.focus.tile) (s.focus.slot.val + 4) 0).all fun x => decide (x.1 < x.2)

/-- One token alone at an input. -/
def loneB (s : State) (p : Nat) (t : Tok) : Bool :=
  match s.input p with
  | [b] => (match b.first with
    | some j => b.tok j == t && (b.clearLane j).first.isNone
    | none => false)
  | _ => false

/-- The beats a step leaves at a data output, and its unit. -/
def sends (i : Instr) (s : State) (p : List Beat → UnitSt → Bool) : Bool := after (exec i s) fun t => p t.dataOut t.unit

/-- ElementwiseOperations: two tokens of data, of each control kind; two dense beats; a replicate element with its token. -/
theorem witness_elementwise :
    (let s := cell 0 1 (0x1 * 2 ^ 26 + 0x100) [(0, [oneTok 5 0x3F800000 0]), (1, [oneTok 5 0x40000000 0])] {} id 0
     readyB s 0 && heardB s 0 5 && loneB s 0 ⟨5, 0x3F800000, 0⟩ && loneB s 1 ⟨5, 0x40000000, 0⟩ && (dataPorts 0 2).length == 2) = true ∧
    ([1, 9, 11].all fun k => let s := cell 0 1 (0x1 * 2 ^ 26 + 0x100) [(0, [oneTok 0 0 k]), (1, [oneTok 0 0 k])] {} id 0
      loneB s 0 ⟨0, 0, k⟩ && loneB s 1 ⟨0, 0, k⟩) = true ∧
    (let s := cell 0 1 (0x1 * 2 ^ 26 + 0x140) [(0, [dataBeat 1]), (1, [dataBeat 2])] {} id 0
     readyB s 0 && heardB s 0 5 && !s.unit.flag && (s.input 0).head? == some (dataBeat 1) && (dataBeat 1).cls == .data) = true ∧
    (let s := cell 0 1 (0x1 * 2 ^ 26 + 3 * 2 ^ 24 + 0x100) [(0, [oneTok 5 1 0])] { tsA := some 7 } id 0
     readyB s 0 && s.unit.tsA == some 7 && loneB s 0 ⟨5, 1, 0⟩ && dataPorts 3 2 == [0]) = true ∧
    (let x := cell 0 1 (0x1 * 2 ^ 26 + 0x100) [(0, [])] {} id 0
     (x.wants 0).isEmpty && ((x.getDie (taskDie 0)).wft.isEmpty) && (x.getDie (taskDie 0)).unmade.isEmpty && calmB x) = true := by decide +kernel

theorem test_elementwise :
    (let two (x y : Nat) (i : Instr) (v : BitVec 32) := sends i (cell 0 1 0 [(0, [oneTok 5 x 0]), (1, [oneTok 5 y 0])] {} id 0) fun o _ => o == [packBeat [⟨5, v, 0⟩]]
     two 0x3F800000 0x40000000 (.eadd 0 0 1 1 0) 0x40400000 && two 0x3F800000 0x40000000 (.esub 0 0 1 1 0) 0xBF800000 &&
     two 3 4 (.emul 0 0 1 11 0) 12 && two 0xFFFFFFFF 1 (.emin 0 0 1 11 0) 0xFFFFFFFF && two 6 3 (.eand 0 0 1 11 0) 2 && two 6 3 (.exor 0 0 1 11 0) 5 &&
     sends (.eabs 0 11 0) (cell 0 1 0 [(0, [oneTok 5 0x80000000 0])] {} id 0) (fun o _ => o == [packBeat [⟨5, 0x7FFFFFFF, 0⟩]]) &&
     sends (.eadd 0 0 1 1 0) (cell 0 1 0 [(0, [oneTok 0 0 9]), (1, [oneTok 0 0 9])] {} id 0) (fun o _ => o == [packBeat [⟨0, 0, 9⟩]])) = true := by decide +kernel

/-- ComparisonsPivotsAndConversions: operands of data, DONE and stops; a valid threshold; a packet's beats and its control beat. -/
theorem witness_comparisons :
    (let s := cell 0 1 0 [(0, [oneTok 5 0x3F800000 0]), (1, [oneTok 5 0x40000000 0])] {} id 0
     readyB s 0 && heardB s 0 5 && heardB s 2 7 && loneB s 0 ⟨5, 0x3F800000, 0⟩ && loneB s 1 ⟨5, 0x40000000, 0⟩ && (pivTau (s.task 0).pivtau).isSome && (convRow 30).isSome) = true ∧
    ([1, 8, 9].all fun k => loneB (cell 0 1 0 [(0, [oneTok 0 0 k])] {} id 0) 0 ⟨0, 0, k⟩) = true ∧
    (let s := cell 0 1 0 [(0, [dataBeat 1]), (1, [dataBeat 2])] {} id 0
     readyB s 0 && !s.unit.flag && (s.input 0).head? == some (dataBeat 1) && (dataBeat 2).cls == .data) = true ∧
    (let s := cell 0 1 0 [(0, [ctlBeat 1]), (1, [ctlBeat 1])] { acc := some 3 } id 0
     !s.unit.flag && s.unit.hdrA.isNone && s.unit.acc == some 3 && (s.input 0).head? == some (ctlBeat 1) && (ctlBeat 1).cls == .ctl 1) = true := by decide +kernel

theorem test_comparisons :
    (after (exec (.ecmp 0 1 1 false 0 2) (cell 0 1 0 [(0, [oneTok 5 0x3F800000 0]), (1, [oneTok 5 0x40000000 0])] {} id 0)) (fun t => t.output 2 7 == [narrowBeat 1]) &&
     sends (.econst 0 0 0 1 64) (cell 0 1 0 [(0, [oneTok 5 0 0])] {} id 0) (fun o _ => o == [packBeat [⟨5, BitVec.ofNat 32 (smallConst .f32 64), 0⟩]]) &&
     sends (.eidx 0 0 1 11 true 2) (cell 0 1 0 [(0, [oneTok 5 3 0])] {} id 0) (fun o _ => o == [packBeat [⟨15, 3, 0⟩]]) &&
     sends (.epiv 0 1 0) (cell 0 1 0 [(0, [oneTok 5 0x80800000 0])] {} id 0) (fun o _ => o == [packBeat [⟨5, 0xB4000000, 0⟩]]) &&
     sends (.ercp 0 1 0 false) (cell 0 1 0 [(0, [oneTok 5 0x40000000 0])] {} id 0) (fun o _ => o == [packBeat [⟨5, 0x3F000000, 0⟩]]) &&
     sends (.ecvt 0 1 0 3) (cell 0 1 0 [(0, [oneTok 5 0x3C00 0])] {} id 0) (fun o _ => o == [packBeat [⟨5, 0x3F800000, 0⟩]]) &&
     sends (.epop 0 11 false) (cell 0 1 0 [(0, [oneTok 5 3 0])] { n := 4 } id 0) (fun o u => o.isEmpty && u.n == 5)) = true := by decide +kernel

/-- A packet's HEADER: format, scale format, block size, kind, rows, K. -/
def header (efmt sfmt bs pk rows k : Nat) : Nat := efmt + sfmt * 2 ^ 8 + bs * 2 ^ 16 + pk * 2 ^ 20 + rows * 2 ^ 24 + k * 2 ^ 32

/-- CarrySaveAndDots: carry-save beats, control beats and scale HEADERs; two block-scaled HEADERs; a pair whose last beat arrives. -/
theorem witness_carry_save :
    (let s := cell 0 1 0 [(0, [dataBeat (2 ^ 469)]), (1, [dataBeat (2 ^ 469)])] {} id 0
     readyB s 0 && heardB s 0 5 && (s.input 0).head? == some (dataBeat (2 ^ 469)) && csClass (dataBeat (2 ^ 469)) == .data && csClass (ctlBeat 9) == .ctl 9
       && csClass (headerBeat 5) == .header) = true ∧
    ({ tsA := some 1 } : UnitSt).tsA.isSome = true ∧
    (let h := header 4 7 5 0 1 32
     (headerBeat h).cls == .header && bdotOk (headerBeat h).pay.toNat (headerBeat h).pay.toNat && (ctlBeat 1).cls == .ctl 1
       && packetDone h (pays [dataBeat 1]) && !packetDone h (pays []) && packetDone h (pays ([] ++ [dataBeat 1]))) = true := by decide +kernel

theorem test_carry_save :
    (sends (.efma 0 0 1 2 1 0 true) (cell 0 1 0 [(0, [ctlBeat 1]), (1, [ctlBeat 1])] { acc := some 3, hdrA := some (headerBeat (header 1 0 0 0 5 4)) } id 0)
       (fun o u => o == [headerBeat (header 1 0 0 0 1 4), dataBeat 3, ctlBeat 1] && u.acc.isNone) &&
     sends (.ecsadd 0 1 0 false) (cell 0 1 0 [(0, [dataBeat (3 + 15 * 2 ^ 469)]), (1, [dataBeat (4 + 15 * 2 ^ 469)])] {} id 0) (fun o _ => o == [dataBeat (7 + 15 * 2 ^ 469)]) &&
     sends (.enorm 0 1 false) (cell 0 1 0 [(0, [dataBeat (1 + 330 * 2 ^ 448 + 2 ^ 469)])] {} id 0) (fun o u => o == [packBeat [⟨0, 0x3F800000, 0⟩]] && u.n == 1)) = true := by decide +kernel

/-- MatrixOperations: a HEADER each operation takes, a pair of complete packets, a pair of an expert that is listed, a triple of N:M packets,
control beats at every packet port. -/
theorem witness_matrix :
    (let h := header 9 0 0 0 1 4
     let s := cell 0 0 0 [(0, [headerBeat h])] {} id 0
     readyB s 0 && heardB s 0 4 && s.unit.behind.isEmpty && s.input 0 == [headerBeat h] && (s.input 1).isEmpty && (s.input 2).isEmpty
       && MatOp.hdrAccept .dense 0 h && MatOp.hdrAccept .bxor 0 (header 12 0 0 0 1 4) && MatOp.hdrAccept .match_ 0 (header 9 0 0 2 1 4) && MatOp.hdrAccept .pp8 0 h) = true ∧
    (let h := header 9 0 0 0 1 4
     let u : UnitSt := { hdrA := some (headerBeat h), pktA := [dataBeat 1], hdrB := some (headerBeat h), pktB := [dataBeat 1], flag := true, toks := [⟨0, 0, 0⟩] }
     let m : MatCfg := ⟨.dense, 11, false, 0⟩
     u.complete 0 && u.complete 1 && m.pairOk h h && bodyOk m.op 0 h [1] && bodyOk m.op 1 h [1] && ({ m with op := .expert } : MatCfg).pairOk h h && u.flag) = true ∧
    (let a := header 9 0 0 0 1 16
     let b := header 9 0 0 1 1 16
     let c := header 0 0 0 3 1 16
     let m : MatCfg := ⟨.nm2, 11, false, 0⟩
     let u : UnitSt := { hdrA := some (headerBeat a), pktA := [dataBeat 1], hdrB := some (headerBeat b), pktB := [dataBeat 1], hdrC := some (headerBeat c), pktC := [dataBeat 0x444] }
     [0, 1, 2].all u.complete && m.pairOk a b && hRows c == hRows b && hK c == hK b && bodyOk .nm2 2 c [0x444]) = true ∧
    ((ctlBeat 9).cls == .ctl 9 && ({} : UnitSt).hdrA.isNone && !({} : UnitSt).any) = true := by decide +kernel

/-- (1, 2, 3, 4) · (1, 2, 3, 4) = 30, one row against one row of s8 (R164, R165). -/
theorem test_matrix :
    sends (.mdense 0 1 11 false 0) (cell 0 0 0 [] { hdrA := some (headerBeat (header 9 0 0 0 1 4)), pktA := [dataBeat 0x04030201], hdrB := some (headerBeat (header 9 0 0 0 1 4)), pktB := [dataBeat 0x04030201] } id 0)
      (fun o _ => o.length == 65 && (o.getD 1 {}).pay.toNat % 2 ^ 32 == 30) = true := by decide +kernel

/-- A descriptor from its fields by byte offset. -/
def desc (l : List (Nat × Nat)) : Nat := (l.map fun x => x.2 * 2 ^ (8 * x.1)).foldl (· + ·) 0

/-- A level of four coordinates: dim 4, nfib 2, maxfib 8, crd at 64, val at 128. -/
def level (kind : Nat) : Nat := desc [(0, kind), (1, 1), (4, 4), (12, 64), (16, 128), (20, 2), (24, 8)]

/-- StreamUnits: scans between fibres, in one and at its end, with and without ROOT; skips late, to the end and onward; joiners with equal
coordinates, with a lower one at a, with stops; a filter's token kept and dropped; a repeat, a reduction, an array, writers, a sink. -/
theorem witness_stream_units :
    (let s := cell 1 0 0 [(0, [oneTok 0 1 0])] {} id (level 3)
     readyB s 1 && heardB s 0 4 && s.unit.scan.isNone && (s.input 1).isEmpty && loneB s 0 ⟨0, 1, 0⟩ && decide (1 < dfield (s.focusTile.desc 0) 20 4)
       && decide (dfield (s.focusTile.desc 0) 4 4 ≤ dfield (s.focusTile.desc 0) 24 4)) = true ∧
    ([9, 10, 11].all fun k => loneB (cell 1 0 0 [(0, [oneTok 0 0 k])] {} id 0) 0 ⟨0, 0, k⟩) = true ∧
    (let s := cell 1 0 0 [] { scan := some ⟨0, 0, 4, none⟩, toks := [⟨0, 0, 9⟩] } id (level 2)
     (s.unit.scan.any fun q => decide (q.pos < q.stop)) && routeOpenB s && s.unit.toks == [⟨0, 0, 9⟩] && okM ((storeWord (64 + 4 * 0)).run s) (fun c t => c == 0 && t.mem == s.mem)
       && okM ((fibreBits (s.focusTile.desc 0) 0).run (s.put (storeAddr 0 1 0) [1])) (fun bm _ => (List.range 32).find? (fun j => decide (0 ≤ j) && bm.testBit j) == some 0)) = true ∧
    (let s := cell 1 0 0 [(0, [oneTok 0 1 0])] { scan := some ⟨0, 4, 4, none⟩ } id (level 3); s.unit.scan.any fun q => decide (q.stop ≤ q.pos)) = true ∧
    ([(1 : Nat), skipEnd, 2 ^ 30 + 1].all fun v =>
      let s := cell 1 0 (0x22 * 2 ^ 26 + 1 * 2 ^ 16) [(1, [narrowBeat v])] { scan := some ⟨0, 0, 4, none⟩ } id (level 3)
      (s.focusTile.word 0).any (fun e => decide (0x20 ≤ e.eop ∧ e.eop ≤ 0x22 ∧ e.b ≠ 0)) && s.input 1 == [narrowBeat v] && (v / 2 ^ 30 == s.unit.stops % 4) == (v != 2 ^ 30 + 1)) = true ∧
    ([(5, 0), (6, 0), (0, 1), (0, 8)].all fun y =>
      let s := cell 0 5 0 [(0, [oneTok (if y.1 = 6 then 5 else y.1) 1 y.2]), (1, [oneTok y.1 2 y.2])] {} id 0
      readyB s 0 && heardB s 0 9 && heardB s 0 13 && loneB s 0 ⟨if y.1 = 6 then 5 else BitVec.ofNat 32 y.1, 1, y.2⟩ && loneB s 1 ⟨BitVec.ofNat 32 y.1, 2, y.2⟩) = true ∧
    (({ scal := [5, 6] } : UnitSt).scal == [5, 6] && Fmt.nonzero .f32 0x3F800000 && !Fmt.nonzero .f32 0x80000000) = true ∧
    (let u : UnitSt := { flag := true, toks := [⟨1, 2, 0⟩], prev := 8, n := 0 }
     u.flag && u.toks == [⟨1, 2, 0⟩] && u.n == 0 && !u.any && decide (1 ≤ u.prev ∧ u.prev ≤ 8) && ({ tsA := some 3 } : UnitSt).tsA == some 3) = true ∧
    (let s := cell 1 2 0 [(0, [oneTok 0 1 0])] { any := true, flag := true } id (level 1)
     let de := s.focusTile.desc 0
     s.unit.any && s.unit.flag && s.unit.lastSkipA.isNone && decide (0 < dfield de 4 4 ∧ 0 < dfield de 24 4) && decide (8 * (dfield de 12 4) + 32 ≤ 8 * 0x300000)
       && decide (1 < dfield de 4 4) && okM ((storeBits (8 * dfield de 16 4 + 32) 32).run s) (fun _ _ => true)) = true ∧
    (let s := { (cell 0 8 0 [(0, [oneTok 1 7 0])] { scal := [0x10000, 0] } id 0) with regions := [(1, ⟨0x10000, 256, 0, 0, 0, [(0x10000, 0x10000, 256)], false⟩)] }
     okM ((peekTok 0 >>= fun _ => sinkData .s32 0 ⟨1, 7, 0⟩).run s) fun _ t => t.input 0 == s.input 0 && t.focus == s.focus) = true := by decide +kernel

theorem test_stream_units :
    (sends (.scand 0 0 false 0) (cell 1 0 0 [] { scan := some ⟨1, 2, 3, none⟩ } id (level 3)) (fun o _ => o == [packBeat [⟨2, 6, 0⟩]]) &&
     sends (.scanc 0 0 false 0) ((cell 1 0 0 [] { scan := some ⟨0, 1, 2, some 2⟩ } id (level 1)).put (storeAddr 0 1 68) [3]) (fun o _ => o == [packBeat [⟨3, 1, 0⟩]]) &&
     after (exec (.isect 0 1 false false) (cell 0 5 0 [(0, [oneTok 5 1 0]), (1, [oneTok 5 2 0])] {} id 0)) (fun t => t.output 0 9 == [packBeat [⟨5, 1, 0⟩]] && t.output 0 13 == [packBeat [⟨5, 2, 0⟩]]) &&
     after (exec (.union 0 1) (cell 0 5 0 [(0, [oneTok 4 1 0]), (1, [oneTok 5 2 0])] {} id 0)) (fun t => t.output 0 9 == [packBeat [⟨4, 1, 0⟩]] && t.output 0 13 == [packBeat [⟨4, 0xFFFFFFFF, 0⟩]]) &&
     sends (.redc 0 11 0 false) (cell 0 8 0 [(0, [oneTok 5 3 0])] { tsA := some 4 } id 0) (fun o u => o.isEmpty && u.tsA == some 7) &&
     sends (.arrd 0 1 0) ((cell 1 0 0 [(0, [oneTok 5 3 0])] {} id (level 4)).put (storeAddr 0 1 140) [9]) (fun o _ => o == [packBeat [⟨5, 9, 0⟩]]) &&
     sends (.upsink 0 1 11 0) { (cell 0 8 0 [(0, [oneTok 1 7 0])] { scal := [0x10000, 0] } id 0) with regions := [(1, ⟨0x10000, 256, 0, 0, 0, [(0x10000, 0x10000, 256)], false⟩)] }
       (fun _ u => u.plog.map (fun p => (p.pa, p.val)) == [(0x10004, 7)])) = true := by decide +kernel

/-- MemoryNodesAndRouters: the last step of a run, tokens passed on, a beat for a FIFO, a replay's end, residency slots, loads and stores
in the store's last word; routers with each condition. -/
theorem witness_memory_nodes :
    (let de := desc [(0, 5), (1, 1), (4, 4), (16, 8)]
     let s := cell 1 3 0 [] { flag := true, pos := [3] } id de
     readyB s 1 && heardB s 0 7 && s.unit.flag && agenAdvance de 0 s.unit.pos == ([0], 1) && !(s.task 1).cauto) = true ∧
    ([10, 11].all fun k => let s := cell 1 3 0 [(0, [oneTok 0 0 k])] {} id (desc [(0, 5)])
      !s.unit.flag && !(s.focusTile.desc 0).testBit 16 && loneB s 0 ⟨0, 0, k⟩) = true ∧
    (let s := cell 1 3 0 [(0, [dataBeat 7])] { flag := true, toks := [⟨1, 2, 8⟩], scal := [1] } id (desc [(0, 6), (4, 64), (8, 64)])
     s.input 0 == [dataBeat 7] && (dataBeat 7).kinds.all (· < 14) && s.unit.outB.isEmpty && dfield (s.focusTile.desc 0) 16 4 / 64 == 0 && 1 ≤ dfield (s.focusTile.desc 0) 8 4 / 64 && s.unit.scal == [1] && s.unit.q == 0) = true ∧
    ([[], [(⟨1, 2, 0⟩ : Tok)]].all fun l =>
      let s := cell 1 3 0 [(0, [oneTok 0 0 10])] { toks := l } id (desc [(0, 6), (4, 64), (8, 64)])
      readyB s 1 && heardB s 0 7 && !s.unit.flag && loneB s 0 ⟨0, 0, 10⟩) = true ∧
    ([(5 : Nat), 2 ^ 30 + 5, 2 * 2 ^ 30].all fun v =>
      let s := cell 1 3 (0x31 * 2 ^ 26) [(1, [narrowBeat v]), (0, [ctlBeat kDrain])] { slots := [{ st := .resident, tag := 5, beats := [dataBeat 9] }] } id (desc [(0, 6), (12, 1)])
      heardB s 0 7 && (s.input 1).head? == some (narrowBeat v) && (s.focusTile.word 3).any (fun e => e.eop == 0x31 && e.mode % 16 == 0)
        && ((s.unit.opSlots (s.focusTile.desc 0)).findIdx fun y => y.st == .resident && y.tag.toNat == 5) == 0
        && ((s.unit.opSlots (s.focusTile.desc 0))[0]?).any (fun x => x.st != .free && x.by_.isNone) && (ctlBeat kDrain).kinds.contains kDrain && (ctlBeat kDrain).kinds.all (· < 14)) = true ∧
    (let de := desc [(0, 7), (6, 0xFFFF), (8, 0xFFFF), (10, 4), (12, 0x2FFFF8)]
     let s := cell 1 3 0 [(0, [oneTok 5 1 0]), (1, [oneTok 5 9 0])] {} id de
     dfield de 6 2 == 0xFFFF && dfield de 8 2 == 0xFFFF && dfield de 11 1 == 0 && loneB s 0 ⟨5, 1, 0⟩ && loneB s 1 ⟨5, 9, 0⟩
       && dfield de 12 8 + 1 * 4 + LdBytes ((LdSize.ofNat? (dfield de 10 1)).getD .s32) == 0x300000
       && (linesOf (storeAddr 0 1 0x2FFFFC) 4).all fun ln => !s.pendingLine ln && !s.broken (ln * 64)) = true ∧
    ([(0 : Nat), 1].all fun c =>
      let s := cell 0 13 0 [(0, [narrowBeat 7]), (1, [narrowBeat c]), (2, [narrowBeat c])] { tsA := some 3 } id 0
      readyB s 0 && heardB s 1 4 && heardB s 2 4 && (s.input 0).head? == some (narrowBeat 7) && (narrowBeat c).pay.toNat.testBit 0 == (c == 1) && s.unit.tsA == some 3) = true := by
  decide +kernel

theorem test_memory_nodes :
    (let de := desc [(0, 7), (6, 0xFFFF), (8, 0xFFFF), (10, 4), (12, 64)]
     sends (.agen 0 0) (cell 1 3 0 [] { flag := true, pos := [3] } id (desc [(0, 5), (1, 1), (4, 4), (16, 8), (28, 100)])) (fun o _ => o == [packBeat [⟨0, 124, 0⟩, ⟨0, 0, 1⟩, ⟨0, 0, 9⟩]]) &&
     sends (.mld 0 0) ((cell 1 3 0 [(0, [oneTok 5 1 0])] {} id de).put (storeAddr 0 1 68) [9]) (fun o u => o == [packBeat [⟨5, 9, 0⟩]] && u.q == 1) &&
     sends (.opst 10 1 0) (cell 1 3 (0x31 * 2 ^ 26) [(1, [narrowBeat 5])] { slots := [{ st := .resident, tag := 5, beats := [dataBeat 9] }] } id (desc [(0, 6), (12, 1)]))
       (fun o u => o == [dataBeat 9] && u.slots.length == 1) &&
     after (exec (.steer 1 0 1 false) (cell 0 13 0 [(0, [narrowBeat 7]), (1, [narrowBeat 1])] {} id 0)) (fun t => t.output 1 4 == [narrowBeat 7]) &&
     after (exec (.carry 0 1 0) (cell 0 13 0 [(0, [narrowBeat 7]), (1, [narrowBeat 1])] { tsA := some 3 } id 0)) (fun t => t.output 1 4 == [narrowBeat 4] && t.input 0 == [narrowBeat 7]) &&
     after (exec (.cnot 0) (cell 0 13 0 [(0, [narrowBeat 0])] {} id 0)) (fun t => t.output 2 4 == [narrowBeat 1])) = true := by decide +kernel

/-! ## Collectives -/

/-- A descriptor at 0x10000 of round 7, epoch 3, over packages l, one f32 element at 0x10200, received at 0x10300. -/
def collState (op : Nat) (l : List Nat) (flaw : Nat) : State :=
  let s := withBytes (st (regs [(2, 0x10000), (3, 0x10001), (4, 0x10400), (5, word (2 ^ 32 * 3 + 9))])) 0x10000 64
    (op + 1 * 2 ^ 8 + 1 * 2 ^ 32 + 2 * 2 ^ 64 + 3 * 2 ^ 96 + 0x10100 * 2 ^ 128 + 0x10200 * 2 ^ 192 + 0x10300 * 2 ^ 256 + 5 * 2 ^ 320 + 7 * 2 ^ 352 + flaw * 2 ^ 400)
  let s := withBytes (withBytes s 0x10100 4 (ofLanes 16 l).toNat) 0x10200 8 0x3F8000003F800000
  { s with reach := [(1, 0)] }

/-- A round 7 of epoch 3 over packages l. -/
def round0 (op : Nat) (l : List Nat) (f : Round → Round) : Round :=
  f { handle := 7, asid := 0, sys := false, launch := 0, state := 1, mine := [0x3F800000]
      desc := { op := op, fmt := 1, rop := 0, flags := 0, count := 1, epoch := 3, n := l.length, list := l, sbuf := 0x10200, rbuf := 0x10300, tmo := 5, round := 7, root := 0 } }
def withRound (r : Round) : State := { (st (regs [(2, 7)])) with rounds := [r], reach := [(1, 0)], cycle := 20000 }

/-- A message of that round from a package. -/
def collMsg (src : Nat) (data : List (BitVec 32)) : CollMsg := ⟨src, 3, 7, 1, 5, 0, data, [0, 1]⟩

/-- CollectiveInstructions: a descriptor misaligned, malformed, good at its first member and elsewhere; a round live, done, failed with a trap
and without; a handle of no round; a MEMB that has its result. -/
theorem witness_collective_instructions :
    (let s := collState 0 [0, 1] 0; ((s.rd 3).toNat % 64 != 0 && (s.roundOf (s.rd 5).toNat).isNone && s.linked 1) = true) ∧
    ([([0, 1], 0), ([1, 0], 0), ([0, 1], 1)].map fun x => let s := collState 0 x.1 x.2
      okM ((collDescM (s.rd 2)).run s) fun d s1 => calmB s1 && d.1.n == 2 && !d.1.tree && d.1.op == 0 && d.1.me == x.1.idxOf 0 && d.2 == (x.2 == 1)
        && okM ((readRecordM .load d.1.sbuf (d.1.sends * d.1.size)).run (s1.flushHart s1.cur).escape) fun _ _ => true) = [true, true, true] ∧
    ([(1, 0, 0), (2, 0, 0), (3, 0, 1), (3, 1, 1)].all fun x =>
      let s := withRound (round0 0 [0, 1] fun r => { r with state := x.1, why := x.2.2, desc := { r.desc with flags := x.2.1 } })
      calmB s && (s.roundOf (s.rd 2).toNat).any fun r => r.asid == s.me.asid.toNat && r.live == (x.1 == 1) && r.desc.trapFail == (x.2.1 == 1)) = true ∧
    (let s := { (collState 0 [0, 1] 0) with membs := [{ agent := 0, uid := 0, pc := 0x10000, handle := 7, epoch := 3, list := [0, 1], tmo := 5, coordinator := 0, since := 0, result := some [0, 1] }] }
     let mine (m : Memb) : Bool := (Party.mk m.agent m.uid).same s.myself && m.pc == s.pc
     (s.membs.find? mine).any (fun m => m.result == some [0, 1]) && okM ((storeHalves (s.rd 4) [0, 1]).run s) fun _ _ => true) = true := by decide +kernel

theorem test_collective_instructions :
    (after (exec (.colls 1 2) (collState 0 [0, 1] 0)) (fun t => t.rd 1 == 7 && (t.sent.map fun x => (x.2.1, x.2.2.data)) == [(1, [0x3F800000])]) &&
     after (exec (.colls 1 2) (collState 0 [0, 1] 1)) (fun t => (t.rounds.map fun r => (r.state, r.why)) == [(3, 5)]) &&
     after (exec (.collw 1 2) (withRound (round0 0 [0, 1] fun r => { r with state := 3, why := 4, pkg := 9 }))) (fun t => t.rd 1 == 0x3400900000000007#64) &&
     after (exec (.collst 1 2) (withRound (round0 0 [0, 1] id))) (fun t => t.rd 1 == 0x1000000000000007#64) &&
     after (exec (.collabt 2) (withRound (round0 0 [0, 1] id))) (fun t => t.rounds.map (fun r => (r.state, r.why)) == [(3, 2)] && t.sent.map (·.2.1) == [1])) = true := by decide +kernel

/-- CollectiveMessages: a ring's first, middle and last member, before and after its partial; a tree's leader; a time-out, a probe's end, each step
of MEMB. -/
theorem witness_collective_messages :
    (let s := withRound (round0 0 [1, 0, 1] id)
     (s.liveFor (collMsg 1 [0])).any (fun r => !r.sent && r.desc.me == 1 && r.desc.list.getD 0 0 == 1 && r.desc.me + 1 != r.desc.n && r.desc.list.getD 2 0 == 1) && s.linked 1) = true ∧
    ((withRound (round0 0 [1, 0] id)).liveFor (collMsg 1 [0])).any (fun r => r.desc.me == 1 && r.desc.me + 1 == r.desc.n && r.desc.list.getD 0 0 == 1) = true ∧
    ([([0, 1, 1], false), ([0, 1], true)].all fun x => let s := withRound (round0 0 x.1 fun r => { r with sent := true })
      (s.liveFor (collMsg 1 [0])).any fun r => r.sent && !r.passed && r.desc.me == 0 && (r.desc.n == 2) == x.2 && r.desc.list.getD (r.desc.n - 1) 0 == 1 && s.roundOf r.handle == some r
        && s.roundFor (collMsg 1 [0]) == some r) = true ∧
    ((withRound (round0 0 [0, 1] fun r => { r with desc := { r.desc with flags := 2 } })).liveFor (collMsg 1 [0])).any
      (fun r => r.desc.tree && !r.sent && r.desc.list.idxOf 1 == 1 && r.got.isEmpty) = true ∧
    (let s := withRound (round0 0 [0, 1] id)
     (s.roundOf 7).any (fun x => x.live && x.probing.isNone && decide (x.start + x.desc.tmo * 2500 ≤ s.cycle)) && (Tbl.find? s.published 3).isNone && s.collections.isEmpty
       && (collMsg 1 []).members.contains 1 && (collMsg 1 []).members.contains 0) = true ∧
    ([[], [1]].all fun down => let s := withRound (round0 0 [0, 1] fun r => { r with probing := some ⟨0, down, []⟩ })
      (s.roundOf 7).any fun x => x.live && x.probing == some ⟨0, down, []⟩ && x.desc.list.find? (fun q => !(q == Config.package || ([] : List (Nat × Bool)).contains (q, true))) == some 1) = true ∧
    (let s := withRound (round0 0 [0, 1] fun r => { r with state := 2 })
     (s.liveFor (collMsg 1 [])).isNone && s.linked 1 && decide (s.epoch ≤ 3) && s.rounds.any (fun r => r.desc.epoch == 3 && r.desc.round == 7)
       && decide (3 < ({ s with epoch := 4 } : State).epoch)) = true ∧
    (let r := round0 0 [0, 1] id
     let s := withRound r
     calmB s && lineSpans r.desc.rbuf.toNat 4 == [(r.desc.rbuf.toNat, 4)] && passes (s.check (engineDie r.handle) r.asid r.sys .store r.desc.rbuf 4) fun t a =>
       a.pas == [0x10300] && isHbm 0x10300 && !t.protectedAt 0x10300 4 && !t.stopped 0x10300) = true ∧
    ((round0 0 [0, 1] fun r => { r with got := [(0, 1, [7])] }).got.find? fun g => g.1 == 0 && g.2.1 == 1) = some (0, 1, [7]) ∧
    (let s : State := { (withRound (round0 0 [0, 1] id)) with
       published := [(3, [0, 1])], collections := [{ epoch := 4, list := [0, 1], tmo := 5, since := 0 }]
       membs := [{ agent := 0, uid := 0, pc := 0, handle := 7, epoch := 5, list := [0, 1], tmo := 1, coordinator := 0, since := 0 }] }
     Tbl.find? s.published 3 == some [0, 1] && (s.collections.find? (·.epoch == 4)).any (fun c => decide (c.since + c.tmo * 2500 ≤ s.cycle)) && (Tbl.find? s.published 4).isNone
       && (s.membs.find? (fun m => m.epoch == 5 && m.result.isNone && m.since + m.tmo * 2500 + 10000 ≤ s.cycle && m.list.contains 1)).isSome) = true := by decide +kernel

/-- A tree of n members, a value of each but the first. -/
def tree (n : Nat) : Round := round0 0 (List.range n) fun r => { r with got := (List.range n).map fun j => (0, j, [0x40000000]), mine := [0x3F800000] }

theorem test_tree :
    ([2, 3, 8].all fun n => ((List.range n).drop 1).all (fun k => treeUp (tree n) k 6 0 [1] == .send 0 0 [1])
      && treeUp (tree n) 0 6 0 [0x3F800000] == .root [BitVec.ofNat 32 (roundIeee .f32 .rne false ⟨.fin false (2 * n - 1) 0, false, 0⟩).1]) = true := by decide +kernel

theorem test_collective_messages :
    (after (exec (.ringTotal (collMsg 1 [])) (withRound (round0 0 [0, 1] fun r => { r with state := 2 }))) (fun t => t.sent.map (fun x => (x.1, x.2.1, x.2.2.why)) == [(.abort, 1, 2)]) &&
     after (exec (.ringPartial (collMsg 1 [0x40000000])) (withRound (round0 0 [1, 0] id))) (fun t => t.sent.map (fun x => (x.1, x.2.1, x.2.2.data)) == [(.total, 1, [0x40400000])]) &&
     after (exec (.ringTotal (collMsg 1 [0x40400000])) (withRound (round0 0 [0, 1] fun r => { r with sent := true }))) (fun t =>
       t.valueAt 0x10300 4 == 0x40400000 && t.rounds.map (·.state) == [2] && t.sent.map (fun x => (x.1, x.2.1)) == [(.done, 1)]) &&
     after (exec (.treeValue (collMsg 1 [0x40000000])) (withRound (round0 0 [0, 1] fun r => { r with desc := { r.desc with flags := 2 } }))) (fun t => t.valueAt 0x10300 4 == 0x40400000) &&
     after (exec (.abort (collMsg 1 [])) (withRound (round0 0 [0, 1] id))) (fun t => t.rounds.map (fun r => (r.state, r.why, r.pkg)) == [(3, 1, 5)]) &&
     after (exec (.membPublish 4) { (withRound (round0 0 [0, 1] id)) with collections := [{ epoch := 4, list := [0, 1, 2], tmo := 5, since := 0, collected := [1, 0] }] }) (fun t =>
       Tbl.find? t.published 4 == some [0, 1] && t.epoch == 5)) = true := by decide +kernel

/-! ## The fabric's events and the scheduler's -/

/-- A task in a state on the tile of a cell, with changes to the tile. -/
def taskCell (x : Fin 24) (slot : Fin 16) (w : Nat) (ins : List (Nat × List Beat)) (u : UnitSt) (k : Task) (c : TileCtx → TileCtx) : State :=
  (cell x slot w ins u (fun t => { k with pivtau := t.pivtau }) 0).updTc 0 x.val 0 c

/-- FabricEvents: a beat for two readers; a pending beat old enough; a writer with COMMIT and with DRAIN before it; a task parked, to be parked, at
COUNT 0, draining with a port to drain and with none, being saved; a stalled one; a walk in flight; a task owed its phase, its restart point. -/
theorem witness_fabric_events :
    (let s := taskCell 0 5 0 [] {} { state := .running } fun c => { c with outs := [(outKey 0 9, { q := [dataBeat 7] })] }
     let rs := (s.tc 0 0 0).readers 0 9
     s.ownerOf 0 0 0 == some 0 && !isPort 0 0 9 && s.taskActs 0 && s.source 0 0 0 0 9 == { s.source 0 0 0 0 9 with q := [dataBeat 7], got := [] }
       && calmB s && rs != [] && rs.eraseDups == rs && rs.all fun r => ((s.tc 0 0 0).buf r).room) = true ∧
    (let z : State := { (withHandle 0x2F0 { pendN := 3 } 0 []) with cycle := 20 }
     let shelved : State := { z.updDie 0 fun d => { d with pool := [{ readyRec with saved := some (z.hart 0).ctx }] } with harts := [] }
     [(z, hartAgent 0, 0), (shelved, 0, 9)].map fun x => match x.1.allCtx.find? fun y => y.1.same ⟨x.2.1, x.2.2⟩ with
       | some (_, c) =>
         let y : Handle := c.q[(0 : Fin 16).val]
         y.bound && decide (0 < y.pendN) && decide (y.pendAt + 16 ≤ x.1.cycle) && (x.1.standing y.port).q.isEmpty && !x.1.frozen y.port.task
       | none => false) = [true, true] ∧
    ([(10 : Nat), 11].all fun k => [[], [((64 * 8 : Nat), (8 : Nat), (3 : Nat))]].all fun l =>
      let s := taskCell 1 2 (0x23 * 2 ^ 26) [(0, [oneTok 0 0 k])] { wlog := l } { state := .running } id
      s.taskActs 1 && match s.logUnits 1 with
        | [y] => s.heldCtl y == some k && y.1 == ⟨⟨0, 1, 0⟩, 0, 2⟩ && !s.commitHeld [y] && (s.logStopped [y]).isNone && calmB s && Memory.wf s.mem && !s.slow && !s.stopped 64
          && (linesOf 64 1).all (fun ln => !s.pendingLine ln) && s.allCtx.all (fun z => !z.1.same (s.task 1).armer || z.2.log.isEmpty)
        | _ => false) = true ∧
    (let s := { (taskCell 1 2 (0x23 * 2 ^ 26) [(0, [oneTok 0 0 10])] {} { state := .running, arming := some 0 } id) with
       harts := [(0, { run := .running, ctx := { log := [pair 0x10004 7] } })] }
     (s.hart 0).run != .idle && (Party.mk (hartAgent 0) (s.hart 0).ctx.cont.uid).same (s.task 1).armer) = true ∧
    (let s := taskCell 0 5 0 [] {} { state := .running } id
     (s.task 0).state == .running && s.isCurrent 0 && (s.task 0).rows.isEmpty && !s.holdsToken 0) = true ∧
    (let s := taskCell 0 5 0 [(0, [dataBeat 1])] {} { state := .parked } id
     (s.task 0).state == .parked && s.holdsToken 0) = true ∧
    (let s := taskCell 0 5 0 [(0, [dataBeat 1])] {} { state := .running } id
     s.taskActs 0 && s.holdsToken 0 && !s.waitsOutside 0 && decide ((s.task 0).moved + 2 ^ 22 ≤ 2 ^ 22 + s.cycle)) = true ∧
    (let s := taskCell 0 5 0 [] {} { state := .draining } id
     s.ownerOf 0 0 0 == some 0 && s.taskActs 0 && s.mayDrain 0 0 0 15 && tilesOf 0 0 0 == [0]) = true ∧
    (let s := taskCell 0 0 (0x20 * 2 ^ 26 + 16) [] {} { state := .draining } id
     s.taskActs 0 && !(State.task ((tilesOf 0 0 0).foldl (fun z n => z.leaveTile 0 n) s) 0).gone.contains 0) = true ∧
    ([none, some 0x10000].all fun (x : Option Word) =>
      let s := (taskCell 0 5 0 [] {} { state := .checkpointing, image := x } id).updDie 0 fun d => { d with wextsize := 12 }
      (s.task 0).state == .checkpointing && calmB s && (s.task 0).image == x) = true ∧
    (let s := taskCell 0 5 0 [] {} { state := .killed } id
     (s.task 0).state == .killed && (s.task 0).launch == 0 && calmB s) = true ∧
    ([(0 : Nat), 0x10].all fun p => let s := taskCell 0 5 0 [] {} { state := .draining, psrc := p } fun _ => {}
      s.taskActs 0 && s.tileDrained 0 0 && (s.task 0).gone.isEmpty && tileAt 0 0 (p % 16) == 0
        && (State.task ([0].foldl (fun z n => z.leaveTile 0 n) s) 0).gone == [0]) = true ∧
    (let s := taskCell 1 5 0 [] { stalled := some (0x10000, 0) } { state := .running } id
     s.ownerOf 0 1 0 == some 1 && s.unit.stalled == some (0x10000, 0)) = true ∧
    ([(1, TaskState.drained), (3, .killed)].all fun x => let s := taskCell 0 5 0 [] {} { state := x.2, owed := x.1 } id
      (s.ownerOf 0 0 (s.curCtx 0 0) == some 0) && (s.task 0).launch == 0 && calmB s) = true := by decide +kernel

theorem test_fabric_events :
    (after (exec (.beatHop ⟨⟨0, 0, 0⟩, 0, 0, 9⟩) (taskCell 0 5 0 [] {} { state := .running } fun c => { c with outs := [(outKey 0 9, { q := [dataBeat 7] })] }))
       (fun t => (Tbl.getD (t.tc 0 0 0).outs (outKey 0 9) {}).q.isEmpty && ((t.tc 0 0 0).buf (hartKey 0)).q == [dataBeat 7]) &&
     after (exec (.regionCommit 1) (taskCell 1 2 (0x23 * 2 ^ 26) [(0, [oneTok 0 0 10])] { wlog := [(64 * 8, 8, 3)] } { state := .running, count := 4 } id)) (fun t =>
       Memory.get t.mem 64 == 3 && t.unit.wlog.isEmpty && (t.task 1).restart.count == 4) &&
     after (exec (.countExhausted 0) (taskCell 0 5 0 [] {} { state := .checkpointing, positive := true } id)) (fun t => (t.task 0).drainPending) &&
     after (exec (.phaseEnd 0) (taskCell 0 5 0 [] {} { state := .draining, next := 6 } fun _ => {})) (fun t => (t.task 0).state == .drained && t.curCtx 0 0 == 2) &&
     after (exec (.regionStall 0) { (taskCell 0 5 0 [(0, [dataBeat 1])] {} { state := .running } id) with cycle := 2 ^ 22 }) (fun t => (t.task 0).state == .killed)) = true := by decide +kernel

/-- A launch record for the host's queue 3: code at 0x10000, priority 9, one level of the package. -/
def hostRec (f : Nat) : LReq :=
  ⟨leBytes 128 (1 + f * 2 ^ 8 + 9 * 2 ^ 32 + 1 * 2 ^ 40 + 1 * 2 ^ 48 + 0x10000 * 2 ^ 64 + 0x10040 * 2 ^ 128 + 0x77 * 2 ^ 192 + 5 * 2 ^ 512 + 8 * 2 ^ 520 + 1 * 2 ^ 544), true, 15⟩
def queued (f : Nat) (good : Bool) : State :=
  let s := { (st {}) with queues := [(3, { recs := [hostRec f] })], asidTab := 0x20000, harts := [] }
  if good then s.put 0x20000 [1] else s

/-- A ready record of priority 9 in the pool of die 0, hart 0 at priority 2 with E estimated cycles, the queue for four harts, the other three halted. -/
def rival (run : Run) (e : Nat) : State :=
  let s := (stH (fun h => { h with run := run, eprio := 2, asid := 0, ctx := { h.ctx with estim := e, cont := { uid := 1, launch := 1 } } }) (regs [])).updDie 0
    fun d => { d with wextsize := 12, pool := [{ readyRec with frame := 0x10040, prio := 9 }] }
  { s with cycle := 30000, queues := [(0, { word := 0x101 })], harts := s.harts ++ (List.range 3).map fun k => (k + 1, { run := .halted none }) }

/-- Task 0 with an estimate in the way of task 480, W KiB-slots of extension. -/
def inWay (state : TaskState) (estim w : Nat) (ckpt : Bool) : State :=
  let v : Task := { state := state, eprio := 2, estim := estim, ckpt := ckpt, restartable := true }
  ({ (withTask v {}) with tasks := [(0, v), (480, { state := .running, eprio := 5 })] }).updDie 0 fun d => { d with wextsize := BitVec.ofNat 64 w, pdrain := 100 }

/-- The bytes of its image, two records of a length that is free. -/
theorem inWay_size (state : TaskState) (estim w : Nat) (ckpt : Bool) :
    (inWay state estim w ckpt).imageSize 0
      = imageLen 64 [⟨1, 0, 0, 64 * (Config.imageBodyUnits 0 % 4), 0⟩, ⟨5, 0, 0, 64 * (Config.imageBodyUnits 1 % 4), 0⟩] := by
  have h1 : (inWay state estim w ckpt).task 0 = { state := state, eprio := 2, estim := estim, ckpt := ckpt, restartable := true } := rfl
  have h2 : (tilesOf 0 0 0).zipIdx = [(0, 0)] := by decide +kernel
  have h3 : ((inWay state estim w ckpt).tc 0 0 0).slots = [] := rfl
  have h4 : (inWay state estim w ckpt).images.length = 0 := rfl
  have h5 : (taskDie 0).val = 0 ∧ (taskCtx 0).val = 0 := by decide +kernel
  simp only [State.imageSize, State.imageRecs, h1, h2, h4, h5.1, h5.2, List.flatMap_cons, List.flatMap_nil, h3, ownLen]
  rfl

/-- SchedulingEvents: a victim's image finds room in an extension, and none in an empty one, whatever its length. -/
theorem witness_image_room (state : TaskState) (estim : Nat) (ckpt : Bool) :
    ((((inWay state estim 12 ckpt).getDie 0).extFind (((inWay state estim 12 ckpt).imageSize 0 + 63) / 64)).isSome = true ∧
    (((inWay state estim 0 ckpt).getDie 0).extFind (((inWay state estim 0 ckpt).imageSize 0 + 63) / 64)).isSome = false) ∧
    2048 + ((inWay state estim 12 ckpt).imageSize 0 + 63) / 64 < 30000 := by
  have all : ∀ a b : Fin 4, let n := (imageLen 64 [⟨1, 0, 0, 64 * a.val, 0⟩, ⟨5, 0, 0, 64 * b.val, 0⟩] + 63) / 64
      ((((inWay .running 0 12 false).getDie 0).extFind n).isSome = true ∧ (((inWay .running 0 0 false).getDie 0).extFind n).isSome = false) ∧
        2048 + n < 30000 := by decide +kernel
  rw [inWay_size, inWay_size]
  exact all ⟨_, Nat.mod_lt _ (by decide)⟩ ⟨_, Nat.mod_lt _ (by decide)⟩

/-- SchedulingEvents: a sweep with a cycle and with none; a head of a queue that passes its checks, one with a walk, one that fails them; a
record for an idle hart, for one that sleeps, for one that runs; a task in the way of another; a period that begins. -/
theorem witness_scheduling_events :
    (let s := withEntries (st {}) [entry .obj 1 0 0x10000 false, entry .hold 1 0 0x10000 false, entry .wait 1 0 0x10000 false]
     let e := entry .wait 1 0 0x10000 false
     (s.waiters e.key).contains e && match s.findCycle e.party (s.allEntries.length + 1) e [] with | some p => newestHart p == some 0 | none => false) = true ∧
    (let s := withEntries (st {}) [entry .obj 1 1 0x10000 false, entry .hold 1 1 0x10000 false, entry .wait 1 0 0x10000 false]
     let e := entry .wait 1 0 0x10000 false
     (s.findCycle e.party (s.allEntries.length + 1) e []).isNone && (s.getDie 0).unmade.isEmpty) = true ∧
    (let s := withEntries (st {}) [entry .obj 1 1 0x10000 false, { entry .wait 1 0 0x10000 false with slot := some 0 }]
     decide (((s.getDie 0).wft.filter (·.slot.isSome)).length = 1 ∧ 1 ≤ (s.getDie 0).chipFree)) = true ∧
    [queued 0 true, queued 1 true, queued 0 false].map (fun s => match s.nextQueue with
      | some (q, r) => (q, r.prio, s.recordFlaw 0 r.rec_, (s.getDie 0).spawnRoom, s.launches.length, rootDie (s.queueWord q))
      | none => (0, 0, 0, false, 0, 0)) = [(3, 9, 0, true, 0, 0), (3, 9, 0, true, 0, 0), (3, 9, 2, true, 0, 0)] ∧
    (let s := rival .idle 0
     (s.newcomer 0).isNone && match s.pick 0 with | some ((d, r), _) => d == 0 && r.uid == 9 && s.taker d r == some 0 | none => false) = true ∧
    (let s := (rival .idle 0).updHart 0 fun h => { h with drainFor := some 9 }
     (s.newcomer 0).map (fun x => x.2.uid) == some 9) = true ∧
    (let s := rival (.waiting ⟨.word, .mem 0x10040, 0, 0⟩) 0
     calmB s && (s.asleep 0).isSome && (s.hart 0).ctx.stores.isEmpty && s.casts.isEmpty && ((s.getDie 0).extFind (saveSlots (s.hart 0).ctx)).isSome && (s.hart 0).drainFor.isNone && (s.updHart 0 fun h => { h with drainFor := some 9 }).asleep 0 == some 0
       && match s.pick 0 with | some ((d, r), _) => (s.taker d r).isNone && s.sleeperFor r == some 0 | none => false) = true ∧
    ([0, 600, 5000].all fun e =>
      let s := rival Run.running e
      match (s.getDie 0).pool with
      | [r] => (s.taker 0 r).isNone && (s.sleeperFor r).isNone && (allHarts.all fun g => (s.hart g).drainFor.isNone) && ((s.getDie 0).extFind (saveSlots (s.hart 0).ctx)).isSome && decide ((s.hart 0).eprio.toNat < s.recPrio r)
          && leastOf (fun g => ((s.hart g).eprio.toNat, (s.hart g).dispatchedAt, hartAgent g))
            (allHarts.filter fun g => s.mayRun g r && ((s.hart g).run == .running && !(s.hart g).hm && (s.hart g).ctx.cont.launch != 0 && (s.hart g).drainFor.isNone
              && decide ((s.hart g).eprio.toNat < s.recPrio r))) == some 0
      | _ => false) = true ∧
    ([none, some 3].all fun k => let s := (st {}).updDie 0 fun d => { d with memq := [{ readyRec with slot := k }] }
      (s.getDie 0).memq.map (·.slot) == [k] && decide (256 < (s.getDie 0).poolFree)) = true ∧
    ([(.running, 9, 12, false), (.checkpointing, 9, 12, false), (.parked, 9, 12, false), (.parked, 9, 0, false), (.running, 30000, 12, true), (.parked, 30000, 12, true),
        (.running, 30000, 12, false)].all fun (x : TaskState × Nat × Nat × Bool) =>
      let s := inWay x.1 x.2.1 x.2.2.1 x.2.2.2
      s.inTheWay 480 == [0] && !s.isCurrent 480 && (s.task 0).handTo.isNone
        && (x.2.2.2 || x.2.1 == 9 || (s.task 0).restartable)
        && leastOf (fun v => ((s.task v).eprio.toNat, (s.task v).armedAt, taskAgent v))
          ((s.inTheWay 480).filter fun v => decide ((s.task v).eprio.toNat < (s.task 480).eprio.toNat) && (s.task v).handTo.isNone) == some 0) = true ∧
    (let s : State := { (st {}) with cycle := 25000 }; s.period < s.cycle / 25000) := by decide +kernel

theorem test_scheduling_events :
    (after (exec .launchDequeue (queued 0 true)) (fun t => ((t.getDie 0).pool.map fun r => (r.code, r.frame, r.prio, r.seed)) == [(0x10000, 0x10040, 9, 0x77)]
       && (t.launch 1).conts == 1) &&
     after (exec .launchDequeue (queued 0 false)) (fun t => !(t.launch 1).live && (t.launch 1).state == 1) &&
     after (exec (.hartDispatch 0) (rival .idle 0)) (fun t => (t.hart 0).run == .running && (t.hart 0).ctx.pc == 0x10000 && (t.hart 0).ctx.s[(1 : Fin 64).val] == 0x10040) &&
     after (exec (.switchOut 0) (rival (.waiting ⟨.word, .mem 0x10040, 0, 0⟩) 0)) (fun t => (t.getDie 0).sleepers.length == 1 && (t.hart 0).ctx.pc == 0x10000) &&
     after (exec (.preemptionEvaluation (.record 0 0)) ((rival .running 5000).updDie 0 fun d => { d with pdrain := 100 })) (fun t => (t.hart 0).ctx.cont.uid == 9)) = true := by
  decide +kernel

/-! ## The package: graphs, links, power, the host -/

/-- A launch 1 that walks node 0 of a table at 0x10000, the node's bytes, the word at 0x10100, the counters held. -/
def walking (node word : Nat) (f : Walk → Walk) : State :=
  let s := withBytes (withBytes (st (regs [])) 0x10000 32 node) 0x10100 8 word
  { s with launches := [(1, { walk := some (f { table := 0x10000 }) })], nextLaunch := 2 }
def nodeOf (t n : Nat) : Nat := t + n * 2 ^ 8 + 2 * 2 ^ 16 + 3 * 2 ^ 32 + 0x10100 * 2 ^ 64

/-- GraphWalk: nodes of each type, of none, with an address misaligned; a word of 0 and not; counters held or not, one entered by next. -/
theorem witness_graph_walk :
    ([(nodeOf 0 0, false), (nodeOf 1 0, false), (nodeOf 2 0, false), (nodeOf 3 0, false), (nodeOf 4 2, false), (nodeOf 5 0, true), (nodeOf 1 0 + 2 ^ 64, false)].all fun x =>
      [(0 : Nat), 2].all fun v => let s := walking x.1 v id
      (s.launch 1).live && match (s.launch 1).walk with
        | some w => !w.ran && (let r := s.readNode 1 w
            okE r.2 fun b => nodeBad b == x.2 && (r.1.launch 1).walk == some w &&
              (let d := rootDie (r.1.queueWord (r.1.launch 1).queue)
               (r.1.getDie d).spawnRoom && okE (r.1.devLoad d 0 false .remote 0 0x10100 8).2 fun l => leValue l == v))
        | none => false) = true ∧
    (let s := walking 0 0 fun w => { w with ran := true, after := 2 }
     (s.launch 1).walk.any fun w => w.ran && !w.out) = true ∧
    ([(0 : Nat), 1].all fun c => let s := walking (nodeOf 3 0) 0 fun w => { w with viaNext := true, counters := [(0, c)] }
      (s.launch 1).walk.any fun w => w.viaNext && w.counters.find? (·.1 == w.node) == some (w.node, c) && (w.counters.filter (·.1 != w.node)).length < 8) = true ∧
    (let w : Walk := { counters := (List.range 8).map fun k => (k + 1, 0) }
     (w.counters.find? (·.1 == w.node)).isNone && 8 ≤ (w.counters.filter (·.1 != w.node)).length) = true := by decide +kernel

theorem test_graph_walk :
    (after (exec (.graphRun 1) (walking (nodeOf 1 0) 0 id)) (fun t => ((t.getDie 0).pool.map fun r => (r.code, r.node)) == [(0x10100, true)] && (t.launch 1).conts == 1) &&
     after (exec (.graphIf 1) (walking (nodeOf 2 0) 0 id)) (fun t => (t.launch 1).walk.any fun w => w.node == 3 && !w.viaNext) &&
     after (exec (.graphLoop 1) (walking (nodeOf 3 0) 2 id)) (fun t => (t.launch 1).walk.any fun w => w.node == 3 && w.counters == [(0, 1)]) &&
     after (exec (.graphSwitch 1) (walking (nodeOf 4 2 + (7 * 2 ^ 128 + 8 * 2 ^ 144)) 1 id)) (fun t => (t.launch 1).walk.any fun w => w.node == 8 && !w.viaNext) &&
     after (exec (.graphEnd 1) (walking (nodeOf 0 0) 0 id)) (fun t => !(t.launch 1).live)) = true := by decide +kernel

/-- A byte in flight. -/
def oneByte (pa : Nat) (b : Byte) : Flight := { pas := [pa], bytes := [b], va := word pa }

/-- A flit of a kind, and a link with two flits held for replay. -/
def flit (k : BitVec 8) (seq ack : BitVec 16) : Flit := { seq := seq, ack := ack, kind := k, payload := List.replicate 240 0 }
def linked (f : Link → Link) : State :=
  { (st {}) with cycle := 6000000, links := [(2, f { txSeq := 2, rxSeq := 5, replay := [flit 0 0 0, flit 0 1 0] })] }

/-- LinkEvents: an end that takes flits and may send; flits of each kind, whole, damaged, out of order; an end that may not send, one whose slots are
full, one with seven refusals; one that retrains, in time and out of it; a store through what is lost. -/
theorem witness_link_events :
    (let s := linked id
     let l := s.link 2
     !l.down && l.retraining.isNone && !l.quiesced && decide (0 < l.credit) && decide (l.naks < 7 ∧ l.replay.length < 512 ∧ l.occupancy < 256 ∧ l.audited + 250000 ≤ s.cycle)) = true ∧
    ([0, 1, 2, 3, 4].all fun k => let f := (flit k 5 0).bits
      (flitOf f == flit k 5 0) && flitOk f && !flitOk (f ^^^ 1) && (flitOf (f ^^^ 1)).kind == k && (flitOf (flit k 7 0).bits).seq == 7) = true ∧
    ((linked fun l => { l with naks := 7, occupancy := 256, quiesced := true, sent := 256 }).link 2).credit ≤ 0 ∧ 2 < 31 ∧ 31 ≤ 31 ∧
    ([(0 : Nat), 2000000].map fun t => let s := linked fun l => { l with retraining := some t }
      (!(s.link 2).down && (s.link 2).retraining == some t, decide (s.cycle ≤ t + 5000000))) = [(true, false), (true, true)] ∧
    (let s := st { (regs []) with stores := [oneByte 0x10000 1] }
     (s.hart 0).ctx.stores.map (·.pas) == [[0x10000]] && s.casts.isEmpty && allHarts.all fun k => k == 0 || (s.hart k).ctx.stores.isEmpty) = true := by decide +kernel

theorem test_link_events :
    (after (exec (.dataFlit 2 (flit 0 5 0).bits) (linked id)) (fun t => (t.link 2).rxSeq == 6 && (t.link 2).received == 1 && (t.link 2).replay.map (·.seq) == [1]) &&
     after (exec (.dataFlit 2 (flit 0 7 0).bits) (linked id)) (fun t => (t.link 2).rxSeq == 5 && (t.link 2).wire.map (fun f => (f.kind, f.ack)) == [(3, 5)]) &&
     after (exec (.negativeAcknowledge 2 (flit 3 0 1).bits) (linked id)) (fun t => (t.link 2).replay.map (·.seq) == [1] && (t.link 2).wire.map (·.seq) == [1]) &&
     after (exec (.auditTimer 2) (linked id)) (fun t => (t.link 2).txSeq == 3 && (t.link 2).wire.map (fun f => (f.kind, f.seq)) == [(2, 2)]) &&
     after (exec (.linkDown 2) (linked fun l => { l with retraining := some 0 })) (fun t => (t.link 2).down && (t.link 2).replay.isEmpty)) = true := by decide +kernel

/-- A store whose first replica is written and whose second, at 0x30000, is owed. -/
def owedCast : Cast := { pas := [0x30000], bytes := [9], agent := hartAgent 0, va := 0x30000 }

/-- PowerBootAndMemoryEvents: the stages of boot, a hot junction, a store in flight that an earlier one does not meet, with one address and with two,
a replica that is owed. -/
theorem witness_power_events :
    State.reset.morhan.stage = 0 ∧
    ([(1 : Nat), 2, 4, 5, 6].all fun n => let s : State := { (st {}) with morhan := { stage := n } }; s.morhan.stage != 0 && decide (s.morhan.stage < 7) && s.morhan.fail == 0
      && (List.replicate (stageImages n) (⟨[], 0, [], []⟩ : BootImage)).length == stageImages s.morhan.stage) = true ∧
    ((st {}).morhan.shutdown = false ∧ 110 ≤ 110) ∧
    ([[(0x10008 : Nat)], [0x10008, 0x30000]].all fun ps =>
      let f : Flight := { oneByte 0x10008 7 with pas := ps }
      let s := st { (regs []) with stores := [oneByte 0x10000 1, f] }
      let fl := (s.hart 0).ctx.stores
      s.allEntries.all (·.slot.isNone) && fl[1]? == some f && ps.all (fun q => s.reaches (hartDie 0) q) && s.casts.isEmpty && (linesOf 0x10008 1).all (fun ln => !s.pendingLine ln) && !s.stopped 0x10008
        && fl.all (fun g => g.fence.isNone) && (fl.take 1).all fun g => g.pas.all fun p => ps.all fun q => decide (p + g.bytes.length ≤ q ∨ q + 1 ≤ p)) = true ∧
    (let s := { (st (regs [])) with casts := [owedCast] }
     s.allEntries.all (·.slot.isNone) && s.castsOf 0 == [0] && s.casts[0]? == some owedCast && owedCast.mask.isEmpty && (linesOf 0x30000 1).all (fun ln => !s.pendingLine ln) && !s.stopped 0x30000) = true := by decide +kernel

theorem test_power_events :
    (after (exec (.temperatureThreshold 3 2 96) (st {})) (fun t => t.hbmStacks[(3 : Fin 12).val].throttled && t.hbmStacks[(3 : Fin 12).val].tr == 40000000 && !t.hbmStacks[(3 : Fin 12).val].stopped) &&
     after (exec (.powerWindow 5000) (st {})) (fun t => t.morhan.idleMatrix == 1) &&
     after (exec (.bootStage (.failed 3)) { (st {}) with morhan := { stage := 4 } }) (fun t => t.morhan.fail == 3) &&
     after (exec (.writePerformed 0 1) (st { (regs []) with stores := [oneByte 0x10000 1, { oneByte 0x10008 7 with pas := [0x10008, 0x30000] }] })) (fun t =>
       Memory.get t.mem 0x10008 == 7 && Memory.get t.mem 0x30000 == 0 && t.casts.map (·.pas) == [[0x30000]] && (t.hart 0).ctx.stores.length == 1) &&
     after (exec (.writePerformed 0 0) { (st (regs [])) with casts := [owedCast] }) (fun t => Memory.get t.mem 0x30000 == 9 && t.casts.isEmpty)) = true := by decide +kernel

/-- The package open to its host, with one command accepted under seq 1. -/
def hosted (op a b : Nat) : State :=
  { (st {}) with morhan := { stage := 7 }, host := { sqsize := 64, acc := 1, cmds := [⟨1, op, BitVec.ofNat 384 (a + b * 2 ^ 64)⟩] } }

/-- HostCommands: a slot in order, out of order, reserved, beyond the doorbell; a queue with a record held; each command with operands it takes and
operands it refuses. -/
theorem witness_host_commands :
    (calmB (hosted 1 0 0) && (linesOf 0x10000 128).all (fun ln => !(hosted 1 0 0).pendingLine ln)) = true ∧
    (let s : State := { (hosted 1 0 0) with host := { sqsize := 64 } }
     s.morhan.stage == 7 && s.host.unread.isEmpty && s.host.heldRecs.isEmpty && !s.host.full && s.host.stat == s.host.sqhead && s.host.complete.isEmpty) = true ∧
    ([(1 : Nat), 0, 9, 1 + 20 * 2 ^ 64, 1 + 5 * 2 ^ 64].map fun v => let b := slotBytes (BitVec.ofNat 512 v)
      (fieldOf b 0 8, fieldOf b 8 1, zeroSpan b 9 7)) = [(1, 0, true), (0, 0, true), (9, 0, true), (1, 20, true), (1, 5, true)] ∧
    (1 % 256 = ((1 : Fin 256) : Nat) ∧ 9 % 256 ≠ ((1 : Fin 256) : Nat)) ∧
    (let m : Mailbox := { sqsize := 64, stat := 64, heldRecs := [{}] }
     m.unread.isEmpty && m.full && m.stat != m.sqhead && !({ m with sqhead := 1 } : Mailbox).full && sizeOk 64) = true ∧
    ([1, 2, 3, 4, 5, 6, 7, 8, 9, 10, 11, 12, 13, 14].all fun op => ((hosted op 0x10000 0x20000).cmd 1 op).isSome && ((hosted 0 0 0).cmd 1 op).isNone) = true ∧
    (let s := hosted 1 0x10000 0x20000
     (s.hostAddr 0x10000 128 == some 0x10000) && (s.hostAddr 0x10001 32 == some 0x10001) && (s.hostPlace 0x10000 16384).isSome && (s.hostAddr 0x20000 65536).isSome && (s.hostAddr 0x20000 5517).isSome
       && (s.hostAddr (2 ^ 46) 8).isNone && (s.hostAddr (2 ^ 46) 65536).isNone && !s.broken 0x10000 && 0x10000 % 16384 == 0) = true ∧
    ((hartOf 5).isSome ∧ (hartOf (2 ^ 40)).isNone = true ∧ (hosted 9 5 0).morhan.shutdown = false) ∧
    ([(false, false), (false, true), (true, false)].all fun x => let s : State := { (hosted 10 2 0) with links := [(2, { down := true, near := x.2, far := x.1 })] }
      ((s.link 2).far, (s.link 2).near) == x) = true ∧
    (wfld (word 0x101 &&& 0xFFFFFFFF3F#64) 8 32 ≠ 0 ∧ wfld (word 0x101 &&& 0xFFFFFFFF3F#64) 0 6 ≠ 0 ∧ wfld (word 0x100 &&& 0xFFFFFFFF3F#64) 0 6 = 0) ∧
    (∀ k : Fin 12, (hosted 13 0 0).hbmStacks[k.val].hottest < 92) := by decide +kernel

theorem test_host_commands :
    (after (exec (.doorbell 1 [(1, BitVec.ofNat 512 (1 + 5 * 2 ^ 64))]) { (hosted 1 0 0) with host := { sqsize := 64 } }) (fun t => t.host.acc == 1 && t.host.cmds.map (·.op) == [5] && t.barRead 0x4000 == 0 && t.barRead 0x4008 == 1 && t.barRead 0x4028 == 64) &&
     after (exec (.wrmem 1) (hosted 3 0x10000 0xABCD)) (fun t => t.valueAt 0x10000 8 == 0xABCD && t.host.done == 1 && t.host.stat == 1) &&
     after (exec (.rdmem 1) (withBytes (hosted 4 0x10000 0) 0x10000 8 77)) (fun t => (Tbl.find? t.host.queue 32).any fun r => fieldOf r 24 8 == 77 && fieldOf r 17 1 == 0) &&
     after (exec (.qcfg 1) (hosted 5 64 0x101)) (fun t => (Tbl.find? t.host.queue 32).any fun r => fieldOf r 17 1 == 2) &&
     after (exec (.hartrst 1) (hosted 9 5 0x400)) (fun t => (t.hart 5).run == .running && (t.hart 5).ctx.pc == 0x400 && (t.hart 5).pl) &&
     after (exec (.pcap 1) (hosted 12 1250 0)) (fun t => t.morhan.cap == 1250) &&
     after (exec (.reset 1 0) (withBytes (hosted 13 0 0) 0x10000 1 7)) (fun t => Memory.get t.mem 0x10000 == 7 && t.harts.isEmpty && t.host.done == 1)) = true := by decide +kernel

end Sys2Proof.Tests
end

-- ==== Proofs: fields of a word ====
section
/-!
Proofs for the words (R10 to R22): the fields of a 32-bit word make it up again, and what a decoder reads out of a field.
-/
namespace Sys2Proof.Words

/-! ## The fields of a word, format by format (R11) -/

/-- A field read is below its width. -/
theorem bits_lt (w lo n : Nat) : bits w lo n < 2 ^ n := Nat.mod_lt _ (Nat.two_pow_pos n)

/-- Two fields side by side are one. -/
theorem bits_append (w lo m n : Nat) : bits w lo (m + n) = bits w lo m + 2 ^ m * bits w (lo + m) n := by
  unfold bits
  rw [Nat.pow_add 2 m n, Nat.mod_mul, Nat.pow_add 2 lo m, Nat.div_div_eq_div_mul]

section
variable {w : Nat} (hw : w < 2 ^ 32)
include hw

/-- A word is its lowest 26 bits and its opcode. -/
theorem opcode_fields : bits w 0 26 + 67108864 * bits w 26 6 = w := by
  have h := bits_append w 0 26 6
  rw [show bits w 0 (26 + 6) = w by simpa [bits] using Nat.mod_eq_of_lt hw] at h
  exact h.symm

/-- Format A: op d a b fn. -/
theorem formatA_fields :
    bits w 26 6 * 67108864 + bits w 0 8 + bits w 20 6 * 1048576 + bits w 14 6 * 16384 + bits w 8 6 * 256 = w := by
  have h := opcode_fields hw
  rw [bits_append w 0 8 18, bits_append w 8 6 12, bits_append w 14 6 6] at h
  simp only [Nat.reduceAdd] at h
  omega

/-- Format B: op d a imm14. -/
theorem formatB_fields : bits w 26 6 * 67108864 + bits w 20 6 * 1048576 + bits w 14 6 * 16384 + bits w 0 14 = w := by
  have h := opcode_fields hw
  rw [bits_append w 0 14 12, bits_append w 14 6 6] at h
  simp only [Nat.reduceAdd] at h
  omega

/-- Format V: op vd va vb m ew S fn. -/
theorem formatV_fields :
    bits w 26 6 * 67108864 + bits w 0 5 + bits w 5 1 * 32 + bits w 21 5 * 2097152 + bits w 16 5 * 65536 + bits w 11 5 * 2048
      + bits w 8 3 * 256 + bits w 6 2 * 64 = w := by
  have h := opcode_fields hw
  rw [bits_append w 0 5 21, bits_append w 5 1 20, bits_append w 6 2 18, bits_append w 8 3 15, bits_append w 11 5 10,
    bits_append w 16 5 5] at h
  simp only [Nat.reduceAdd] at h
  omega

end

/-! ## What the decoder builds from a field -/

/-- A register field that the type is wide enough for is the field's number. -/
theorem fin_val {k : Nat} [NeZero k] {w lo n : Nat} (h : 2 ^ n ≤ k) : (fin k w lo n).val = bits w lo n :=
  Nat.mod_eq_of_lt (Nat.lt_of_lt_of_le (bits_lt w lo n) h)

/-- The same for a field that was checked against the registers that exist. -/
theorem fin_val_of_lt {k : Nat} [NeZero k] {w lo n : Nat} (h : bits w lo n < k) : (fin k w lo n).val = bits w lo n :=
  Nat.mod_eq_of_lt h

/-- An immediate is the field's number. -/
theorem imm_toNat (w lo n : Nat) : (BitVec.ofNat n (bits w lo n)).toNat = bits w lo n := by
  simp [Nat.mod_eq_of_lt (bits_lt w lo n)]

/-- A remainder by two as a flag. -/
theorem mod_two_toNat (n : Nat) : (n % 2 == 1).toNat = n % 2 := by
  obtain h | h := Nat.mod_two_eq_zero_or_one n <;> simp [h]

/-- A one-bit field as a flag. -/
theorem flag_toNat (w lo : Nat) : (bits w lo 1 == 1).toNat = bits w lo 1 := mod_two_toNat _

/-- The second source of format V: its register and its S bit. -/
theorem vsrc_enc (w : Nat) : (vsrc w).enc = bits w 11 5 * 2048 + bits w 5 1 * 32 := by
  have hs := bits_lt w 5 1
  unfold vsrc
  split
  case isTrue h => simp [VSrc.enc, fin_val, h]
  case isFalse h => simp [VSrc.enc, fin_val, show bits w 5 1 = 0 by omega]

/-! Each code list is read back from its number, and from no other (R13, R16, R129). -/

theorem ldSize_ofNat? {n : Nat} {z : LdSize} : LdSize.ofNat? n = some z ↔ z.toNat = n := by
  constructor
  · intro h
    unfold LdSize.ofNat? at h
    split at h <;> cases h <;> rfl
  · rintro rfl
    cases z <;> rfl

theorem stSize_ofNat? {n : Nat} {z : StSize} : StSize.ofNat? n = some z ↔ z.toNat = n := by
  constructor
  · intro h
    unfold StSize.ofNat? at h
    split at h <;> cases h <;> rfl
  · rintro rfl
    cases z <;> rfl

theorem cond_ofNat? {n : Nat} {z : Cond} : Cond.ofNat? n = some z ↔ z.toNat = n := by
  constructor
  · intro h
    unfold Cond.ofNat? at h
    split at h <;> cases h <;> rfl
  · rintro rfl
    cases z <;> rfl

theorem sysReg_ofNat? {n : Nat} {z : SysReg} : SysReg.ofNat? n = some z ↔ z.toNat = n := by
  constructor
  · intro h
    unfold SysReg.ofNat? at h
    split at h <;> cases h <;> rfl
  · rintro rfl
    cases z <;> rfl

end Sys2Proof.Words
end

-- ==== Proofs: an accepted control word is the encoding of what it decodes to ====
section
/-!
The control half of DecodingIsExact (R11 to R18): each major's rows give back the word that they were read from.
-/
namespace Sys2Proof.Words

/-- An instruction whose word is `w`, no element operation. -/
def IsControlWord (w : Nat) (i : Instr) : Prop := i.elemWord? = none ∧ encode i = some w

/-- Whatever a decoding answers has the word `w`. -/
def Exact (w : Nat) (r : Except Reject Instr) : Prop := ∀ i, r = .ok i → IsControlWord w i

theorem exact_error {w : Nat} {r : Reject} : Exact w (.error r) ↔ True := by simp [Exact]

/-- A field that is checked may be used. -/
theorem exact_need {w : Nat} {b : Bool} {r : Reject} {x : Except Reject Instr} :
    Exact w (need b r x) ↔ (b = true → Exact w x) := by
  cases b <;> simp [Exact, need]

theorem exact_ok {w : Nat} {i : Instr} : Exact w (.ok i) ↔ IsControlWord w i := by simp [Exact]

/-- A row of a major: the encoder's word of its instruction is `w`. -/
theorem isControlWord_of_encode {w x : Nat} {i : Instr} (he : encode i = some x) (hn : i.elemWord? = none) (hx : x = w) :
    IsControlWord w i := ⟨hn, hx ▸ he⟩

variable {w : Nat}

/-- Format A (R11): arithmetic, indirect jumps, repeats, NOP. -/
theorem exact_scalarA (hw : w < 2 ^ 32) :
    (bits w 26 6 = 0x01 → Exact w (decMajor01 w)) ∧ (bits w 26 6 = 0x14 → Exact w (decMajor14 w)) ∧
    (bits w 26 6 = 0x17 → Exact w (decMajor17 w)) ∧ (bits w 26 6 = 0x19 → Exact w (decMajor19 w)) := by
  have hf := formatA_fields hw
  have h12 := bits_append w 8 6 6
  have h18 := bits_append w 8 12 6
  have h26 := bits_append w 0 8 18
  simp only [Nat.reduceAdd, Nat.reducePow] at h12 h18 h26
  simp only [decMajor01, decMajor14, decMajor17, decMajor19]
  and_intros
  all_goals intro hop; repeat' split
  all_goals simp only [exact_ok, exact_need, exact_error, beq_iff_eq]
  all_goals intros; refine isControlWord_of_encode rfl rfl (Eq.trans ?_ hf)
  all_goals simp only [hop, fin_val, imm_toNat, Nat.reducePow, Nat.reduceLeDiff]
  all_goals omega

/-- Format B (R11): an operation with a 14-bit immediate. -/
theorem exact_immediate (hw : w < 2 ^ 32) :
    (bits w 26 6 = 0x02 → Exact w (decMajor02 w)) ∧ (bits w 26 6 = 0x03 → Exact w (decMajor03 w)) ∧
    (bits w 26 6 = 0x04 → Exact w (decMajor04 w)) ∧ (bits w 26 6 = 0x05 → Exact w (decMajor05 w)) ∧
    (bits w 26 6 = 0x07 → Exact w (decMajor07 w)) ∧ (bits w 26 6 = 0x08 → Exact w (decMajor08 w)) ∧
    (bits w 26 6 = 0x0F → Exact w (decMajor0F w)) ∧ (bits w 26 6 = 0x10 → Exact w (decMajor10 w)) ∧
    (bits w 26 6 = 0x18 → Exact w (decMajor18 w)) := by
  have hf := formatB_fields hw
  simp only [decMajor02, decMajor03, decMajor04, decMajor05, decMajor07, decMajor08, decMajor0F, decMajor10, decMajor18]
  and_intros
  all_goals intro hop
  all_goals simp only [exact_ok, exact_need, beq_iff_eq]
  all_goals intros; refine isControlWord_of_encode rfl rfl (Eq.trans ?_ hf)
  all_goals simp only [hop, fin_val, imm_toNat, Nat.reducePow, Nat.reduceLeDiff]
  all_goals omega

/-- Format B with a shift's amount and kind in the immediate (R16). -/
theorem exact_shift (hw : w < 2 ^ 32) :
    (bits w 26 6 = 0x06 → Exact w (decMajor06 w)) := by
  have hf := formatB_fields hw
  have h12 := bits_append w 0 12 2
  have h6 := bits_append w 0 6 6
  simp only [Nat.reduceAdd, Nat.reducePow] at h12 h6
  simp only [decMajor06]
  intro hop; repeat' split
  all_goals simp only [exact_ok, exact_need, exact_error, beq_iff_eq]
  all_goals intros; refine isControlWord_of_encode rfl rfl (Eq.trans ?_ hf)
  all_goals simp only [hop, fin_val, imm_toNat, Nat.reducePow, Nat.reduceLeDiff]
  all_goals omega

/-- Formats C, J and L (R11): a 20-bit or 26-bit immediate, a loop's length and count. -/
theorem exact_wide (hw : w < 2 ^ 32) :
    (bits w 26 6 = 0x09 → Exact w (decMajor09 w)) ∧ (bits w 26 6 = 0x0A → Exact w (decMajor0A w)) ∧
    (bits w 26 6 = 0x12 → Exact w (decMajor12 w)) ∧ (bits w 26 6 = 0x13 → Exact w (decMajor13 w)) ∧
    (bits w 26 6 = 0x15 → Exact w (decMajor15 w)) ∧ (bits w 26 6 = 0x16 → Exact w (decMajor16 w)) := by
  have hf := opcode_fields hw
  have h20 := bits_append w 0 20 6
  have h25 := bits_append w 0 25 1
  have h19 := bits_append w 0 19 6
  have h10 := bits_append w 0 10 9
  have h15 := bits_append w 0 10 15
  have h1 := bits_append w 0 1 9
  simp only [Nat.reduceAdd, Nat.reducePow] at h20 h25 h19 h10 h15 h1
  simp only [decMajor09, decMajor0A, decMajor12, decMajor13, decMajor15, decMajor16]
  and_intros
  all_goals intro hop
  all_goals simp only [exact_ok, exact_need, beq_iff_eq]
  all_goals intros; refine isControlWord_of_encode rfl rfl (Eq.trans ?_ hf)
  all_goals simp only [hop, fin_val, imm_toNat, Nat.reducePow, Nat.reduceLeDiff]
  all_goals omega

/-- Format A (R18): the fabric's tasks and streams, copies, updates, atomics, barriers and locks. -/
theorem exact_fabric (hw : w < 2 ^ 32) :
    (bits w 26 6 = 0x30 → Exact w (decMajor30 w)) ∧ (bits w 26 6 = 0x31 → Exact w (decMajor31 w)) ∧
    (bits w 26 6 = 0x32 → Exact w (decMajor32 w)) ∧ (bits w 26 6 = 0x33 → Exact w (decMajor33 w)) ∧
    (bits w 26 6 = 0x34 → Exact w (decMajor34 w)) := by
  have hf := formatA_fields hw
  have h12 := bits_append w 8 6 6
  have h18 := bits_append w 8 12 6
  simp only [Nat.reduceAdd, Nat.reducePow] at h12 h18
  simp only [decMajor30, decMajor31, decMajor32, decMajor33, decMajor34]
  and_intros
  all_goals intro hop; repeat' split
  all_goals simp only [exact_ok, exact_need, exact_error, beq_iff_eq, decide_eq_true_eq]
  all_goals intros; refine isControlWord_of_encode rfl rfl (Eq.trans ?_ hf)
  all_goals simp (disch := omega) only [hop, fin_val, fin_val_of_lt]
  all_goals omega

/-- Formats A and A12 (R18): waits, continuations, fences, collectives, traps and traces. -/
theorem exact_system (hw : w < 2 ^ 32) :
    (bits w 26 6 = 0x35 → Exact w (decMajor35 w)) ∧ (bits w 26 6 = 0x36 → Exact w (decMajor36 w)) ∧
    (bits w 26 6 = 0x37 → Exact w (decMajor37 w)) ∧ (bits w 26 6 = 0x38 → Exact w (decMajor38 w)) ∧
    (bits w 26 6 = 0x3A → Exact w (decMajor3A w)) ∧ (bits w 26 6 = 0x3B → Exact w (decMajor3B w)) := by
  have hf := formatA_fields hw
  have h12 := bits_append w 8 6 6
  have h18 := bits_append w 8 12 6
  have h14 := bits_append w 14 6 6
  have h10 := bits_append w 8 2 4
  have h8 := bits_append w 8 1 1
  have h9 := bits_append w 8 2 1
  have h11 := bits_append w 8 3 1
  have h4 := bits_append w 8 4 2
  have h2 := bits_append w 12 2 12
  simp only [Nat.reduceAdd, Nat.reducePow] at h12 h18 h14 h10 h8 h9 h11 h4 h2
  simp only [decMajor35, decMajor36, decMajor37, decMajor38, decMajor3A, decMajor3B]
  and_intros
  all_goals intro hop; repeat' split
  all_goals simp only [exact_ok, exact_need, exact_error, beq_iff_eq]
  all_goals intros; refine isControlWord_of_encode rfl rfl (Eq.trans ?_ hf)
  all_goals simp only [hop, fin_val, imm_toNat, flag_toNat, Nat.reducePow, Nat.reduceLeDiff]
  all_goals omega

/-- Format V (R17): vector arithmetic. -/
theorem exact_vectorArith (hw : w < 2 ^ 32) :
    (bits w 26 6 = 0x20 → Exact w (decMajor20 w)) ∧ (bits w 26 6 = 0x21 → Exact w (decMajor21 w)) ∧
    (bits w 26 6 = 0x29 → Exact w (decMajor29 w)) := by
  have hf := formatV_fields hw
  have h7 := bits_append w 6 1 1
  simp only [Nat.reduceAdd, Nat.reducePow] at h7
  simp only [decMajor20, decMajor21, decMajor29]
  and_intros
  all_goals intro hop; repeat' split
  all_goals simp only [exact_ok, exact_need, exact_error, beq_iff_eq]
  all_goals intros; refine isControlWord_of_encode rfl rfl (Eq.trans ?_ hf)
  all_goals simp only [hop, fin_val, vsrc_enc, Nat.reducePow, Nat.reduceLeDiff]
  all_goals omega

/-- Format V (R17): vector comparisons, conversions, memory and permutations. -/
theorem exact_vectorMove (hw : w < 2 ^ 32) :
    (bits w 26 6 = 0x22 → Exact w (decMajor22 w)) ∧ (bits w 26 6 = 0x23 → Exact w (decMajor23 w)) ∧
    (bits w 26 6 = 0x24 → Exact w (decMajor24 w)) ∧ (bits w 26 6 = 0x25 → Exact w (decMajor25 w)) := by
  have hf := formatV_fields hw
  have h8 := bits_append w 0 5 3
  have h53 := bits_append w 5 1 2
  have h56 := bits_append w 5 3 3
  simp only [Nat.reduceAdd, Nat.reducePow] at h8 h53 h56
  simp only [decMajor22, decMajor23, decMajor24, decMajor25]
  and_intros
  all_goals intro hop; repeat' split
  all_goals simp only [exact_ok, exact_need, exact_error, beq_iff_eq, decide_eq_true_eq]
  all_goals intros; refine isControlWord_of_encode rfl rfl (Eq.trans ?_ hf)
  all_goals simp (disch := omega) only [hop, fin_val, fin_val_of_lt, vsrc_enc]
  all_goals omega

/-- Format V (R17): splats, masks and the pivot operations. -/
theorem exact_mask (hw : w < 2 ^ 32) :
    (bits w 26 6 = 0x26 → Exact w (decMajor26 w)) ∧ (bits w 26 6 = 0x27 → Exact w (decMajor27 w)) ∧
    (bits w 26 6 = 0x28 → Exact w (decMajor28 w)) := by
  have hf := formatV_fields hw
  have h53 := bits_append w 5 1 2
  have h56 := bits_append w 5 3 3
  have h511 := bits_append w 5 6 5
  have h516 := bits_append w 5 11 5
  have h1110 := bits_append w 11 5 5
  simp only [Nat.reduceAdd, Nat.reducePow] at h53 h56 h511 h516 h1110
  simp only [decMajor26, decMajor27, decMajor28]
  and_intros
  all_goals intro hop; repeat' split
  all_goals simp only [exact_ok, exact_need, exact_error, beq_iff_eq, decide_eq_true_eq]
  all_goals intros; refine isControlWord_of_encode rfl rfl (Eq.trans ?_ hf)
  all_goals simp (disch := omega) only [hop, fin_val, fin_val_of_lt, vsrc_enc]
  all_goals omega

/-- A size or condition code among the fields (R13, R16). -/
theorem exact_sized (hw : w < 2 ^ 32) :
    (bits w 26 6 = 0x0B → Exact w (decMajor0B w)) ∧ (bits w 26 6 = 0x0C → Exact w (decMajor0C w)) ∧
    (bits w 26 6 = 0x0D → Exact w (decMajor0D w)) ∧ (bits w 26 6 = 0x0E → Exact w (decMajor0E w)) ∧
    (bits w 26 6 = 0x11 → Exact w (decMajor11 w)) := by
  have hf := opcode_fields hw
  have h20 := bits_append w 0 20 6
  have h17 := bits_append w 0 17 3
  have h14 := bits_append w 0 14 6
  have h11 := bits_append w 0 11 3
  have h13 := bits_append w 11 2 1
  have h3 := bits_append w 0 3 5
  have h2 := bits_append w 0 2 6
  have h8 := bits_append w 0 8 6
  simp only [Nat.reduceAdd, Nat.reducePow] at h20 h17 h14 h11 h13 h3 h2 h8
  simp only [decMajor0B, decMajor0C, decMajor0D, decMajor0E, decMajor11]
  and_intros
  all_goals intro hop; split <;> simp only [exact_ok, exact_need, exact_error, beq_iff_eq, implies_true]
  all_goals rename_i hz; simp only [ldSize_ofNat?, stSize_ofNat?, cond_ofNat?] at hz
  all_goals intros; refine isControlWord_of_encode rfl rfl (Eq.trans ?_ hf)
  all_goals simp only [hop, hz, fin_val, imm_toNat, Nat.reducePow, Nat.reduceLeDiff]
  all_goals omega

/-- A system register's number among the fields (R129). -/
theorem exact_sysReg (hw : w < 2 ^ 32) (hop : bits w 26 6 = 0x39) : Exact w (decMajor39 w) := by
  have hf := formatA_fields hw
  have h12 := bits_append w 8 6 6
  simp only [Nat.reduceAdd, Nat.reducePow] at h12
  unfold decMajor39
  split
  case h_6 => exact exact_error.mpr trivial
  case h_5 =>
    simp only [exact_ok, exact_need, beq_iff_eq]
    intro hd
    refine isControlWord_of_encode rfl rfl (Eq.trans ?_ hf)
    simp only [hop, fin_val, Nat.reducePow, Nat.reduceLeDiff]
    omega
  all_goals split <;> simp only [exact_ok, exact_error]
  all_goals rename_i hz; refine isControlWord_of_encode rfl rfl (Eq.trans ?_ hf)
  all_goals simp only [hop, sysReg_ofNat?.mp hz, fin_val, Nat.reducePow, Nat.reduceLeDiff]
  all_goals omega

/-- Every major's rows are exact (R16 to R18). -/
theorem exact_decodeMajor (hw : w < 2 ^ 32) : Exact w (decodeMajor w) := by
  have h1 := exact_scalarA hw
  have h2 := exact_immediate hw
  have h3 := exact_shift hw
  have h4 := exact_wide hw
  have h5 := exact_fabric hw
  have h6 := exact_system hw
  have h7 := exact_vectorArith hw
  have h8 := exact_vectorMove hw
  have h9 := exact_mask hw
  have h10 := exact_sized hw
  have h11 := exact_sysReg hw
  unfold decodeMajor
  split
  all_goals simp only [exact_error, *]

/-- A word the hart's decoder accepts is the word of the well-formed instruction that it answers (R15). -/
theorem decodeControl_exact {i : Instr} (hw : w < 2 ^ 32) (h : decodeControl w = .ok i) :
    wellFormed i = true ∧ i.isElement = false ∧ encode i = some w := by
  unfold decodeControl at h
  split at h
  case isTrue => cases h
  case isFalse =>
    split at h
    case h_2 => cases h
    case h_1 j hj =>
      split at h
      case isFalse => cases h
      case isTrue hwf =>
        cases h
        obtain ⟨hn, he⟩ := exact_decodeMajor hw i hj
        exact ⟨by simp [wellFormed, hwf, hn], by simp [Instr.isElement, hn], he⟩

end Sys2Proof.Words
end

-- ==== Proofs: element operation words ====
section
/-!
Element operation words (R21 to R25): the fields of a word that the loader's checks accept are those of the operation it decodes to.
-/
namespace Sys2Proof.Words

/-- No flaw is found: the check holds, and the checks after it find none. -/
theorem chk_eq_none {b : Bool} {f : ElemFlaw} {rest : Option ElemFlaw} :
    ElemFlaw.chk b f rest = none ↔ b = true ∧ rest = none := by
  cases b <;> simp [ElemFlaw.chk]

/-- A word is the word of its fields (R21). -/
theorem toNat_ofNat {w : Nat} (hw : w < 2 ^ 32) : (ElemWord.ofNat w).toNat = w := by
  have h := opcode_fields hw
  rw [bits_append w 0 8 18, bits_append w 8 4 14, bits_append w 12 4 10, bits_append w 16 4 6, bits_append w 20 4 2] at h
  simp only [Nat.reduceAdd, Nat.reducePow] at h
  simp only [ElemWord.toNat, ElemWord.ofNat, Nat.reducePow]
  omega

/-- Only an element operation has element fields, and they make up its word. -/
theorem encode_of_elemWord? {i : Instr} {e : ElemWord} (h : i.elemWord? = some e) : encode i = some e.toNat := by
  cases i <;> cases h <;> rfl

/-- No control rule speaks of an element operation. -/
theorem controlWf_of_elemWord? {i : Instr} {e : ElemWord} (h : i.elemWord? = some e) : controlWf i = true := by
  cases i <;> cases h <;> rfl

/-- A part of the mode field. -/
theorem bits_mode {w lo n : Nat} (h : lo + n ≤ 8) (_ : n < 8) : bits w lo n = bits w 0 8 / 2 ^ lo % 2 ^ n := by
  obtain ⟨k, hk⟩ := Nat.exists_eq_add_of_le h
  have h1 := bits_append w 0 lo (n + k)
  have h2 := bits_append w lo n k
  rw [← Nat.add_assoc, ← hk, Nat.zero_add, h2] at h1
  rw [h1, Nat.add_mul_div_left _ _ (Nat.two_pow_pos lo), Nat.div_eq_of_lt (bits_lt w 0 lo), Nat.zero_add, Nat.add_mul_mod_self_left,
    Nat.mod_eq_of_lt (bits_lt w lo n)]

/-- The second half of the operation table (R22): the checks leave no bit of the word outside the operation's fields. -/
theorem elemWord?_of_decodeEopB {w : Nat} {i : Instr} (hf : (ElemWord.ofNat w).flaw = none) (h : decodeEopB w = some i) :
    i.elemWord? = some (ElemWord.ofNat w) := by
  have hm := bits_lt w 0 8
  unfold decodeEopB at h
  split at h
  all_goals rename_i heop; cases h
  all_goals
    simp only [ElemWord.flaw, ElemWord.ofNat, heop, chk_eq_none, ElemWord.modeBit, Bool.or_eq_true, beq_iff_eq, bne_iff_ne,
      and_true] at hf
  all_goals refine congrArg some ?_
  all_goals
    simp only [ElemWord.ofNat, ElemWord.mk.injEq, heop, fin_val, bits_mode, mod_two_toNat, Nat.reducePow, Nat.reduceAdd,
      Nat.reduceLeDiff, Nat.reduceLT, true_and]
  all_goals omega

/-- The first half of the operation table (R22), in the same way. -/
theorem elemWord?_of_decodeEopA {w : Nat} {i : Instr} (hf : (ElemWord.ofNat w).flaw = none) (h : decodeEopA w = some i) :
    i.elemWord? = some (ElemWord.ofNat w) := by
  have hm := bits_lt w 0 8
  unfold decodeEopA at h
  split at h
  all_goals rename_i heop; cases h
  all_goals
    simp only [ElemWord.flaw, ElemWord.ofNat, heop, chk_eq_none, ElemWord.form, ElemWord.modeBit, Bool.and_eq_true, Bool.or_eq_true,
      beq_iff_eq, bne_iff_ne, Bool.not_eq_true', beq_eq_false_iff_ne, and_true] at hf
  all_goals refine congrArg some ?_
  all_goals
    simp only [ElemWord.ofNat, ElemWord.mk.injEq, heop, fin_val, bits_mode, mod_two_toNat, Nat.reducePow, Nat.reduceAdd,
      Nat.reduceLeDiff, Nat.reduceLT, true_and, and_true]
  all_goals omega

/-- What the loader accepts holds an operation of the table, and no check finds a flaw (R23). -/
theorem decodeElement_eq_ok {w : Nat} {i : Instr} :
    decodeElement w = .ok i ↔
      (ElemWord.ofNat w).flaw = none ∧ (decodeEopA w = some i ∨ decodeEopA w = none ∧ decodeEopB w = some i) := by
  unfold decodeElement
  cases (ElemWord.ofNat w).flaw with
  | some f => simp
  | none =>
    cases decodeEopA w with
    | some j => simp
    | none => cases decodeEopB w <;> simp

/-- A word the slot decoder accepts is the word of the well-formed operation that it answers (R23). -/
theorem decodeElement_exact {w : Nat} {i : Instr} (hw : w < 2 ^ 32) (h : decodeElement w = .ok i) :
    wellFormed i = true ∧ i.isElement = true ∧ encode i = some w := by
  obtain ⟨hf, hi⟩ := decodeElement_eq_ok.mp h
  have he : i.elemWord? = some (ElemWord.ofNat w) := by
    rcases hi with hi | ⟨-, hi⟩
    · exact elemWord?_of_decodeEopA hf hi
    · exact elemWord?_of_decodeEopB hf hi
  refine ⟨by simp [wellFormed, he, hf, controlWf_of_elemWord? he], by simp [Instr.isElement, he], ?_⟩
  rw [encode_of_elemWord? he, toNat_ofNat hw]

end Sys2Proof.Words
end

-- ==== Proofs: the fields of an encoded word ====
section
/-!
Reading back the fields of a word that the encoder laid out (R11), format by format. `base` holds the opcode and the function code.
-/
namespace Sys2Proof.Words

/-- A register's number is below any bound that its file does not exceed. -/
theorem val_lt_of_le {k n : Nat} (x : Fin k) (h : k ≤ n) : x.val < n := Nat.lt_of_lt_of_le x.isLt h

/-- A field that was read as a register's number is that register. -/
theorem fin_eq {k : Nat} [NeZero k] {w lo n : Nat} {x : Fin k} (h : bits w lo n = x.val) : fin k w lo n = x := by
  simp [fin, h]

/-! ## Format A: op d a b fn -/

/-- The word of format A. -/
def wordA (base d a b : Nat) : Nat := base + d * 1048576 + a * 16384 + b * 256

section
variable {base d a b : Nat}

@[simp] theorem wordA_op (h : base % 67108864 < 256) (hd : d < 64) (ha : a < 64) (hb : b < 64) :
    bits (wordA base d a b) 26 6 = base / 67108864 % 64 := by unfold bits wordA; omega
@[simp] theorem wordA_d (h : base % 67108864 < 256) (hd : d < 64) (ha : a < 64) (hb : b < 64) :
    bits (wordA base d a b) 20 6 = d := by unfold bits wordA; omega
@[simp] theorem wordA_a (h : base % 67108864 < 256) (ha : a < 64) (hb : b < 64) : bits (wordA base d a b) 14 6 = a := by
  unfold bits wordA; omega
@[simp] theorem wordA_b (h : base % 67108864 < 256) (hb : b < 64) : bits (wordA base d a b) 8 6 = b := by
  unfold bits wordA; omega
@[simp] theorem wordA_fn : bits (wordA base d a b) 0 8 = base % 256 := by unfold bits wordA; omega

end

/-! ## Format A12: op d imm12 fn -/

/-- The word of format A12. -/
def wordN (base d n : Nat) : Nat := base + d * 1048576 + n * 256

section
variable {base d n : Nat}

@[simp] theorem wordN_op (h : base % 67108864 < 256) (hd : d < 64) (hn : n < 4096) :
    bits (wordN base d n) 26 6 = base / 67108864 % 64 := by unfold bits wordN; omega
@[simp] theorem wordN_d (h : base % 67108864 < 256) (hd : d < 64) (hn : n < 4096) : bits (wordN base d n) 20 6 = d := by
  unfold bits wordN; omega
@[simp] theorem wordN_n (h : base % 67108864 < 256) (hn : n < 4096) : bits (wordN base d n) 8 12 = n := by
  unfold bits wordN; omega
@[simp] theorem wordN_fn : bits (wordN base d n) 0 8 = base % 256 := by unfold bits wordN; omega

end

/-! ## Format B: op d a imm14 -/

/-- The word of format B. -/
def wordB (base d a n : Nat) : Nat := base + d * 1048576 + a * 16384 + n

section
variable {base d a n : Nat}

@[simp] theorem wordB_op (h : base % 67108864 = 0) (hd : d < 64) (ha : a < 64) (hn : n < 16384) :
    bits (wordB base d a n) 26 6 = base / 67108864 % 64 := by unfold bits wordB; omega
@[simp] theorem wordB_d (h : base % 67108864 = 0) (hd : d < 64) (ha : a < 64) (hn : n < 16384) :
    bits (wordB base d a n) 20 6 = d := by unfold bits wordB; omega
@[simp] theorem wordB_a (h : base % 67108864 = 0) (ha : a < 64) (hn : n < 16384) : bits (wordB base d a n) 14 6 = a := by
  unfold bits wordB; omega
@[simp] theorem wordB_n (h : base % 67108864 = 0) (hn : n < 16384) : bits (wordB base d a n) 0 14 = n := by
  unfold bits wordB; omega

end

/-! ## Format V: op vd va vb m ew S fn -/

/-- The word of format V; the S bit stands in `base`. -/
def wordV (base d a b m e : Nat) : Nat := base + d * 2097152 + a * 65536 + b * 2048 + m * 256 + e * 64

section
variable {base d a b m e : Nat}

@[simp] theorem wordV_op (h : base % 67108864 < 64) (hd : d < 32) (ha : a < 32) (hb : b < 32) (hm : m < 8) (he : e < 4) :
    bits (wordV base d a b m e) 26 6 = base / 67108864 % 64 := by unfold bits wordV; omega
@[simp] theorem wordV_d (h : base % 67108864 < 64) (hd : d < 32) (ha : a < 32) (hb : b < 32) (hm : m < 8) (he : e < 4) :
    bits (wordV base d a b m e) 21 5 = d := by unfold bits wordV; omega
@[simp] theorem wordV_a (h : base % 67108864 < 64) (ha : a < 32) (hb : b < 32) (hm : m < 8) (he : e < 4) :
    bits (wordV base d a b m e) 16 5 = a := by unfold bits wordV; omega
@[simp] theorem wordV_b (h : base % 67108864 < 64) (hb : b < 32) (hm : m < 8) (he : e < 4) :
    bits (wordV base d a b m e) 11 5 = b := by unfold bits wordV; omega
@[simp] theorem wordV_m (h : base % 67108864 < 64) (hm : m < 8) (he : e < 4) : bits (wordV base d a b m e) 8 3 = m := by
  unfold bits wordV; omega
@[simp] theorem wordV_e (h : base % 67108864 < 64) (he : e < 4) : bits (wordV base d a b m e) 6 2 = e := by
  unfold bits wordV; omega
@[simp] theorem wordV_s : bits (wordV base d a b m e) 5 1 = base / 32 % 2 := by unfold bits wordV; omega
@[simp] theorem wordV_fn : bits (wordV base d a b m e) 0 5 = base % 32 := by unfold bits wordV; omega

end

/-- The register and the S bit of a second source (R11, R12). -/
def srcReg : VSrc → Fin 32
  | .v r => r
  | .s r => r
def srcBit : VSrc → Nat
  | .v _ => 0
  | .s _ => 1

/-- The word of format V with a second source. -/
def wordS (base d a : Nat) (b : VSrc) (m e : Nat) : Nat := base + d * 2097152 + a * 65536 + b.enc + m * 256 + e * 64

theorem wordS_eq_wordV (base d a : Nat) (b : VSrc) (m e : Nat) :
    wordS base d a b m e = wordV (base + srcBit b * 32) d a (srcReg b) m e := by
  cases b <;> simp only [wordS, wordV, VSrc.enc, srcBit, srcReg] <;> omega

section
variable {base d a m e : Nat} {b : VSrc}

theorem srcBit_lt (b : VSrc) : srcBit b < 2 := by cases b <;> simp [srcBit]

@[simp] theorem wordS_op (h : base % 67108864 < 32) (hd : d < 32) (ha : a < 32) (hm : m < 8) (he : e < 4) :
    bits (wordS base d a b m e) 26 6 = base / 67108864 % 64 := by
  have := srcBit_lt b
  rw [wordS_eq_wordV, wordV_op (by omega) hd ha (srcReg b).isLt hm he]; omega
@[simp] theorem wordS_d (h : base % 67108864 < 32) (hd : d < 32) (ha : a < 32) (hm : m < 8) (he : e < 4) :
    bits (wordS base d a b m e) 21 5 = d := by
  have := srcBit_lt b
  rw [wordS_eq_wordV, wordV_d (by omega) hd ha (srcReg b).isLt hm he]
@[simp] theorem wordS_a (h : base % 67108864 < 32) (ha : a < 32) (hm : m < 8) (he : e < 4) :
    bits (wordS base d a b m e) 16 5 = a := by
  have := srcBit_lt b
  rw [wordS_eq_wordV, wordV_a (by omega) ha (srcReg b).isLt hm he]
@[simp] theorem wordS_m (h : base % 67108864 < 32) (hm : m < 8) (he : e < 4) : bits (wordS base d a b m e) 8 3 = m := by
  have := srcBit_lt b
  rw [wordS_eq_wordV, wordV_m (by omega) hm he]
@[simp] theorem wordS_e (h : base % 67108864 < 32) (he : e < 4) : bits (wordS base d a b m e) 6 2 = e := by
  have := srcBit_lt b
  rw [wordS_eq_wordV, wordV_e (by omega) he]
@[simp] theorem wordS_fn : bits (wordS base d a b m e) 0 5 = base % 32 := by
  rw [wordS_eq_wordV, wordV_fn]; omega
@[simp] theorem wordS_src (h : base % 67108864 < 32) (hm : m < 8) (he : e < 4) : vsrc (wordS base d a b m e) = b := by
  have hs := srcBit_lt b
  have hb : fin 32 (wordS base d a b m e) 11 5 = srcReg b :=
    fin_eq (by rw [wordS_eq_wordV, wordV_b (by omega) (srcReg b).isLt hm he])
  have h5 : bits (wordS base d a b m e) 5 1 = srcBit b := by
    rw [wordS_eq_wordV, wordV_s]; omega
  unfold vsrc
  rw [h5, hb]
  cases b <;> rfl

end
end Sys2Proof.Words
end

-- ==== Proofs: a control instruction decodes from its own word ====
section
/-!
The control half of EncodingRoundTrip (R11 to R18), one lemma for each set of operands: its rows differ in opcode and function code alone.
-/
namespace Sys2Proof.Words

/-- What EncodingRoundTrip says of one instruction. -/
def RoundTrip (i : Instr) : Prop :=
  ∀ w, wellFormed i = true → encode i = some w →
    w < 2 ^ 32 ∧ if i.isElement then decodeElement w = .ok i else decodeControl w = .ok i

/-- A control instruction whose word its major reads back. -/
theorem roundTrip_of_decodeMajor {i : Instr} {w : Nat} (he : encode i = some w) (hn : i.elemWord? = none) (h0 : w ≠ 0)
    (hw : w < 2 ^ 32) (hd : decodeMajor w = .ok i) : RoundTrip i := by
  intro w' hwf he'
  obtain rfl : w = w' := Option.some.inj (he.symm.trans he')
  have hc : controlWf i = true := by simpa [wellFormed, hn] using hwf
  exact ⟨hw, by simp [Instr.isElement, hn, decodeControl, h0, hd, hc]⟩

/-- The encoder's word in another form. -/
theorem encode_eq {i : Instr} {x y : Nat} (he : encode i = some x) (h : x = y) : encode i = some y := h ▸ he

section
variable {i : Instr} {base d a b m e n : Nat}

theorem roundTrip_wordA (he : encode i = some (wordA base d a b)) (hn : i.elemWord? = none)
    (hb : 0 < base ∧ base < 2 ^ 32 ∧ base % 2 ^ 26 < 256) (ho : d < 64 ∧ a < 64 ∧ b < 64)
    (hd : decodeMajor (wordA base d a b) = .ok i) : RoundTrip i :=
  roundTrip_of_decodeMajor he hn (by unfold wordA; omega) (by unfold wordA; omega) hd

theorem roundTrip_wordN (he : encode i = some (wordN base d n)) (hn : i.elemWord? = none)
    (hb : 0 < base ∧ base < 2 ^ 32 ∧ base % 2 ^ 26 < 256) (ho : d < 64 ∧ n < 4096)
    (hd : decodeMajor (wordN base d n) = .ok i) : RoundTrip i :=
  roundTrip_of_decodeMajor he hn (by unfold wordN; omega) (by unfold wordN; omega) hd

theorem roundTrip_wordB (he : encode i = some (wordB base d a n)) (hn : i.elemWord? = none)
    (hb : 0 < base ∧ base < 2 ^ 32 ∧ base % 2 ^ 26 = 0) (ho : d < 64 ∧ a < 64 ∧ n < 16384)
    (hd : decodeMajor (wordB base d a n) = .ok i) : RoundTrip i :=
  roundTrip_of_decodeMajor he hn (by unfold wordB; omega) (by unfold wordB; omega) hd

theorem roundTrip_wordV (he : encode i = some (wordV base d a b m e)) (hn : i.elemWord? = none)
    (hb : 0 < base ∧ base < 2 ^ 32 ∧ base % 2 ^ 26 < 64) (ho : d < 32 ∧ a < 32 ∧ b < 32 ∧ m < 8 ∧ e < 4)
    (hd : decodeMajor (wordV base d a b m e) = .ok i) : RoundTrip i :=
  roundTrip_of_decodeMajor he hn (by unfold wordV; omega) (by unfold wordV; omega) hd

theorem roundTrip_wordS {b : VSrc} (he : encode i = some (wordS base d a b m e)) (hn : i.elemWord? = none)
    (hb : 0 < base ∧ base < 2 ^ 32 ∧ base % 2 ^ 26 < 32) (ho : d < 32 ∧ a < 32 ∧ m < 8 ∧ e < 4)
    (hd : decodeMajor (wordS base d a b m e) = .ok i) : RoundTrip i := by
  have h := srcBit_lt b
  have hr := (srcReg b).isLt
  refine roundTrip_of_decodeMajor he hn ?_ ?_ hd <;> rw [wordS_eq_wordV] <;> unfold wordV <;> omega

end

/-! Fields that a check reads as one. -/

/-- A system register is read back from its number. -/
theorem sysReg_ofNat?_toNat (n : SysReg) : SysReg.ofNat? n.toNat = some n := sysReg_ofNat?.mpr rfl

theorem bits_8_12 (w : Nat) : bits w 8 12 = bits w 8 6 + 64 * bits w 14 6 := bits_append w 8 6 6
theorem bits_5_3 (w : Nat) : bits w 5 3 = bits w 5 1 + 2 * bits w 6 2 := bits_append w 5 1 2
theorem bits_5_6 (w : Nat) : bits w 5 6 = bits w 5 1 + 2 * bits w 6 2 + 8 * bits w 8 3 := by
  rw [← bits_5_3]; exact bits_append w 5 3 3
theorem bits_5_11 (w : Nat) : bits w 5 11 = bits w 5 6 + 64 * bits w 11 5 := bits_append w 5 6 5
theorem bits_5_16 (w : Nat) : bits w 5 16 = bits w 5 11 + 2048 * bits w 16 5 := bits_append w 5 11 5
theorem bits_11_10 (w : Nat) : bits w 11 10 = bits w 11 5 + 32 * bits w 16 5 := bits_append w 11 5 5
theorem bits_0_8 (w : Nat) : bits w 0 8 = bits w 0 5 + 32 * bits w 5 3 := bits_append w 0 5 3

/-- Major 0x01, three registers (R36 to R38). -/
@[simp] theorem roundTrip_alu (d a b : SReg) :
    RoundTrip (.add d a b) ∧ RoundTrip (.sub d a b) ∧ RoundTrip (.and d a b) ∧ RoundTrip (.or d a b) ∧
    RoundTrip (.xor d a b) ∧ RoundTrip (.andn d a b) ∧ RoundTrip (.shl d a b) ∧ RoundTrip (.shr d a b) ∧
    RoundTrip (.sra d a b) ∧ RoundTrip (.ror d a b) ∧ RoundTrip (.mul d a b) ∧ RoundTrip (.mulh d a b) ∧
    RoundTrip (.mulhz d a b) ∧ RoundTrip (.div d a b) ∧ RoundTrip (.divz d a b) ∧ RoundTrip (.rem d a b) ∧
    RoundTrip (.remz d a b) ∧ RoundTrip (.min d a b) ∧ RoundTrip (.max d a b) ∧ RoundTrip (.minz d a b) ∧
    RoundTrip (.maxz d a b) ∧ RoundTrip (.slt d a b) ∧ RoundTrip (.sltz d a b) ∧ RoundTrip (.seq d a b) ∧
    RoundTrip (.bext d a b) ∧ RoundTrip (.bins d a b) ∧ RoundTrip (.selnz d a b) := by
  and_intros <;>
    exact roundTrip_wordA rfl rfl (by decide) (by omega)
      (by simp [decodeMajor, decMajor01, fin])

/-- Three registers in the majors from 0x30 on (R18). -/
@[simp] theorem roundTrip_three (d a b : SReg) :
    RoundTrip (.fload d a b) ∧ RoundTrip (.cpwait d a b) ∧ RoundTrip (.cas d a b) ∧ RoundTrip (.dcas d a b) ∧
    RoundTrip (.amove d a b) ∧ RoundTrip (.swap d a b) ∧ RoundTrip (.binit d a b) ∧ RoundTrip (.bwait d a b) ∧
    RoundTrip (.badj d a b) ∧ RoundTrip (.wwait d a b) ∧ RoundTrip (.spawn d a b) ∧ RoundTrip (.launch d a b) ∧
    RoundTrip (.memb d a b) ∧ RoundTrip (.wpset d a b) := by
  and_intros <;>
    exact roundTrip_wordA rfl rfl (by decide) (by omega)
      (by simp [decodeMajor, decMajor30, decMajor31, decMajor33, decMajor34, decMajor35, decMajor36, decMajor38, decMajor3B, fin])

/-- A result and one source: the third field is not used. -/
@[simp] theorem roundTrip_two (d a : SReg) :
    RoundTrip (.clz d a) ∧ RoundTrip (.ctz d a) ∧ RoundTrip (.popc d a) ∧ RoundTrip (.rep d a) ∧ RoundTrip (.fstat d a) ∧
    RoundTrip (.cpy d a) ∧ RoundTrip (.cpwp d a) ∧ RoundTrip (.gath d a) ∧ RoundTrip (.uregion d a) ∧
    RoundTrip (.ustat d a) ∧ RoundTrip (.ldaq d a) ∧ RoundTrip (.barr d a) ∧ RoundTrip (.barw d a) ∧
    RoundTrip (.lkacq d a) ∧ RoundTrip (.lktry d a) ∧ RoundTrip (.wquery d a) ∧ RoundTrip (.wcycle d a) ∧
    RoundTrip (.join d a) ∧ RoundTrip (.prio d a) ∧ RoundTrip (.drainw d a) ∧ RoundTrip (.colls d a) ∧
    RoundTrip (.collw d a) ∧ RoundTrip (.collst d a) := by
  and_intros <;>
    exact roundTrip_wordA (b := 0) rfl rfl (by decide) (by omega)
      (by simp [decodeMajor, decMajor01, decMajor17, decMajor30, decMajor31, decMajor32, decMajor33, decMajor34,
        decMajor35, decMajor36, decMajor37, decMajor38, need, fin])

/-- Two sources and no result. -/
@[simp] theorem roundTrip_sources (a b : SReg) :
    RoundTrip (.farm a b) ∧ RoundTrip (.fsel a b) ∧ RoundTrip (.fckpt a b) ∧ RoundTrip (.cpcode a b) ∧
    RoundTrip (.upd a b) ∧ RoundTrip (.uapply a b) ∧ RoundTrip (.strl a b) ∧ RoundTrip (.wobj a b) ∧
    RoundTrip (.estim a b) ∧ RoundTrip (.xlinv a b) := by
  and_intros <;>
    exact roundTrip_wordA (d := 0) rfl rfl (by decide) (by omega)
      (by simp [decodeMajor, decMajor30, decMajor31, decMajor32, decMajor33, decMajor35, decMajor36, decMajor39, need, fin])

/-- One source and no result. -/
@[simp] theorem roundTrip_source (a : SReg) :
    RoundTrip (.jr a) ∧ RoundTrip (.callr a) ∧ RoundTrip (.fkill a) ∧ RoundTrip (.fdrain a) ∧ RoundTrip (.cpcan a) ∧
    RoundTrip (.ufence a) ∧ RoundTrip (.ufree a) ∧ RoundTrip (.babort a) ∧ RoundTrip (.lkrel a) ∧ RoundTrip (.whold a) ∧
    RoundTrip (.wdrop a) ∧ RoundTrip (.collabt a) ∧ RoundTrip (.wpclr a) := by
  and_intros <;>
    exact roundTrip_wordA (d := 0) (b := 0) rfl rfl (by decide) (by omega)
      (by simp [decodeMajor, decMajor14, decMajor30, decMajor31, decMajor32, decMajor34, decMajor35, decMajor38, decMajor3B, need, fin])

/-- A stream handle in the first field. -/
@[simp] theorem roundTrip_bind (d : QReg) (a b : SReg) :
    RoundTrip (.fbind d a b) ∧ RoundTrip (.qpush d a b) := by
  and_intros <;>
    exact roundTrip_wordA rfl rfl (by decide) (by omega)
      (by simp [decodeMajor, decMajor30, need, fin, val_lt_of_le])

/-- A stream handle in the second field. -/
@[simp] theorem roundTrip_qpop (d : SReg) (a : QReg) (b : SReg) :
    RoundTrip (.qpop d a b) :=
  roundTrip_wordA rfl rfl (by decide) (by omega)
    (by simp [decodeMajor, decMajor30, need, fin, val_lt_of_le])

/-- A stream handle and one source. -/
@[simp] theorem roundTrip_qstop (d : QReg) (a : SReg) :
    RoundTrip (.qstop d a) :=
  roundTrip_wordA (b := 0) rfl rfl (by decide) (by omega)
    (by simp [decodeMajor, decMajor30, need, fin, val_lt_of_le])

/-- A stream handle alone. -/
@[simp] theorem roundTrip_qdone (d : QReg) :
    RoundTrip (.qdone d) :=
  roundTrip_wordA (base := 0xC000000B) (d := d) (a := 0) (b := 0) (encode_eq rfl (by unfold wordA; omega)) rfl (by decide) (by omega)
    (by simp [decodeMajor, decMajor30, need, fin, val_lt_of_le, bits_8_12])

/-- A result alone. -/
@[simp] theorem roundTrip_self (d : SReg) :
    RoundTrip (.self d) :=
  roundTrip_wordA (base := 0xD8000007) (d := d) (a := 0) (b := 0) (encode_eq rfl (by unfold wordA; omega)) rfl (by decide) (by omega)
    (by simp [decodeMajor, decMajor36, need, fin, bits_8_12])

/-- No operand at all: one word each. -/
@[simp] theorem roundTrip_bare :
    RoundTrip (.ret) ∧ RoundTrip (.nop) ∧ RoundTrip (.yield) ∧ RoundTrip (.exit) ∧ RoundTrip (.tret) ∧ RoundTrip (.bkpt) ∧
    RoundTrip (.halt) ∧ RoundTrip (.trcon) ∧ RoundTrip (.trcoff) := by
  and_intros <;> exact roundTrip_of_decodeMajor rfl rfl (by decide) (by decide) rfl

/-- A system register by its number (R129). -/
@[simp] theorem roundTrip_sysReg (d : SReg) (n : SysReg) :
    RoundTrip (.sysr d n) ∧ RoundTrip (.sysw d n) ∧ RoundTrip (.sysset d n) ∧ RoundTrip (.sysclr d n) := by
  and_intros <;>
    exact roundTrip_wordN rfl rfl (by decide) (by simp [Laws.Encoding.sysReg])
      (by simp [decodeMajor, decMajor39, fin, Laws.Encoding.sysReg, sysReg_ofNat?_toNat])

/-- A result and a 12-bit immediate. -/
@[simp] theorem roundTrip_imm12 (d : SReg) (n : BitVec 12) :
    RoundTrip (.repi d n) ∧ RoundTrip (.trcmark d n) := by
  and_intros <;>
    exact roundTrip_wordN rfl rfl (by decide) (by omega)
      (by simp [decodeMajor, decMajor17, decMajor3B, fin, n.isLt])

/-- A 12-bit immediate alone (R132). -/
@[simp] theorem roundTrip_trap (n : BitVec 12) :
    RoundTrip (.trap n) :=
  roundTrip_wordN (d := 0) rfl rfl (by decide) (by omega)
    (by simp [decodeMajor, decMajor3A, need, n.isLt])

/-- A 14-bit immediate (R39, R44, R56). -/
@[simp] theorem roundTrip_immediate (d a : SReg) (i : BitVec 14) :
    RoundTrip (.addi d a i) ∧ RoundTrip (.andi d a i) ∧ RoundTrip (.ori d a i) ∧ RoundTrip (.xori d a i) ∧
    RoundTrip (.slti d a i) ∧ RoundTrip (.sltzi d a i) ∧ RoundTrip (.lea d a i) ∧ RoundTrip (.jtab d a i) := by
  and_intros <;>
    exact roundTrip_wordB rfl rfl (by decide) (by omega)
      (by simp [decodeMajor, decMajor02, decMajor03, decMajor04, decMajor05, decMajor07, decMajor08, decMajor0F, decMajor18, fin, i.isLt])

/-- A 14-bit immediate without a result (R45). -/
@[simp] theorem roundTrip_pfch (a : SReg) (i : BitVec 14) :
    RoundTrip (.pfch a i) :=
  roundTrip_wordB (d := 0) rfl rfl (by decide) (by omega)
    (by simp [decodeMajor, decMajor10, need, fin, i.isLt])

/-- Vector arithmetic with a second source (R66, R67). -/
@[simp] theorem roundTrip_vector (d a : Fin 32) (b : VSrc) (m : MReg) (e : Fin 4) :
    RoundTrip (.vadd d a b m e) ∧ RoundTrip (.vsub d a b m e) ∧ RoundTrip (.vmul d a b m e) ∧ RoundTrip (.vmulh d a b m e) ∧
    RoundTrip (.vmin d a b m e) ∧ RoundTrip (.vmax d a b m e) ∧ RoundTrip (.vminz d a b m e) ∧
    RoundTrip (.vmaxz d a b m e) ∧ RoundTrip (.vand d a b m e) ∧ RoundTrip (.vor d a b m e) ∧ RoundTrip (.vxor d a b m e) ∧
    RoundTrip (.vshl d a b m e) ∧ RoundTrip (.vshr d a b m e) ∧ RoundTrip (.vsra d a b m e) ∧ RoundTrip (.vadds d a b m e) ∧
    RoundTrip (.vsubs d a b m e) ∧ RoundTrip (.vfadd d a b m e) ∧ RoundTrip (.vfsub d a b m e) ∧
    RoundTrip (.vfmul d a b m e) ∧ RoundTrip (.vfma d a b m e) ∧ RoundTrip (.vfnma d a b m e) ∧
    RoundTrip (.vfmin d a b m e) ∧ RoundTrip (.vfmax d a b m e) ∧ RoundTrip (.vfdiv d a b m e) ∧
    RoundTrip (.vmrg d a b m e) ∧ RoundTrip (.vfman d a b m e) := by
  and_intros <;>
    exact roundTrip_wordS rfl rfl (by decide) (by omega)
      (by simp [decodeMajor, decMajor20, decMajor21, decMajor25, decMajor28, fin])

/-- Vector comparisons, to a mask (R68). -/
@[simp] theorem roundTrip_compare (d : MReg) (a : Fin 32) (b : VSrc) (m : MReg) (e : Fin 4) :
    RoundTrip (.vceq d a b m e) ∧ RoundTrip (.vclt d a b m e) ∧ RoundTrip (.vcltz d a b m e) ∧ RoundTrip (.vcle d a b m e) ∧
    RoundTrip (.vfceq d a b m e) ∧ RoundTrip (.vfclt d a b m e) ∧ RoundTrip (.vfcle d a b m e) ∧ RoundTrip (.vfcun d a b m e) := by
  and_intros <;>
    exact roundTrip_wordS rfl rfl (by decide) (by omega)
      (by simp [decodeMajor, decMajor22, need, fin, val_lt_of_le])

/-- One vector source. -/
@[simp] theorem roundTrip_vectorOne (d a : Fin 32) (m : MReg) (e : Fin 4) :
    RoundTrip (.vfabs d a m e) ∧ RoundTrip (.vfneg d a m e) ∧ RoundTrip (.vfsqrt d a m e) ∧ RoundTrip (.vfrsq d a m e) ∧
    RoundTrip (.vfexp2 d a m e) ∧ RoundTrip (.vflog2 d a m e) ∧ RoundTrip (.vld d a m e) ∧ RoundTrip (.vst d a m e) ∧
    RoundTrip (.vldb d a m e) ∧ RoundTrip (.vreda d a m e) ∧ RoundTrip (.vredx d a m e) ∧ RoundTrip (.vredn d a m e) ∧
    RoundTrip (.vfreda d a m e) ∧ RoundTrip (.vcmpr d a m e) ∧ RoundTrip (.vexpd d a m e) := by
  and_intros <;>
    exact roundTrip_wordV (b := 0) rfl rfl (by decide) (by omega)
      (by simp [decodeMajor, decMajor21, decMajor24, decMajor25, need, fin])

/-- Two fields for sources, the S bit fixed. -/
@[simp] theorem roundTrip_vectorTwo (d a b : Fin 32) (m : MReg) (e : Fin 4) :
    RoundTrip (.vlds d a b m e) ∧ RoundTrip (.vsts d a b m e) ∧ RoundTrip (.vgth d a b m e) ∧ RoundTrip (.vsct d a b m e) ∧
    RoundTrip (.updv d a b m e) ∧ RoundTrip (.vperm d a b m e) ∧ RoundTrip (.vslup d a b m e) ∧ RoundTrip (.vsldn d a b m e) := by
  and_intros <;>
    exact roundTrip_wordV rfl rfl (by decide) (by omega)
      (by simp [decodeMajor, decMajor24, decMajor25, need, fin])

/-- Masks as all operands. -/
@[simp] theorem roundTrip_maskLogic (d a b : MReg) :
    RoundTrip (.mand d a b) ∧ RoundTrip (.mor d a b) ∧ RoundTrip (.mxor d a b) := by
  and_intros <;>
    exact roundTrip_wordV (m := 0) (e := 0) rfl rfl (by decide) (by omega)
      (by simp [decodeMajor, decMajor27, need, fin, val_lt_of_le, bits_5_6])

/-- A mask to a mask. -/
@[simp] theorem roundTrip_maskMove (d a : MReg) :
    RoundTrip (.mnot d a) ∧ RoundTrip (.mmov d a) := by
  and_intros <;>
    exact roundTrip_wordV (b := 0) (m := 0) (e := 0) rfl rfl (by decide) (by omega)
      (by simp [decodeMajor, decMajor27, need, fin, val_lt_of_le, bits_5_11, bits_5_6])

/-- A mask to a scalar. -/
@[simp] theorem roundTrip_mpopc (d : Fin 32) (a : MReg) :
    RoundTrip (.mpopc d a) :=
  roundTrip_wordV (b := 0) (m := 0) (e := 0) rfl rfl (by decide) (by omega)
    (by simp [decodeMajor, decMajor27, need, fin, val_lt_of_le, bits_5_11, bits_5_6])

/-- A scalar to a mask. -/
@[simp] theorem roundTrip_mmovScalar (d : MReg) (b : Fin 32) :
    RoundTrip (.mmovScalar d b) :=
  roundTrip_wordV (base := 0x9C000025) (d := d) (a := 0) (b := b) (m := 0) (e := 0)
    (encode_eq rfl (by unfold wordV; omega)) rfl (by decide) (by omega)
    (by simp [decodeMajor, decMajor27, need, fin, val_lt_of_le, bits_5_6])

/-- One lane in or out. -/
@[simp] theorem roundTrip_lane (d a b : Fin 32) (e : Fin 4) :
    RoundTrip (.vins d a b e) ∧ RoundTrip (.vext d a b e) := by
  and_intros <;>
    exact roundTrip_wordV (m := 0) rfl rfl (by decide) (by omega)
      (by simp [decodeMajor, decMajor26, need, fin])

/-- A scalar to every lane. -/
@[simp] theorem roundTrip_vsplat (d b : Fin 32) (m : MReg) (e : Fin 4) :
    RoundTrip (.vsplat d b m e) :=
  roundTrip_wordV (base := 0x98000020) (d := d) (a := 0) (b := b) (m := m) (e := e)
    (encode_eq rfl (by unfold wordV; omega)) rfl (by decide) (by omega)
    (by simp [decodeMajor, decMajor26, need, fin])

/-- Lane numbers. -/
@[simp] theorem roundTrip_viota (d : Fin 32) (m : MReg) (e : Fin 4) :
    RoundTrip (.viota d m e) :=
  roundTrip_wordV (base := 0x98000003) (d := d) (a := 0) (b := 0) (m := m) (e := e)
    (encode_eq rfl (by unfold wordV; omega)) rfl (by decide) (by omega)
    (by simp [decodeMajor, decMajor26, need, fin, bits_11_10])

/-- A conversion by its code (R69). -/
@[simp] theorem roundTrip_vcvt (d a c : Fin 32) (m : MReg) :
    RoundTrip (.vcvt d a c m) :=
  roundTrip_wordV (e := 0) rfl rfl (by decide) (by omega)
    (by simp [decodeMajor, decMajor23, fin, bits_0_8, bits_5_3])

/-- The pivot status (R82). -/
@[simp] theorem roundTrip_vpstat (d : Fin 32) :
    RoundTrip (.vpstat d) :=
  roundTrip_wordV (base := 0xA0000003) (d := d) (a := 0) (b := 0) (m := 0) (e := 0)
    (encode_eq rfl (by unfold wordV; omega)) rfl (by decide) (by omega)
    (by simp [decodeMajor, decMajor28, need, fin, bits_5_16, bits_5_11, bits_5_6])

/-- A stream to a vector: ew and S are fixed (R75). -/
@[simp] theorem roundTrip_vldq (d : Fin 32) (a : QReg) (b : Fin 32) :
    RoundTrip (.vldq d a b) :=
  roundTrip_wordV (base := 0x90000027) (d := d) (a := a) (b := b) (m := 0) (e := 2)
    (encode_eq rfl (by unfold wordV; omega)) rfl (by decide) (by omega)
    (by simp [decodeMajor, decMajor24, need, fin, val_lt_of_le, bits_5_6])

/-- A vector to a stream. -/
@[simp] theorem roundTrip_vstq (d : Fin 32) (a : QReg) (b : Fin 32) :
    RoundTrip (.vstq d a b) :=
  roundTrip_wordV (base := 0x90000028) (d := d) (a := a) (b := b) (m := 0) (e := 2)
    (encode_eq rfl (by unfold wordV; omega)) rfl (by decide) (by omega)
    (by simp [decodeMajor, decMajor24, need, fin, val_lt_of_le, bits_5_6])

/-- A pivot's mask (R78); ew is fixed. -/
@[simp] theorem roundTrip_vpiv (d a : Fin 32) (b m : MReg) :
    RoundTrip (.vpiv d a b m) :=
  roundTrip_wordV (base := 0xA0000000) (d := d) (a := a) (b := b) (m := m) (e := 2)
    (encode_eq rfl (by unfold wordV; omega)) rfl (by decide) (by omega)
    (by simp [decodeMajor, decMajor28, need, fin, val_lt_of_le, bits_5_3])

/-- A pivot's reciprocals (R81). -/
@[simp] theorem roundTrip_vprcp (d a : Fin 32) (b m : MReg) :
    RoundTrip (.vprcp d a b m) :=
  roundTrip_wordV (base := 0xA0000001) (d := d) (a := a) (b := b) (m := m) (e := 2)
    (encode_eq rfl (by unfold wordV; omega)) rfl (by decide) (by omega)
    (by simp [decodeMajor, decMajor28, need, fin, val_lt_of_le, bits_5_3])

end Sys2Proof.Words
end

-- ==== Proofs: the formats of few instructions ====
section
/-!
Words whose fields lie across those of formats A to V (R11, R16): each field is read back from the word as it is laid out.
-/
namespace Sys2Proof.Words

theorem need_eq_ok {b : Bool} {r : Reject} {x : Except Reject Instr} {i : Instr} :
    need b r x = .ok i ↔ b = true ∧ x = .ok i := by
  cases b <;> simp [need]

theorem fin_eq_iff {k : Nat} [NeZero k] {w lo n : Nat} {x : Fin k} : fin k w lo n = x ↔ bits w lo n % k = x.val := by
  simp [fin, Fin.ext_iff]

theorem imm_eq_iff {n v : Nat} {x : BitVec n} : BitVec.ofNat n v = x ↔ v % 2 ^ n = x.toNat := by
  rw [← BitVec.toNat_inj, BitVec.toNat_ofNat]

/-- An instruction whose word has a known opcode: what is left is to read its fields. -/
theorem roundTrip_of_opcode {i : Instr} {w op : Nat} (he : encode i = some w) (hn : i.elemWord? = none) (h0 : 0 < op)
    (hw : w < 2 ^ 32 ∧ w / 2 ^ 26 = op) (hd : ∀ v, v = w → bits v 26 6 = op → decodeMajor v = .ok i) : RoundTrip i := by
  obtain ⟨hlt, rfl⟩ := hw
  refine roundTrip_of_decodeMajor he hn ?_ hlt (hd w rfl ?_)
  · rintro rfl; simp at h0
  · unfold bits; omega

/-- The fields of a shift's word, whose kind is `k` (R16, R39). -/
theorem shift_fields {v k : Nat} (d a : SReg) (n : BitVec 6) (hk : k < 4)
    (hv : v = 0x18000000 + k * 4096 + d.val * 1048576 + a.val * 16384 + n.toNat) :
    bits v 12 2 = k ∧ bits v 6 6 = 0 ∧ fin 64 v 20 6 = d ∧ fin 64 v 14 6 = a ∧ BitVec.ofNat 6 (bits v 0 6) = n := by
  simp only [fin_eq_iff, imm_eq_iff]
  unfold bits; omega

/-- A shift by an immediate, by its kind. -/
@[simp] theorem roundTrip_shift (d a : SReg) (n : BitVec 6) :
    RoundTrip (.shli d a n) ∧ RoundTrip (.shri d a n) ∧ RoundTrip (.srai d a n) ∧ RoundTrip (.rori d a n) := by
  and_intros
  all_goals refine roundTrip_of_opcode (op := 0x06) rfl rfl (by decide) (by omega) fun v hv hop => ?_
  · simp [decodeMajor, hop, decMajor06, need, shift_fields (k := 0) d a n (by decide) (by omega)]
  · simp [decodeMajor, hop, decMajor06, need, shift_fields (k := 1) d a n (by decide) (by omega)]
  · simp [decodeMajor, hop, decMajor06, need, shift_fields (k := 2) d a n (by decide) (by omega)]
  · simp [decodeMajor, hop, decMajor06, need, shift_fields (k := 3) d a n (by decide) (by omega)]

/-- A 20-bit immediate (R39). -/
@[simp] theorem roundTrip_upper (d : SReg) (i : BitVec 20) : RoundTrip (.lui d i) ∧ RoundTrip (.auipc d i) := by
  constructor
  · refine roundTrip_of_opcode (op := 0x09) rfl rfl (by decide) (by omega) fun v hv hop => ?_
    simp only [decodeMajor, hop, decMajor09, Except.ok.injEq, Instr.lui.injEq, fin_eq_iff, imm_eq_iff]
    unfold bits; omega
  · refine roundTrip_of_opcode (op := 0x0A) rfl rfl (by decide) (by omega) fun v hv hop => ?_
    simp only [decodeMajor, hop, decMajor0A, Except.ok.injEq, Instr.auipc.injEq, fin_eq_iff, imm_eq_iff]
    unfold bits; omega

/-- A 26-bit offset (R46). -/
@[simp] theorem roundTrip_jump (o : BitVec 26) : RoundTrip (.jmp o) ∧ RoundTrip (.call o) := by
  constructor
  · refine roundTrip_of_opcode (op := 0x12) rfl rfl (by decide) (by omega) fun v hv hop => ?_
    simp only [decodeMajor, hop, decMajor12, Except.ok.injEq, Instr.jmp.injEq, imm_eq_iff]
    unfold bits; omega
  · refine roundTrip_of_opcode (op := 0x13) rfl rfl (by decide) (by omega) fun v hv hop => ?_
    simp only [decodeMajor, hop, decMajor13, Except.ok.injEq, Instr.call.injEq, imm_eq_iff]
    unfold bits; omega

/-- A condition and a 17-bit offset (R13, R46). -/
@[simp] theorem roundTrip_br (a : SReg) (c : Cond) (o : BitVec 17) : RoundTrip (.br a c o) := by
  have := Laws.Encoding.cond c
  refine roundTrip_of_opcode (op := 0x11) rfl rfl (by decide) (by omega) fun v hv hop => ?_
  have hc : Cond.ofNat? (bits v 17 3) = some c := cond_ofNat?.mpr (by unfold bits; omega)
  simp only [decodeMajor, hop, decMajor11, hc, Except.ok.injEq, Instr.br.injEq, fin_eq_iff, imm_eq_iff, true_and]
  unfold bits; omega

/-- A loop's counter, count and length (R48). -/
@[simp] theorem roundTrip_loop (c : Fin 2) (a : SReg) (l : BitVec 9) : RoundTrip (.loop c a l) := by
  refine roundTrip_of_opcode (op := 0x15) rfl rfl (by decide) (by omega) fun v hv hop => ?_
  simp only [decodeMajor, hop, decMajor15, need_eq_ok, beq_iff_eq, Except.ok.injEq, Instr.loop.injEq, fin_eq_iff, imm_eq_iff]
  unfold bits; omega

@[simp] theorem roundTrip_loopi (c : Fin 2) (n : BitVec 15) (l : BitVec 9) : RoundTrip (.loopi c n l) := by
  refine roundTrip_of_opcode (op := 0x16) rfl rfl (by decide) (by omega) fun v hv hop => ?_
  simp only [decodeMajor, hop, decMajor16, need_eq_ok, beq_iff_eq, Except.ok.injEq, Instr.loopi.injEq, fin_eq_iff, imm_eq_iff]
  unfold bits; omega

/-- Loads and stores: a size code and an offset, or a size code and an index (R16, R40). -/
@[simp] theorem roundTrip_ld (d a : SReg) (s : LdSize) (o : BitVec 11) : RoundTrip (.ld d a s o) := by
  have := Laws.Encoding.ldSize s
  refine roundTrip_of_opcode (op := 0x0B) rfl rfl (by decide) (by omega) fun v hv hop => ?_
  have hs : LdSize.ofNat? (bits v 11 3) = some s := ldSize_ofNat?.mpr (by unfold bits; omega)
  simp only [decodeMajor, hop, decMajor0B, hs, Except.ok.injEq, Instr.ld.injEq, fin_eq_iff, imm_eq_iff, true_and]
  unfold bits; omega

@[simp] theorem roundTrip_st (d a : SReg) (s : StSize) (o : BitVec 11) : RoundTrip (.st d a s o) := by
  have := Laws.Encoding.stSize s
  refine roundTrip_of_opcode (op := 0x0C) rfl rfl (by decide) (by omega) fun v hv hop => ?_
  have hs : StSize.ofNat? (bits v 11 2) = some s := stSize_ofNat?.mpr (by unfold bits; omega)
  simp only [decodeMajor, hop, decMajor0C, hs, need_eq_ok, beq_iff_eq, Except.ok.injEq, Instr.st.injEq, fin_eq_iff, imm_eq_iff, true_and]
  unfold bits; omega

@[simp] theorem roundTrip_ldx (d a b : SReg) (s : LdSize) : RoundTrip (.ldx d a b s) := by
  have := Laws.Encoding.ldSize s
  refine roundTrip_of_opcode (op := 0x0D) rfl rfl (by decide) (by omega) fun v hv hop => ?_
  have hs : LdSize.ofNat? (bits v 0 3) = some s := ldSize_ofNat?.mpr (by unfold bits; omega)
  simp only [decodeMajor, hop, decMajor0D, hs, need_eq_ok, beq_iff_eq, Except.ok.injEq, Instr.ldx.injEq, fin_eq_iff, and_true]
  unfold bits; omega

@[simp] theorem roundTrip_stx (d a b : SReg) (s : StSize) : RoundTrip (.stx d a b s) := by
  have := Laws.Encoding.stSize s
  refine roundTrip_of_opcode (op := 0x0E) rfl rfl (by decide) (by omega) fun v hv hop => ?_
  have hs : StSize.ofNat? (bits v 0 2) = some s := stSize_ofNat?.mpr (by unfold bits; omega)
  simp only [decodeMajor, hop, decMajor0E, hs, need_eq_ok, beq_iff_eq, Except.ok.injEq, Instr.stx.injEq, fin_eq_iff, and_true]
  unfold bits; omega

/-- A fence's scope and kind (R122). -/
@[simp] theorem roundTrip_fence (s : Fin 16) (k : Fin 4) : RoundTrip (.fence s k) := by
  refine roundTrip_of_opcode (op := 0x37) rfl rfl (by decide) (by omega) fun v hv hop => ?_
  have hfn : bits v 0 8 = 0 := by unfold bits; omega
  simp only [decodeMajor, hop, decMajor37, hfn, need_eq_ok, beq_iff_eq, Except.ok.injEq, Instr.fence.injEq, fin_eq_iff]
  unfold bits; omega

/-- A drain's four flags (R123): sixteen words. -/
@[simp] theorem roundTrip_sbar (u g c t : Bool) : RoundTrip (.sbar u g c t) := by
  cases u <;> cases g <;> cases c <;> cases t <;>
    exact roundTrip_of_decodeMajor rfl rfl (by decide) (by decide) rfl
theorem bits_6_2 (w : Nat) : bits w 6 2 = bits w 6 1 + 2 * bits w 7 1 := bits_append w 6 1 1

/-- A batched product; the low bit of ew is the format. -/
@[simp] theorem roundTrip_vbdot (d a : Fin 32) (b : VSrc) (m : MReg) (e : Fin 2) : RoundTrip (.vbdot d a b m e) := by
  have hb := srcBit_lt b
  have hr := (srcReg b).isLt
  have hw : encode (.vbdot d a b m e) = some (wordS 0xA4000000 d a b m (2 + e.val)) :=
    encode_eq rfl (by unfold wordS; omega)
  refine roundTrip_wordS hw rfl (by decide) (by omega) ?_
  have he : bits (wordS 0xA4000000 d a b m (2 + e.val)) 6 2 = 2 + e.val := wordS_e (by decide) (by omega)
  have he1 := bits_6_2 (wordS 0xA4000000 d a b m (2 + e.val))
  have hl := bits_lt (wordS 0xA4000000 d a b m (2 + e.val)) 6 1
  have h7 : bits (wordS 0xA4000000 d a b m (2 + e.val)) 7 1 = 1 := by omega
  have h6 : bits (wordS 0xA4000000 d a b m (2 + e.val)) 6 1 = e.val := by omega
  simp [decodeMajor, decMajor29, need, h7, h6, fin, show 2 + e.val < 4 by omega]

end Sys2Proof.Words
end

-- ==== Proofs: an element operation decodes from its own word ====
section
/-!
The element half of EncodingRoundTrip (R21 to R25), one lemma for each set of operands.
-/
namespace Sys2Proof.Words

section
variable {o p a b c f m : Nat}

@[simp] theorem elem_op (ho : o < 64) (hp : p < 4) (ha : a < 16) (hb : b < 16) (hc : c < 16) (hf : f < 16) (hm : m < 256) :
    bits (ElemWord.toNat ⟨o, p, a, b, c, f, m⟩) 26 6 = o := by simp only [bits, ElemWord.toNat]; omega
@[simp] theorem elem_plane (hp : p < 4) (ha : a < 16) (hb : b < 16) (hc : c < 16) (hf : f < 16) (hm : m < 256) :
    bits (ElemWord.toNat ⟨o, p, a, b, c, f, m⟩) 24 2 = p := by simp only [bits, ElemWord.toNat]; omega
@[simp] theorem elem_a (ha : a < 16) (hb : b < 16) (hc : c < 16) (hf : f < 16) (hm : m < 256) :
    bits (ElemWord.toNat ⟨o, p, a, b, c, f, m⟩) 20 4 = a := by simp only [bits, ElemWord.toNat]; omega
@[simp] theorem elem_b (hb : b < 16) (hc : c < 16) (hf : f < 16) (hm : m < 256) :
    bits (ElemWord.toNat ⟨o, p, a, b, c, f, m⟩) 16 4 = b := by simp only [bits, ElemWord.toNat]; omega
@[simp] theorem elem_c (hc : c < 16) (hf : f < 16) (hm : m < 256) :
    bits (ElemWord.toNat ⟨o, p, a, b, c, f, m⟩) 12 4 = c := by simp only [bits, ElemWord.toNat]; omega
@[simp] theorem elem_fmt (hf : f < 16) (hm : m < 256) :
    bits (ElemWord.toNat ⟨o, p, a, b, c, f, m⟩) 8 4 = f := by simp only [bits, ElemWord.toNat]; omega

@[simp] theorem elem_mode (hm : m < 256) : bits (ElemWord.toNat ⟨o, p, a, b, c, f, m⟩) 0 8 = m := by
  simp only [bits, ElemWord.toNat]; omega

/-- A word's fields are those that it was made of (R21). -/
theorem ofNat_toNat (ho : o < 64 ∧ p < 4 ∧ a < 16 ∧ b < 16 ∧ c < 16 ∧ f < 16 ∧ m < 256) :
    ElemWord.ofNat (ElemWord.toNat ⟨o, p, a, b, c, f, m⟩) = ⟨o, p, a, b, c, f, m⟩ := by
  obtain ⟨ho, hp, ha, hb, hc, hf, hm⟩ := ho
  simp [ElemWord.ofNat, *]

/-- The first half of the operation table ends at 0x29. -/
theorem decodeEopA_eq_none {w : Nat} (h : 0x2A ≤ bits w 26 6) : decodeEopA w = none := by
  unfold decodeEopA
  split
  case h_42 => rfl
  all_goals omega

/-- An element operation whose fields fit and that the operation table reads back from its word. -/
theorem roundTrip_of_decodeEop {i : Instr} (he : i.elemWord? = some ⟨o, p, a, b, c, f, m⟩)
    (ho : o < 64 ∧ p < 4 ∧ a < 16 ∧ b < 16 ∧ c < 16 ∧ f < 16 ∧ m < 256)
    (hd : decodeEopA (ElemWord.toNat ⟨o, p, a, b, c, f, m⟩) = some i ∨
      decodeEopA (ElemWord.toNat ⟨o, p, a, b, c, f, m⟩) = none ∧ decodeEopB (ElemWord.toNat ⟨o, p, a, b, c, f, m⟩) = some i) :
    RoundTrip i := by
  intro w hwf hw
  obtain rfl : ElemWord.toNat ⟨o, p, a, b, c, f, m⟩ = w := Option.some.inj ((encode_of_elemWord? he).symm.trans hw)
  have hflaw : ElemWord.flaw ⟨o, p, a, b, c, f, m⟩ = none := by
    simpa [wellFormed, he, controlWf_of_elemWord? he] using hwf
  have hdec : decodeElement (ElemWord.toNat ⟨o, p, a, b, c, f, m⟩) = .ok i :=
    decodeElement_eq_ok.mpr ⟨by rw [ofNat_toNat ho]; exact hflaw, hd⟩
  exact ⟨by simp only [ElemWord.toNat]; omega, by simp [Instr.isElement, he, hdec]⟩

theorem roundTrip_of_decodeEopA {i : Instr} (he : i.elemWord? = some ⟨o, p, a, b, c, f, m⟩)
    (ho : o < 64 ∧ p < 4 ∧ a < 16 ∧ b < 16 ∧ c < 16 ∧ f < 16 ∧ m < 256)
    (hd : m < 256 → decodeEopA (ElemWord.toNat ⟨o, p, a, b, c, f, m⟩) = some i) : RoundTrip i :=
  roundTrip_of_decodeEop he ho (.inl (hd (by omega)))

theorem roundTrip_of_decodeEopB {i : Instr} (he : i.elemWord? = some ⟨o, p, a, b, c, f, m⟩)
    (ho : 0x2A ≤ o ∧ o < 64 ∧ p < 4 ∧ a < 16 ∧ b < 16 ∧ c < 16 ∧ f < 16 ∧ m < 256)
    (hd : m < 256 → decodeEopB (ElemWord.toNat ⟨o, p, a, b, c, f, m⟩) = some i) : RoundTrip i := by
  obtain ⟨hmin, ho, hp, ha, hb, hc, hf, hm⟩ := ho
  exact roundTrip_of_decodeEop he ⟨ho, hp, ha, hb, hc, hf, hm⟩ (.inr ⟨decodeEopA_eq_none (by simp [*]), hd hm⟩)

end

theorem flag_eq_iff {w lo : Nat} {x : Bool} : (bits w lo 1 == 1) = x ↔ bits w lo 1 = x.toNat := by
  have := bits_lt w lo 1
  cases x <;> simp
  omega

/-- Two inputs on a plane with a form. -/
@[simp] theorem roundTrip_pairwise (p : Fin 4) (a b f : Fin 16) (m : Fin 4) :
    RoundTrip (.eadd p a b f m) ∧ RoundTrip (.esub p a b f m) ∧ RoundTrip (.emul p a b f m) ∧ RoundTrip (.emin p a b f m) ∧
    RoundTrip (.emax p a b f m) ∧ RoundTrip (.eand p a b f m) ∧ RoundTrip (.eor p a b f m) ∧ RoundTrip (.exor p a b f m) := by
  and_intros
  all_goals refine roundTrip_of_decodeEopA rfl (by omega) fun hm => ?_
  all_goals
    simp [decodeEopA, fin_eq_iff, hm]
    simp only [bits, ElemWord.toNat]
    omega

/-- Three inputs on a plane, a form and a flag. -/
@[simp] theorem roundTrip_efma (p : Fin 4) (a b c f : Fin 16) (m : Fin 4) (x : Bool) :
    RoundTrip (.efma p a b c f m x) := by
  have hx := x.toNat_lt
  refine roundTrip_of_decodeEopA rfl (by omega) fun hm => ?_
  simp [decodeEopA, fin_eq_iff, flag_eq_iff, hm]
  simp only [bits, ElemWord.toNat]
  omega

/-- Two inputs on a plane, a form and a flag. -/
@[simp] theorem roundTrip_escale (p : Fin 4) (a b f : Fin 16) (m : Fin 4) (x : Bool) :
    RoundTrip (.escale p a b f m x) := by
  have hx := x.toNat_lt
  refine roundTrip_of_decodeEopA rfl (by omega) fun hm => ?_
  simp [decodeEopA, fin_eq_iff, flag_eq_iff, hm]
  simp only [bits, ElemWord.toNat]
  omega

/-- One input with a form. -/
@[simp] theorem roundTrip_eabs (a f : Fin 16) (m : Fin 4) :
    RoundTrip (.eabs a f m) ∧ RoundTrip (.epiv a f m) := by
  and_intros
  all_goals refine roundTrip_of_decodeEopA rfl (by omega) fun hm => ?_
  all_goals
    simp [decodeEopA, fin_eq_iff, hm]
    simp only [bits, ElemWord.toNat]
    omega

/-- Two inputs and three codes. -/
@[simp] theorem roundTrip_ecmp (a b f : Fin 16) (z : Bool) (r : Fin 4) (l : Fin 8) :
    RoundTrip (.ecmp a b f z r l) := by
  have hz := z.toNat_lt
  refine roundTrip_of_decodeEopA rfl (by omega) fun hm => ?_
  simp [decodeEopA, fin_eq_iff, flag_eq_iff, hm]
  simp only [bits, ElemWord.toNat]
  omega

/-- Three inputs with a form. -/
@[simp] theorem roundTrip_esel (a b c f : Fin 16) (m : Fin 4) :
    RoundTrip (.esel a b c f m) := by
  refine roundTrip_of_decodeEopA rfl (by omega) fun hm => ?_
  simp [decodeEopA, fin_eq_iff, hm]
  simp only [bits, ElemWord.toNat]
  omega

/-- One input, a form and a code. -/
@[simp] theorem roundTrip_ecvt (a f : Fin 16) (m : Fin 4) (k : Fin 32) :
    RoundTrip (.ecvt a f m k) := by
  refine roundTrip_of_decodeEopA rfl (by omega) fun hm => ?_
  simp [decodeEopA, fin_eq_iff, hm]
  simp only [bits, ElemWord.toNat]
  omega

/-- Two inputs and a flag, without a format. -/
@[simp] theorem roundTrip_ebdot (a b : Fin 16) (x : Bool) :
    RoundTrip (.ebdot a b x) := by
  have hx := x.toNat_lt
  refine roundTrip_of_decodeEopA rfl (by omega) fun hm => ?_
  simp [decodeEopA, fin_eq_iff, flag_eq_iff, hm]
  simp only [bits, ElemWord.toNat]
  omega

/-- Two inputs, an amount and a flag. -/
@[simp] theorem roundTrip_ecsadd (a b k : Fin 16) (x : Bool) :
    RoundTrip (.ecsadd a b k x) := by
  have hx := x.toNat_lt
  refine roundTrip_of_decodeEopA rfl (by omega) fun hm => ?_
  simp [decodeEopA, fin_eq_iff, flag_eq_iff, hm]
  simp only [bits, ElemWord.toNat]
  omega

/-- One input and a flag. -/
@[simp] theorem roundTrip_flag (a f : Fin 16) (x : Bool) :
    RoundTrip (.enorm a f x) ∧ RoundTrip (.epop a f x) := by
  have hx := x.toNat_lt
  and_intros
  all_goals refine roundTrip_of_decodeEopA rfl (by omega) fun hm => ?_
  all_goals
    simp [decodeEopA, fin_eq_iff, flag_eq_iff, hm]
    simp only [bits, ElemWord.toNat]
    omega

/-- Two inputs and two flags, with a format. -/
@[simp] theorem roundTrip_ecfwd (a b f : Fin 16) (r x : Bool) :
    RoundTrip (.ecfwd a b f r x) := by
  have hr := r.toNat_lt
  have hx := x.toNat_lt
  refine roundTrip_of_decodeEopA rfl (by omega) fun hm => ?_
  simp [decodeEopA, fin_eq_iff, flag_eq_iff, hm]
  simp only [bits, ElemWord.toNat]
  omega

/-- Two inputs on a plane, the whole mode field a number. -/
@[simp] theorem roundTrip_econst (p : Fin 4) (a b f : Fin 16) (m : Fin 256) :
    RoundTrip (.econst p a b f m) := by
  refine roundTrip_of_decodeEopA rfl (by omega) fun hm => ?_
  simp [decodeEopA, fin_eq_iff, hm]

/-- Two inputs on a plane, a flag and a number. -/
@[simp] theorem roundTrip_eidx (p : Fin 4) (a b f : Fin 16) (k : Bool) (n : Fin 8) :
    RoundTrip (.eidx p a b f k n) := by
  have hk := k.toNat_lt
  refine roundTrip_of_decodeEopA rfl (by omega) fun hm => ?_
  simp [decodeEopA, fin_eq_iff, flag_eq_iff, hm]
  simp only [bits, ElemWord.toNat]
  omega

/-- One input, a form and a flag. -/
@[simp] theorem roundTrip_ercp (a f : Fin 16) (m : Fin 4) (x : Bool) :
    RoundTrip (.ercp a f m x) := by
  have hx := x.toNat_lt
  refine roundTrip_of_decodeEopA rfl (by omega) fun hm => ?_
  simp [decodeEopA, fin_eq_iff, flag_eq_iff, hm]
  simp only [bits, ElemWord.toNat]
  omega

/-- Two inputs, a flag and a code. -/
@[simp] theorem roundTrip_twoFlagCode (a b f : Fin 16) (h : Bool) (o : Fin 4) :
    RoundTrip (.mdense a b f h o) ∧ RoundTrip (.mmatch a b f h o) ∧ RoundTrip (.mbxor a b f h o) ∧
    RoundTrip (.mband a b f h o) ∧ RoundTrip (.mpp8 a b f h o) := by
  have hh := h.toNat_lt
  and_intros
  all_goals refine roundTrip_of_decodeEopA rfl (by omega) fun hm => ?_
  all_goals
    simp [decodeEopA, fin_eq_iff, flag_eq_iff, hm]
    simp only [bits, ElemWord.toNat]
    omega

/-- Three inputs, a flag and a code. -/
@[simp] theorem roundTrip_threeFlagCode (a b c f : Fin 16) (h : Bool) (o : Fin 4) :
    RoundTrip (.mnm2 a b c f h o) ∧ RoundTrip (.mexpert a b c f h o) := by
  have hh := h.toNat_lt
  and_intros
  all_goals refine roundTrip_of_decodeEopA rfl (by omega) fun hm => ?_
  all_goals
    simp [decodeEopA, fin_eq_iff, flag_eq_iff, hm]
    simp only [bits, ElemWord.toNat]
    omega

/-- Two inputs and two flags. -/
@[simp] theorem roundTrip_mpred (a b f : Fin 16) (x h : Bool) :
    RoundTrip (.mpred a b f x h) := by
  have hx := x.toNat_lt
  have hh := h.toNat_lt
  refine roundTrip_of_decodeEopA rfl (by omega) fun hm => ?_
  simp [decodeEopA, fin_eq_iff, flag_eq_iff, hm]
  simp only [bits, ElemWord.toNat]
  omega

/-- Two inputs, a flag and a descriptor. -/
@[simp] theorem roundTrip_scan (a b : Fin 16) (r : Bool) (d : Fin 16) :
    RoundTrip (.scanc a b r d) ∧ RoundTrip (.scanb a b r d) ∧ RoundTrip (.scand a b r d) := by
  have hr := r.toNat_lt
  and_intros
  all_goals refine roundTrip_of_decodeEopA rfl (by omega) fun hm => ?_
  all_goals
    simp [decodeEopA, fin_eq_iff, flag_eq_iff, hm]
    simp only [bits, ElemWord.toNat]
    omega

/-- One input and a descriptor. -/
@[simp] theorem roundTrip_levelWriter (a f d : Fin 16) :
    RoundTrip (.lwc a f d) ∧ RoundTrip (.lwb a f d) := by
  and_intros
  all_goals refine roundTrip_of_decodeEopA rfl (by omega) fun hm => ?_
  all_goals
    simp [decodeEopA, fin_eq_iff, hm]
    simp only [bits, ElemWord.toNat]
    omega

/-- One input, a flag and a descriptor. -/
@[simp] theorem roundTrip_lwd (a f : Fin 16) (z : Bool) (d : Fin 16) :
    RoundTrip (.lwd a f z d) := by
  have hz := z.toNat_lt
  refine roundTrip_of_decodeEopA rfl (by omega) fun hm => ?_
  simp [decodeEopA, fin_eq_iff, flag_eq_iff, hm]
  simp only [bits, ElemWord.toNat]
  omega

/-- Two inputs and two flags, without a format. -/
@[simp] theorem roundTrip_isect (a b : Fin 16) (y x : Bool) :
    RoundTrip (.isect a b y x) := by
  have hy := y.toNat_lt
  have hx := x.toNat_lt
  refine roundTrip_of_decodeEopA rfl (by omega) fun hm => ?_
  simp [decodeEopA, fin_eq_iff, flag_eq_iff, hm]
  simp only [bits, ElemWord.toNat]
  omega

/-- Two inputs alone. -/
@[simp] theorem roundTrip_union (a b : Fin 16) :
    RoundTrip (.union a b) ∧ RoundTrip (.rept a b) := by
  and_intros
  all_goals refine roundTrip_of_decodeEopA rfl (by omega) fun hm => ?_
  all_goals simp [decodeEopA, fin_eq_iff, hm]

/-- One input, a code and a flag. -/
@[simp] theorem roundTrip_redc (a f : Fin 16) (o : Fin 4) (n : Bool) :
    RoundTrip (.redc a f o n) := by
  have hn := n.toNat_lt
  refine roundTrip_of_decodeEopA rfl (by omega) fun hm => ?_
  simp [decodeEopA, fin_eq_iff, flag_eq_iff, hm]
  simp only [bits, ElemWord.toNat]
  omega

/-- One input and a descriptor, in the second half of the table. -/
@[simp] theorem roundTrip_arrd (a f d : Fin 16) :
    RoundTrip (.arrd a f d) := by
  refine roundTrip_of_decodeEopB rfl (by omega) fun hm => ?_
  simp [decodeEopB, fin_eq_iff, hm]
  simp only [bits, ElemWord.toNat]
  omega

/-- Two inputs and a two-bit code. -/
@[simp] theorem roundTrip_upsink (a b f : Fin 16) (o : Fin 4) :
    RoundTrip (.upsink a b f o) := by
  refine roundTrip_of_decodeEopB rfl (by omega) fun hm => ?_
  simp [decodeEopB, fin_eq_iff, hm]
  simp only [bits, ElemWord.toNat]
  omega

/-- The same operands. -/
@[simp] theorem roundTrip_cmerge (a b f : Fin 16) (o : Fin 4) :
    RoundTrip (.cmerge a b f o) := by
  refine roundTrip_of_decodeEopB rfl (by omega) fun hm => ?_
  simp [decodeEopB, fin_eq_iff, hm]
  simp only [bits, ElemWord.toNat]
  omega

/-- Two inputs and a flag. -/
@[simp] theorem roundTrip_crop (a b f : Fin 16) (x : Bool) :
    RoundTrip (.crop a b f x) := by
  have hx := x.toNat_lt
  refine roundTrip_of_decodeEopB rfl (by omega) fun hm => ?_
  simp [decodeEopB, fin_eq_iff, flag_eq_iff, hm]
  simp only [bits, ElemWord.toNat]
  omega

/-- One input and a descriptor, without a format. -/
@[simp] theorem roundTrip_descriptor (a d : Fin 16) :
    RoundTrip (.agen a d) ∧ RoundTrip (.fifo a d) ∧ RoundTrip (.mld a d) := by
  and_intros
  all_goals refine roundTrip_of_decodeEopB rfl (by omega) fun hm => ?_
  all_goals
    simp [decodeEopB, fin_eq_iff, hm]
    simp only [bits, ElemWord.toNat]
    omega

/-- Two inputs and a descriptor, without a format. -/
@[simp] theorem roundTrip_descriptorTwo (a b d : Fin 16) :
    RoundTrip (.opst a b d) ∧ RoundTrip (.lbuf a b d) ∧ RoundTrip (.mst a b d) := by
  and_intros
  all_goals refine roundTrip_of_decodeEopB rfl (by omega) fun hm => ?_
  all_goals
    simp [decodeEopB, fin_eq_iff, hm]
    simp only [bits, ElemWord.toNat]
    omega

/-- Two inputs on a plane and a flag, without a format. -/
@[simp] theorem roundTrip_steer (p : Fin 4) (a b : Fin 16) (x : Bool) :
    RoundTrip (.steer p a b x) := by
  have hx := x.toNat_lt
  refine roundTrip_of_decodeEopB rfl (by omega) fun hm => ?_
  simp [decodeEopB, fin_eq_iff, flag_eq_iff, hm]
  simp only [bits, ElemWord.toNat]
  omega

/-- Three inputs on a plane. -/
@[simp] theorem roundTrip_merge (p : Fin 4) (a b c : Fin 16) :
    RoundTrip (.merge p a b c) := by
  refine roundTrip_of_decodeEopB rfl (by omega) fun hm => ?_
  simp [decodeEopB, fin_eq_iff, hm]

/-- Three inputs on one plane. -/
@[simp] theorem roundTrip_carry (a b c : Fin 16) :
    RoundTrip (.carry a b c) := by
  refine roundTrip_of_decodeEopB rfl (by omega) fun hm => ?_
  simp [decodeEopB, fin_eq_iff, hm]

/-- Two inputs on a plane, alone. -/
@[simp] theorem roundTrip_invar (p : Fin 4) (a b : Fin 16) :
    RoundTrip (.invar p a b) := by
  refine roundTrip_of_decodeEopB rfl (by omega) fun hm => ?_
  simp [decodeEopB, fin_eq_iff, hm]

/-- Two inputs on plane 2. -/
@[simp] theorem roundTrip_cand (a b : Fin 16) :
    RoundTrip (.cand a b) := by
  refine roundTrip_of_decodeEopB rfl (by omega) fun hm => ?_
  simp [decodeEopB, fin_eq_iff, hm]

/-- One input on plane 2. -/
@[simp] theorem roundTrip_cnot (a : Fin 16) :
    RoundTrip (.cnot a) := by
  refine roundTrip_of_decodeEopB rfl (by omega) fun hm => ?_
  simp [decodeEopB, fin_eq_iff, hm]

end Sys2Proof.Words
end

-- ==== Proofs: the encoding's obligations ====
section
/-!
The two directions of the encoding, from the halves above.
-/
namespace Sys2Proof.Words

/-- An event has no word. -/
theorem roundTrip_of_encode_eq_none {i : Instr} (h : encode i = none) : RoundTrip i := by
  intro w _ hw
  rw [h] at hw
  cases hw

/-- Every instruction is read back from its word, by its group's lemma; an event has none. -/
theorem roundTrip (i : Instr) : RoundTrip i := by
  cases i
  all_goals try exact roundTrip_of_encode_eq_none rfl
  all_goals simp

/-- Settles O1: each group of instructions reads its own fields back from the word they were laid out in. -/
theorem encodingRoundTrip : Obligations.EncodingRoundTrip := fun i w => roundTrip i w

/-- Settles O2: the checks of either decoder leave no bit of an accepted word outside its operation's fields. -/
theorem decodingIsExact : Obligations.DecodingIsExact := by
  intro w i hw
  exact ⟨decodeControl_exact hw, decodeElement_exact hw⟩

end Sys2Proof.Words
end

-- ==== Proofs: the manual's worked words ====
section
/-!
The words that the manual works out (R18, R39, R40, R47, R48, R54, R56, R57, R132).
-/
namespace Sys2Proof.Words

/-- Settles O3: the decoder evaluates each word. -/
theorem manualWords : Obligations.ManualWords := by
  unfold Obligations.ManualWords
  and_intros <;> rfl

end Sys2Proof.Words
end

-- ==== Proofs: the state after reset ====
section
/-!
The state after reset (R19, R61, R62, R82, R130, R301, R346, R360, R399): every hart and every die is as its defaults say.
-/
namespace Sys2Proof.Words
open Sys2Proof.Machine

@[simp] theorem reset_hart (h : HartId) : State.reset.hart h = {} := rfl

@[simp] theorem reset_getDie (d : Fin 6) : State.reset.getDie d = {} := Vector.getElem_replicate _

theorem default_rd (r : SReg) : ({} : Ctx).rd r = 0 := by
  simp [Ctx.rd]

/-- m0 reads all ones and the other masks 0, through the model's own accessor (R19). -/
theorem reset_rdM (h : HartId) (r : MReg) :
    ({ State.reset with cur := h } : State).rdM r = if r = 0 then 0xFFFFFFFFFFFFFFFF#64 else 0 := by
  have hm : ({ State.reset with cur := h } : State).ctx.m[r.val] = 0 := Vector.getElem_replicate _
  simp [State.rdM, hm]

/-- Settles O19: a hart's and a die's fields are their defaults. -/
theorem resetState : Obligations.ResetState := by
  unfold Obligations.ResetState
  refine ⟨State.reset_memOk, rfl, fun _ => default_rd, fun h r => ?_, reset_rdM, fun h q => ?_, fun h => ?_, fun h => ⟨rfl, rfl⟩⟩
  · simp
  · simp
  · simp [State.sysGet, Hart.status, Die.hashWord, word]

end Sys2Proof.Words
end

-- ==== Proofs: what the accesses of a fetch leave of the harts ====
section
/-!
An access settles the bins that cover it and wakes what waits (R43, R320, R340), but it takes no turn: whether a hart's loads may return
late (R403) is as it was. Each operation below the access has its own lemma, in the order of the model.
-/
namespace Sys2Proof.Machine

/-- Each hart's loads may return late in `t` where they may in `s`. -/
structure State.SameLate (s t : State) : Prop where
  late : ∀ h, (t.hart h).late = (s.hart h).late

namespace State.SameLate

theorem refl (s : State) : s.SameLate s := ⟨fun _ => rfl⟩

theorem trans {s t u : State} (h : s.SameLate t) (h' : t.SameLate u) : s.SameLate u := ⟨fun x => (h'.late x).trans (h.late x)⟩

theorem of_harts {s t : State} (h : t.harts = s.harts) : s.SameLate t := ⟨fun x => by simp [State.hart, h]⟩

/-- A fold of steps that keep it keeps it. -/
theorem foldl {α : Type} {f : State → α → State} (hf : ∀ (s : State) (a : α), s.SameLate (f s a)) (l : List α) (s : State) :
    s.SameLate (l.foldl f s) := by
  induction l generalizing s with
  | nil => exact refl s
  | cons a l ih => exact (hf s a).trans (ih (f s a))

end State.SameLate

/-! ## Updates of the state -/

theorem sameLate_updHart (s : State) (h : HartId) {f : Hart → Hart} (hf : ∀ x, (f x).late = x.late) : s.SameLate (s.updHart h f) := by
  refine ⟨fun k => ?_⟩
  by_cases hk : k = h
  · subst hk; simp [State.updHart, hf]
  · simp [State.updHart, State.hart_setHart_other _ _ hk]

theorem sameLate_updDie (s : State) (d : Fin 6) (f : Die → Die) : s.SameLate (s.updDie d f) := .of_harts rfl
theorem sameLate_mapDies (s : State) (f : Die → Die) : s.SameLate (s.mapDies f) := .of_harts rfl
theorem sameLate_updPar (s : State) (d : Fin 6) (f : Parterre → Parterre) : s.SameLate (s.updPar d f) := .of_harts rfl
theorem sameLate_updLaunch (s : State) (l : Nat) (f : Launch → Launch) : s.SameLate (s.updLaunch l f) := .of_harts rfl
theorem sameLate_put (s : State) (pa : Nat) (l : List Byte) : s.SameLate (s.put pa l) := .of_harts rfl

/-- An entry of a table whose values are mapped key by key. -/
theorem Tbl.find?_map {α : Type} (t : Tbl α) (g : Nat → α → α) (n : Nat) :
    Tbl.find? (t.map fun x => (x.1, g x.1 x.2)) n = (Tbl.find? t n).map (g n) := by
  induction t with
  | nil => rfl
  | cons x t ih =>
    by_cases hx : x.1 = n
    · simp [Tbl.find?, hx]
    · simpa [Tbl.find?, hx] using ih

/-- A table of harts whose entries keep the flag. -/
theorem sameLate_mapHarts {s t : State} {g : Nat → Hart → Hart} (hg : ∀ n x, (g n x).late = x.late)
    (ht : t.harts = s.harts.map fun x => (x.1, g x.1 x.2)) : s.SameLate t := by
  refine ⟨fun h => ?_⟩
  simp only [State.hart, Tbl.getD, ht, Tbl.find?_map]
  cases Tbl.find? s.harts h.val <;> simp [hg]

/-! ## The wait-for table -/

/-- A hart's entry once effective priorities are computed anew (R370). -/
def Hart.withPrio (l : List (Party × Nat)) (n : Nat) (h : Hart) : Hart :=
  if h.run == .idle then h
  else if hn : n < 768 then { h with eprio := BitVec.ofNat 4 (prioOf l ⟨hartAgent ⟨n, hn⟩, h.ctx.cont.uid⟩) } else h

theorem Hart.withPrio_late (l : List (Party × Nat)) (n : Nat) (h : Hart) : (h.withPrio l n).late = h.late := by
  unfold Hart.withPrio
  split
  · rfl
  · split <;> rfl

theorem State.reprio_harts (s : State) : s.reprio.harts = s.harts.map fun x => (x.1, x.2.withPrio s.effPrio x.1) := rfl

theorem sameLate_reprio (s : State) : s.SameLate s.reprio :=
  sameLate_mapHarts (g := fun n h => h.withPrio s.effPrio n) (Hart.withPrio_late s.effPrio) s.reprio_harts

theorem sameLate_storeEntries (s : State) (k : ObjKey) : s.SameLate (s.storeEntries k) := by
  refine .foldl (fun s e => ?_) _ s
  split
  · exact sameLate_put ..
  · exact .refl s

theorem sameLate_keepEntries (s : State) (d : Fin 6) (keep : WEntry → Bool) : s.SameLate (s.keepEntries d keep) := by
  unfold State.keepEntries
  extract_lets x cleared
  have hc : s.SameLate cleared := by
    refine .foldl (fun s e => ?_) _ s
    split
    · exact sameLate_put ..
    · exact .refl s
  exact hc.trans (sameLate_updDie ..)

theorem sameLate_tidy (s : State) (k : ObjKey) : s.SameLate (s.tidy k) := by
  unfold State.tidy
  split
  · exact .refl s
  · exact sameLate_keepEntries ..

theorem sameLate_dropEntries (s : State) (k : ObjKey) (f : WEntry → Bool) : s.SameLate (s.dropEntries k f) :=
  ((sameLate_keepEntries ..).trans (sameLate_tidy ..)).trans (sameLate_storeEntries ..)

theorem sameLate_rouse (s : State) (p : Party) (f : Ctx → Ctx) : s.SameLate (s.rouse p f) := by
  unfold State.rouse
  split
  · refine sameLate_updHart s _ fun x => ?_
    split <;> rfl
  · exact sameLate_mapDies ..

theorem sameLate_wake (s : State) (e : WEntry) (g : Option Grant) : s.SameLate (s.wake e g) :=
  (sameLate_dropEntries ..).trans (sameLate_rouse ..)

theorem sameLate_wakeAll (s : State) (k : ObjKey) (g : Option Grant) : s.SameLate (s.wakeAll k g) :=
  (State.SameLate.foldl (fun s e => sameLate_wake s e g) _ s).trans (sameLate_reprio _)

theorem sameLate_wordChanged (s : State) (pa old : Nat) : s.SameLate (s.wordChanged pa old) := by
  have words (s : State) (l : List WEntry) (g : Option Grant) : s.SameLate (l.foldl (fun s e => s.wake e g) s) :=
    .foldl (fun s e => sameLate_wake s e g) l s
  unfold State.wordChanged
  dsimp only
  split
  · exact .refl s
  · split
    · exact (words ..).trans (words ..)
    · exact words ..

theorem sameLate_wordsChanged (olds : List (Nat × Nat)) (s : State) : s.SameLate (olds.foldl (fun s o => s.wordChanged o.1 o.2) s) := by
  refine .foldl (fun s o => ?_) olds s
  exact sameLate_wordChanged ..

theorem sameLate_putWake (s : State) (pa : Nat) (l : List Byte) : s.SameLate (s.putWake pa l) := by
  unfold State.putWake
  extract_lets first ws watched olds
  exact (sameLate_put s pa l).trans (sameLate_wordsChanged olds _)

/-! ## The bins -/

theorem sameLate_countDrops (s : State) (d : Fin 6) (n : Nat) : s.SameLate (s.countDrops d n) := sameLate_updPar ..

theorem sameLate_toBin (s : State) (p : Pair) : s.SameLate (s.toBin p) := by
  unfold State.toBin
  dsimp only
  split
  · exact sameLate_countDrops ..
  · split
    · exact sameLate_countDrops ..
    · exact (sameLate_updLaunch ..).trans (sameLate_updPar ..)

theorem sameLate_sweepLine (s : State) (ln : Nat) (seen : Pair → Bool) : s.SameLate (s.sweepLine ln seen) :=
  (sameLate_mapDies s _).trans (.foldl sameLate_toBin _ _)

theorem sameLate_applyBin (s : State) (b : Bin) : s.SameLate (s.applyBin b) := by
  unfold State.applyBin
  split
  · exact .refl s
  · split
    · exact .of_harts rfl
    · split
      · exact .refl s
      · exact .foldl (fun s e => sameLate_putWake ..) _ s

theorem sameLate_applyLine (s : State) (ln : Nat) (seen : Pair → Bool) : s.SameLate (s.applyLine ln seen) := by
  unfold State.applyLine
  split
  · exact ((sameLate_sweepLine ..).trans (.foldl sameLate_applyBin _ _)).trans (sameLate_updPar ..)
  · exact .refl s

theorem sameLate_settleBins (s : State) (d : Fin 6) : s.SameLate (s.settleBins d) := by
  unfold State.settleBins
  extract_lets die p p1 p2 spilled onDie settled
  have hs : s.SameLate settled := .of_harts rfl
  split
  · exact hs.trans (.foldl (fun s x => sameLate_wakeAll ..) _ _)
  · exact hs

theorem sameLate_meetLine (s : State) (seen : Pair → Bool) (ln : Nat) : s.SameLate (s.meetLine seen ln) := by
  unfold State.meetLine
  split
  · exact (sameLate_applyLine ..).trans (sameLate_settleBins ..)
  · exact .refl s

/-! ## The access -/

theorem sameLate_touch (s : State) (pa n : Nat) : s.SameLate (s.touch pa n) := .foldl (fun s ln => sameLate_meetLine s _ ln) _ s

theorem sameLate_translate (s : State) (d : Fin 6) (asid va : Nat) : s.SameLate (s.translate d asid va).1 := by
  unfold State.translate
  split
  · exact .refl s
  · split
    · exact .refl s
    · exact .of_harts rfl

theorem sameLate_check (s : State) (d : Fin 6) (asid : Nat) (sys : Bool) (use : Use) (va : Word) (n : Nat) :
    s.SameLate (s.check d asid sys use va n).1 := by
  have ht := sameLate_translate s d asid va.toNat
  unfold State.check
  split
  · exact .refl s
  · split
    next heq => rw [heq] at ht; exact ht
    next heq => rw [heq] at ht; exact ht

end Sys2Proof.Machine
end

-- ==== Proofs: a step runs what its turn holds ====
section
/-!
What a step adds around `exec` (R10, R34, R35): the fetch, and the turn of a hart that fetches without fault.
-/
namespace Sys2Proof.Machine

/-- A fetch whose hart's loads do not return late reads memory (R35, R309). -/
theorem State.fetch_of_not_late {s s1 : State} {h : HartId} {va : Word} {a : Acc} (hl : (s.hart h).late = false)
    (hc : s.check (hartDie h) (s.hart h).asid.toNat (s.hart h).pl .fetch va 4 = (s1, .ok a)) (hb : (s1.touch a.pa 4).broken a.pa = false) :
    s.fetch h va = (s1.touch a.pa 4, .ok (BitVec.ofNat 32 ((s1.touch a.pa 4).valueAt a.pa 4))) := by
  have h1 : (s1.hart h).late = false := by
    have := (sameLate_check s (hartDie h) (s.hart h).asid.toNat (s.hart h).pl .fetch va 4).late h
    rwa [hc, hl] at this
  have h2 : ((s1.touch a.pa 4).hart h).late = false := ((sameLate_touch s1 a.pa 4).late h).trans h1
  simp [State.fetch, hc, State.il1Line, h1, h2, hb]

/-- A word runs at once where no result is outstanding and no register is struck (R403, R416). -/
theorem State.beforeWord_of_ready {s : State} (w : BitVec 32) (hr : s.ctx.replay = []) (hb : s.ctx.bad = []) :
    s.beforeWord w = .word w s := by
  simp [State.beforeWord, State.afterReplays, State.needsReplay, State.withParity, hr, hb]

/-- A slot's turn runs the operation that its word decodes to (R135 to R142). -/
theorem State.unitTurn_of_decode {s : State} {u : UnitRef} {w : BitVec 32} {i : Instr}
    (hw : ({ s with focus := u } : State).slotWord u = some w) (hi : decodeElement w.toNat = .ok i) :
    s.unitTurn u = exec i { s with focus := u } := by
  simp only [State.unitTurn, hw, hi]

/-- The hart that is already current. -/
theorem State.setCur_of_eq {s : State} {h : HartId} (hc : s.cur = h) : ({ s with cur := h } : State) = s := by
  subst hc
  rfl

/-- The turn of a hart that runs, with nothing that comes before the fetch (R34, R35). -/
theorem State.hartTurn_of_fetch {s s0 s2 : State} {h : HartId} {late : Bool} {w : BitVec 32}
    (hs : ({ s with cur := h } : State).updHart h (fun x => { x with late := late }) = s0) (hrun : s0.me.run = .running)
    (hth : s0.throttled s0.myself s0.me.ctx.cont.launch 0 = false) (hpend : s0.me.ctx.pend = []) (hrep : s0.me.ctx.rep.active = false)
    (hf : s0.fetch h s0.me.ctx.pc = (s2, .ok w)) (hr : s2.ctx.replay = []) (hb : s2.ctx.bad = []) : s.hartTurn h late = .word w s2 := by
  unfold State.hartTurn
  simp only [hs, hrun, hth, hpend, hrep, hf, State.beforeWord_of_ready w hr hb, bne_self_eq_false,
    Bool.or_self, Bool.false_eq_true, if_false]

end Sys2Proof.Machine
namespace Sys2Proof.Words
open Sys2Proof.Machine

/-- Settles O5: the turn of a hart, of a slot and of the device, and the fetch. -/
theorem stepRunsTheDecodedInstruction : Obligations.StepRunsTheDecodedInstruction := by
  unfold Obligations.StepRunsTheDecodedInstruction
  refine ⟨?_, ?_, ?_, ?_⟩
  · intro s s2 w s0 hturns hcur hrun hth hpend hrep hf hr hb
    have hc : (s.tick 1).cur = s.cur := hcur
    have hstep : step s = (Ready.word w s2).run := by
      have hs : ({ s.tick 1 with cur := s.cur } : State).updHart s.cur (fun x => { x with late := s.me.late }) = s0 := by
        rw [State.setCur_of_eq hc]
      have hw : (s.tick 1).hartTurn s.cur s.me.late = .word w s2 :=
        State.hartTurn_of_fetch hs hrun hth hpend hrep (hcur ▸ hf) hr hb
      simp only [step, hturns, State.turn, hw]
    rw [hstep]
    exact ⟨fun i hi => by simp [Ready.run, hi], fun r hi => by simp [Ready.run, hi]⟩
  · intro s s1 a hl hc s2 hb
    exact State.fetch_of_not_late hl hc hb
  · intro s u rest w i hturns s0 hw hi
    simp only [step, hturns, Turn.cycles, State.turn]
    exact State.unitTurn_of_decode hw hi
  · intro s e rest hturns he
    simp [step, hturns, Turn.cycles, State.turn, he]

end Sys2Proof.Words
end
